-- ==== Sys2Proof/Word.lean ====
section
/-! DEFINITION. The word types of the BL642: a byte on a line, the 16-bit check and counts, the 32-bit counters. -/

namespace Sys2Proof

/-- One byte: the eight data bits of a character, a station address, a code. -/
abbrev Byte := BitVec 8
/-- The check of R22, the count of an alarm record, a cycle interval. -/
abbrev Word16 := BitVec 16
/-- A counter of R153. -/
abbrev Word32 := BitVec 32

end Sys2Proof
end

