-- ==== Sys2Proof/Syntax.lean ====
section
/-! DEFINITION. The commands of the block: one constructor of `Instr` for each row of spec/opcode_table.json,
and the types of their operands. -/

namespace Sys2Proof

/-- The level of a line (R1): mark when idle, space in a start bit. -/
inductive Level where
  | mark | space
  deriving DecidableEq, Repr

/-- The six line ports, in port order (00_scope.md, Ports and port order). -/
inductive Port where
  | t0 | t1 | b0 | b1 | b2 | b3
  deriving DecidableEq, Repr

/-- The redundant trunk pair. -/
inductive Trunk where
  | t0 | t1
  deriving DecidableEq, Repr

/-- The four branches. -/
inductive Branch where
  | b0 | b1 | b2 | b3
  deriving DecidableEq, Repr

/-- All ports in port order, the order of copies and of per-port lists. -/
def Port.all : List Port := [.t0, .t1, .b0, .b1, .b2, .b3]
/-- All branches in port order. -/
def Branch.all : List Branch := [.b0, .b1, .b2, .b3]

def Trunk.port : Trunk → Port
  | .t0 => .t0
  | .t1 => .t1

def Trunk.other : Trunk → Trunk
  | .t0 => .t1
  | .t1 => .t0

def Branch.port : Branch → Port
  | .b0 => .b0
  | .b1 => .b1
  | .b2 => .b2
  | .b3 => .b3

def Port.trunk? : Port → Option Trunk
  | .t0 => some .t0
  | .t1 => some .t1
  | .b0 | .b1 | .b2 | .b3 => none

def Port.branch? : Port → Option Branch
  | .t0 | .t1 => none
  | .b0 => some .b0
  | .b1 => some .b1
  | .b2 => some .b2
  | .b3 => some .b3

/-- One management command as it is handed over to the management unit (R84, R125): the frame's SRC, its ingress
port, the SEQ, and the argument bytes that follow the command code. -/
structure Cmd where
  src : Byte
  port : Port
  seq : Byte
  args : List Byte
  deriving DecidableEq, Repr

/-- The level to which the RESETn pin goes (R169). Power-on counts as low (log 12). -/
inductive ResetPin where
  | low | high
  deriving DecidableEq, Repr

/-- The strap pins: ADDR0 to ADDR3 as one value, ADDR0 weighing 1, and TRANSPARENT, high as true (R169). -/
structure Straps where
  addr : BitVec 4
  transparent : Bool
  deriving DecidableEq, Repr

/-- The commands: the steps of the part, one constructor per row of the table (95_what_each_step_holds.md).
A management row carries the command as handed over (log 8). -/
inductive Instr where
  | coldReset (resetn : ResetPin) (straps : Straps)
  | warmRestart
  | characterDelivered (p : Port)
  | falseStart (p : Port)
  | breakEntry (p : Port)
  | breakExit (p : Port)
  | gapExpiry (p : Port)
  | duplicateMemoryExpiry
  | disposition
  | take (p : Port)
  | transmitStart (p : Port)
  | endOfSending (p : Port)
  | applyPendingConfig (p : Port)
  | pollBufferRetry (b : Branch)
  | replyTimeout (b : Branch)
  | newCycle (b : Branch)
  | validationComplete
  | sessionExpiry
  | readStatus (c : Cmd)
  | readRelay (c : Cmd)
  | readPort (c : Cmd)
  | readCounters (c : Cmd)
  | readCountersClear (c : Cmd)
  | readRecord (c : Cmd)
  | readPollEntry (c : Cmd)
  | readStation (c : Cmd)
  | readAlarms (c : Cmd)
  | openSession (c : Cmd)
  | closeSession (c : Cmd)
  | writeRecord (c : Cmd)
  | clearRecord (c : Cmd)
  | discardStaging (c : Cmd)
  | commit (c : Cmd)
  | setPort (c : Cmd)
  | setRelay (c : Cmd)
  | writePollEntry (c : Cmd)
  | clearPollEntry (c : Cmd)
  | pollControlStart (c : Cmd)
  | pollControlStop (c : Cmd)
  | ackAlarm (c : Cmd)
  | restart (c : Cmd)
  | startEdge (p : Port)
  | returnToMark (p : Port)
  | returnToSpaceInBreak (p : Port)
  deriving DecidableEq, Repr

end Sys2Proof
end

