-- ==== Sys2Proof/Decode.lean ====
section
/-! DEFINITION. The command a word of the table spells. No row of spec/opcode_table.json gives bits (log 16). -/

namespace Sys2Proof

/-- No row of the table gives bits, so no word spells a command (log 16). -/
def decodeTableWord (_nbits _w : Nat) : Option Instr := none

end Sys2Proof
end

