-- ==== Sys2Proof/Config.lean ====
section
/-! DEFINITION. What the part fixes (its clock, its sizes, its bounds) and the one free value of the model. -/

namespace Sys2Proof.Config

/-- Reference clock cycles in one tick: 18.432 MHz and 1 ms (00_scope.md, Time; log 1). -/
abbrev cyclesPerTick : Nat := 18432
/-- Sampling periods to the bit time (R2). -/
abbrev periodsPerBit : Nat := 16
/-- Buffers the assemblers may not take: the reserve (R76, R77). -/
abbrev reserve : Nat := 2
/-- Descriptors an egress queue holds (R92). -/
abbrev queueRoom : Nat := 8
/-- Records the alarm list holds (R157). -/
abbrev alarmRoom : Nat := 16
/-- The bound of R82, 8 us, in whole reference clock cycles (147.456 of them; log 15). -/
abbrev dispositionBound : Nat := 147
/-- The bound of R65, 12 ms, in reference clock cycles (log 15). -/
abbrev validationBound : Nat := 12 * 18432

/-- FREE VALUE (log 3, log 15): the n-th choice among the steps that may come next at one instant, where the
spec leaves the order, or the instant within a bound, open. It has no body: nothing can be proved of its value. -/
opaque choice : Nat → Nat

end Sys2Proof.Config
end

