-- ==== Sys2Proof/Machine/State.lean ====
section
/-! DEFINITION. The state of the BL642 as plain data, its reset value, and the reasons a step can stop. -/

namespace Sys2Proof.Machine

/-! ## Collections over the ports and the branches -/

/-- One thing for each port, in port order. -/
structure PerPort (α : Type) where
  t0 : α
  t1 : α
  b0 : α
  b1 : α
  b2 : α
  b3 : α
  deriving DecidableEq, Repr

def PerPort.get {α : Type} (v : PerPort α) : Port → α
  | .t0 => v.t0
  | .t1 => v.t1
  | .b0 => v.b0
  | .b1 => v.b1
  | .b2 => v.b2
  | .b3 => v.b3

def PerPort.set {α : Type} (v : PerPort α) (p : Port) (x : α) : PerPort α :=
  match p with
  | .t0 => { v with t0 := x }
  | .t1 => { v with t1 := x }
  | .b0 => { v with b0 := x }
  | .b1 => { v with b1 := x }
  | .b2 => { v with b2 := x }
  | .b3 => { v with b3 := x }

def PerPort.of {α : Type} (f : Port → α) : PerPort α :=
  ⟨f .t0, f .t1, f .b0, f .b1, f .b2, f .b3⟩

/-- One thing for each branch. -/
structure PerBranch (α : Type) where
  b0 : α
  b1 : α
  b2 : α
  b3 : α
  deriving DecidableEq, Repr

def PerBranch.get {α : Type} (v : PerBranch α) : Branch → α
  | .b0 => v.b0
  | .b1 => v.b1
  | .b2 => v.b2
  | .b3 => v.b3

def PerBranch.set {α : Type} (v : PerBranch α) (b : Branch) (x : α) : PerBranch α :=
  match b with
  | .b0 => { v with b0 := x }
  | .b1 => { v with b1 := x }
  | .b2 => { v with b2 := x }
  | .b3 => { v with b3 := x }

def PerBranch.of {α : Type} (f : Branch → α) : PerBranch α := ⟨f .b0, f .b1, f .b2, f .b3⟩

/-! ## The buffer pool (R75, R76) -/

/-- One of the forty buffers. -/
abbrev BufId := Fin 40

/-- Who is placing a frame in a FILLING buffer (R75). -/
inductive Filler where
  | assembler (p : Port)
  | management
  | poll (b : Branch)
  | alarms
  deriving DecidableEq, Repr

/-- The four states of a buffer (R75); a HELD buffer has its reference count (R76). -/
inductive BufUse where
  | free
  | filling (f : Filler)
  | ready
  | held (refs : Nat)
  deriving DecidableEq, Repr

/-- A buffer: its state and the bytes of its frame, from DEST on, one per position (R75). -/
structure Buffer where
  use : BufUse
  bytes : List Byte
  deriving DecidableEq, Repr

/-! ## Egress (R91) -/

inductive Origin where
  | forward | reply | notify | poll
  deriving DecidableEq, Repr

/-- A descriptor (R91). -/
structure Descriptor where
  buf : BufId
  origin : Origin
  rewrite : Option Byte
  enqueued : Option Nat
  deriving DecidableEq, Repr

/-- The transmitter's state with its current slot (01, section 1.4); TX_SENDING keeps the instant it began. -/
inductive Tx where
  | idle
  | waitLine (d : Descriptor)
  | sending (d : Descriptor) (start : Nat)
  deriving DecidableEq, Repr

/-! ## The receiver (01, section 1.3) -/

inductive RxMode where
  | idle | char | brk
  deriving DecidableEq, Repr

/-- The receiver: its state; the start edge under evaluation (in IDLE) or of the character being sampled (in
CHAR); the samples taken since that edge (R4, R5); the instant of the line's last transition or of the beginning
of listening, from which the space run (R7) and, in BREAK, the mark count (R8) are counted. -/
structure Receiver where
  mode : RxMode
  edge : Option Nat
  samples : List Level
  since : Nat
  deriving DecidableEq, Repr

/-! ## The frame assembler (R23) -/

/-- The gap reference and the gap limit of the reception. -/
structure Gap where
  ref : Nat
  limit : Byte
  deriving DecidableEq, Repr

/-- A frame being stored. -/
structure Collect where
  gap : Gap
  pos : Nat
  len : Option Nat
  buf : BufId
  check : Word16
  startTick : Nat
  deriving DecidableEq, Repr

/-- A copy being followed without storing it. -/
structure Shadow where
  gap : Gap
  pos : Nat
  len : Option Nat
  deriving DecidableEq, Repr

inductive Assembler where
  | hunt
  | collect (c : Collect)
  | skip (g : Gap)
  | shadow (w : Shadow)
  deriving DecidableEq, Repr

/-! ## Ports -/

/-- A port configuration record (01, section 1.5). -/
structure PortConfig where
  enabled : Bool
  divisor : BitVec 12
  gapLimit : Byte
  turnaround : Byte
  mgmtAllowed : Bool
  deriving DecidableEq, Repr

/-- The counters of a port's set, in the order of R152: nine of part 0, eight of part 1. -/
structure PortCounters where
  charsIn : Word32
  noisyChars : Word32
  framingErrors : Word32
  breaks : Word32
  strayChars : Word32
  framesGood : Word32
  checkError : Word32
  runt : Word32
  badLength : Word32
  charError : Word32
  interrupted : Word32
  noBuffer : Word32
  shadowed : Word32
  duplicates : Word32
  framesOut : Word32
  staleDiscards : Word32
  queueOverflows : Word32
  deriving DecidableEq, Repr

/-- The names of a port's counters (R152). -/
inductive PortCtr where
  | charsIn | noisyChars | framingErrors | breaks | strayChars | framesGood | checkError | runt | badLength
  | charError | interrupted | noBuffer | shadowed | duplicates | framesOut | staleDiscards | queueOverflows
  deriving DecidableEq, Repr

def PortCounters.zero : PortCounters := ⟨0, 0, 0, 0, 0, 0, 0, 0, 0, 0, 0, 0, 0, 0, 0, 0, 0⟩

/-- One port. Two instants settle what R17 says of a start edge that comes together with an application: `edgeFirst`,
the edge that was taken first at the instant at which the port would have become quiet, and `retuned`, the instant of
the last application at which the receiver began to listen (log 26). `charEnd` is the end of a delivered character that
still lies ahead: at that instant it becomes the line's last activity (R9, R11; log 6). -/
structure PortState where
  applied : PortConfig
  pendingConfig : Option PortConfig
  edgeFirst : Option Nat
  retuned : Option Nat
  rxd : Level
  rx : Receiver
  lastActivity : Nat
  charEnd : Option Nat
  tx : Tx
  asm : Assembler
  queue : List Descriptor
  counters : PortCounters
  deriving DecidableEq, Repr

/-! ## The trunk arbiter and the inbound list -/

/-- The duplicate memory's record (03, section 3.2). -/
structure DupRecord where
  trunk : Trunk
  dest : Byte
  src : Byte
  len : Byte
  check : Word16
  endTick : Nat
  deriving DecidableEq, Repr

/-- An entry of the inbound list (R81). -/
structure Inbound where
  buf : BufId
  port : Port
  deriving DecidableEq, Repr

/-! ## The Route Table (R52, R53) -/

/-- A port set: one bit per port, with the weights of 11.2. -/
abbrev PortSet := BitVec 6

inductive Action where
  | forward | drop
  deriving DecidableEq, Repr

structure RouteRecord where
  low : Byte
  high : Byte
  ingress : PortSet
  action : Action
  egress : PortSet
  rewrite : Option Byte
  source : Option (Byte × Byte)
  deriving DecidableEq, Repr

/-- A record of the active bank, with its hit counter (R58). -/
structure ActiveRecord where
  record : RouteRecord
  hits : Word32
  deriving DecidableEq, Repr

/-- The commit state; VALIDATING keeps the commit's start instant (R64). -/
inductive CommitState where
  | idle
  | validating (start : Nat)
  deriving DecidableEq, Repr

structure RouteTable where
  active : Vector (Option ActiveRecord) 96
  staging : Vector (Option RouteRecord) 96
  epoch : Byte
  commit : CommitState
  deriving DecidableEq, Repr

/-! ## Polling (R106, R107, R112) -/

structure PollEntry where
  station : Byte
  branch : Branch
  enabled : Bool
  missLimit : Byte
  payload : List Byte
  deriving DecidableEq, Repr

inductive Presence where
  | unknown | present | missing | lost
  deriving DecidableEq, Repr

structure StationRecord where
  state : Presence
  misses : Nat
  lastStatus : Option (List Byte)
  lastReply : Option Nat
  pollsSent : Word32
  repliesTaken : Word32
  deriving DecidableEq, Repr

inductive SchedState where
  | stopped | ready | await | waitInterval | stopping
  deriving DecidableEq, Repr

/-- A branch's scheduler (R112). `buffer` is the built POLL frame that has not been taken (R116), `asked` the tick
of the last refused request (R115); `sentTick` is present once the frame has been reported sent (R117). -/
structure Scheduler where
  state : SchedState
  cursor : Option (Fin 32)
  cycleCount : Word32
  cycleStart : Nat
  replyTimeout : Byte
  cycleInterval : Word16
  buffer : Option BufId
  asked : Nat
  station : Option Byte
  sentTick : Option Nat
  deriving DecidableEq, Repr

/-- The claimants of a branch's transmitter (R98). -/
inductive Claimant where
  | queue | poll
  deriving DecidableEq, Repr

structure BranchState where
  sched : Scheduler
  lastServed : Claimant
  outstanding : Bool
  deriving DecidableEq, Repr

/-! ## Management (R129) -/

/-- The command codes of 11.3, by name. -/
inductive Command where
  | readStatus | readRelay | readPort | readCounters | readRecord | readPollEntry | readStation | readAlarms
  | openSession | closeSession
  | writeRecord | clearRecord | discardStaging | commit | setPort | setRelay | writePollEntry | clearPollEntry
  | pollControl | ackAlarm | restart
  deriving DecidableEq, Repr

/-- The status codes of 11.3, by name. -/
inductive Status where
  | ok | busy | badArg | badCommand | notOwner | owned | seqError | pending | staleEpoch | invalidTable
  | empty | notFound | recurred
  deriving DecidableEq, Repr

/-- A reply's status and data (R126). -/
structure Reply where
  status : Status
  data : List Byte
  deriving DecidableEq, Repr

/-- What a cache entry holds: a reply, or the pending mark of a COMMIT that is validating. -/
inductive Cached where
  | reply (r : Reply)
  | pending
  deriving DecidableEq, Repr

structure CacheEntry where
  seq : Byte
  command : Command
  content : Cached
  deriving DecidableEq, Repr

structure Session where
  owner : Option Byte
  nextSeq : Byte
  cache : Option CacheEntry
  lastActivity : Option Nat
  deriving DecidableEq, Repr

/-- The deferred reply record (R138). -/
structure Deferred where
  seq : Byte
  src : Byte
  port : Port
  deriving DecidableEq, Repr

/-! ## Relay configuration, relay counters, alarms -/

inductive DefaultAction where
  | drop | flood
  deriving DecidableEq, Repr

/-- The relay configuration record (R144). The residence limit is held in its 10 ms steps. -/
structure RelayConfig where
  defaultAction : DefaultAction
  preferred : Trunk
  mirrorWindow : Byte
  residence : Byte
  sessionTimeout : Byte
  notifyAddr : Option Byte
  notifyT0 : Bool
  notifyT1 : Bool
  deriving DecidableEq, Repr

/-- The relay-wide counters in the order of R152. -/
structure RelayCounters where
  badDest : Word32
  localUnknown : Word32
  mgmtRefused : Word32
  mgmtDiscarded : Word32
  unexpectedReply : Word32
  truncatedReplies : Word32
  replyNotSent : Word32
  notifySkipped : Word32
  undelivered : Word32
  defaultHits : Word32
  pollDeferred : Word32
  sessionExpired : Word32
  deriving DecidableEq, Repr

/-- The names of the relay-wide counters (R152). -/
inductive RelayCtr where
  | badDest | localUnknown | mgmtRefused | mgmtDiscarded | unexpectedReply | truncatedReplies | replyNotSent
  | notifySkipped | undelivered | defaultHits | pollDeferred | sessionExpired
  deriving DecidableEq, Repr

def RelayCounters.zero : RelayCounters := ⟨0, 0, 0, 0, 0, 0, 0, 0, 0, 0, 0, 0⟩

/-- An alarm's key: its kind and subject (R157). -/
inductive AlarmKey where
  | stationLost (station : Byte)
  | lineBreak (p : Port)
  | queueOverflow (p : Port)
  | poolEmpty
  deriving DecidableEq, Repr

structure AlarmRecord where
  key : AlarmKey
  generation : Byte
  count : Word16
  first : Nat
  last : Nat
  lastNotify : Option Nat
  deriving DecidableEq, Repr

/-! ## The state -/

/-- MODEL'S OWN (log 4): a transition of an RXD pin still to come, and its instant. -/
structure LineInput where
  instant : Nat
  port : Port
  level : Level
  deriving DecidableEq, Repr

structure State where
  /-- the commands that wait, first in, first out -/
  pending : List Instr
  /-- MODEL'S OWN: the transitions of the RXD pins still to come (log 4) -/
  lineInput : List LineInput
  /-- MODEL'S OWN: the instant, in reference clock cycles (log 1) -/
  now : Nat
  /-- MODEL'S OWN: the instant the last cold reset ended, tick 0 (log 1) -/
  resetEnd : Nat
  /-- MODEL'S OWN: free choices drawn so far (log 3) -/
  choices : Nat
  /-- a cold reset is in progress: RESETn is low, or power is coming up (R169) -/
  inReset : Bool
  addrStrap : BitVec 4
  transparentStrap : Bool
  ownAddr : Byte
  ports : PerPort PortState
  branches : PerBranch BranchState
  /-- the trunk grant: none is FREE (R39) -/
  grant : Option Trunk
  /-- the last request given and its instant, to settle a tie (R41, R42; log 10) -/
  given : Option (Trunk × Nat)
  dup : Option DupRecord
  pool : Vector Buffer 40
  inbound : List Inbound
  /-- the instant the head of the inbound list reached the head (R82) -/
  headSince : Nat
  route : RouteTable
  pollList : Vector (Option PollEntry) 32
  stations : Vector StationRecord 32
  session : Session
  deferred : Option Deferred
  /-- the restart indication: the port and buffer of the RESTART reply's descriptor (R140) -/
  restart : Option (Port × BufId)
  relay : RelayConfig
  counters : RelayCounters
  alarms : List AlarmRecord
  alarmsLost : Word32
  deriving DecidableEq, Repr

/-! ## Cold values -/

/-- The cold port configuration: management is allowed on trunks only (01, section 1.5). -/
def PortConfig.cold (p : Port) : PortConfig where
  enabled := true
  divisor := 120
  gapLimit := 33
  turnaround := 44
  mgmtAllowed := p.trunk?.isSome

/-- A receiver that begins to listen at `now` (R3). -/
def Receiver.fresh (now : Nat) : Receiver := ⟨.idle, none, [], now⟩

/-- A port after a cold reset that ends at `now` with the line at `rxd` (R20, R38, R103, R156). `retuned` is absent, so
a transition to space at `now` itself, taken after the end, is a candidate start edge: DESIGN CHOICE (log 31). -/
def PortState.cold (p : Port) (rxd : Level) (now : Nat) : PortState where
  applied := PortConfig.cold p
  pendingConfig := none
  edgeFirst := none
  retuned := none
  rxd := rxd
  rx := Receiver.fresh now
  lastActivity := now
  charEnd := none
  tx := .idle
  asm := .hunt
  queue := []
  counters := PortCounters.zero

/-- The reset values of a station status record (R107). -/
def StationRecord.cold : StationRecord := ⟨.unknown, 0, none, none, 0, 0⟩

/-- A branch after a cold reset (R103, R124). `cycleStart` and `asked` are the model's choice (log 14). -/
def BranchState.cold : BranchState where
  sched := ⟨.stopped, none, 0, 0, 20, 1000, none, 0, none, none⟩
  lastServed := .queue
  outstanding := false

def Buffer.empty : Buffer := ⟨.free, []⟩

/-- R74. -/
def RouteTable.cold : RouteTable :=
  ⟨Vector.replicate 96 none, Vector.replicate 96 none, 0, .idle⟩

/-- No session (R129). -/
def Session.closed : Session := ⟨none, 0, none, none⟩

/-- R148: the default action comes from the TRANSPARENT strap. -/
def RelayConfig.cold (transparent : Bool) : RelayConfig where
  defaultAction := if transparent then .flood else .drop
  preferred := .t0
  mirrorWindow := 10
  residence := 50
  sessionTimeout := 60
  notifyAddr := none
  notifyT0 := true
  notifyT1 := true

/-- The state at the end of a cold reset (R169), the straps and line levels given. -/
def State.afterReset (addr : BitVec 4) (transparent : Bool) (rxd : Port → Level) (now : Nat) : State where
  pending := []
  lineInput := []
  now := now
  resetEnd := now
  choices := 0
  inReset := false
  addrStrap := addr
  transparentStrap := transparent
  ownAddr := 0xE#4 ++ addr
  ports := PerPort.of fun p => PortState.cold p (rxd p) now
  branches := PerBranch.of fun _ => BranchState.cold
  grant := none
  given := none
  dup := none
  pool := Vector.replicate 40 Buffer.empty
  inbound := []
  headSince := now
  route := RouteTable.cold
  pollList := Vector.replicate 32 none
  stations := Vector.replicate 32 StationRecord.cold
  session := Session.closed
  deferred := none
  restart := none
  relay := RelayConfig.cold transparent
  counters := RelayCounters.zero
  alarms := []
  alarmsLost := 0

/-- The part right after a cold reset, its queue empty. The straps read 0 and TRANSPARENT low, every line is at
mark: DESIGN CHOICE (log 13). -/
def State.reset : State := State.afterReset 0 false (fun _ => .mark) 0

/-! ## Stops -/

/-- The spec names no event that stops the part, so no step faults (log 25). -/
inductive Fault where
  deriving DecidableEq, Repr

/-- A step the model gives no meaning to. -/
inductive Refusal where
  /-- Raised by a row whose arm has no meaning yet; every row has one, so nothing raises it. Safe. -/
  | notModelled (mnemonic : String)
  deriving DecidableEq, Repr

end Sys2Proof.Machine
end

