-- ==== Sys2Proof/Machine/Flags.lean ====
section
/-! DEFINITION. The counters: saturating increments, and the counter that an event increments (R153). -/

namespace Sys2Proof.Machine

/-- R153: an increment at 4,294,967,295 leaves the counter there. -/
def satInc (x : Word32) : Word32 := if x = BitVec.allOnes 32 then x else x + 1

/-- R158: the count of an alarm record saturates at 65,535. -/
def satInc16 (x : Word16) : Word16 := if x = BitVec.allOnes 16 then x else x + 1

/-- A difference of ticks as a 32-bit age, saturating (R111, R162). -/
def satAge (n : Nat) : Word32 := if n < 2 ^ 32 then BitVec.ofNat 32 n else BitVec.allOnes 32

/-- One increment of one counter of a port's set. -/
def PortCounters.bump (k : PortCounters) : PortCtr → PortCounters
  | .charsIn => { k with charsIn := satInc k.charsIn }
  | .noisyChars => { k with noisyChars := satInc k.noisyChars }
  | .framingErrors => { k with framingErrors := satInc k.framingErrors }
  | .breaks => { k with breaks := satInc k.breaks }
  | .strayChars => { k with strayChars := satInc k.strayChars }
  | .framesGood => { k with framesGood := satInc k.framesGood }
  | .checkError => { k with checkError := satInc k.checkError }
  | .runt => { k with runt := satInc k.runt }
  | .badLength => { k with badLength := satInc k.badLength }
  | .charError => { k with charError := satInc k.charError }
  | .interrupted => { k with interrupted := satInc k.interrupted }
  | .noBuffer => { k with noBuffer := satInc k.noBuffer }
  | .shadowed => { k with shadowed := satInc k.shadowed }
  | .duplicates => { k with duplicates := satInc k.duplicates }
  | .framesOut => { k with framesOut := satInc k.framesOut }
  | .staleDiscards => { k with staleDiscards := satInc k.staleDiscards }
  | .queueOverflows => { k with queueOverflows := satInc k.queueOverflows }

/-- The value of one counter of a port's set. -/
def PortCounters.get (k : PortCounters) : PortCtr → Word32
  | .charsIn => k.charsIn
  | .noisyChars => k.noisyChars
  | .framingErrors => k.framingErrors
  | .breaks => k.breaks
  | .strayChars => k.strayChars
  | .framesGood => k.framesGood
  | .checkError => k.checkError
  | .runt => k.runt
  | .badLength => k.badLength
  | .charError => k.charError
  | .interrupted => k.interrupted
  | .noBuffer => k.noBuffer
  | .shadowed => k.shadowed
  | .duplicates => k.duplicates
  | .framesOut => k.framesOut
  | .staleDiscards => k.staleDiscards
  | .queueOverflows => k.queueOverflows

/-- One increment of one relay-wide counter. -/
def RelayCounters.bump (k : RelayCounters) : RelayCtr → RelayCounters
  | .badDest => { k with badDest := satInc k.badDest }
  | .localUnknown => { k with localUnknown := satInc k.localUnknown }
  | .mgmtRefused => { k with mgmtRefused := satInc k.mgmtRefused }
  | .mgmtDiscarded => { k with mgmtDiscarded := satInc k.mgmtDiscarded }
  | .unexpectedReply => { k with unexpectedReply := satInc k.unexpectedReply }
  | .truncatedReplies => { k with truncatedReplies := satInc k.truncatedReplies }
  | .replyNotSent => { k with replyNotSent := satInc k.replyNotSent }
  | .notifySkipped => { k with notifySkipped := satInc k.notifySkipped }
  | .undelivered => { k with undelivered := satInc k.undelivered }
  | .defaultHits => { k with defaultHits := satInc k.defaultHits }
  | .pollDeferred => { k with pollDeferred := satInc k.pollDeferred }
  | .sessionExpired => { k with sessionExpired := satInc k.sessionExpired }

/-- The value of one relay-wide counter. -/
def RelayCounters.get (k : RelayCounters) : RelayCtr → Word32
  | .badDest => k.badDest
  | .localUnknown => k.localUnknown
  | .mgmtRefused => k.mgmtRefused
  | .mgmtDiscarded => k.mgmtDiscarded
  | .unexpectedReply => k.unexpectedReply
  | .truncatedReplies => k.truncatedReplies
  | .replyNotSent => k.replyNotSent
  | .notifySkipped => k.notifySkipped
  | .undelivered => k.undelivered
  | .defaultHits => k.defaultHits
  | .pollDeferred => k.pollDeferred
  | .sessionExpired => k.sessionExpired

/-- The counters of part 0 of a port's set, in the order of R152. -/
def PortCounters.part0 (k : PortCounters) : List Word32 :=
  [k.charsIn, k.noisyChars, k.framingErrors, k.breaks, k.strayChars, k.framesGood, k.checkError, k.runt, k.badLength]

/-- The counters of part 1 of a port's set, in the order of R152. -/
def PortCounters.part1 (k : PortCounters) : List Word32 :=
  [k.charError, k.interrupted, k.noBuffer, k.shadowed, k.duplicates, k.framesOut, k.staleDiscards, k.queueOverflows]

/-- The relay-wide set, in the order of R152. -/
def RelayCounters.part0 (k : RelayCounters) : List Word32 :=
    [k.badDest, k.localUnknown, k.mgmtRefused, k.mgmtDiscarded, k.unexpectedReply, k.truncatedReplies,
    k.replyNotSent, k.notifySkipped, k.undelivered, k.defaultHits, k.pollDeferred, k.sessionExpired]

/-- R155: part 0 set to 0, part 1 as it was. -/
def PortCounters.clear0 (k : PortCounters) : PortCounters :=
  { k with
    charsIn := 0, noisyChars := 0, framingErrors := 0, breaks := 0, strayChars := 0,
    framesGood := 0, checkError := 0, runt := 0, badLength := 0 }

/-- R155: part 1 set to 0, part 0 as it was. -/
def PortCounters.clear1 (k : PortCounters) : PortCounters :=
  { k with
    charError := 0, interrupted := 0, noBuffer := 0, shadowed := 0, duplicates := 0,
    framesOut := 0, staleDiscards := 0, queueOverflows := 0 }

/-- One port of the state. -/
abbrev State.port (s : State) (p : Port) : PortState := s.ports.get p

/-- A change of one port. -/
def State.modPort (s : State) (p : Port) (f : PortState → PortState) : State :=
  { s with ports := s.ports.set p (f (s.ports.get p)) }

/-- One branch of the state. -/
abbrev State.branch (s : State) (b : Branch) : BranchState := s.branches.get b

/-- A change of one branch. -/
def State.modBranch (s : State) (b : Branch) (f : BranchState → BranchState) : State :=
  { s with branches := s.branches.set b (f (s.branches.get b)) }

/-- A counter of a port is incremented. -/
def countPort (p : Port) (c : PortCtr) (s : State) : State :=
  s.modPort p fun q => { q with counters := q.counters.bump c }

/-- A relay-wide counter is incremented. -/
def countRelay (c : RelayCtr) (s : State) : State := { s with counters := s.counters.bump c }

end Sys2Proof.Machine
end

