-- ==== Sys2Proof/Machine/Operands.lean ====
section
/-! DEFINITION. The byte formats of 11_formats_and_signals.md: the check, frames, codes, the arguments of commands
and the data of replies. -/

namespace Sys2Proof.Machine

/-! ## The check (R22) -/

/-- One bit taken into the check register. -/
def crcBit (r : Word16) (b : Bool) : Word16 :=
  if (b != r.msb) = true then (r <<< 1) ^^^ 0x1021#16 else r <<< 1

/-- The bits of a byte, most significant first. -/
def bitsMsbFirst (x : Byte) : List Bool :=
  [x.getLsbD 7, x.getLsbD 6, x.getLsbD 5, x.getLsbD 4, x.getLsbD 3, x.getLsbD 2, x.getLsbD 1, x.getLsbD 0]

/-- One byte taken into the check register. -/
def crcByte (r : Word16) (x : Byte) : Word16 := (bitsMsbFirst x).foldl crcBit r

/-- The register before the first byte. -/
def crcInit : Word16 := 0xFFFF#16

/-- The check of R22 over the bytes of positions 1 to 4 + LEN. -/
def crc (bytes : List Byte) : Word16 := bytes.foldl crcByte crcInit

def hiByte (x : Word16) : Byte := x.extractLsb' 8 8
def loByte (x : Word16) : Byte := x.extractLsb' 0 8

/-- The two check characters, high byte first (R21). -/
def checkBytes (x : Word16) : List Byte := [hiByte x, loByte x]

/-- A 16-bit field, most significant byte first. -/
def word16 (hi lo : Byte) : Word16 := hi ++ lo

/-- A counter or age as four bytes, most significant first (11.3). -/
def bytes32 (x : Word32) : List Byte :=
  [x.extractLsb' 24 8, x.extractLsb' 16 8, x.extractLsb' 8 8, x.extractLsb' 0 8]

/-! ## Frames (R21, 11.1) -/

abbrev ctlPoll : Byte := 0x02
abbrev ctlReply : Byte := 0x03
abbrev ctlMgmtCmd : Byte := 0x04
abbrev ctlMgmtRsp : Byte := 0x05
abbrev ctlAlarm : Byte := 0x06

/-- A frame the relay builds, complete with its check (R22, R116, R126, R160). -/
def buildFrame (dest src ctl : Byte) (payload : List Byte) : List Byte :=
  let body := dest :: src :: ctl :: BitVec.ofNat 8 payload.length :: payload
  body ++ checkBytes (crc body)

/-- The byte at a position of a frame, counted from 0. -/
def frameByte (f : List Byte) (i : Nat) : Byte := f.getD i 0

def frameDest (f : List Byte) : Byte := frameByte f 0
def frameSrc (f : List Byte) : Byte := frameByte f 1
def frameCtl (f : List Byte) : Byte := frameByte f 2
def frameLen (f : List Byte) : Nat := (frameByte f 3).toNat
def framePayload (f : List Byte) : List Byte := (f.drop 4).take (frameLen f)

/-- R12, R13: the bytes a transmitter sends. With a rewrite address, that address in place of DEST and a check
computed over the bytes sent; without one, the buffer's bytes with their stored check. -/
def sentBytes (rewrite : Option Byte) (f : List Byte) : List Byte :=
  match rewrite with
  | none => f
  | some a =>
    let body := a :: (f.drop 1).take (3 + frameLen f)
    body ++ checkBytes (crc body)

/-! ## Codes (11.2, 11.3, 11.4) -/

def Port.code : Port → Byte
  | .t0 => 0
  | .t1 => 1
  | .b0 => 2
  | .b1 => 3
  | .b2 => 4
  | .b3 => 5

def Port.ofCode (x : Byte) : Option Port := Port.all.find? fun p => Port.code p == x

/-- A branch is named by its port code. -/
def Branch.ofCode (x : Byte) : Option Branch := Branch.all.find? fun b => Port.code b.port == x

def Trunk.ofCode (x : Byte) : Option Trunk :=
  if x = 0 then some .t0 else if x = 1 then some .t1 else none

/-- The bit of a port in a port set. -/
def Port.bit : Port → Nat
  | .t0 => 0
  | .t1 => 1
  | .b0 => 2
  | .b1 => 3
  | .b2 => 4
  | .b3 => 5

def PortSet.mem (v : PortSet) (p : Port) : Bool := v.getLsbD (Port.bit p)

/-- R166: a port set of 64 or more names a port other than the six. -/
def PortSet.ofByte (x : Byte) : Option PortSet := if x.toNat < 64 then some (x.setWidth 6) else none

def PortSet.all : PortSet := BitVec.allOnes 6

def PortSet.byte (v : PortSet) : Byte := v.setWidth 8

def Command.code : Command → Byte
  | .readStatus => 0x01
  | .readRelay => 0x02
  | .readPort => 0x03
  | .readCounters => 0x04
  | .readRecord => 0x05
  | .readPollEntry => 0x06
  | .readStation => 0x07
  | .readAlarms => 0x08
  | .openSession => 0x10
  | .closeSession => 0x11
  | .writeRecord => 0x20
  | .clearRecord => 0x21
  | .discardStaging => 0x22
  | .commit => 0x23
  | .setPort => 0x24
  | .setRelay => 0x25
  | .writePollEntry => 0x26
  | .clearPollEntry => 0x27
  | .pollControl => 0x28
  | .ackAlarm => 0x29
  | .restart => 0x2A

def Command.all : List Command :=
  [.readStatus, .readRelay, .readPort, .readCounters, .readRecord, .readPollEntry, .readStation, .readAlarms,
   .openSession, .closeSession, .writeRecord, .clearRecord, .discardStaging, .commit, .setPort, .setRelay,
   .writePollEntry, .clearPollEntry, .pollControl, .ackAlarm, .restart]

def Command.ofCode (x : Byte) : Option Command := Command.all.find? fun c => c.code == x

def Status.code : Status → Byte
  | .ok => 0x00
  | .busy => 0x01
  | .badArg => 0x02
  | .badCommand => 0x03
  | .notOwner => 0x04
  | .owned => 0x05
  | .seqError => 0x06
  | .pending => 0x07
  | .staleEpoch => 0x08
  | .invalidTable => 0x09
  | .empty => 0x0A
  | .notFound => 0x0B
  | .recurred => 0x0C

def SchedState.code : SchedState → Byte
  | .stopped => 0x00
  | .ready => 0x01
  | .await => 0x02
  | .waitInterval => 0x03
  | .stopping => 0x04

def Presence.code : Presence → Byte
  | .unknown => 0x00
  | .present => 0x01
  | .missing => 0x02
  | .lost => 0x03

/-- R166: yes is sent as 0x01 and no as 0x00. -/
def boolByte (b : Bool) : Byte := if b then 0x01 else 0x00

/-- R166: any byte other than 0x00 is yes. -/
def yes (x : Byte) : Bool := x != 0x00

/-- R166: a value with a presence byte, absent or present; any other presence value is refused. -/
def optional {α : Type} (presence : Byte) (x : α) : Option (Option α) :=
  if presence = 0x00 then some none else if presence = 0x01 then some (some x) else none

/-- The payload of a MGMT-RSP (R126). -/
def replyPayload (seq code : Byte) (r : Reply) : List Byte := seq :: code :: r.status.code :: r.data

/-! ## Route records (11.2) -/

def Action.ofCode (x : Byte) : Option Action :=
  if x = 0x01 then some .forward else if x = 0x02 then some .drop else none

def Action.code : Action → Byte
  | .forward => 0x01
  | .drop => 0x02

/-- R60: the ten bytes of a route record, or none where an encoding check fails. -/
def RouteRecord.ofBytes (low high ingress action egress rwPresence rw srcPresence srcLow srcHigh : Byte) :
    Option RouteRecord := do
  let act ← Action.ofCode action
  let ing ← PortSet.ofByte ingress
  let egr ← PortSet.ofByte egress
  let rewrite ← optional rwPresence rw
  let source ← optional srcPresence (srcLow, srcHigh)
  return { low := low, high := high, ingress := ing, action := act, egress := egr, rewrite := rewrite, source := source }

def RouteRecord.bytes (r : RouteRecord) : List Byte :=
  [r.low, r.high, PortSet.byte r.ingress, r.action.code, PortSet.byte r.egress, boolByte r.rewrite.isSome,
   r.rewrite.getD 0, boolByte r.source.isSome, (r.source.getD (0, 0)).1, (r.source.getD (0, 0)).2]

/-! ## Port and relay records (11.2) -/

/-- R166: the divisor is the first byte modulo 16, times 256, plus the second byte. -/
def divisorOf (hi lo : Byte) : BitVec 12 := hi.setWidth 4 ++ lo

/-- R16, R166: the six bytes of a port record for a port; a trunk's management allowed is stored as yes. None
where R16 refuses. -/
def PortConfig.ofBytes (p : Port) (enabled divHi divLo gap turn mgmt : Byte) : Option PortConfig :=
  if divisorOf divHi divLo = 0 ∨ gap.toNat < 2 ∨ turn = 0 ∨ turn.toNat < gap.toNat then none
  else some { enabled := yes enabled, divisor := divisorOf divHi divLo, gapLimit := gap, turnaround := turn,
              mgmtAllowed := p.trunk?.isSome || yes mgmt }

def PortConfig.bytes (c : PortConfig) : List Byte :=
  [boolByte c.enabled, c.divisor.extractLsb' 8 4 |>.setWidth 8, c.divisor.extractLsb' 0 8, c.gapLimit, c.turnaround,
   boolByte c.mgmtAllowed]

def DefaultAction.ofCode (x : Byte) : Option DefaultAction :=
  if x = 0x01 then some .drop else if x = 0x02 then some .flood else none

def DefaultAction.code : DefaultAction → Byte
  | .drop => 0x01
  | .flood => 0x02

/-- A station address a notification or a poll may go to: 1 to 254 and not the own address (R106, R144). -/
def validStation (own x : Byte) : Bool := x != 0x00 && x != 0xFF && x != own

/-- R145: the eight bytes of a relay record, or none where SET-RELAY is refused. -/
def RelayConfig.ofBytes (own default preferred mirror residence timeout nPresence nAddr nPorts : Byte) :
    Option RelayConfig := do
  let act ← DefaultAction.ofCode default
  let pref ← Trunk.ofCode preferred
  let addr ← optional nPresence nAddr
  if residence = 0 ∨ timeout = 0 ∨ (addr.any fun a => !validStation own a) = true ∨ ¬ nPorts.toNat < 4 then none
  else return { defaultAction := act, preferred := pref, mirrorWindow := mirror, residence := residence,
                sessionTimeout := timeout, notifyAddr := addr, notifyT0 := nPorts.getLsbD 0,
                notifyT1 := nPorts.getLsbD 1 }

def RelayConfig.bytes (r : RelayConfig) : List Byte :=
  [r.defaultAction.code, Port.code r.preferred.port, r.mirrorWindow, r.residence, r.sessionTimeout,
   boolByte r.notifyAddr.isSome, r.notifyAddr.getD 0, boolByte r.notifyT0 + 2 * boolByte r.notifyT1]

/-! ## Poll entries and station status (11.3) -/

/-- R108, R166: the fields of a poll entry after its position. None where R108 refuses with BAD_ARG, or the
payload is shorter than its length says. -/
def PollEntry.ofBytes (own station branch enabled missLimit len : Byte) (rest : List Byte) : Option PollEntry :=
  match Branch.ofCode branch with
  | none => none
  | some b =>
    if validStation own station = true ∧ missLimit ≠ 0 ∧ missLimit.toNat ≤ 15 ∧ len.toNat ≤ 8
        ∧ len.toNat ≤ rest.length then
      some { station := station, branch := b, enabled := yes enabled, missLimit := missLimit,
             payload := rest.take len.toNat }
    else none

/-- Stored bytes followed by 0x00 up to a length (R167). -/
def padTo (n : Nat) (xs : List Byte) : List Byte := xs ++ List.replicate (n - xs.length) 0x00

/-- The entry part of READ-POLL-ENTRY's data: occupancy and the stored fields, 0x00 where empty (R167). -/
def pollEntryBytes : Option PollEntry → List Byte
  | none => List.replicate 14 0x00
  | some e =>
    [0x01, e.station, Port.code e.branch.port, boolByte e.enabled, e.missLimit, BitVec.ofNat 8 e.payload.length]
      ++ padTo 8 e.payload

/-- The station status of 11.3 after its position, read at a tick (R111, R167). -/
def stationBytes (e : Option PollEntry) (r : StationRecord) (tick : Nat) : List Byte :=
  [boolByte e.isSome, (e.map (·.station)).getD 0, (e.map fun x => Port.code x.branch.port).getD 0, r.state.code,
   BitVec.ofNat 8 r.misses, boolByte r.lastStatus.isSome, BitVec.ofNat 8 (r.lastStatus.getD []).length,
   boolByte r.lastReply.isSome]
    ++ bytes32 ((r.lastReply.map fun t => satAge (tick - t)).getD 0)
    ++ bytes32 r.pollsSent ++ bytes32 r.repliesTaken ++ padTo 16 (r.lastStatus.getD [])

/-! ## Alarms (11.4, R168) -/

def AlarmKey.kind : AlarmKey → Byte
  | .stationLost _ => 0x01
  | .lineBreak _ => 0x02
  | .queueOverflow _ => 0x03
  | .poolEmpty => 0x04

def AlarmKey.subject : AlarmKey → Byte
  | .stationLost a => a
  | .lineBreak p => Port.code p
  | .queueOverflow p => Port.code p
  | .poolEmpty => 0x00

/-- R163: the key of a kind and subject byte, or none where ACK-ALARM is refused with BAD_ARG. -/
def AlarmKey.ofBytes (kind subject : Byte) : Option AlarmKey :=
  if kind = 0x01 then if subject = 0x00 ∨ subject = 0xFF then none else some (.stationLost subject)
  else if kind = 0x02 then (Port.ofCode subject).map .lineBreak
  else if kind = 0x03 then (Port.ofCode subject).map .queueOverflow
  else if kind = 0x04 then if subject = 0x00 then some .poolEmpty else none
  else none

/-- R160: the payload of an ALARM frame. -/
def alarmPayload (a : AlarmRecord) : List Byte :=
  [a.key.kind, a.key.subject, a.generation] ++ checkBytes a.count

/-- R168: the code of an age in milliseconds. -/
def ageCode (age : Word32) : Byte :=
  let n := age.toNat
  if n < 16 then BitVec.ofNat 8 n
  else
    let k := Nat.log2 n
    BitVec.ofNat 8 (16 + 8 * (k - 4) + (n / 2 ^ (k - 3) - 8))

/-- An alarm record in the reply to READ-ALARMS, 8 bytes, read at a tick (R162, R168). -/
def alarmBytes (tick : Nat) (a : AlarmRecord) : List Byte :=
  [a.key.kind, a.key.subject, a.generation] ++ checkBytes a.count
    ++ [ageCode (satAge (tick - a.first)), ageCode (satAge (tick - a.last)),
        (a.lastNotify.map fun t => ageCode (satAge (tick - t))).getD 0xFF]

end Sys2Proof.Machine
end

