-- ==== Sys2Proof/Machine/Ops.lean ====
section
/-! DEFINITION. The named operations the steps share: time, the line, the buffer pool, the egress queues, replies,
the alarm list, the session's end, the warm restart. -/

namespace Sys2Proof.Machine

/-! ## Time (00_scope.md, Time; R2; log 1) -/

/-- The tick count at an instant. -/
def State.tickAt (s : State) (t : Nat) : Nat := (t - s.resetEnd) / Config.cyclesPerTick

/-- The relay's tick count. -/
def State.tick (s : State) : Nat := s.tickAt s.now

/-- Reference clock cycles in `n` sampling periods of a port (R2). -/
def PortConfig.periods (c : PortConfig) (n : Nat) : Nat := n * c.divisor.toNat

/-- Reference clock cycles in `n` bit times of a port (R2). -/
def PortConfig.bitTimes (c : PortConfig) (n : Nat) : Nat := c.periods (n * Config.periodsPerBit)

/-! ## The line -/

def Tx.isIdle : Tx → Bool
  | .idle => true
  | .waitLine _ | .sending _ _ => false

def Tx.isSending : Tx → Bool
  | .sending _ _ => true
  | .idle | .waitLine _ => false

/-- The current slot. -/
def Tx.slot : Tx → Option Descriptor
  | .idle => none
  | .waitLine d => some d
  | .sending d _ => some d

/-- A receiver does not listen while its port is disabled and while its own transmitter is sending (R12, R19). -/
def PortState.listening (q : PortState) : Bool := q.applied.enabled && !q.tx.isSending

/-- No line is received throughout a cold reset (R169). -/
def State.listening (s : State) (p : Port) : Bool := !s.inReset && (s.port p).listening

/-- The line's last activity is set to an instant, which replaces the previous one (R9). -/
def PortState.touch (t : Nat) (q : PortState) : PortState := { q with lastActivity := t }

/-- The return to mark of a false start, known only at the decision on its edge, is the line's last activity, unless a
later instant has been set since (R9; log 23). -/
def PortState.returned (t : Nat) (q : PortState) : PortState := { q with lastActivity := max q.lastActivity t }

/-- R3: the receiver begins to listen, if its port is enabled. At mark, that is line activity (R9); at space, the
space run is counted from now. -/
def PortState.beginListen (now : Nat) (q : PortState) : PortState :=
  if q.applied.enabled then
    let q' := { q with rx := Receiver.fresh now }
    if q.rxd = .mark then q'.touch now else q'
  else { q with rx := Receiver.fresh now }

/-- The receiver stops listening and is in IDLE; an evaluation in progress is abandoned (R4, R12, R19). -/
def PortState.stopListen (now : Nat) (q : PortState) : PortState := { q with rx := Receiver.fresh now }

/-- The assembler of a port enters a state. -/
def setAsm (p : Port) (a : Assembler) (s : State) : State := s.modPort p fun q => { q with asm := a }

/-! ## The buffer pool (R75 to R79) -/

def Buffer.isFree (b : Buffer) : Bool := decide (b.use = .free)

/-- The FREE count (R76). -/
def State.freeCount (s : State) : Nat := s.pool.toList.countP Buffer.isFree

def setBuf (b : BufId) (x : Buffer) (s : State) : State := { s with pool := s.pool.set b.val x b.isLt }

/-- The FREE buffer the pool gives; which one cannot be observed (R75; log 11). -/
def State.findFree (s : State) : Option BufId := (List.finRange 40).find? fun b => (s.pool.get b).isFree

/-- A given request makes one FREE buffer FILLING (R77). -/
def giveBuffer (f : Filler) (s : State) : Option (BufId × State) :=
  s.findFree.map fun b => (b, setBuf b ⟨.filling f, []⟩ s)

/-- R77: an assembler is given a buffer when more than 2 are FREE, an originator when 1 or more is. -/
def requestBuffer (f : Filler) (s : State) : Option (BufId × State) :=
  match f with
  | .assembler _ => if s.freeCount > Config.reserve then giveBuffer f s else none
  | .management | .poll _ | .alarms => giveBuffer f s

/-- A buffer returns to FREE. -/
def freeBuf (b : BufId) (s : State) : State := setBuf b Buffer.empty s

/-- The bytes of a frame are placed in a buffer; its state is left as it is. -/
def fillBuf (b : BufId) (bytes : List Byte) (s : State) : State :=
  setBuf b { s.pool.get b with bytes := bytes } s

/-- R78: the hand-over of a frame with `k` placements. -/
def handOver (b : BufId) (k : Nat) (s : State) : State :=
  if k = 0 then freeBuf b s else setBuf b { s.pool.get b with use := .held k } s

/-- R79: one descriptor of a HELD buffer is released; the release that takes the count to 0 frees the buffer. -/
def dropRef (b : BufId) (s : State) : State :=
  match (s.pool.get b).use with
  | .held n => if n ≤ 1 then freeBuf b s else setBuf b { s.pool.get b with use := .held (n - 1) } s
  | .free | .filling _ | .ready => s

/-- The bytes a descriptor sends (R13). -/
def State.descBytes (s : State) (d : Descriptor) : List Byte := sentBytes d.rewrite (s.pool.get d.buf).bytes

/-- The characters of the frame a descriptor refers to: 6 + LEN (R12). -/
def State.descLength (s : State) (d : Descriptor) : Nat := 6 + frameLen (s.pool.get d.buf).bytes

/-! ## The pins that follow from the state (11.5; log 17) -/

/-- The level of a bit of a character (R1): start bit at space, data bits least significant first, the mark bit,
the stop bit at mark. A bit of value 1 is at mark (log 24). -/
def charLevel (markBit : Bool) (x : Byte) (bit : Nat) : Level :=
  if bit = 0 then .space
  else if bit ≤ 8 then (if x.getLsbD (bit - 1) then .mark else .space)
  else if bit = 9 then (if markBit then .mark else .space)
  else .mark

/-- The transmit output TXD (R1, R12, R169): the frame's characters back to back, the first with mark bit 1; at mark
when not sending, and throughout a cold reset. -/
def State.txd (s : State) (p : Port) : Level :=
  let q := s.port p
  match q.tx with
  | .idle | .waitLine _ => .mark
  | .sending d start =>
    let bit := (s.now - start) / q.applied.bitTimes 1
    if s.inReset = false ∧ bit / 11 < s.descLength d then
      charLevel (bit / 11 == 0) ((s.descBytes d).getD (bit / 11) 0) (bit % 11)
    else .mark

/-- The driver enable TXEN: asserted while sending (R12), never during a cold reset (R169). -/
def State.txen (s : State) (p : Port) : Bool := !s.inReset && (s.port p).tx.isSending

/-- ALERTn is low while the alarm list holds a record (R164), never during a cold reset (R169); true is high. -/
def State.alertn (s : State) : Bool := s.inReset || s.alarms.isEmpty

/-! ## Egress queues (R92) -/

/-- R92: an append is taken when the queue holds fewer than 8 descriptors and the port is enabled. -/
def State.canAppend (s : State) (p : Port) : Bool :=
  (s.port p).applied.enabled && decide ((s.port p).queue.length < Config.queueRoom)

def enqueue (p : Port) (d : Descriptor) (s : State) : State :=
  s.modPort p fun q => { q with queue := q.queue ++ [d] }

/-! ## Replies (R126) -/

/-- A MGMT-RSP is built and handed over with one placement on a port, or REPLY_NOT_SENT is counted. The first
component is the reply's buffer where it was placed. -/
def sendReply (dest : Byte) (p : Port) (seq : Byte) (code : Byte) (r : Reply) (s : State) : Option BufId × State :=
  match requestBuffer .management s with
  | none => (none, countRelay .replyNotSent s)
  | some (b, s₁) =>
    let s₂ := fillBuf b (buildFrame dest s.ownAddr ctlMgmtRsp (replyPayload seq code r)) s₁
    if s₂.canAppend p then (some b, enqueue p ⟨b, .reply, none, some s.tick⟩ (handOver b 1 s₂))
    else (none, countRelay .replyNotSent (handOver b 0 s₂))

/-! ## The alarm list (R157 to R161) -/

/-- The generation after a later raise: 255 is followed by 1 (R157). -/
def nextGeneration (g : Byte) : Byte := if g = 255 then 1 else g + 1

/-- A raise of a key whose record is present (R158). -/
def AlarmRecord.again (tick : Nat) (a : AlarmRecord) : AlarmRecord :=
  { a with generation := nextGeneration a.generation, count := satInc16 a.count, last := tick }

/-- A record just created (R158). -/
def AlarmRecord.created (key : AlarmKey) (tick : Nat) : AlarmRecord := ⟨key, 1, 1, tick, tick, none⟩

def State.alarm? (s : State) (key : AlarmKey) : Option AlarmRecord := s.alarms.find? fun a => decide (a.key = key)

/-- A change of the record of a key. -/
def modAlarm (key : AlarmKey) (f : AlarmRecord → AlarmRecord) (s : State) : State :=
  { s with alarms := s.alarms.map fun a => if a.key = key then f a else a }

/-- The notify ports, in the order T0, T1. -/
def RelayConfig.notifyPorts (r : RelayConfig) : List Port :=
  (if r.notifyT0 then [.t0] else []) ++ (if r.notifyT1 then [.t1] else [])

/-- R160: less than or exactly 1,000 ms since the record's last notification hold the next one off. -/
def AlarmRecord.heldOff (a : AlarmRecord) (tick : Nat) : Bool :=
  match a.lastNotify with
  | none => false
  | some t => decide (tick - t ≤ 1000)

/-- R161: one NOTIFY descriptor appended to each port that takes it, NOTIFY_SKIPPED counted for each other. The
first component counts the placements. -/
def placeNotify (b : BufId) (tick : Nat) : List Port → State → Nat × State
  | [], s => (0, s)
  | p :: ps, s =>
    if s.canAppend p then
      let r := placeNotify b tick ps (enqueue p ⟨b, .notify, none, some tick⟩ s)
      (r.1 + 1, r.2)
    else placeNotify b tick ps (countRelay .notifySkipped s)

/-- R161: NOTIFY_SKIPPED once for each notify port. -/
def skipNotify : List Port → State → State
  | [], s => s
  | _ :: ps, s => skipNotify ps (countRelay .notifySkipped s)

/-- R160, R161: the notification of a raise of a record. -/
def notify (a : AlarmRecord) (s : State) : State :=
  match s.relay.notifyAddr with
  | none => s
  | some addr =>
    if s.relay.notifyPorts = [] ∨ a.heldOff s.tick = true then s
    else match requestBuffer .alarms s with
      | none => skipNotify s.relay.notifyPorts s
      | some (b, s₁) =>
        let r := placeNotify b s.tick s.relay.notifyPorts
          (fillBuf b (buildFrame addr s.ownAddr ctlAlarm (alarmPayload a)) s₁)
        let s₂ := handOver b r.1 r.2
        if r.1 = 0 then s₂ else modAlarm a.key (fun x => { x with lastNotify := some s.tick }) s₂

/-- R158: an alarm is raised. -/
def raise (key : AlarmKey) (s : State) : State :=
  match s.alarm? key with
  | some a => notify (a.again s.tick) (modAlarm key (AlarmRecord.again s.tick) s)
  | none =>
    if s.alarms.length < Config.alarmRoom then
      notify (AlarmRecord.created key s.tick) { s with alarms := s.alarms ++ [AlarmRecord.created key s.tick] }
    else { s with alarmsLost := satInc s.alarmsLost }

/-! ## Banks, session end, warm restart -/

/-- The records of a bank without their hit counters, each at its position. -/
@[irreducible] def plainRecords (v : Vector (Option ActiveRecord) 96) : Vector (Option RouteRecord) 96 :=
  Vector.ofFn fun i => (v.get i).map (·.record)

/-- The records of a bank with hit counters at 0, each at its position. -/
@[irreducible] def countedRecords (v : Vector (Option RouteRecord) 96) : Vector (Option ActiveRecord) 96 :=
  Vector.ofFn fun i => (v.get i).map fun r => ⟨r, 0⟩

/-- R62: every staging position set to the content of the same active position, without its hit counter. -/
def RouteTable.revert (t : RouteTable) : RouteTable := { t with staging := plainRecords t.active }

/-- R131, R133: the session ends; the staging bank reverts at the same event (R73). -/
def endSession (s : State) : State := { s with session := Session.closed, route := s.route.revert }

/-- A port through a warm restart (R15, R20, R38, R103): the applied configuration, the line and the counters stay. A
transition to space at `now` itself, taken after it, is a candidate start edge: DESIGN CHOICE (log 31). -/
def PortState.restarted (now : Nat) (q : PortState) : PortState :=
  { q with pendingConfig := none, edgeFirst := none, retuned := none, rx := Receiver.fresh now, lastActivity := now,
           charEnd := none, tx := .idle, asm := .hunt, queue := [] }

/-- A branch through a warm restart (R103, R124): reply timeout and cycle interval stay. -/
def BranchState.restarted (x : BranchState) : BranchState where
  sched := { x.sched with state := .stopped, cursor := none, cycleCount := 0, buffer := none, station := none,
                          sentTick := none }
  lastServed := .queue
  outstanding := false

/-- R142: the warm restart, one event over every block. -/
def warmRestart (s : State) : State :=
  { s with
    ports := PerPort.of fun p => (s.port p).restarted s.now
    branches := PerBranch.of fun b => (s.branch b).restarted
    grant := none
    given := none
    dup := none
    pool := Vector.replicate 40 Buffer.empty
    inbound := []
    route := { s.route.revert with commit := .idle }
    stations := Vector.replicate 32 StationRecord.cold
    session := Session.closed
    deferred := none
    restart := none }

/-- Whether a port's descriptor of a buffer is in its queue or its current slot. -/
def State.placed (s : State) (id : Port × BufId) : Bool :=
  ((s.port id.1).tx.slot.any fun d => d.buf == id.2) || ((s.port id.1).queue.any fun d => d.buf == id.2)

/-- R140: the warm restart takes place at the event at which the descriptor of the RESTART reply is released
(log 9). Every event that releases descriptors ends with this, after all its releases: where a take or a flush releases
the reply, the descriptors that it releases behind the reply are released and counted STALE_DISCARDS before the restart.
The spec leaves open whether they are, or are emptied without being counted (R93, R102, R103): DESIGN CHOICE (log 29). -/
def settleRestart (s : State) : State :=
  match s.restart with
  | none => s
  | some id => if s.placed id then s else warmRestart s

end Sys2Proof.Machine
end

