-- ==== Sys2Proof/Machine/Trunk.lean ====
section
/-! DEFINITION. Characters as they are sampled (R5, R6), the trunk arbiter's grant (R39 to R44) and its duplicate
memory (R45 to R48), with the row DUPLICATE_MEMORY_EXPIRY. -/

namespace Sys2Proof.Machine

/-! ## Sampled characters (R4, R5, R6) -/

/-- The majority of three samples. -/
def majority (a b c : Level) : Level := if a = b then a else c

/-- The bits of a sampled character: the majority of each three samples. -/
def sampledBits : List Level → List Level
  | a :: b :: c :: rest => majority a b c :: sampledBits rest
  | _ => []

/-- R5: a character is noisy when in any of its bits the three samples do not all agree. -/
def sampledNoisy : List Level → Bool
  | a :: b :: c :: rest => !(decide (a = b ∧ b = c)) || sampledNoisy rest
  | _ => false

/-- Bits least significant first as a number; a bit at mark is 1 (R1; log 24). -/
def bitsValue : List Level → Nat
  | [] => 0
  | l :: ls => (if l = .mark then 1 else 0) + 2 * bitsValue ls

/-- A character as the receiver delivers it, with the instants of its start edge and of its end (R5). -/
structure Character where
  data : Byte
  markBit : Bool
  errored : Bool
  start : Nat
  stop : Nat
  deriving DecidableEq, Repr

/-- The character of the 33 samples taken since a start edge (R5, R6). -/
def characterOf (samples : List Level) (edge : Nat) (c : PortConfig) : Character :=
  let bits := sampledBits samples
  { data := BitVec.ofNat 8 (bitsValue ((bits.drop 1).take 8))
    markBit := decide (bits[9]? = some .mark)
    errored := decide (bits[10]? ≠ some .mark)
    start := edge
    stop := edge + c.bitTimes 11 }

/-- An unerrored character with mark bit 1: an address character (R25). -/
def Character.isAddress (c : Character) : Bool := c.markBit && !c.errored

/-- The character that stands sampled whole, due for delivery: in CHAR, after the last sample of the stop bit,
169 sampling periods after the start edge (R5). -/
def PortState.dueCharacter (q : PortState) : Option Character :=
  match q.rx.mode, q.rx.edge with
  | .char, some e => if q.rx.samples.length = 33 then some (characterOf q.rx.samples e q.applied) else none
  | _, _ => none

/-! ## The grant (R39 to R44) -/

/-- An address character reaching an assembler in this state begins a reception with a request (R40). -/
def Assembler.requests : Assembler → Bool
  | .hunt | .skip _ | .shadow _ => true
  | .collect _ => false

/-- R41: the preferred trunk's own request reaches the arbiter at this same instant: it has just been given, or its
address character stands due for delivery (log 10). The preferred trunk is the one that the relay configuration has at
each delivery; the spec leaves open a SET-RELAY that changes it between the two requests of one tie: DESIGN CHOICE
(log 10). -/
def State.tieLost (s : State) (t : Trunk) : Bool :=
  let f := s.relay.preferred
  decide (t ≠ f) &&
    (decide (s.given = some (f, s.now)) ||
      ((s.port f.port).asm.requests && ((s.port f.port).dueCharacter.any Character.isAddress)))

/-- R40, R41: the arbiter gives a request while the grant is FREE and the tie, if there is one, is not lost. -/
def State.grants (s : State) (t : Trunk) : Bool := s.grant.isNone && !s.tieLost t

/-- The grant is given to a trunk. -/
def giveGrant (t : Trunk) (s : State) : State := { s with grant := some t, given := some (t, s.now) }

/-- R43: the grant returns to FREE if this port holds it. -/
def releaseGrant (p : Port) (s : State) : State :=
  match p.trunk? with
  | none => s
  | some t => if s.grant = some t then { s with grant := none } else s

/-! ## The duplicate memory (R45 to R48) -/

/-- The record of a good frame on a trunk (R45). -/
def DupRecord.of (t : Trunk) (f : List Byte) (check : Word16) (endTick : Nat) : DupRecord :=
  ⟨t, frameDest f, frameSrc f, frameByte f 3, check, endTick⟩

/-- R46: a completed frame on a trunk is judged a duplicate of the record. -/
def State.isDuplicate (s : State) (t : Trunk) (f : List Byte) (check : Word16) (startTick : Nat) : Bool :=
  match s.dup with
  | none => false
  | some r =>
    decide (s.relay.mirrorWindow ≠ 0) && decide (r.trunk = t.other)
      && decide (startTick ≤ r.endTick + s.relay.mirrorWindow.toNat)
      && decide (frameDest f = r.dest) && decide (frameSrc f = r.src) && decide (frameByte f 3 = r.len)
      && decide (check = r.check)

/-- R45, R48: what the memory holds after a granted frame ends GOOD. -/
def recordGood (t : Trunk) (f : List Byte) (check : Word16) (s : State) : State :=
  { s with dup := if s.relay.mirrorWindow = 0 then none else some (DupRecord.of t f check s.tick) }

/-- R47: the record's window has passed, and the other trunk collects no frame that began within it. -/
def State.dupExpired (s : State) : Bool :=
  match s.dup with
  | none => false
  | some r =>
    let limit := r.endTick + s.relay.mirrorWindow.toNat
    decide (limit < s.tick) &&
      match (s.port r.trunk.other.port).asm with
      | .collect c => decide (limit < c.startTick)
      | .hunt | .skip _ | .shadow _ => true

/-- DUPLICATE_MEMORY_EXPIRY (R47). -/
def execDuplicateMemoryExpiry (s : State) : Host.Outcome State Fault Refusal :=
  .next (if s.dupExpired then { s with dup := none } else s)

end Sys2Proof.Machine
end

