-- ==== Sys2Proof/Machine/Assembly.lean ====
section
/-! DEFINITION. The frame assemblers (R23 to R37): what a delivered character, the expiry of the gap and a break
indication do, with the row GAP_EXPIRY. -/

namespace Sys2Proof.Machine

/-- The gap of a reception that a character sets (R23). -/
def Character.gap (ch : Character) (limit : Byte) : Gap := ⟨ch.stop, limit⟩

/-- R27, R31: a frame begun at position 1 in a buffer. -/
def Collect.begin (ch : Character) (limit : Byte) (b : BufId) (startTick : Nat) : Collect :=
  ⟨ch.gap limit, 1, none, b, crcByte crcInit ch.data, startTick⟩

/-- COLLECT is entered for a frame whose first byte is stored (R27, R31). -/
def beginFrame (p : Port) (ch : Character) (b : BufId) (s : State) : State :=
  setAsm p (.collect (Collect.begin ch (s.port p).applied.gapLimit b (s.tickAt ch.start))) (fillBuf b [ch.data] s)

/-- R26: the request for a buffer at the start of a frame, and its refusal as NO_BUFFER. -/
def takeBuffer (p : Port) (ch : Character) (s : State) : State :=
  match requestBuffer (.assembler p) s with
  | some (b, s₁) => beginFrame p ch b s₁
  | none =>
    setAsm p (.skip (ch.gap (s.port p).applied.gapLimit))
      (releaseGrant p (raise .poolEmpty (countPort p .noBuffer s)))

/-- R25: an address character begins a reception; on a trunk the arbiter is asked first (R40, R42). -/
def beginReception (p : Port) (ch : Character) (s : State) : State :=
  match p.trunk? with
  | none => takeBuffer p ch s
  | some t =>
    if s.grants t then takeBuffer p ch (giveGrant t s)
    else setAsm p (.shadow ⟨ch.gap (s.port p).applied.gapLimit, 1, none⟩) s

/-- R35: a reception in COLLECT ends with its outcome's counter; the buffer is freed and the grant released. -/
def failFrame (p : Port) (c : Collect) (k : PortCtr) (s : State) : State :=
  releaseGrant p (setAsm p .hunt (freeBuf c.buf (countPort p k s)))

/-- R81: a READY buffer is appended to the inbound list; R82 counts from when it reaches the head. -/
def appendInbound (p : Port) (b : BufId) (s : State) : State :=
  { s with inbound := s.inbound ++ [⟨b, p⟩], headSince := if s.inbound.isEmpty then s.now else s.headSince }

/-- R35: a frame ends GOOD. -/
def goodFrame (p : Port) (c : Collect) (s : State) : State :=
  releaseGrant p (setAsm p .hunt (appendInbound p c.buf
    (setBuf c.buf { s.pool.get c.buf with use := .ready } (countPort p .framesGood s))))

/-- R29, R35, R46: a frame whose last character has been stored. -/
def completeFrame (p : Port) (c : Collect) (s : State) : State :=
  let f := (s.pool.get c.buf).bytes
  let received := word16 (frameByte f (4 + frameLen f)) (frameByte f (5 + frameLen f))
  if received ≠ c.check then failFrame p c .checkError s
  else match p.trunk? with
    | none => goodFrame p c s
    | some t =>
      if s.isDuplicate t f received c.startTick then
        failFrame p c .duplicates { s with dup := none }
      else goodFrame p c (recordGood t f received s)

/-- R28: an unerrored character with mark bit 0 in COLLECT. -/
def storeCharacter (p : Port) (c : Collect) (ch : Character) (s : State) : State :=
  let pos := c.pos + 1
  let inCheck : Bool := match c.len with
    | none => true
    | some l => decide (pos ≤ 4 + l)
  let c₁ : Collect :=
    { c with gap := { c.gap with ref := ch.stop }, pos := pos,
             check := if inCheck then crcByte c.check ch.data else c.check,
             len := if pos = 4 then some ch.data.toNat else c.len }
  let s₁ := fillBuf c.buf ((s.pool.get c.buf).bytes ++ [ch.data]) s
  if pos = 4 ∧ ch.data.toNat > 60 then failFrame p c .badLength s
  else if c₁.len = some (pos - 6) ∧ 6 ≤ pos then completeFrame p c₁ s₁
  else setAsm p (.collect c₁) s₁

/-- R37: an unerrored character with mark bit 0 in SHADOW. -/
def followCharacter (p : Port) (w : Shadow) (ch : Character) (s : State) : State :=
  let pos := w.pos + 1
  let len := if pos = 4 then some ch.data.toNat else w.len
  if (pos = 4 ∧ ch.data.toNat > 60) ∨ (len = some (pos - 6) ∧ 6 ≤ pos) then
    setAsm p .hunt (countPort p .shadowed s)
  else setAsm p (.shadow ⟨{ w.gap with ref := ch.stop }, pos, len⟩) s

/-- A character delivered to an assembler (R25, R28, R30, R31, R36, R37). -/
def assemble (p : Port) (ch : Character) (s : State) : State :=
  match (s.port p).asm with
  | .hunt => if ch.isAddress then beginReception p ch s else countPort p .strayChars s
  | .skip g =>
    if ch.isAddress then beginReception p ch s else setAsm p (.skip { g with ref := ch.stop }) s
  | .shadow w =>
    if ch.errored then setAsm p .hunt (countPort p .shadowed s)
    else if ch.markBit then beginReception p ch (countPort p .shadowed s)
    else followCharacter p w ch s
  | .collect c =>
    if ch.errored then failFrame p c .charError s
    else if ch.markBit then beginFrame p ch c.buf (countPort p .interrupted s)
    else storeCharacter p c ch s

/-- A break indication that reaches an assembler (R25, R33, R36, R37). -/
def breakAssembler (p : Port) (s : State) : State :=
  match (s.port p).asm with
  | .hunt => s
  | .skip _ => setAsm p .hunt s
  | .shadow _ => setAsm p .hunt (countPort p .shadowed s)
  | .collect c => failFrame p c .charError s

/-- The gap of the reception in progress. -/
def Assembler.gap? : Assembler → Option Gap
  | .hunt => none
  | .collect c => some c.gap
  | .skip g => some g
  | .shadow w => some w.gap

/-- R24: the first instant at which the gap is longer than its limit, counted in sampling periods (log 20). -/
def Gap.expiry (g : Gap) (c : PortConfig) : Nat := g.ref + c.periods (g.limit.toNat * Config.periodsPerBit + 1)

/-- R24: the gap has passed its limit, and no start edge, accepted or still under evaluation, came before. -/
def State.gapExpired (s : State) (p : Port) : Bool :=
  let q := s.port p
  match q.asm.gap? with
  | none => false
  | some g => decide (g.expiry q.applied ≤ s.now) &&
      match q.rx.edge with
      | none => true
      | some e => decide (g.expiry q.applied ≤ e)

/-- R32, R36, R37: what the expiry of the gap does to the reception. -/
def expireGap (p : Port) (s : State) : State :=
  match (s.port p).asm with
  | .hunt => s
  | .skip _ => setAsm p .hunt s
  | .shadow _ => setAsm p .hunt (countPort p .shadowed s)
  | .collect c => failFrame p c .runt s

/-- GAP_EXPIRY (R24). -/
def execGapExpiry (p : Port) (s : State) : Host.Outcome State Fault Refusal :=
  .next (if s.gapExpired p then expireGap p s else s)

end Sys2Proof.Machine
end

