-- ==== Sys2Proof/Machine/Polling.lean ====
section
/-! DEFINITION. The poll schedulers (R106 to R124): the life of a poll, its cycles, and the rows POLL_BUFFER_RETRY,
REPLY_TIMEOUT and NEW_CYCLE. -/

namespace Sys2Proof.Machine

/-- A change of a branch's scheduler. -/
def modSched (b : Branch) (f : Scheduler → Scheduler) (s : State) : State :=
  s.modBranch b fun x => { x with sched := f x.sched }

abbrev State.sched (s : State) (b : Branch) : Scheduler := (s.branch b).sched

/-- A change of the status record of a position. -/
def modStation (i : Fin 32) (f : StationRecord → StationRecord) (s : State) : State :=
  { s with stations := s.stations.set i.val (f (s.stations.get i)) i.isLt }

/-- The enabled entries of a branch are those whose branch field names it and whose enabled field is yes (R106). -/
def State.isEnabledEntry (s : State) (b : Branch) (i : Fin 32) : Bool :=
  match s.pollList.get i with
  | none => false
  | some e => e.enabled && decide (e.branch = b)

/-- The lowest-numbered enabled entry of a branch. -/
def State.firstEntry (s : State) (b : Branch) : Option (Fin 32) :=
  (List.finRange 32).find? fun i => s.isEnabledEntry b i

/-- The lowest-numbered enabled entry of a branch above a position (R122). -/
def State.nextEntry (s : State) (b : Branch) (c : Fin 32) : Option (Fin 32) :=
  (List.finRange 32).find? fun i => decide (c < i) && s.isEnabledEntry b i

/-- The entry at a scheduler's cursor. -/
def State.cursorEntry (s : State) (b : Branch) : Option PollEntry :=
  (s.sched b).cursor.bind fun i => s.pollList.get i

/-- R115, R116: the scheduler asks for a buffer; given one, it builds the POLL frame of the entry at the cursor,
otherwise POLL_DEFERRED is counted. -/
def askPollBuffer (b : Branch) (s : State) : State :=
  match s.cursorEntry b with
  | none => s
  | some e =>
    match requestBuffer (.poll b) s with
    | none => modSched b (fun x => { x with asked := s.tick }) (countRelay .pollDeferred s)
    | some (buf, s₁) =>
      modSched b (fun x => { x with buffer := some buf, station := some e.station })
        (fillBuf buf (buildFrame e.station s.ownAddr ctlPoll e.payload) s₁)

/-- R113, R122: the scheduler enters READY for an entry and asks for a buffer at the same event. -/
def enterReady (b : Branch) (i : Fin 32) (s : State) : State :=
  askPollBuffer b (modSched b (fun x => { x with state := .ready, cursor := some i }) s)

/-- R122: a new cycle begins for the entry at the cursor. -/
def beginCycle (b : Branch) (i : Fin 32) (s : State) : State :=
  enterReady b i (modSched b (fun x => { x with cycleStart := s.tick }) s)

/-- R122: the tick at which the next cycle begins has come. -/
def State.cycleDue (s : State) (b : Branch) : Bool :=
  decide ((s.sched b).cycleStart + (s.sched b).cycleInterval.toNat ≤ s.tick)

/-- R122: the cycle is complete; the next one begins at once if its tick has come. -/
def completeCycle (b : Branch) (s : State) : State :=
  match s.firstEntry b with
  | none => s
  | some i =>
    let s₁ := modSched b (fun x => { x with cycleCount := satInc x.cycleCount, cursor := some i,
                                            state := .waitInterval }) s
    if s₁.cycleDue b then beginCycle b i s₁ else s₁

/-- R122: the cursor moves on. -/
def advanceCursor (b : Branch) (s : State) : State :=
  match (s.sched b).cursor with
  | none => s
  | some c =>
    match s.nextEntry b c with
    | some i => enterReady b i s
    | none => completeCycle b s

/-- R119, R120, R122, R123: the end of a poll, reported to the transmit side (R100); a STOPPING scheduler becomes
STOPPED. -/
def endPoll (b : Branch) (s : State) : State :=
  let stopping := decide ((s.sched b).state = .stopping)
  let s₁ := s.modBranch b fun x =>
    { x with outstanding := false, sched := { x.sched with sentTick := none, station := none } }
  if stopping then modSched b (fun x => { x with state := .stopped, cursor := none }) s₁
  else advanceCursor b s₁

/-- R117: the scheduler is told that its POLL frame has been sent. -/
def pollSent (b : Branch) (s : State) : State :=
  let s₁ := modSched b (fun x =>
    { x with sentTick := some s.tick, state := if x.state = .ready then .await else x.state }) s
  match (s.sched b).cursor with
  | none => s₁
  | some i => modStation i (fun r => { r with pollsSent := satInc r.pollsSent }) s₁

/-- A poll awaits its reply: AWAIT, or STOPPING after the frame has been sent (R119). -/
def State.awaiting (s : State) (b : Branch) : Bool :=
  decide ((s.sched b).state = .await) ||
    (decide ((s.sched b).state = .stopping) && (s.sched b).sentTick.isSome)

/-- R119: the status record of an accepted reply. -/
def StationRecord.answered (payload : List Byte) (tick : Nat) (r : StationRecord) : StationRecord :=
  { r with state := .present, misses := 0, lastStatus := some (payload.take 16), lastReply := some tick,
           repliesTaken := satInc r.repliesTaken }

/-- R119: a reply is accepted. -/
def acceptReply (b : Branch) (payload : List Byte) (s : State) : State :=
  let s₁ := match (s.sched b).cursor with
    | none => s
    | some i => modStation i (StationRecord.answered payload s.tick) s
  endPoll b (if payload.length > 16 then countRelay .truncatedReplies s₁ else s₁)

/-- R119, R121: a REPLY frame handed to the poll scheduler. -/
def handReply (p : Port) (src : Byte) (payload : List Byte) (s : State) : State :=
  match p.branch? with
  | none => countRelay .unexpectedReply s
  | some b =>
    if s.awaiting b = true ∧ (s.sched b).station = some src then acceptReply b payload s
    else countRelay .unexpectedReply s

/-- R120: the status record of a miss under a miss limit. -/
def StationRecord.missed (limit : Nat) (r : StationRecord) : StationRecord :=
  let m := if r.misses < limit then r.misses + 1 else r.misses
  { r with misses := m, state := if m < limit then .missing else .lost }

/-- R120: the poll ends as a miss; the transition into LOST raises STATION_LOST. The raise comes before the cursor moves
on, so its ALARM frame asks the pool before the next POLL frame does; with one FREE buffer the spec leaves open which
of the two requests is taken first (R77): DESIGN CHOICE (log 28). -/
def missPoll (b : Branch) (s : State) : State :=
  match (s.sched b).cursor, s.cursorEntry b with
  | some i, some e =>
    let r := s.stations.get i
    let r' := r.missed e.missLimit.toNat
    let s₁ := modStation i (fun _ => r') s
    endPoll b (if r'.state = .lost ∧ r.state ≠ .lost then raise (.stationLost e.station) s₁ else s₁)
  | _, _ => endPoll b s

/-! ## Rows -/

/-- R115: READY without a buffer, and a tick has passed since the last request. -/
def State.canRetry (s : State) (b : Branch) : Bool :=
  decide ((s.sched b).state = .ready) && (s.sched b).buffer.isNone && !(s.branch b).outstanding
    && decide ((s.sched b).asked < s.tick)

/-- POLL_BUFFER_RETRY (R115). -/
def execPollBufferRetry (b : Branch) (s : State) : Host.Outcome State Fault Refusal :=
  .next (if s.canRetry b then askPollBuffer b s else s)

/-- R117: the reply timer of the poll has run out. -/
def State.canTimeOut (s : State) (b : Branch) : Bool :=
  s.awaiting b && match (s.sched b).sentTick with
    | none => false
    | some t => decide (t + (s.sched b).replyTimeout.toNat ≤ s.tick)

/-- REPLY_TIMEOUT (R120). -/
def execReplyTimeout (b : Branch) (s : State) : Host.Outcome State Fault Refusal :=
  .next (if s.canTimeOut b then missPoll b s else s)

/-- R122: WAIT_INTERVAL, and the interval has passed since the cycle start. -/
def State.canCycle (s : State) (b : Branch) : Bool :=
  decide ((s.sched b).state = .waitInterval) && s.cycleDue b

/-- NEW_CYCLE (R122). -/
def execNewCycle (b : Branch) (s : State) : Host.Outcome State Fault Refusal :=
  .next (if s.canCycle b then
    match (s.sched b).cursor with
    | none => s
    | some i => beginCycle b i s
  else s)

end Sys2Proof.Machine
end

