-- ==== Sys2Proof/Machine/Egress.lean ====
section
/-! DEFINITION. Egress queues and transmitters (R10 to R19, R91 to R105): the take, the start and the end of
sending, the application of a port configuration, and their rows. -/

namespace Sys2Proof.Machine

/-- A poll is outstanding on a port; on a trunk never (R100, R105). -/
def State.reserved (s : State) (p : Port) : Bool :=
  match p.branch? with
  | none => false
  | some b => (s.branch b).outstanding

/-! ## Releases without sending (R79, R94, R102) -/

/-- Descriptors already removed from a port's queue are released in order; each counts STALE_DISCARDS. -/
def releaseAll (p : Port) : List Descriptor → State → State
  | [], s => s
  | d :: ds, s => releaseAll p ds (dropRef d.buf (countPort p .staleDiscards s))

def setQueue (p : Port) (ds : List Descriptor) (s : State) : State := s.modPort p fun q => { q with queue := ds }

/-- R102: the flush of a port's queue. -/
def flushQueue (p : Port) (s : State) : State := releaseAll p (s.port p).queue (setQueue p [] s)

/-! ## The take (R93 to R101) -/

/-- R95: the residence limit in ticks. -/
def RelayConfig.residenceTicks (r : RelayConfig) : Nat := 10 * r.residence.toNat

/-- R94: a descriptor older than the residence limit is stale; a POLL descriptor never is. -/
def State.isStale (s : State) (d : Descriptor) : Bool :=
  match d.enqueued with
  | none => false
  | some t => decide (s.relay.residenceTicks < s.tick - t)

/-- The queue from its first descriptor that is not stale on. -/
def State.freshQueue (s : State) (p : Port) : List Descriptor := (s.port p).queue.dropWhile s.isStale

/-- The stale descriptors that stand before it. -/
def State.staleQueue (s : State) (p : Port) : List Descriptor := (s.port p).queue.takeWhile s.isStale

/-- R99: the last served claimant of a branch; a trunk keeps none. -/
def setServed (p : Port) (k : Claimant) (s : State) : State :=
  match p.branch? with
  | none => s
  | some b => s.modBranch b fun x => { x with lastServed := k }

/-- R94, R96: the queue is served. -/
def serveQueue (p : Port) (s : State) : State :=
  let s₁ := releaseAll p (s.staleQueue p) s
  match s.freshQueue p with
  | [] => setQueue p [] s₁
  | d :: ds => setServed p .queue ((setQueue p ds s₁).modPort p fun q => { q with tx := .waitLine d })

/-- The queue wants the transmitter (R93, R98). -/
def State.queueWants (s : State) (p : Port) : Bool :=
  (s.port p).applied.enabled && !(s.port p).queue.isEmpty

/-- The poll scheduler wants the transmitter: it holds a built frame that has not been taken (R98). -/
def State.pollWants (s : State) (b : Branch) : Bool := (s.sched b).buffer.isSome

/-- The poll scheduler of a port, if it has one, wants the transmitter. -/
def State.portPollWants (s : State) (p : Port) : Bool := p.branch?.any s.pollWants

/-- R98, R100: a built POLL frame is taken and its poll becomes outstanding. -/
def markTaken (b : Branch) (s : State) : State :=
  s.modBranch b fun x => { x with outstanding := true, lastServed := .poll, sched := { x.sched with buffer := none } }

/-- R98, R101: the poll is served. On a disabled branch it has no placement and is reported sent at once. -/
def servePoll (b : Branch) (s : State) : State :=
  match (s.sched b).buffer with
  | none => s
  | some buf =>
    if (s.port b.port).applied.enabled then
      (markTaken b (handOver buf 1 s)).modPort b.port fun q => { q with tx := .waitLine ⟨buf, .poll, none, none⟩ }
    else pollSent b (markTaken b (handOver buf 0 s))

/-- R93, R101: the conditions of a take. -/
def State.canTake (s : State) (p : Port) : Bool :=
  (s.port p).tx.isIdle && (s.port p).pendingConfig.isNone && !s.reserved p
    && (s.queueWants p || s.portPollWants p)

/-- R99: which claimant a branch's arbiter serves. -/
def arbitrate (b : Branch) (s : State) : State :=
  match s.queueWants b.port, s.pollWants b with
  | true, true =>
    match (s.branch b).lastServed with
    | .queue => servePoll b s
    | .poll =>
      match s.freshQueue b.port with
      | [] => servePoll b (serveQueue b.port s)
      | _ :: _ => serveQueue b.port s
  | true, false => serveQueue b.port s
  | false, true => servePoll b s
  | false, false => s

/-- R93, R105: a take on a port. -/
def takeFrom (p : Port) (s : State) : State :=
  match p.branch? with
  | none => serveQueue p s
  | some b => arbitrate b s

/-- TAKE (R93). -/
def execTake (p : Port) (s : State) : Host.Outcome State Fault Refusal :=
  .next (if s.canTake p then settleRestart (takeFrom p s) else s)

/-! ## Sending (R11 to R14, R97) -/

/-- R9: the line has been quiet for the turnaround idle. -/
def State.lineQuiet (s : State) (p : Port) : Bool :=
  let q := s.port p
  decide (q.rx.mode = .idle) && decide (q.rxd = .mark)
    && decide (q.lastActivity + q.applied.bitTimes q.applied.turnaround.toNat ≤ s.now)

/-- TRANSMIT_START (R11, R12). -/
def execTransmitStart (p : Port) (s : State) : Host.Outcome State Fault Refusal :=
  .next (match (s.port p).tx with
    | .waitLine d =>
      if s.lineQuiet p then
        s.modPort p fun q => { q.stopListen s.now with tx := .sending d s.now }
      else s
    | .idle | .sending _ _ => s)

/-- R12: the instant at which the last stop bit of a frame begun at `start` ends. -/
def State.sendingEnds (s : State) (p : Port) (d : Descriptor) (start : Nat) : Nat :=
  start + (s.port p).applied.bitTimes (11 * s.descLength d)

/-- R14, R12: the transmitter is idle, the line's last activity is now, and the receiver begins to listen. A transition
to space at `now` itself, taken after it, is a candidate start edge: DESIGN CHOICE (log 31). -/
def PortState.endSending (now : Nat) (q : PortState) : PortState :=
  ({ q with tx := .idle }.beginListen now).touch now

/-- R97: the descriptor's departure is reported to the poll scheduler, for a POLL. -/
def reportSent (p : Port) (d : Descriptor) (s : State) : State :=
  match d.origin, p.branch? with
  | .poll, some b => pollSent b s
  | _, _ => s

/-- R14, R97: the frame in the current slot has been sent. -/
def finishSending (p : Port) (d : Descriptor) (s : State) : State :=
  settleRestart (reportSent p d
    ((dropRef d.buf (countPort p .framesOut s)).modPort p (PortState.endSending s.now)))

/-- END_OF_SENDING (R14). -/
def execEndOfSending (p : Port) (s : State) : Host.Outcome State Fault Refusal :=
  .next (match (s.port p).tx with
    | .sending d start => if s.sendingEnds p d start ≤ s.now then finishSending p d s else s
    | .idle | .waitLine _ => s)

/-! ## Port configurations (R17 to R19) -/

/-- R17: the four conditions of a quiet port. A receiver that evaluates a candidate edge is in IDLE (R4). -/
def State.rested (s : State) (p : Port) : Bool :=
  decide ((s.port p).asm = .hunt) && decide ((s.port p).rx.mode ≠ .char) && (s.port p).tx.isIdle && !s.reserved p

/-- R17: a start edge was taken first, at this instant or at the instant at which the port would have become quiet: the
receiver counts as in CHAR from the edge on, and the port is not quiet (log 26). -/
def PortState.edgeHolds (now : Nat) (q : PortState) : Bool :=
  match q.rx.edge with
  | none => false
  | some e => decide (e = now) || decide (q.edgeFirst = some e)

/-- R17: the port is quiet. -/
def State.quiet (s : State) (p : Port) : Bool := s.rested p && !(s.port p).edgeHolds s.now

/-- R17: a port when time goes on from an instant. An edge taken at that instant, where a pending record would have been
applied without it, keeps the record waiting to the end of its evaluation or reception (log 26). -/
def State.holdEdge (s : State) (p : Port) : PortState :=
  let q := s.port p
  if q.pendingConfig.isSome && s.rested p && decide (q.rx.edge = some s.now) then { q with edgeFirst := some s.now } else q

/-- R18, R19: the applied record is replaced; the receiver stops listening, begins to listen, or goes on. -/
def PortState.apply (c : PortConfig) (now : Nat) (q : PortState) : PortState :=
  let q' := { q with applied := c, pendingConfig := none }.touch now
  if q.applied.enabled && !c.enabled then q'.stopListen now
  else if c.enabled && (!q.applied.enabled || decide (q.applied.divisor ≠ c.divisor)) then
    { q'.beginListen now with retuned := some now }
  else q'

/-- R18, R19: a configuration is applied to a port; one that disables it flushes the queue. -/
def applyConfig (p : Port) (c : PortConfig) (s : State) : State :=
  let s₁ := s.modPort p (PortState.apply c s.now)
  if (s.port p).applied.enabled && !c.enabled then flushQueue p s₁ else s₁

/-- APPLY_PENDING_CONFIG (R17). -/
def execApplyPendingConfig (p : Port) (s : State) : Host.Outcome State Fault Refusal :=
  .next (match (s.port p).pendingConfig with
    | none => s
    | some c => if s.quiet p then settleRestart (applyConfig p c s) else s)

end Sys2Proof.Machine
end

