-- ==== Sys2Proof/Machine/Route.lean ====
section
/-! DEFINITION. The Route Table (R52 to R74): validity of a record, lookup, the switch of banks. -/

namespace Sys2Proof.Machine

/-! ## Validity (R54) -/

/-- The reasons of R54. -/
inductive Reason where
  | range | noIngress | egress | rewrite | source
  deriving DecidableEq, Repr

def Reason.code : Reason → Byte
  | .range => 0x01
  | .noIngress => 0x02
  | .egress => 0x03
  | .rewrite => 0x04
  | .source => 0x05

/-- Condition 1. -/
def RouteRecord.rangeOk (r : RouteRecord) : Bool := decide (1 ≤ r.low.toNat ∧ r.low.toNat ≤ r.high.toNat)

/-- Condition 3. -/
def RouteRecord.egressOk (r : RouteRecord) : Bool :=
  match r.action with
  | .forward => decide (r.egress ≠ 0)
  | .drop => decide (r.egress = 0)

/-- Condition 4. -/
def RouteRecord.rewriteOk (own : Byte) (r : RouteRecord) : Bool :=
  match r.rewrite with
  | none => true
  | some a => decide (r.action = .forward) && validStation own a

/-- Condition 5. -/
def RouteRecord.sourceOk (r : RouteRecord) : Bool :=
  match r.source with
  | none => true
  | some (l, h) => decide (1 ≤ l.toNat ∧ h.toNat ≤ 254 ∧ l.toNat ≤ h.toNat)

/-- R54: the first condition a record fails. -/
def RouteRecord.fault (own : Byte) (r : RouteRecord) : Option Reason :=
  if !r.rangeOk then some .range
  else if r.ingress = 0 then some .noIngress
  else if !r.egressOk then some .egress
  else if !r.rewriteOk own then some .rewrite
  else if !r.sourceOk then some .source
  else none

/-- R65: the first invalid record of a staging bank, in ascending position, and its reason. -/
def RouteTable.firstInvalid (own : Byte) (t : RouteTable) : Option (Fin 96 × Reason) :=
  (List.finRange 96).findSome? fun i => ((t.staging.get i).bind (RouteRecord.fault own)).map fun r => (i, r)

/-! ## Lookup (R55, R56) -/

/-- R55: a record acts on a frame. -/
def RouteRecord.fits (dest src : Byte) (p : Port) (r : RouteRecord) : Bool :=
  decide (r.low.toNat ≤ dest.toNat ∧ dest.toNat ≤ r.high.toNat) && PortSet.mem r.ingress p &&
    match r.source with
    | none => true
    | some (l, h) => decide (l.toNat ≤ src.toNat ∧ src.toNat ≤ h.toNat)

/-- R55: the first position of the active bank that holds a record that fits. -/
def RouteTable.lookup (dest src : Byte) (p : Port) (t : RouteTable) : Option (Fin 96 × ActiveRecord) :=
  (List.finRange 96).findSome? fun i =>
    (t.active.get i).bind fun a => if a.record.fits dest src p then some (i, a) else none

/-- A lookup's result (R56). -/
inductive Verdict where
  | forward (egress : PortSet) (rewrite : Option Byte)
  | drop
  deriving DecidableEq, Repr

/-- The result a record gives (R56). -/
def RouteRecord.verdict (r : RouteRecord) : Verdict :=
  match r.action with
  | .forward => .forward r.egress r.rewrite
  | .drop => .drop

/-- The result the default action gives (R56, R57). -/
def DefaultAction.verdict : DefaultAction → Verdict
  | .drop => .drop
  | .flood => .forward PortSet.all none

/-- R56: the hit counter of a position is incremented. -/
def RouteTable.hit (i : Fin 96) (a : ActiveRecord) (t : RouteTable) : RouteTable :=
  { t with active := t.active.set i.val (some { a with hits := satInc a.hits }) i.isLt }

/-- R56: the lookup of a frame, counted. -/
def lookUp (dest src : Byte) (p : Port) (s : State) : Verdict × State :=
  match s.route.lookup dest src p with
  | some (i, a) => (a.record.verdict, { s with route := s.route.hit i a })
  | none => (s.relay.defaultAction.verdict, countRelay .defaultHits s)

/-! ## The switch (R67) -/

/-- R67: the staging bank becomes the active bank with every hit counter at 0, and the epoch advances. -/
def RouteTable.switch (t : RouteTable) : RouteTable :=
  { t with active := countedRecords t.staging, epoch := t.epoch + 1, commit := .idle }

end Sys2Proof.Machine
end

