-- ==== Sys2Proof/Machine/Session.lean ====
section
/-! DEFINITION. The management session (R125 to R141): classes of command, the sequence rule, the reply cache,
the deferred reply of a commit, and the rows of the session and of the commit's end. -/

namespace Sys2Proof.Machine

/-! ## What every served command shares -/

/-- R127, R141: a command is discarded without a reply. -/
def discardCommand (s : State) : State := countRelay .mgmtDiscarded s

/-- R132: a served command from the owner sets the last activity. -/
def refresh (c : Cmd) (s : State) : State :=
  if s.session.owner = some c.src then { s with session := { s.session with lastActivity := some s.tick } } else s

/-- The reply to a command, on its ingress port (R126). -/
def answer (c : Cmd) (k : Command) (r : Reply) (s : State) : State := (sendReply c.src c.port c.seq k.code r s).2

def Reply.ok (data : List Byte) : Reply := ⟨.ok, data⟩
def Reply.badArg : Reply := ⟨.badArg, []⟩
def Reply.busy : Reply := ⟨.busy, []⟩

/-- R84: a command is handed over when its ingress port's applied configuration allows management. During a cold
reset no frame is received, and none is handed over (R169). -/
def manage (serve : Cmd → State → State) (c : Cmd) (s : State) : State :=
  if s.inReset then s
  else if (s.port c.port).applied.mgmtAllowed then serve c s else countRelay .mgmtRefused s

/-- R128: a read-class command is executed and answered, whoever sent it. -/
def serveRead (k : Command) (f : List Byte → State → Reply) (c : Cmd) (s : State) : State :=
  if s.restart.isSome then discardCommand s
  else answer c k (f c.args (refresh c s)) (refresh c s)

/-! ## The sequence rule (R134 to R137) -/

/-- R134: the command takes the sequence number and its cache entry is placed. -/
def record (c : Cmd) (k : Command) (x : Cached) (s : State) : State :=
  { s with session := { s.session with nextSeq := s.session.nextSeq + 1, cache := some ⟨c.seq, k, x⟩ } }

/-- R136. -/
def State.seqError (s : State) : Reply := ⟨.seqError, [s.session.nextSeq]⟩

/-- R135, R136: the reply to a sequenced command whose SEQ is not the expected one. -/
def State.retryReply (s : State) (c : Cmd) (k : Command) : Reply :=
  if c.seq = s.session.nextSeq - 1 then
    match s.session.cache with
    | none => s.seqError
    | some e =>
      if e.seq = c.seq ∧ e.command = k then
        match e.content with
        | .reply r => r
        | .pending => ⟨.pending, []⟩
      else s.seqError
  else s.seqError

/-- R131, R137: a sequenced command while no session is open. -/
def noSessionReply (k : Command) : Reply := if k = .closeSession then .ok [] else ⟨.notOwner, [0]⟩

/-- R128, R134 to R137: CLOSE-SESSION or a write-class command; `exe` is its execution with the expected SEQ. -/
def serveSequenced (k : Command) (exe : Cmd → State → State) (c : Cmd) (s : State) : State :=
  if s.restart.isSome then discardCommand s
  else
    let s₁ := refresh c s
    match s₁.session.owner with
    | none => answer c k (noSessionReply k) s₁
    | some o =>
      if c.src ≠ o then answer c k ⟨.notOwner, [o]⟩ s₁
      else if c.seq = s₁.session.nextSeq then exe c s₁
      else answer c k (s₁.retryReply c k) s₁

/-- R134: the execution of a command whose result is its immediate reply. -/
def runBody (k : Command) (body : List Byte → State → State × Reply) (c : Cmd) (s : State) : State :=
  let r := body c.args s
  answer c k r.2 (record c k (.reply r.2) r.1)

/-! ## Opening and closing (R130, R131, R133) -/

/-- R130. -/
def openSession (c : Cmd) (s : State) : State :=
  { s with session := { owner := some c.src, nextSeq := c.seq + 1, cache := none, lastActivity := some s.tick } }

/-- OPEN-SESSION is served (R130). -/
def serveOpen (c : Cmd) (s : State) : State :=
  if s.restart.isSome then discardCommand s
  else
    let s₁ := refresh c s
    if !validStation s₁.ownAddr c.src then answer c .openSession .badArg s₁
    else match s₁.session.owner with
      | none => answer c .openSession (.ok [s₁.route.epoch]) (openSession c s₁)
      | some o =>
        if o = c.src then answer c .openSession (.ok [s₁.route.epoch]) (openSession c s₁)
        else answer c .openSession ⟨.owned, [o]⟩ s₁

/-- The commit state is VALIDATING. -/
def State.validating (s : State) : Bool := decide (s.route.commit ≠ .idle)

/-- CLOSE-SESSION executed with the expected SEQ (R131). -/
def runClose (c : Cmd) (s : State) : State :=
  if s.validating then answer c .closeSession .busy (record c .closeSession (.reply .busy) s)
  else answer c .closeSession (.ok []) (endSession s)

def serveClose (c : Cmd) (s : State) : State := serveSequenced .closeSession runClose c s

/-- R133: the session's idle time has passed the timeout, and no commit is validating. -/
def State.sessionIdle (s : State) : Bool :=
  s.session.owner.isSome && !s.validating &&
    match s.session.lastActivity with
    | none => false
    | some t => decide (1000 * s.relay.sessionTimeout.toNat < s.tick - t)

/-- R133: the session expires. -/
def expireSession (s : State) : State := countRelay .sessionExpired (endSession s)

/-- SESSION_EXPIRY (R133). -/
def execSessionExpiry (s : State) : Host.Outcome State Fault Refusal :=
  .next (if s.sessionIdle then expireSession s else s)

/-! ## Commit (R64 to R67, R138) -/

/-- R64, R69: the immediate reply of a COMMIT that does not begin validation. -/
def commitRefusal (args : List Byte) (s : State) : Option Reply :=
  match args with
  | [] => some .badArg
  | e :: _ =>
    if s.validating then some .busy
    else if e ≠ s.route.epoch then some ⟨.staleEpoch, [s.route.epoch]⟩
    else none

/-- R64, R138: validation begins; the pending mark and the deferred reply record are set. -/
def beginCommit (c : Cmd) (s : State) : State :=
  record c .commit .pending
    { s with route := { s.route with commit := .validating s.now }, deferred := some ⟨c.seq, c.src, c.port⟩ }

/-- COMMIT executed with the expected SEQ (R64). -/
def runCommit (c : Cmd) (s : State) : State :=
  match commitRefusal c.args s with
  | some r => answer c .commit r (record c .commit (.reply r) s)
  | none => beginCommit c s

def serveCommit (c : Cmd) (s : State) : State := serveSequenced .commit runCommit c s

/-- R138: the deferred reply replaces the pending mark of its COMMIT, if the mark still stands. -/
def Session.settleMark (d : Deferred) (r : Reply) (x : Session) : Session :=
  match x.cache with
  | none => x
  | some e => if e.content = .pending ∧ e.seq = d.seq then { x with cache := some { e with content := .reply r } } else x

/-- R138: the deferred reply is sent, and cached if its mark still stands. -/
def sendDeferred (r : Reply) (s : State) : State :=
  match s.deferred with
  | none => s
  | some d =>
    (sendReply d.src d.port d.seq Command.commit.code r
      { s with session := s.session.settleMark d r, deferred := none }).2

/-- R66, R67: validation's result on the table, and the reply it gives. -/
def finishValidation (s : State) : State × Reply :=
  match s.route.firstInvalid s.ownAddr with
  | some (i, why) =>
    ({ s with route := { s.route with commit := .idle } },
      ⟨.invalidTable, [BitVec.ofNat 8 i.val, why.code, s.route.epoch]⟩)
  | none => ({ s with route := s.route.switch }, .ok [s.route.epoch + 1])

/-- R65 to R67, R70, R133, R138: validation completes; the session expires at this event if its time has passed. -/
def completeCommit (s : State) : State :=
  let r := finishValidation s
  let s₁ := sendDeferred r.2 r.1
  if s₁.sessionIdle then expireSession s₁ else s₁

/-- VALIDATION_COMPLETE (R65). -/
def execValidationComplete (s : State) : Host.Outcome State Fault Refusal :=
  .next (if s.validating then completeCommit s else s)

/-! ## RESTART (R140) -/

/-- RESTART executed with the expected SEQ: the restart is pending on its reply, or takes place at once. -/
def runRestart (c : Cmd) (s : State) : State :=
  let r := sendReply c.src c.port c.seq Command.restart.code (.ok []) (record c .restart (.reply (.ok [])) s)
  match r.1 with
  | some b => { r.2 with restart := some (c.port, b) }
  | none => warmRestart r.2

def serveRestart (c : Cmd) (s : State) : State := serveSequenced .restart runRestart c s

/-! ## Rows -/

/-- OPEN_SESSION (R130). -/
def execOpenSession (c : Cmd) (s : State) : Host.Outcome State Fault Refusal := .next (manage serveOpen c s)

/-- CLOSE_SESSION (R131). -/
def execCloseSession (c : Cmd) (s : State) : Host.Outcome State Fault Refusal := .next (manage serveClose c s)

/-- COMMIT (R64). -/
def execCommit (c : Cmd) (s : State) : Host.Outcome State Fault Refusal := .next (manage serveCommit c s)

/-- RESTART (R140). -/
def execRestart (c : Cmd) (s : State) : Host.Outcome State Fault Refusal := .next (manage serveRestart c s)

end Sys2Proof.Machine
end

