-- ==== Sys2Proof/Machine/Reads.lean ====
section
/-! DEFINITION. The read-class commands (R63, R110, R111, R147, R150, R151, R154, R162): the data of their replies
(11.3, R167) and their rows. -/

namespace Sys2Proof.Machine

/-- A position index within a table of `n` positions. -/
def posOf (n : Nat) (x : Byte) : Option (Fin n) := if h : x.toNat < n then some ⟨x.toNat, h⟩ else none

/-- R151: the status picture, 36 bytes. -/
def statusPicture (s : State) : List Byte :=
  [s.ownAddr, s.route.epoch, boolByte s.validating, s.session.owner.getD 0, BitVec.ofNat 8 s.freeCount]
    ++ Port.all.map (fun p => BitVec.ofNat 8 (s.port p).queue.length)
    ++ Branch.all.map (fun b => (s.sched b).state.code)
    ++ Branch.all.flatMap (fun b => bytes32 (s.sched b).cycleCount)
    ++ [BitVec.ofNat 8 s.alarms.length] ++ bytes32 s.alarmsLost

def readStatusReply (_args : List Byte) (s : State) : Reply := .ok (statusPicture s)

/-- R147. -/
def readRelayReply (_args : List Byte) (s : State) : Reply := .ok (s.relay.bytes ++ [s.ownAddr])

/-- R150: the applied record and the pending one, 0x00 in each byte when none is held (R167). -/
def readPortReply (args : List Byte) (s : State) : Reply :=
  match args with
  | [] => .badArg
  | x :: _ =>
    match Port.ofCode x with
    | none => .badArg
    | some p =>
      .ok (x :: (s.port p).applied.bytes ++ [boolByte (s.port p).pendingConfig.isSome]
        ++ ((s.port p).pendingConfig.map PortConfig.bytes).getD (List.replicate 6 0))

/-- R152, R154: the counters of a part of a set; none where the set or the part does not exist. -/
def State.counterPart (s : State) (set part : Byte) : Option (List Word32) :=
  match Port.ofCode set with
  | some p =>
    if part = 0 then some (s.port p).counters.part0
    else if part = 1 then some (s.port p).counters.part1
    else none
  | none => if set = 6 ∧ part = 0 then some s.counters.part0 else none

/-- The data of READ-COUNTERS (11.3). -/
def countersData (set part : Byte) (xs : List Word32) : List Byte := set :: part :: xs.flatMap bytes32

/-- R154: a read without clear. -/
def readCountersReply (args : List Byte) (s : State) : Reply :=
  match args with
  | set :: part :: clear :: _ =>
    if clear = 0 then ((s.counterPart set part).map fun xs => Reply.ok (countersData set part xs)).getD .badArg
    else .badArg
  | _ => .badArg

/-- The occupancy, route record and hit counter of a position, 0x00 in each byte when it is empty (R63, R167). -/
def recordBytes : Option (RouteRecord × Word32) → List Byte
  | none => List.replicate 15 0
  | some (r, hits) => 0x01 :: r.bytes ++ bytes32 hits

/-- R63. -/
def readRecordReply (args : List Byte) (s : State) : Reply :=
  match args with
  | bank :: index :: _ =>
    match posOf 96 index with
    | none => .badArg
    | some i =>
      if bank = 0 then
        .ok (bank :: index :: s.route.epoch :: recordBytes ((s.route.active.get i).map fun a => (a.record, a.hits)))
      else if bank = 1 then
        .ok (bank :: index :: s.route.epoch :: recordBytes ((s.route.staging.get i).map fun r => (r, 0)))
      else .badArg
  | _ => .badArg

/-- R110. -/
def readPollEntryReply (args : List Byte) (s : State) : Reply :=
  match args with
  | [] => .badArg
  | x :: _ =>
    match posOf 32 x with
    | none => .badArg
    | some i => .ok (x :: pollEntryBytes (s.pollList.get i))

/-- R111. -/
def readStationReply (args : List Byte) (s : State) : Reply :=
  match args with
  | [] => .badArg
  | x :: _ =>
    match posOf 32 x with
    | none => .badArg
    | some i => .ok (x :: stationBytes (s.pollList.get i) (s.stations.get i) s.tick)

/-- R162: up to 6 records from a start index. -/
def readAlarmsReply (args : List Byte) (s : State) : Reply :=
  match args with
  | [] => .badArg
  | x :: _ =>
    if x.toNat > 15 then .badArg
    else .ok ([BitVec.ofNat 8 s.alarms.length] ++ bytes32 s.alarmsLost ++ [x]
      ++ ((s.alarms.drop x.toNat).take 6).flatMap (alarmBytes s.tick))

def serveReadStatus (c : Cmd) (s : State) : State := serveRead .readStatus readStatusReply c s
def serveReadRelay (c : Cmd) (s : State) : State := serveRead .readRelay readRelayReply c s
def serveReadPort (c : Cmd) (s : State) : State := serveRead .readPort readPortReply c s
def serveReadCounters (c : Cmd) (s : State) : State := serveRead .readCounters readCountersReply c s
def serveReadRecord (c : Cmd) (s : State) : State := serveRead .readRecord readRecordReply c s
def serveReadPollEntry (c : Cmd) (s : State) : State := serveRead .readPollEntry readPollEntryReply c s
def serveReadStation (c : Cmd) (s : State) : State := serveRead .readStation readStationReply c s
def serveReadAlarms (c : Cmd) (s : State) : State := serveRead .readAlarms readAlarmsReply c s

/-! ## Rows -/

/-- READ_STATUS (R151). -/
def execReadStatus (c : Cmd) (s : State) : Host.Outcome State Fault Refusal := .next (manage serveReadStatus c s)

/-- READ_RELAY (R147). -/
def execReadRelay (c : Cmd) (s : State) : Host.Outcome State Fault Refusal := .next (manage serveReadRelay c s)

/-- READ_PORT (R150). -/
def execReadPort (c : Cmd) (s : State) : Host.Outcome State Fault Refusal := .next (manage serveReadPort c s)

/-- READ_COUNTERS (R154). -/
def execReadCounters (c : Cmd) (s : State) : Host.Outcome State Fault Refusal := .next (manage serveReadCounters c s)

/-- READ_RECORD (R63). -/
def execReadRecord (c : Cmd) (s : State) : Host.Outcome State Fault Refusal := .next (manage serveReadRecord c s)

/-- READ_POLL_ENTRY (R110). -/
def execReadPollEntry (c : Cmd) (s : State) : Host.Outcome State Fault Refusal := .next (manage serveReadPollEntry c s)

/-- READ_STATION (R111). -/
def execReadStation (c : Cmd) (s : State) : Host.Outcome State Fault Refusal := .next (manage serveReadStation c s)

/-- READ_ALARMS (R162). -/
def execReadAlarms (c : Cmd) (s : State) : Host.Outcome State Fault Refusal := .next (manage serveReadAlarms c s)

end Sys2Proof.Machine
end

