-- ==== Sys2Proof/Machine/Writes.lean ====
section
/-! DEFINITION. The write-class commands whose result is their immediate reply (R60 to R62, R108, R109, R113, R114,
R145, R149, R155, R163), and their rows. A body is the execution with the expected SEQ (R134). -/

namespace Sys2Proof.Machine

/-! ## The staging bank (R60 to R62, R69) -/

def setStaging (i : Fin 96) (r : Option RouteRecord) (s : State) : State :=
  { s with route := { s.route with staging := s.route.staging.set i.val r i.isLt } }

/-- R60, R69: the encoding is checked before the commit state. -/
def writeRecordBody (args : List Byte) (s : State) : State × Reply :=
  match args with
  | index :: low :: high :: ing :: act :: egr :: rwp :: rw :: sp :: sl :: sh :: _ =>
    match posOf 96 index, RouteRecord.ofBytes low high ing act egr rwp rw sp sl sh with
    | some i, some r => if s.validating then (s, .busy) else (setStaging i (some r) s, .ok [])
    | _, _ => (s, .badArg)
  | _ => (s, .badArg)

/-- R61. -/
def clearRecordBody (args : List Byte) (s : State) : State × Reply :=
  match args with
  | [] => (s, .badArg)
  | index :: _ =>
    match posOf 96 index with
    | none => (s, .badArg)
    | some i => if s.validating then (s, .busy) else (setStaging i none s, .ok [])

/-- R62. -/
def discardStagingBody (_args : List Byte) (s : State) : State × Reply :=
  if s.validating then (s, .busy) else ({ s with route := s.route.revert }, .ok [])

/-! ## Configuration (R145, R149) -/

/-- R16, R17, R149: the record is applied at a quiet port, and held pending otherwise. -/
def setPortBody (args : List Byte) (s : State) : State × Reply :=
  match args with
  | x :: en :: dh :: dl :: gap :: turn :: mg :: _ =>
    match Port.ofCode x with
    | none => (s, .badArg)
    | some p =>
      match PortConfig.ofBytes p en dh dl gap turn mg with
      | none => (s, .badArg)
      | some c =>
        if s.quiet p then (applyConfig p c s, .ok [x, 0x00])
        else (s.modPort p fun q => { q with pendingConfig := some c }, .ok [x, 0x01])
  | _ => (s, .badArg)

/-- R145; a mirror window of 0 makes the duplicate memory absent (R48). -/
def setRelayBody (args : List Byte) (s : State) : State × Reply :=
  match args with
  | da :: pt :: mw :: rl :: st :: np :: na :: nps :: _ =>
    match RelayConfig.ofBytes s.ownAddr da pt mw rl st np na nps with
    | none => (s, .badArg)
    | some r => ({ s with relay := r, dup := if r.mirrorWindow = 0 then none else s.dup }, .ok [])
  | _ => (s, .badArg)

/-! ## The Poll List (R108, R109) -/

/-- A branch's scheduler is STOPPED. -/
def State.stopped (s : State) (b : Branch) : Bool := decide ((s.sched b).state = .stopped)

/-- The position holds no entry whose branch's scheduler is running (R108, R109). -/
def State.entryStopped (s : State) (i : Fin 32) : Bool := (s.pollList.get i).all fun e => s.stopped e.branch

/-- A position of the Poll List is written, and its status record reset (R107). -/
def setEntry (i : Fin 32) (e : Option PollEntry) (s : State) : State :=
  { s with pollList := s.pollList.set i.val e i.isLt, stations := s.stations.set i.val StationRecord.cold i.isLt }

/-- R108. -/
def writePollEntryBody (args : List Byte) (s : State) : State × Reply :=
  match args with
  | pos :: st :: br :: en :: ml :: len :: rest =>
    match posOf 32 pos, PollEntry.ofBytes s.ownAddr st br en ml len rest with
    | some i, some e =>
      if s.stopped e.branch = true ∧ s.entryStopped i = true then (setEntry i (some e) s, .ok []) else (s, .busy)
    | _, _ => (s, .badArg)
  | _ => (s, .badArg)

/-- R109. -/
def clearPollEntryBody (args : List Byte) (s : State) : State × Reply :=
  match args with
  | [] => (s, .badArg)
  | pos :: _ =>
    match posOf 32 pos with
    | none => (s, .badArg)
    | some i => if s.entryStopped i then (setEntry i none s, .ok []) else (s, .busy)

/-! ## POLL-CONTROL (R113, R114) -/

/-- The data of POLL-CONTROL's replies: the branch and its scheduler's state (11.3). -/
def schedData (b : Branch) (s : State) : List Byte := [Port.code b.port, (s.sched b).state.code]

/-- R113: START on a stopped scheduler with an enabled entry. -/
def startPolling (b : Branch) (i : Fin 32) (timeout : Byte) (interval : Word16) (s : State) : State :=
  enterReady b i (modSched b (fun x =>
    { x with replyTimeout := timeout, cycleInterval := interval, cycleCount := 0, cycleStart := s.tick }) s)

def startBody (b : Branch) (timeout : Byte) (interval : Word16) (s : State) : State × Reply :=
  if !s.stopped b then (s, ⟨.busy, schedData b s⟩)
  else match s.firstEntry b with
    | none => (s, ⟨.empty, schedData b s⟩)
    | some i =>
      let s₁ := startPolling b i timeout interval s
      (s₁, .ok (schedData b s₁))

/-- R114: a poll that has not been taken is given up, with its buffer if it has one. -/
def dropPoll (b : Branch) (s : State) : State :=
  let s₁ := match (s.sched b).buffer with
    | none => s
    | some buf => freeBuf buf s
  modSched b (fun x => { x with state := .stopped, cursor := none, buffer := none, station := none }) s₁

/-- R114: the action of a STOP in each state of the scheduler. -/
def stopPolling (b : Branch) (s : State) : State :=
  match (s.sched b).state with
  | .stopped | .stopping => s
  | .await => modSched b (fun x => { x with state := .stopping }) s
  | .waitInterval => modSched b (fun x => { x with state := .stopped, cursor := none }) s
  | .ready =>
    if (s.branch b).outstanding then modSched b (fun x => { x with state := .stopping }) s
    else dropPoll b s

def stopBody (b : Branch) (s : State) : State × Reply :=
  let s₁ := stopPolling b s
  (s₁, .ok (schedData b s₁))

/-- POLL-CONTROL's execution (R113, R114). -/
def pollControlBody (args : List Byte) (s : State) : State × Reply :=
  match args with
  | br :: act :: timeout :: hi :: lo :: _ =>
    match Branch.ofCode br with
    | none => (s, .badArg)
    | some b =>
      if act = 0x01 then
        if timeout.toNat < 2 then (s, .badArg) else startBody b timeout (word16 hi lo) s
      else if act = 0x02 then stopBody b s
      else (s, .badArg)
  | _ => (s, .badArg)

/-! ## ACK-ALARM (R163) and READ-COUNTERS with clear (R155) -/

/-- R163. -/
def ackAlarmBody (args : List Byte) (s : State) : State × Reply :=
  match args with
  | kind :: subject :: gen :: _ =>
    match AlarmKey.ofBytes kind subject with
    | none => (s, .badArg)
    | some key =>
      if gen = 0 then (s, .badArg)
      else match s.alarm? key with
        | none => (s, ⟨.notFound, []⟩)
        | some a =>
          if a.generation ≠ gen then (s, ⟨.recurred, [a.generation]⟩)
          else
            let left := s.alarms.filter fun x => !decide (x.key = key)
            ({ s with alarms := left }, .ok [BitVec.ofNat 8 left.length])
  | _ => (s, .badArg)

/-- R155: every counter of a part set to 0. -/
def clearPart (set part : Byte) (s : State) : State :=
  match Port.ofCode set with
  | some p =>
    s.modPort p fun q =>
      { q with counters := if part = 0 then q.counters.clear0 else q.counters.clear1 }
  | none => { s with counters := RelayCounters.zero }

/-- R155: the part is read and cleared at one event. -/
def readCountersClearBody (args : List Byte) (s : State) : State × Reply :=
  match args with
  | set :: part :: _ =>
    match s.counterPart set part with
    | none => (s, .badArg)
    | some xs => (clearPart set part s, .ok (countersData set part xs))
  | _ => (s, .badArg)

/-! ## Serving -/

def serveWriteRecord (c : Cmd) (s : State) : State :=
  serveSequenced .writeRecord (runBody .writeRecord writeRecordBody) c s
def serveClearRecord (c : Cmd) (s : State) : State :=
  serveSequenced .clearRecord (runBody .clearRecord clearRecordBody) c s
def serveDiscardStaging (c : Cmd) (s : State) : State :=
  serveSequenced .discardStaging (runBody .discardStaging discardStagingBody) c s
def serveSetPort (c : Cmd) (s : State) : State := serveSequenced .setPort (runBody .setPort setPortBody) c s
def serveSetRelay (c : Cmd) (s : State) : State := serveSequenced .setRelay (runBody .setRelay setRelayBody) c s
def serveWritePollEntry (c : Cmd) (s : State) : State :=
  serveSequenced .writePollEntry (runBody .writePollEntry writePollEntryBody) c s
def serveClearPollEntry (c : Cmd) (s : State) : State :=
  serveSequenced .clearPollEntry (runBody .clearPollEntry clearPollEntryBody) c s
def servePollControl (c : Cmd) (s : State) : State :=
  serveSequenced .pollControl (runBody .pollControl pollControlBody) c s
def serveAckAlarm (c : Cmd) (s : State) : State := serveSequenced .ackAlarm (runBody .ackAlarm ackAlarmBody) c s
def serveReadCountersClear (c : Cmd) (s : State) : State :=
  serveSequenced .readCounters (runBody .readCounters readCountersClearBody) c s

/-! ## Rows -/

/-- WRITE_RECORD (R60). -/
def execWriteRecord (c : Cmd) (s : State) : Host.Outcome State Fault Refusal := .next (manage serveWriteRecord c s)

/-- CLEAR_RECORD (R61). -/
def execClearRecord (c : Cmd) (s : State) : Host.Outcome State Fault Refusal := .next (manage serveClearRecord c s)

/-- DISCARD_STAGING (R62). -/
def execDiscardStaging (c : Cmd) (s : State) : Host.Outcome State Fault Refusal :=
  .next (manage serveDiscardStaging c s)

/-- SET_PORT (R149). -/
def execSetPort (c : Cmd) (s : State) : Host.Outcome State Fault Refusal := .next (manage serveSetPort c s)

/-- SET_RELAY (R145). -/
def execSetRelay (c : Cmd) (s : State) : Host.Outcome State Fault Refusal := .next (manage serveSetRelay c s)

/-- WRITE_POLL_ENTRY (R108). -/
def execWritePollEntry (c : Cmd) (s : State) : Host.Outcome State Fault Refusal :=
  .next (manage serveWritePollEntry c s)

/-- CLEAR_POLL_ENTRY (R109). -/
def execClearPollEntry (c : Cmd) (s : State) : Host.Outcome State Fault Refusal :=
  .next (manage serveClearPollEntry c s)

/-- POLL_CONTROL_START (R113). -/
def execPollControlStart (c : Cmd) (s : State) : Host.Outcome State Fault Refusal :=
  .next (manage servePollControl c s)

/-- POLL_CONTROL_STOP (R114). -/
def execPollControlStop (c : Cmd) (s : State) : Host.Outcome State Fault Refusal :=
  .next (manage servePollControl c s)

/-- ACK_ALARM (R163). -/
def execAckAlarm (c : Cmd) (s : State) : Host.Outcome State Fault Refusal := .next (manage serveAckAlarm c s)

/-- READ_COUNTERS_CLEAR (R155). -/
def execReadCountersClear (c : Cmd) (s : State) : Host.Outcome State Fault Refusal :=
  .next (manage serveReadCountersClear c s)

end Sys2Proof.Machine
end

