-- ==== Sys2Proof/Machine/Forward.lean ====
section
/-! DEFINITION. The forwarding engine (R81 to R89), local delivery to the management unit (R125, R127, R128), and
the row DISPOSITION. -/

namespace Sys2Proof.Machine

/-! ## Management commands (R84, R125 to R128) -/

/-- R128: READ-COUNTERS is write-class when its clear indication asks for a clear. -/
def asksClear (args : List Byte) : Bool := args[2]? == some 0x01#8

/-- R128: a command of a known code is served. -/
def serveCommand (k : Command) (c : Cmd) (s : State) : State :=
  match k with
  | .readStatus => serveReadStatus c s
  | .readRelay => serveReadRelay c s
  | .readPort => serveReadPort c s
  | .readCounters => if asksClear c.args then serveReadCountersClear c s else serveReadCounters c s
  | .readRecord => serveReadRecord c s
  | .readPollEntry => serveReadPollEntry c s
  | .readStation => serveReadStation c s
  | .readAlarms => serveReadAlarms c s
  | .openSession => serveOpen c s
  | .closeSession => serveClose c s
  | .writeRecord => serveWriteRecord c s
  | .clearRecord => serveClearRecord c s
  | .discardStaging => serveDiscardStaging c s
  | .commit => serveCommit c s
  | .setPort => serveSetPort c s
  | .setRelay => serveSetRelay c s
  | .writePollEntry => serveWritePollEntry c s
  | .clearPollEntry => serveClearPollEntry c s
  | .pollControl => servePollControl c s
  | .ackAlarm => serveAckAlarm c s
  | .restart => serveRestart c s

/-- R127: a command whose code is unknown is answered BAD_COMMAND, unsequenced. -/
def serveUnknown (code : Byte) (c : Cmd) (s : State) : State :=
  if s.restart.isSome then discardCommand s
  else (sendReply c.src c.port c.seq code ⟨.badCommand, []⟩ (refresh c s)).2

/-- R125, R127: the payload of a MGMT-CMD handed to the management unit. -/
def handCommand (src : Byte) (p : Port) (payload : List Byte) (s : State) : State :=
  match payload with
  | seq :: code :: args =>
    match Command.ofCode code with
    | some k => serveCommand k ⟨src, p, seq, args⟩ s
    | none => serveUnknown code ⟨src, p, seq, args⟩ s
  | _ => discardCommand s

/-! ## Dispositions (R83 to R86) -/

/-- R84, R85: local delivery by CTL; the buffer has returned to FREE. -/
def deliverLocal (p : Port) (f : List Byte) (s : State) : State :=
  if frameCtl f = ctlMgmtCmd then
    if (s.port p).applied.mgmtAllowed then handCommand (frameSrc f) p (framePayload f) s
    else countRelay .mgmtRefused s
  else if frameCtl f = ctlReply then handReply p (frameSrc f) (framePayload f) s
  else countRelay .localUnknown s

/-- R87: the copy set, in port order: the egress set less the ingress port and disabled ports. -/
def State.copySet (s : State) (p : Port) (egress : PortSet) : List Port :=
  Port.all.filter fun x => PortSet.mem egress x && !decide (x = p) && (s.port x).applied.enabled

/-- R88: one append for each port of the copy set; the first component counts the copies placed. -/
def placeCopies (b : BufId) (rewrite : Option Byte) : List Port → State → Nat × State
  | [], s => (0, s)
  | x :: xs, s =>
    if (s.port x).queue.length < Config.queueRoom then
      let r := placeCopies b rewrite xs (enqueue x ⟨b, .forward, rewrite, some s.tick⟩ s)
      (r.1 + 1, r.2)
    else placeCopies b rewrite xs (raise (.queueOverflow x) (countPort x .queueOverflows s))

/-- R87 to R89: a FORWARD result is copied, and the frame handed over or counted UNDELIVERED. -/
def copyFrame (b : BufId) (p : Port) (egress : PortSet) (rewrite : Option Byte) (s : State) : State :=
  let r := placeCopies b rewrite (s.copySet p egress) s
  let s₁ := handOver b r.1 r.2
  if r.1 = 0 then countRelay .undelivered s₁ else s₁

/-- R86: a frame sent to lookup. -/
def forwardFrame (b : BufId) (p : Port) (f : List Byte) (s : State) : State :=
  match lookUp (frameDest f) (frameSrc f) p s with
  | (.drop, s₁) => freeBuf b s₁
  | (.forward egress rewrite, s₁) => copyFrame b p egress rewrite s₁

/-- R83: the disposition of one frame taken from the inbound list. A frame for the relay itself has its buffer FREE
before it is delivered: of a command's reply the note of R84 says so; of an accepted REPLY whose poll's end asks for the
next POLL frame's buffer in the same event (R85, R122, R77) the spec leaves the order open: DESIGN CHOICE (log 30). -/
def dispose (e : Inbound) (s : State) : State :=
  let f := (s.pool.get e.buf).bytes
  if frameDest f = 0 then countRelay .badDest (freeBuf e.buf s)
  else if frameDest f = s.ownAddr then deliverLocal e.port f (freeBuf e.buf s)
  else forwardFrame e.buf e.port f s

/-- DISPOSITION (R82): the head of the inbound list is taken; the next frame reaches the head now. -/
def execDisposition (s : State) : Host.Outcome State Fault Refusal :=
  .next (match s.inbound with
    | [] => s
    | e :: rest => dispose e { s with inbound := rest, headSince := s.now })

end Sys2Proof.Machine
end

