-- ==== Sys2Proof/Machine/Receive.lean ====
section
/-! DEFINITION. The receivers (R3 to R9): the rows of the line's events, and what a transition of an RXD pin does. -/

namespace Sys2Proof.Machine

/-! ## Start edges (R4) -/

/-- A candidate start edge whose three samples have been taken: the decision, nine sampling periods after it. -/
def PortState.decision (q : PortState) : Option Level :=
  match q.rx.mode, q.rx.edge, q.rx.samples with
  | .idle, some _, [a, b, c] => some (majority a b c)
  | _, _, _ => none

/-- The receiver enters CHAR (R4). -/
def PortState.acceptEdge (q : PortState) : PortState := { q with rx := { q.rx with mode := .char } }

/-- START_EDGE (R4). -/
def execStartEdge (p : Port) (s : State) : Host.Outcome State Fault Refusal :=
  .next (if (s.port p).decision = some .space then s.modPort p PortState.acceptEdge else s)

/-- R4, R9: the edge is dropped; the line's last activity is its return to mark, if it has returned (log 23). -/
def PortState.rejectEdge (q : PortState) : PortState :=
  let q' := { q with rx := { q.rx with edge := none, samples := [] } }
  if q.rxd = .mark then q'.returned q.rx.since else q'

/-- FALSE_START (R4). -/
def execFalseStart (p : Port) (s : State) : Host.Outcome State Fault Refusal :=
  .next (if (s.port p).decision = some .mark then s.modPort p PortState.rejectEdge else s)

/-! ## Characters (R5, R6) -/

/-- The receiver returns to IDLE (R5). The character's end, a little ahead of its delivery, counts as the line's last
activity from now on, so that no transmitter starts before it, and is set anew when it comes (R9, R11; log 6). -/
def PortState.endCharacter (ch : Character) (q : PortState) : PortState :=
  ({ q with charEnd := some ch.stop, rx := { q.rx with mode := .idle, edge := none, samples := [] } }).touch ch.stop

/-- Time comes to an instant. The end of a delivered character that it reaches is the line's last activity, in place of
any set since the delivery, if the line is at mark then; if it is still at space, the later return to mark is (R9,
R11). -/
def PortState.passEnd (now : Nat) (q : PortState) : PortState :=
  match q.charEnd with
  | none => q
  | some e =>
    if e ≤ now then
      let q' := { q with charEnd := none }
      if q.rxd = .mark then q'.touch e else q'
    else q

/-- R5, R6: the counters of a delivered character. -/
def countCharacter (p : Port) (ch : Character) (noisy : Bool) (s : State) : State :=
  let s₁ := countPort p .charsIn s
  let s₂ := if noisy then countPort p .noisyChars s₁ else s₁
  if ch.errored then countPort p .framingErrors s₂ else s₂

/-- CHARACTER_DELIVERED (R5). -/
def execCharacterDelivered (p : Port) (s : State) : Host.Outcome State Fault Refusal :=
  .next (match (s.port p).dueCharacter with
    | none => s
    | some ch =>
      assemble p ch ((countCharacter p ch (sampledNoisy (s.port p).rx.samples) s).modPort p
        (PortState.endCharacter ch)))

/-! ## Breaks (R7, R8) -/

/-- R7: the receiver listens, is not in BREAK, and the space run has reached 22 bit times. -/
def State.breakDue (s : State) (p : Port) : Bool :=
  let q := s.port p
  s.listening p && decide (q.rx.mode ≠ .brk) && decide (q.rxd = .space)
    && decide (q.rx.since + q.applied.bitTimes 22 ≤ s.now)

/-- The receiver enters BREAK; a character or an evaluation in progress is given up. -/
def PortState.enterBreak (q : PortState) : PortState :=
  { q with rx := { q.rx with mode := .brk, edge := none, samples := [] } }

/-- BREAK_ENTRY (R7). The raise comes before the assembler is told: the LINE_BREAK notification asks the pool before a
reception in COLLECT frees its buffer (R33, R77). The spec leaves that order open: DESIGN CHOICE (log 27). -/
def execBreakEntry (p : Port) (s : State) : Host.Outcome State Fault Refusal :=
  .next (if s.breakDue p then
    breakAssembler p (raise (.lineBreak p) ((countPort p .breaks s).modPort p PortState.enterBreak))
  else s)

/-- R8: in BREAK, the line has been at mark for 11 bit times. -/
def State.breakOver (s : State) (p : Port) : Bool :=
  let q := s.port p
  s.listening p && decide (q.rx.mode = .brk) && decide (q.rxd = .mark)
    && decide (q.rx.since + q.applied.bitTimes 11 ≤ s.now)

/-- BREAK_EXIT (R8). -/
def execBreakExit (p : Port) (s : State) : Host.Outcome State Fault Refusal :=
  .next (if s.breakOver p then s.modPort p fun q => { q with rx := { q.rx with mode := .idle } } else s)

/-! ## Returns of the line (R8, R9) -/

/-- R9: the line is at space outside a character: after a framing error, since the beginning of listening, after a
rejected edge, or during BREAK. -/
def State.awaitsMark (s : State) (p : Port) : Bool :=
  let q := s.port p
  s.listening p && decide (q.rxd = .space) &&
    (decide (q.rx.mode = .brk) || (decide (q.rx.mode = .idle) && q.rx.edge.isNone))

/-- The line goes to a level at an instant, from which its space run or mark count is counted. -/
def PortState.setLine (now : Nat) (l : Level) (q : PortState) : PortState :=
  { q with rxd := l, rx := { q.rx with since := now } }

/-- The line returns to mark, and that is its last activity (R9). -/
def PortState.toMark (now : Nat) (q : PortState) : PortState := (q.setLine now .mark).touch now

/-- RETURN_TO_MARK (R9). -/
def execReturnToMark (p : Port) (s : State) : Host.Outcome State Fault Refusal :=
  .next (if s.awaitsMark p then s.modPort p (PortState.toMark s.now) else s)

/-- R8: in BREAK with the line at mark. -/
def State.breakAtMark (s : State) (p : Port) : Bool :=
  let q := s.port p
  s.listening p && decide (q.rx.mode = .brk) && decide (q.rxd = .mark)

/-- RETURN_TO_SPACE_IN_BREAK (R8). -/
def execReturnToSpaceInBreak (p : Port) (s : State) : Host.Outcome State Fault Refusal :=
  .next (if s.breakAtMark p then s.modPort p (PortState.setLine s.now .space) else s)

/-! ## Transitions of the pin (log 4) -/

/-- A candidate start edge (R4). -/
def PortState.openEdge (now : Nat) (q : PortState) : PortState :=
  { q with rxd := .space, rx := { q.rx with edge := some now, samples := [], since := now } }

/-- What a level on the RXD pin does at an instant, `hears` saying whether the receiver listens. In IDLE a transition
to space opens an evaluation; during one, and in CHAR, transitions only move the space run; elsewhere the returns of R8
and R9 apply. At the instant of an application that set the receiver listening, the transition is found as a line at
space: it begins a space run and is no candidate (R17, R3). At the instant at which a cold reset, a warm restart or a
sending ends, R3 leaves open which of the two a transition taken after that end is; it is a candidate: DESIGN CHOICE
(log 31). -/
def PortState.lineTo (hears : Bool) (now : Nat) (l : Level) (q : PortState) : PortState :=
  if q.rxd = l then q
  else if !hears then { q with rxd := l }
  else match l, q.rx.mode, q.rx.edge with
    | .space, .idle, none => if q.retuned = some now then q.setLine now .space else q.openEdge now
    | .space, _, _ => q.setLine now .space
    | .mark, .char, _ => q.setLine now .mark
    | .mark, _, _ => q.toMark now

/-- R4, R5: whether a sampling period after the edge is one of the three centre samples of a bit. -/
def isSamplePeriod (k : Nat) : Bool := decide (7 ≤ k % 16 ∧ k % 16 ≤ 9)

/-- A sampling period has passed at an instant: a sample of the line is taken (R4, R5). -/
def PortState.sample (now : Nat) (q : PortState) : PortState :=
  match q.rx.edge with
  | none => q
  | some e =>
    let d := q.applied.divisor.toNat
    if (now - e) % d = 0 ∧ e < now ∧ isSamplePeriod ((now - e) / d) = true ∧ q.rx.samples.length < 33 then
      { q with rx := { q.rx with samples := q.rx.samples ++ [q.rxd] } }
    else q

end Sys2Proof.Machine
end

