-- ==== Sys2Proof/Machine/Clock.lean ====
section
/-! DEFINITION. What the part does when no command waits (log 2): the steps that are due, the inputs on its lines,
and the passing of one reference clock cycle. -/

namespace Sys2Proof.Machine

/-- One thing that can come next while no command waits. -/
inductive Idle where
  /-- a step of the part itself -/
  | run (i : Instr)
  /-- the next transition of an RXD pin -/
  | input
  /-- one reference clock cycle passes -/
  | advance
  deriving DecidableEq, Repr

/-- The transmitter of a port can start now (R11). -/
def State.canStart (s : State) (p : Port) : Bool :=
  match (s.port p).tx with
  | .waitLine _ => s.lineQuiet p
  | .idle | .sending _ _ => false

/-- The frame a port sends has ended (R14). -/
def State.hasSent (s : State) (p : Port) : Bool :=
  match (s.port p).tx with
  | .sending d start => decide (s.sendingEnds p d start ≤ s.now)
  | .idle | .waitLine _ => false

/-- A pending configuration can be applied now (R17). -/
def State.canApply (s : State) (p : Port) : Bool := (s.port p).pendingConfig.isSome && s.quiet p

/-- The steps of a list whose condition holds. -/
def dueOf (xs : List (Bool × Instr)) : List Instr := (xs.filter fun x => x.1).map fun x => x.2

/-- The steps of one port that take place at this instant. -/
def State.portSteps (s : State) (p : Port) : List Instr :=
  dueOf [
    (decide ((s.port p).decision = some .space), .startEdge p),
    (decide ((s.port p).decision = some .mark), .falseStart p),
    ((s.port p).dueCharacter.isSome, .characterDelivered p),
    (s.breakDue p, .breakEntry p),
    (s.breakOver p, .breakExit p),
    (s.gapExpired p, .gapExpiry p),
    (s.hasSent p, .endOfSending p),
    (s.canApply p, .applyPendingConfig p),
    (s.canTake p, .take p),
    (s.canStart p, .transmitStart p)]

/-- The steps of one branch's scheduler that take place at this instant. -/
def State.branchSteps (s : State) (b : Branch) : List Instr :=
  dueOf [(s.canRetry b, .pollBufferRetry b), (s.canTimeOut b, .replyTimeout b), (s.canCycle b, .newCycle b)]

/-- The bound of R82 on the disposition of the head frame has been reached. -/
def State.mustDispose (s : State) : Bool :=
  !s.inbound.isEmpty && decide (s.headSince + Config.dispositionBound ≤ s.now)

/-- The bound of R65 on validation has been reached. -/
def State.mustComplete (s : State) : Bool :=
  match s.route.commit with
  | .idle => false
  | .validating start => decide (start + Config.validationBound ≤ s.now)

/-- The steps that the spec places at the first instant of their condition, or whose bound has been reached: no
time passes before they are taken. -/
def State.dueSteps (s : State) : List Instr :=
  List.append (Port.all.flatMap s.portSteps) (List.append (Branch.all.flatMap s.branchSteps)
    (dueOf [(s.dupExpired, .duplicateMemoryExpiry), (s.sessionIdle, .sessionExpiry),
      (s.mustDispose, .disposition), (s.mustComplete, .validationComplete)]))

/-- The steps that may come now or later, within their bound (R65, R82; log 15). -/
def State.openSteps (s : State) : List Instr :=
  dueOf [(!s.inbound.isEmpty && !s.mustDispose, .disposition), (s.validating && !s.mustComplete, .validationComplete)]

/-- A transition of an RXD pin has its instant now. -/
def State.inputDue (s : State) : Bool :=
  match s.lineInput with
  | [] => false
  | i :: _ => decide (i.instant ≤ s.now)

/-- What else can come next: an input that is due, or, when no step and no input is, the passing of time. -/
def State.otherOptions (s : State) : List Idle :=
  if s.inputDue then [.input] else if s.dueSteps.isEmpty then [.advance] else []

/-- Everything that can come next while no command waits. Time passes only when no step is due and no input is. -/
def State.idleOptions (s : State) : List Idle :=
  List.append ((List.append s.dueSteps s.openSteps).map .run) s.otherOptions

/-- One of several options by a number; the only one where there is one. -/
def pickIdle (k : Nat) : List Idle → Idle
  | [] => .advance
  | [x] => x
  | x :: y :: rest => (x :: y :: rest).getD (k % (rest.length + 2)) x

/-- What comes next while no command waits: the free value picks where the spec leaves the order open (log 3). -/
def State.idleChoice (s : State) : Idle := pickIdle (Config.choice s.choices) s.idleOptions

/-- The next transition of an RXD pin takes place (log 4). -/
def takeInput (s : State) : State :=
  match s.lineInput with
  | [] => s
  | i :: rest => { s with lineInput := rest }.modPort i.port (PortState.lineTo (s.listening i.port) s.now i.level)

/-- One reference clock cycle passes; an edge that came first in a tie is remembered (R17), a character's end that the
cycle reaches is the line's last activity (R9), and the receivers whose sampling period ends take their samples (R4,
R5). -/
def advance (s : State) : State :=
  { s with now := s.now + 1, ports := PerPort.of fun p => ((s.holdEdge p).passEnd (s.now + 1)).sample (s.now + 1) }

end Sys2Proof.Machine
end

