-- ==== Sys2Proof/Machine/Reset.lean ====
section
/-! DEFINITION. The two resets: the rows COLD_RESET and WARM_RESTART. -/

namespace Sys2Proof.Machine

/-- The state at the end of a cold reset (R169). The lines keep their levels and time goes on; the commands and
inputs that wait are the outside's and stay (log 12). -/
def coldReset (addr : BitVec 4) (transparent : Bool) (s : State) : State :=
  { State.afterReset addr transparent (fun p => (s.port p).rxd) s.now with
    pending := s.pending, lineInput := s.lineInput, choices := s.choices }

/-- A cold reset begins (R169, R15): whatever is in progress is cut off, and every block rests at its cold values
until the reset ends. The straps are not sampled yet. -/
def enterReset (s : State) : State := { coldReset s.addrStrap s.transparentStrap s with inReset := true }

/-- COLD_RESET (R169): RESETn goes low, and the part is held in reset; it goes high, the straps are sampled, and the
reset ends. While none is in progress RESETn is high already, and nothing comes about (log 7, log 12). -/
def execColdReset (resetn : ResetPin) (straps : Straps) (s : State) : Host.Outcome State Fault Refusal :=
  .next (match resetn with
    | .low => enterReset s
    | .high => if s.inReset then coldReset straps.addr straps.transparent s else s)

/-- WARM_RESTART (R140, R142): a pending restart takes place once its reply has been released, and not while the
reply is queued or being sent. The events that release the reply run it themselves (log 9). -/
def execWarmRestart (s : State) : Host.Outcome State Fault Refusal := .next (settleRestart s)

end Sys2Proof.Machine
end

