-- ==== Sys2Proof/Machine/Dispatch.lean ====
section
/-! DEFINITION. One arm per command: the meaning it calls. -/

namespace Sys2Proof.Machine

def exec (i : Instr) (s : State) : Host.Outcome State Fault Refusal :=
  match i with
  | .coldReset resetn straps => Sys2Proof.Machine.execColdReset resetn straps s
  | .warmRestart => Sys2Proof.Machine.execWarmRestart s
  | .characterDelivered p => Sys2Proof.Machine.execCharacterDelivered p s
  | .falseStart p => Sys2Proof.Machine.execFalseStart p s
  | .breakEntry p => Sys2Proof.Machine.execBreakEntry p s
  | .breakExit p => Sys2Proof.Machine.execBreakExit p s
  | .gapExpiry p => Sys2Proof.Machine.execGapExpiry p s
  | .duplicateMemoryExpiry => Sys2Proof.Machine.execDuplicateMemoryExpiry s
  | .disposition => Sys2Proof.Machine.execDisposition s
  | .take p => Sys2Proof.Machine.execTake p s
  | .transmitStart p => Sys2Proof.Machine.execTransmitStart p s
  | .endOfSending p => Sys2Proof.Machine.execEndOfSending p s
  | .applyPendingConfig p => Sys2Proof.Machine.execApplyPendingConfig p s
  | .pollBufferRetry b => Sys2Proof.Machine.execPollBufferRetry b s
  | .replyTimeout b => Sys2Proof.Machine.execReplyTimeout b s
  | .newCycle b => Sys2Proof.Machine.execNewCycle b s
  | .validationComplete => Sys2Proof.Machine.execValidationComplete s
  | .sessionExpiry => Sys2Proof.Machine.execSessionExpiry s
  | .readStatus c => Sys2Proof.Machine.execReadStatus c s
  | .readRelay c => Sys2Proof.Machine.execReadRelay c s
  | .readPort c => Sys2Proof.Machine.execReadPort c s
  | .readCounters c => Sys2Proof.Machine.execReadCounters c s
  | .readCountersClear c => Sys2Proof.Machine.execReadCountersClear c s
  | .readRecord c => Sys2Proof.Machine.execReadRecord c s
  | .readPollEntry c => Sys2Proof.Machine.execReadPollEntry c s
  | .readStation c => Sys2Proof.Machine.execReadStation c s
  | .readAlarms c => Sys2Proof.Machine.execReadAlarms c s
  | .openSession c => Sys2Proof.Machine.execOpenSession c s
  | .closeSession c => Sys2Proof.Machine.execCloseSession c s
  | .writeRecord c => Sys2Proof.Machine.execWriteRecord c s
  | .clearRecord c => Sys2Proof.Machine.execClearRecord c s
  | .discardStaging c => Sys2Proof.Machine.execDiscardStaging c s
  | .commit c => Sys2Proof.Machine.execCommit c s
  | .setPort c => Sys2Proof.Machine.execSetPort c s
  | .setRelay c => Sys2Proof.Machine.execSetRelay c s
  | .writePollEntry c => Sys2Proof.Machine.execWritePollEntry c s
  | .clearPollEntry c => Sys2Proof.Machine.execClearPollEntry c s
  | .pollControlStart c => Sys2Proof.Machine.execPollControlStart c s
  | .pollControlStop c => Sys2Proof.Machine.execPollControlStop c s
  | .ackAlarm c => Sys2Proof.Machine.execAckAlarm c s
  | .restart c => Sys2Proof.Machine.execRestart c s
  | .startEdge p => Sys2Proof.Machine.execStartEdge p s
  | .returnToMark p => Sys2Proof.Machine.execReturnToMark p s
  | .returnToSpaceInBreak p => Sys2Proof.Machine.execReturnToSpaceInBreak p s

end Sys2Proof.Machine
end

