-- ==== Sys2Proof/Machine/Step.lean ====
section
/-! DEFINITION. One step: the command at the front of the queue, or what comes next while none waits. -/

namespace Sys2Proof.Machine

/-- A step while no command waits (log 2). -/
def idleStep (s : State) : Host.Outcome State Fault Refusal :=
  match s.idleChoice with
  | .run i => exec i { s with choices := s.choices + 1 }
  | .input => .next (takeInput { s with choices := s.choices + 1 })
  | .advance => .next (advance { s with choices := s.choices + 1 })

/-- The command at the front of the queue is taken and run on the queue's rest. -/
def step (s : State) : Host.Outcome State Fault Refusal :=
  match s.pending with
  | c :: rest => exec c { s with pending := rest }
  | [] => idleStep s

/-- The state with the command a word spells at the front of its queue; no word spells one (log 16). -/
def State.withFetchWord (s : State) (nbits w : Nat) : State :=
  match decodeTableWord nbits w with
  | some c => { s with pending := c :: s.pending }
  | none => s

end Sys2Proof.Machine
end

