-- ==== Sys2Proof/WellFormed.lean ====
section
/-! DEFINITION. Which commands are well formed: the argument bytes fit a frame, and a row that shares its
command code with another row carries the argument that makes it this row. -/

namespace Sys2Proof

/-- R125: the arguments take from 0 to 58 bytes. -/
def Cmd.wf (c : Cmd) : Bool := decide (c.args.length ≤ 58)

/-- R128: READ-COUNTERS asks for a clear when its third argument, the clear indication, is 0x01. -/
def Cmd.asksClear (c : Cmd) : Bool := c.args[2]? == some 0x01#8

/-- R113, R114: POLL-CONTROL asks for a stop when its second argument, the action, is 0x02. -/
def Cmd.asksStop (c : Cmd) : Bool := c.args[1]? == some 0x02#8

/-- The check on a command. READ_COUNTERS is the row without a clear, POLL_CONTROL_START the row whose action is
not STOP (log 19). -/
def Instr.wf : Instr → Bool
  | .coldReset _ _ | .warmRestart | .characterDelivered _ | .falseStart _ | .breakEntry _ | .breakExit _
  | .gapExpiry _ | .duplicateMemoryExpiry | .disposition | .take _ | .transmitStart _ | .endOfSending _
  | .applyPendingConfig _ | .pollBufferRetry _ | .replyTimeout _ | .newCycle _ | .validationComplete
  | .sessionExpiry | .startEdge _ | .returnToMark _ | .returnToSpaceInBreak _ => true
  | .readStatus c | .readRelay c | .readPort c | .readRecord c | .readPollEntry c | .readStation c
  | .readAlarms c | .openSession c | .closeSession c | .writeRecord c | .clearRecord c | .discardStaging c
  | .commit c | .setPort c | .setRelay c | .writePollEntry c | .clearPollEntry c | .ackAlarm c
  | .restart c => c.wf
  | .readCounters c => c.wf && !c.asksClear
  | .readCountersClear c => c.wf && c.asksClear
  | .pollControlStart c => c.wf && !c.asksStop
  | .pollControlStop c => c.wf && c.asksStop

end Sys2Proof
end

