-- ==== Sys2Proof/Safety.lean ====
section
/-! DEFINITION. What holds of a sound state of the relay, and the words the claims use: the invariants of the spec's
prose, when a command is served or accepted, and the states that the spec's common effects leave. -/

namespace Sys2Proof.Machine

/-! ## Invariants -/

/-- R92, R157: an egress queue holds at most 8 descriptors; the alarm list holds at most 16 records, no two with the
same key. -/
def State.Bounded (s : State) : Prop :=
  (∀ p, (s.port p).queue.length ≤ 8) ∧ s.alarms.length ≤ 16 ∧ (s.alarms.map (·.key)).Nodup

/-- R54: the five conditions of a valid route record, in the spec's words. -/
def RouteRecord.Valid (own : Byte) (r : RouteRecord) : Prop :=
  (1 ≤ r.low.toNat ∧ r.low.toNat ≤ r.high.toNat)
  ∧ r.ingress ≠ 0
  ∧ ((r.action = .forward → r.egress ≠ 0) ∧ (r.action = .drop → r.egress = 0))
  ∧ (∀ a, r.rewrite = some a → r.action = .forward ∧ 1 ≤ a.toNat ∧ a.toNat ≤ 254 ∧ a ≠ own)
  ∧ (∀ l h, r.source = some (l, h) → 1 ≤ l.toNat ∧ h.toNat ≤ 254 ∧ l.toNat ≤ h.toNat)

/-- R67: every record of the active bank is valid. -/
def State.TableValid (s : State) : Prop :=
  ∀ i a, s.route.active.get i = some a → a.record.Valid s.ownAddr

/-- R73: while no session is open no commit validates, and the staging bank equals the active bank. -/
def State.StagingFollows (s : State) : Prop :=
  s.session.owner = none →
    s.route.commit = .idle ∧ ∀ i, s.route.staging.get i = (s.route.active.get i).map (·.record)

/-- R39: a trunk holds the grant exactly while its assembler is in COLLECT. -/
def State.GrantHeld (s : State) : Prop :=
  ∀ t : Trunk, s.grant = some t ↔ ∃ c, (s.port t.port).asm = .collect c

/-- The descriptors of a port: its current slot's and its queue's. -/
def PortState.descriptors (q : PortState) : List Descriptor := q.tx.slot.toList ++ q.queue

/-- The number of descriptors, queued or in a current slot, that refer to a buffer (R76). -/
def State.refs (s : State) (b : BufId) : Nat :=
  (Port.all.flatMap fun p => (s.port p).descriptors).countP fun d => d.buf == b

/-- What the state of one buffer says (R75, R76, R81): a FILLING buffer is its assembler's or its scheduler's, a
READY one stands once in the inbound list, a HELD one has as many references as descriptors and at least one, and no
descriptor refers to any other. -/
def State.BufferSound (s : State) (b : BufId) : Prop :=
  match (s.pool.get b).use with
  | .free => s.refs b = 0
  | .filling (.assembler p) => s.refs b = 0 ∧ ∃ c, (s.port p).asm = .collect c ∧ c.buf = b
  | .filling (.poll x) => s.refs b = 0 ∧ (s.branch x).sched.buffer = some b
  | .filling .management => False
  | .filling .alarms => False
  | .ready => s.refs b = 0 ∧ (s.inbound.countP fun e => e.buf == b) = 1
  | .held n => n = s.refs b ∧ 0 < n

/-- R98, R100, R112, R117: what a branch's scheduler and transmitter say of one another. A POLL descriptor in the
current slot is an outstanding poll not yet reported sent; a poll reported sent is awaited; only a poll in progress is
outstanding. -/
structure State.PollSound (s : State) (x : Branch) : Prop where
  slot : ∀ d, (s.port x.port).tx.slot = some d → d.origin = .poll → (s.branch x).outstanding = true
    ∧ (s.branch x).sched.sentTick = none
    ∧ ((s.branch x).sched.state = .ready ∨ (s.branch x).sched.state = .stopping)
  sent : (s.branch x).sched.sentTick ≠ none →
    (s.branch x).sched.state = .await ∨ (s.branch x).sched.state = .stopping
  taken : (s.branch x).outstanding = true → (s.branch x).sched.state ≠ .stopped
    ∧ (s.branch x).sched.state ≠ .waitInterval

/-- R75, R76, R81, R112: every buffer is accounted for, and every holder holds a buffer of its kind; a scheduler
holds a built frame only in READY, before its poll is taken; no POLL descriptor stands in a queue. -/
structure State.PoolSound (s : State) : Prop where
  buffers : ∀ b, s.BufferSound b
  collecting : ∀ p c, (s.port p).asm = .collect c → (s.pool.get c.buf).use = .filling (.assembler p)
  built : ∀ x b, (s.branch x).sched.buffer = some b →
    (s.pool.get b).use = .filling (.poll x) ∧ (s.branch x).sched.state = .ready ∧ (s.branch x).outstanding = false
  listed : ∀ e, e ∈ s.inbound → (s.pool.get e.buf).use = .ready
  queued : ∀ p d, d ∈ (s.port p).queue → d.origin ≠ .poll
  polls : ∀ x, s.PollSound x

/-- R169: what holds throughout a cold reset: nothing is in progress in any block. -/
structure State.Held (s : State) : Prop where
  inReset : s.inReset = true
  ports : ∀ p, (s.port p).pendingConfig = none ∧ (s.port p).rx.mode = .idle ∧ (s.port p).rx.edge = none
    ∧ (s.port p).tx = .idle ∧ (s.port p).asm = .hunt ∧ (s.port p).queue = [] ∧ (s.port p).charEnd = none
  schedulers : ∀ b, (s.branch b).sched.state = .stopped ∧ (s.branch b).sched.buffer = none
    ∧ (s.branch b).outstanding = false
  table : s.route.commit = .idle
  lists : s.dup = none ∧ s.inbound = []
  management : s.session.owner = none ∧ s.restart = none

/-! ## Words for claims -/

/-- R55: a record meets the three conditions for a frame. -/
def RouteRecord.Fits (r : RouteRecord) (dest src : Byte) (p : Port) : Prop :=
  (r.low.toNat ≤ dest.toNat ∧ dest.toNat ≤ r.high.toNat) ∧ PortSet.mem r.ingress p = true
    ∧ ∀ l h, r.source = some (l, h) → l.toNat ≤ src.toNat ∧ src.toNat ≤ h.toNat

/-- R17: the four conditions of a quiet port. -/
def State.Rested (s : State) (p : Port) : Prop :=
  (s.port p).asm = .hunt ∧ ((s.port p).rx.mode = .idle ∨ (s.port p).rx.mode = .brk) ∧ (s.port p).tx = .idle
    ∧ ∀ b, p.branch? = some b → (s.branch b).outstanding = false

/-- R17: a quiet port: its four conditions hold, and no start edge was taken first, at this instant or at the instant
from which they hold (log 26). -/
def State.Quiet (s : State) (p : Port) : Prop :=
  s.Rested p ∧ ∀ e, (s.port p).rx.edge = some e → e ≠ s.now ∧ (s.port p).edgeFirst ≠ some e

/-- The step is due: the condition at whose first instant the spec places it holds, or the bound on it has been
reached (R65, R82; log 15). No other command is ever due. -/
def State.Due (s : State) : Instr → Prop
  | .startEdge p => (s.port p).rx.mode = .idle ∧ (s.port p).rx.edge ≠ none
      ∧ (s.port p).rx.samples.length = 3 ∧ 2 ≤ (s.port p).rx.samples.count Level.space
  | .falseStart p => (s.port p).rx.mode = .idle ∧ (s.port p).rx.edge ≠ none
      ∧ (s.port p).rx.samples.length = 3 ∧ 2 ≤ (s.port p).rx.samples.count Level.mark
  | .characterDelivered p => (s.port p).rx.mode = .char ∧ (s.port p).rx.edge ≠ none ∧ (s.port p).rx.samples.length = 33
  | .breakEntry p => s.listening p = true ∧ (s.port p).rx.mode ≠ .brk ∧ (s.port p).rxd = .space
      ∧ (s.port p).rx.since + 22 * (16 * (s.port p).applied.divisor.toNat) ≤ s.now
  | .breakExit p => s.listening p = true ∧ (s.port p).rx.mode = .brk ∧ (s.port p).rxd = .mark
      ∧ (s.port p).rx.since + 11 * (16 * (s.port p).applied.divisor.toNat) ≤ s.now
  | .gapExpiry p => ∃ g, (s.port p).asm.gap? = some g
      ∧ g.ref + (16 * g.limit.toNat + 1) * (s.port p).applied.divisor.toNat ≤ s.now
      ∧ ∀ e, (s.port p).rx.edge = some e → g.ref + (16 * g.limit.toNat + 1) * (s.port p).applied.divisor.toNat ≤ e
  | .endOfSending p => ∃ d start, (s.port p).tx = .sending d start
      ∧ start + 11 * s.descLength d * (16 * (s.port p).applied.divisor.toNat) ≤ s.now
  | .applyPendingConfig p => (s.port p).pendingConfig ≠ none ∧ s.Quiet p
  | .take p => (s.port p).tx = .idle ∧ (s.port p).pendingConfig = none
      ∧ (∀ b, p.branch? = some b → (s.branch b).outstanding = false)
      ∧ (((s.port p).applied.enabled = true ∧ (s.port p).queue ≠ [])
        ∨ ∃ b, p.branch? = some b ∧ (s.sched b).buffer ≠ none)
  | .transmitStart p => ∃ d, (s.port p).tx = .waitLine d ∧ (s.port p).rx.mode = .idle ∧ (s.port p).rxd = .mark
      ∧ (s.port p).lastActivity
          + (s.port p).applied.turnaround.toNat * (16 * (s.port p).applied.divisor.toNat) ≤ s.now
  | .pollBufferRetry b => (s.sched b).state = .ready ∧ (s.sched b).buffer = none ∧ (s.branch b).outstanding = false
      ∧ (s.sched b).asked < s.tick
  | .replyTimeout b => ((s.sched b).state = .await ∨ (s.sched b).state = .stopping)
      ∧ ∃ t, (s.sched b).sentTick = some t ∧ t + (s.sched b).replyTimeout.toNat ≤ s.tick
  | .newCycle b => (s.sched b).state = .waitInterval
      ∧ (s.sched b).cycleStart + (s.sched b).cycleInterval.toNat ≤ s.tick
  | .duplicateMemoryExpiry => ∃ r, s.dup = some r ∧ r.endTick + s.relay.mirrorWindow.toNat < s.tick
      ∧ ∀ c, (s.port r.trunk.other.port).asm = .collect c → r.endTick + s.relay.mirrorWindow.toNat < c.startTick
  | .sessionExpiry => s.session.owner ≠ none ∧ s.route.commit = .idle
      ∧ ∃ t, s.session.lastActivity = some t ∧ 1000 * s.relay.sessionTimeout.toNat < s.tick - t
  | .disposition => s.inbound ≠ [] ∧ s.headSince + 147 ≤ s.now
  | .validationComplete => ∃ start, s.route.commit = .validating start ∧ start + 221184 ≤ s.now
  | _ => False

/-- The step may come now or later, within its bound (R65, R82; log 15). -/
def State.Open (s : State) : Instr → Prop
  | .disposition => s.inbound ≠ [] ∧ s.now < s.headSince + 147
  | .validationComplete => ∃ start, s.route.commit = .validating start ∧ s.now < start + 221184
  | _ => False

/-- R3, R4, R8, R9, R17: what the RXD pin's going to a level at an instant does to a port, `hears` saying whether its receiver
listens. -/
structure LineMoved (hears : Bool) (now : Nat) (l : Level) (q q' : PortState) : Prop where
  same : q.rxd = l → q' = q
  deaf : q.rxd ≠ l → hears = false → q' = { q with rxd := l }
  opens : q.rxd = .mark → l = .space → hears = true → q.rx.mode = .idle → q.rx.edge = none → q.retuned ≠ some now →
    q' = { q with rxd := .space, rx := ⟨.idle, some now, [], now⟩ }
  falls : q.rxd = .mark → l = .space → hears = true →
    (q.rx.mode ≠ .idle ∨ q.rx.edge ≠ none ∨ q.retuned = some now) →
    q' = { q with rxd := .space, rx := { q.rx with since := now } }
  rises : q.rxd = .space → l = .mark → hears = true → q.rx.mode = .char →
    q' = { q with rxd := .mark, rx := { q.rx with since := now } }
  returns : q.rxd = .space → l = .mark → hears = true → q.rx.mode ≠ .char →
    q' = { q with rxd := .mark, rx := { q.rx with since := now }, lastActivity := now }

/-- The command is handed over and served: no cold reset is in progress, its port allows management and no restart is
pending (R84, R128, R169). -/
def Serves (c : Cmd) (s : State) : Prop :=
  s.inReset = false ∧ (s.port c.port).applied.mgmtAllowed = true ∧ s.restart = none

/-- R132: the last activity is set where the command comes from the owner. -/
def State.heard (s : State) (c : Cmd) : State :=
  { s with session := { s.session with
      lastActivity := if s.session.owner = some c.src then some s.tick else s.session.lastActivity } }

/-- The command comes from the owner, with the expected SEQ, on a port that allows management, while no cold reset is
in progress and no restart is pending: it is executed (R84, R128, R134). -/
def Accepts (c : Cmd) (s : State) : Prop :=
  s.inReset = false ∧ (s.port c.port).applied.mgmtAllowed = true ∧ s.restart = none ∧ s.session.owner = some c.src
    ∧ c.seq = s.session.nextSeq

/-- The session after the owner's sequenced command has been executed with a reply (R132, R134). -/
def Session.after (x : Session) (c : Cmd) (k : Command) (r : Reply) (tick : Nat) : Session :=
  { x with nextSeq := x.nextSeq + 1, cache := some ⟨c.seq, k, .reply r⟩, lastActivity := some tick }

/-- What the sending of a reply on a port may change: that port's queue, the pool, and REPLY_NOT_SENT (R126). -/
structure RepliedOn (p : Port) (s t : State) : Prop where
  rest : t = { s with ports := t.ports, pool := t.pool, counters := t.counters }
  other : ∀ q, q ≠ p → t.port q = s.port q
  this : t.port p = { s.port p with queue := (t.port p).queue }
  counters : t.counters = { s.counters with replyNotSent := t.counters.replyNotSent }

/-- The state with the session as an executed command leaves it (R132, R134). -/
def State.executed (s : State) (c : Cmd) (k : Command) (r : Reply) : State :=
  { s with session := s.session.after c k r s.tick }

/-- The row of the table that a command of a known code runs (R128; log 19). -/
def Command.row (k : Command) (c : Cmd) : Instr :=
  match k with
  | .readStatus => .readStatus c
  | .readRelay => .readRelay c
  | .readPort => .readPort c
  | .readCounters => if c.asksClear then .readCountersClear c else .readCounters c
  | .readRecord => .readRecord c
  | .readPollEntry => .readPollEntry c
  | .readStation => .readStation c
  | .readAlarms => .readAlarms c
  | .openSession => .openSession c
  | .closeSession => .closeSession c
  | .writeRecord => .writeRecord c
  | .clearRecord => .clearRecord c
  | .discardStaging => .discardStaging c
  | .commit => .commit c
  | .setPort => .setPort c
  | .setRelay => .setRelay c
  | .writePollEntry => .writePollEntry c
  | .clearPollEntry => .clearPollEntry c
  | .pollControl => if c.asksStop then .pollControlStop c else .pollControlStart c
  | .ackAlarm => .ackAlarm c
  | .restart => .restart c

/-- R128: the command of a row subject to the sequence rule, that is CLOSE-SESSION and the write class. -/
def sequencedOf : Instr → Option (Command × Cmd)
  | .closeSession c => some (.closeSession, c)
  | .writeRecord c => some (.writeRecord, c)
  | .clearRecord c => some (.clearRecord, c)
  | .discardStaging c => some (.discardStaging, c)
  | .commit c => some (.commit, c)
  | .setPort c => some (.setPort, c)
  | .setRelay c => some (.setRelay, c)
  | .writePollEntry c => some (.writePollEntry, c)
  | .clearPollEntry c => some (.clearPollEntry, c)
  | .pollControlStart c => some (.pollControl, c)
  | .pollControlStop c => some (.pollControl, c)
  | .ackAlarm c => some (.ackAlarm, c)
  | .readCountersClear c => some (.readCounters, c)
  | .restart c => some (.restart, c)
  | .coldReset _ _ | .warmRestart | .characterDelivered _ | .falseStart _ | .breakEntry _ | .breakExit _
  | .gapExpiry _ | .duplicateMemoryExpiry | .disposition | .take _ | .transmitStart _ | .endOfSending _
  | .applyPendingConfig _ | .pollBufferRetry _ | .replyTimeout _ | .newCycle _ | .validationComplete
  | .sessionExpiry | .readStatus _ | .readRelay _ | .readPort _ | .readCounters _ | .readRecord _
  | .readPollEntry _ | .readStation _ | .readAlarms _ | .openSession _ | .startEdge _ | .returnToMark _
  | .returnToSpaceInBreak _ => none

/-- The state after the receiver's part of a delivered character: its counters, and the receiver back in IDLE with
the character's end as the line's last activity (R5, R6, R9). -/
def State.received (s : State) (p : Port) (ch : Character) : State :=
  (countCharacter p ch (sampledNoisy (s.port p).rx.samples) s).modPort p (PortState.endCharacter ch)

/-- R35, R43: a reception in COLLECT ends with an outcome that keeps no frame: its counter is incremented, the buffer
is FREE, the assembler in HUNT, and a grant its port holds is FREE. -/
def State.failed (s : State) (p : Port) (c : Collect) (k : PortCtr) : State :=
  { s with
    ports := s.ports.set p { s.port p with asm := .hunt, counters := (s.port p).counters.bump k }
    pool := s.pool.set c.buf.val Buffer.empty c.buf.isLt
    grant := if p.trunk? = s.grant then none else s.grant }

/-- R35, R43, R81: a reception ends GOOD with a frame: the buffer is READY at the tail of the inbound list. -/
def State.good (s : State) (p : Port) (c : Collect) (f : List Byte) : State :=
  { s with
    ports := s.ports.set p { s.port p with asm := .hunt, counters := (s.port p).counters.bump .framesGood }
    pool := s.pool.set c.buf.val ⟨.ready, f⟩ c.buf.isLt
    inbound := s.inbound ++ [⟨c.buf, p⟩]
    headSince := if s.inbound = [] then s.now else s.headSince
    grant := if p.trunk? = s.grant then none else s.grant }

/-- R79, R94, R102: descriptors of a port have been released unsent, and these remain in its queue. -/
def State.released (s : State) (p : Port) (gone rest : List Descriptor) : State :=
  { s with
    ports := s.ports.set p { s.port p with
      queue := rest
      counters := { (s.port p).counters with
        staleDiscards := satInc^[gone.length] (s.port p).counters.staleDiscards } }
    pool := (gone.foldl (fun u d => dropRef d.buf u) s).pool }

/-- R98, R100: a branch's built POLL frame has entered the current slot. -/
def State.pollTaken (s : State) (b : Branch) (buf : BufId) : State :=
  { s with
    ports := s.ports.set b.port { s.port b.port with tx := .waitLine ⟨buf, .poll, none, none⟩ }
    branches := s.branches.set b { sched := { s.sched b with buffer := none }, lastServed := .poll, outstanding := true }
    pool := s.pool.set buf.val { s.pool.get buf with use := .held 1 } buf.isLt }

/-- R117: the scheduler of a branch has been told that its POLL frame was sent, for the entry at position `i`. -/
def State.pollReported (s : State) (b : Branch) (i : Fin 32) : State :=
  { s with
    branches := s.branches.set b { s.branch b with sched := { s.sched b with
      state := if (s.sched b).state = .ready then .await else (s.sched b).state
      sentTick := some s.tick } }
    stations := s.stations.set i.val { s.stations.get i with pollsSent := satInc (s.stations.get i).pollsSent } i.isLt }

/-- R18, R19, R102: a configuration has been applied to a port. -/
def State.configured (s : State) (p : Port) (c : PortConfig) : State :=
  let q := s.port p
  let u : State := { s with ports := s.ports.set p { q with
    applied := c
    pendingConfig := none
    rx := if c.enabled ≠ q.applied.enabled ∨ (c.enabled = true ∧ c.divisor ≠ q.applied.divisor) then
      Receiver.fresh s.now else q.rx
    retuned := if c.enabled = true ∧ (q.applied.enabled = false ∨ c.divisor ≠ q.applied.divisor) then
      some s.now else q.retuned
    lastActivity := s.now } }
  if q.applied.enabled = true ∧ c.enabled = false then u.released p q.queue [] else u

/-- R115, R116: a scheduler in READY at an entry has asked the pool for a buffer. -/
def PollAsked (b : Branch) (e : PollEntry) (s t : State) : Prop :=
  (0 < s.freeCount → ∃ buf : BufId, (s.pool.get buf).use = .free ∧
    t = { s with
          pool := s.pool.set buf.val
            ⟨.filling (.poll b), buildFrame e.station s.ownAddr ctlPoll e.payload⟩ buf.isLt
          branches := s.branches.set b { s.branch b with sched := { s.sched b with
            buffer := some buf
            station := some e.station } } })
  ∧ (s.freeCount = 0 →
    t = { s with
          counters := { s.counters with pollDeferred := satInc s.counters.pollDeferred }
          branches := s.branches.set b { s.branch b with sched := { s.sched b with asked := s.tick } } })

/-- R100, R122, R123: the poll of a branch has ended; what its scheduler does next. -/
structure PollEnded (b : Branch) (s t : State) : Prop where
  stops : (s.sched b).state = .stopping → t = { s with
    branches := s.branches.set b { s.branch b with
      outstanding := false
      sched := { s.sched b with state := .stopped, cursor := none, sentTick := none, station := none } } }
  moves : ∀ c i e, (s.sched b).state ≠ .stopping → (s.sched b).cursor = some c → c < i →
    s.pollList.get i = some e → s.isEnabledEntry b i = true → (∀ j, c < j → j < i → s.isEnabledEntry b j = false) →
    PollAsked b e { s with
      branches := s.branches.set b { s.branch b with
        outstanding := false
        sched := { s.sched b with state := .ready, cursor := some i, sentTick := none, station := none } } } t
  wraps : ∀ c i e, (s.sched b).state ≠ .stopping → (s.sched b).cursor = some c →
    (∀ j, c < j → s.isEnabledEntry b j = false) →
    s.pollList.get i = some e → s.isEnabledEntry b i = true → (∀ j, j < i → s.isEnabledEntry b j = false) →
    let complete : SchedState → Nat → State := fun x start => { s with
      branches := s.branches.set b { s.branch b with
        outstanding := false
        sched := { s.sched b with
          state := x, cursor := some i, sentTick := none, station := none
          cycleCount := satInc (s.sched b).cycleCount, cycleStart := start } } }
    ((s.sched b).cycleStart + (s.sched b).cycleInterval.toNat ≤ s.tick → PollAsked b e (complete .ready s.tick) t)
    ∧ (s.tick < (s.sched b).cycleStart + (s.sched b).cycleInterval.toNat →
      t = complete .waitInterval (s.sched b).cycleStart)

/-- R158 to R161: what a raise may change: the alarm list and its lost count, and, where it notifies, the queues of
the ports, the pool and NOTIFY_SKIPPED. -/
structure RaisedFrom (s t : State) : Prop where
  rest : t = { s with
    ports := t.ports, pool := t.pool, counters := t.counters, alarms := t.alarms, alarmsLost := t.alarmsLost }
  ports : ∀ p, t.port p = { s.port p with queue := (t.port p).queue }
  counters : t.counters = { s.counters with notifySkipped := t.counters.notifySkipped }

end Sys2Proof.Machine
end

