-- ==== Sys2Proof/Certificates/Slice0/Obligations.lean ====
section
/-! DEFINITION. The claims about the BL642: what each command does and leaves as it was, what the resets leave, and
the invariants every step keeps. -/

open Sys2Proof Sys2Proof.Machine

/-! ## The queue, time and the lines -/

/-- The command at the front of the queue is taken and run on the queue's rest. -/
def Obligations.StepTakesFrontCommand : Prop :=
  ∀ (c : Instr) (s : State), step { s with pending := c :: s.pending } = exec c s

/-- Every command has its effect, in no time, and leaves the queue, the line inputs and the free choices as they
were; only a cold reset samples the straps. -/
def Obligations.EveryCommandAnswersAtOnce : Prop :=
  ∀ (c : Instr) (s : State), ∃ t, exec c s = .next t
    ∧ t.pending = s.pending ∧ t.lineInput = s.lineInput ∧ t.now = s.now ∧ t.choices = s.choices
    ∧ ((∀ r x, c ≠ .coldReset r x) →
        t.inReset = s.inReset ∧ t.resetEnd = s.resetEnd ∧ t.ownAddr = s.ownAddr ∧ t.addrStrap = s.addrStrap
          ∧ t.transparentStrap = s.transparentStrap)

/-- The model's choice (log 2, log 4, log 5): a step with no command waiting is a step of the part that is due or open,
or the line input that is due, or, where neither a step nor an input is due, the passing of one cycle, in which the
receivers take the three centre samples of each bit (R4, R5). `Due` says of each step the condition at whose first
instant the spec places it, or the bound that it has reached (R65, R82; log 15). A transition of a line opens a start
edge in IDLE (also at the instant at which a reset, a restart or a sending ends: log 31), begins a space run at the
instant of an application that set the receiver listening (R17), moves the mark count in BREAK, and is line activity
where it ends a space outside a character (R4, R8, R9). Where time goes on from an
instant at which a pending record would have been applied but for a start edge, the edge is remembered (R17; log 26).
Where it comes to the end of a delivered character, that end is the line's last activity, in place of any set since the
delivery, if the line is at mark (R9, R11). -/
def Obligations.IdleStep : Prop :=
  ∀ s : State, s.pending = [] →
    let idle := (∀ i, ¬ s.Due i) ∧ ∀ i rest, s.lineInput = i :: rest → s.now < i.instant
    (∃ t, step s = .next t ∧ (t.now = s.now ∨ (t.now = s.now + 1 ∧ idle)))
    ∧ ((∃ i, (s.Due i ∨ s.Open i) ∧ step s = exec i { s with choices := s.choices + 1 })
      ∨ (∃ i rest x, s.lineInput = i :: rest ∧ i.instant ≤ s.now
        ∧ LineMoved (s.listening i.port) s.now i.level (s.port i.port) x
        ∧ step s = .next { s with
            choices := s.choices + 1, lineInput := rest, ports := s.ports.set i.port x })
      ∨ (idle ∧ ∃ t, step s = .next t
        ∧ t = { s with now := s.now + 1, choices := s.choices + 1, ports := t.ports }
        ∧ ∀ p, t.port p = { s.port p with
              edgeFirst := (t.port p).edgeFirst
              charEnd := (t.port p).charEnd
              lastActivity := (t.port p).lastActivity
              rx := { (s.port p).rx with samples := (t.port p).rx.samples } }
          ∧ (∀ e n j, (s.port p).rx.edge = some e → 7 ≤ j → j ≤ 9 →
              s.now + 1 = e + (16 * n + j) * (s.port p).applied.divisor.toNat →
              0 < (s.port p).applied.divisor.toNat → (s.port p).rx.samples.length < 33 →
              (t.port p).rx.samples = (s.port p).rx.samples ++ [(s.port p).rxd])
          ∧ (∀ e, (s.port p).rx.edge = some e →
              (∀ n j, 7 ≤ j → j ≤ 9 → s.now + 1 ≠ e + (16 * n + j) * (s.port p).applied.divisor.toNat) →
              (t.port p).rx.samples = (s.port p).rx.samples)
          ∧ ((s.port p).rx.edge = none → (t.port p).rx.samples = (s.port p).rx.samples)
          ∧ (let tied := (s.port p).pendingConfig ≠ none ∧ s.Rested p ∧ (s.port p).rx.edge = some s.now
             (tied → (t.port p).edgeFirst = some s.now)
             ∧ (¬ tied → (t.port p).edgeFirst = (s.port p).edgeFirst))
          ∧ (∀ e, (s.port p).charEnd = some e → e ≤ s.now + 1 → (t.port p).charEnd = none
              ∧ (t.port p).lastActivity = if (s.port p).rxd = .mark then e else (s.port p).lastActivity)
          ∧ ((∀ e, (s.port p).charEnd = some e → s.now + 1 < e) →
              (t.port p).charEnd = (s.port p).charEnd ∧ (t.port p).lastActivity = (s.port p).lastActivity)))

/-- The pins (R1, R12, R164, R169): during a cold reset every TXD is at mark, every TXEN and ALERTn are deasserted.
Otherwise the driver is enabled exactly while sending; outside sending TXD is at mark; while sending, bit `n` of
character `k` of the frame is on TXD during its bit time; ALERTn is low exactly while the alarm list holds a record. -/
def Obligations.PinsFollowTheState : Prop :=
  ∀ s : State, (s.alertn = false ↔ s.inReset = false ∧ s.alarms ≠ []) ∧ ∀ p,
    (s.txen p = true ↔ s.inReset = false ∧ ∃ d start, (s.port p).tx = .sending d start)
    ∧ (s.inReset = true ∨ (∀ d start, (s.port p).tx ≠ .sending d start) → s.txd p = .mark)
    ∧ (∀ d start k n r, s.inReset = false → (s.port p).tx = .sending d start → k < s.descLength d → n < 11 →
        r < 16 * (s.port p).applied.divisor.toNat →
        s.now = start + (11 * k + n) * (16 * (s.port p).applied.divisor.toNat) + r →
        (n = 0 → s.txd p = .space)
        ∧ (1 ≤ n → n ≤ 8 → (s.txd p = .mark ↔ ((s.descBytes d).getD k 0).getLsbD (n - 1) = true))
        ∧ (n = 9 → (s.txd p = .mark ↔ k = 0))
        ∧ (n = 10 → s.txd p = .mark))

/-! ## Invariants -/

/-- The state after a cold reset meets every invariant. -/
def Obligations.ResetIsSound : Prop :=
  State.reset.Bounded ∧ State.reset.TableValid ∧ State.reset.StagingFollows ∧ State.reset.GrantHeld
    ∧ State.reset.PoolSound

/-- R92, R157: every step keeps the queues within 8 descriptors and the alarm list within 16 records of distinct
keys. -/
def Obligations.EveryStepKeepsBounds : Prop :=
  ∀ s t : State, s.Bounded → step s = .next t → t.Bounded

/-- R67: every step keeps every record of the active bank valid. -/
def Obligations.EveryStepKeepsTableValid : Prop :=
  ∀ s t : State, s.TableValid → step s = .next t → t.TableValid

/-- R73: every step keeps the staging bank equal to the active bank while no session is open. -/
def Obligations.EveryStepKeepsStagingFollows : Prop :=
  ∀ s t : State, s.StagingFollows → step s = .next t → t.StagingFollows

/-- R39: every step keeps the grant with the trunk whose assembler is in COLLECT, and with no other. -/
def Obligations.EveryStepKeepsGrantHeld : Prop :=
  ∀ s t : State, s.GrantHeld → step s = .next t → t.GrantHeld

/-- R75, R76, R81: every step keeps every buffer accounted for: a HELD buffer has as many references as descriptors,
a READY one stands once in the inbound list, a FILLING one is its holder's. -/
def Obligations.EveryStepKeepsPoolSound : Prop :=
  ∀ s t : State, s.PoolSound → step s = .next t → t.PoolSound

/-- R59, R72: no command but a cold reset changes the epoch or a record of the active bank, save the completion of a
validation, which may switch the banks and then adds one to the epoch. -/
def Obligations.TableChangesOnlyByCommit : Prop :=
  ∀ (c : Instr) (s t : State), exec c s = .next t → (∀ r x, c ≠ .coldReset r x) →
    (t.route.epoch = s.route.epoch
      ∧ ∀ i, (t.route.active.get i).map (·.record) = (s.route.active.get i).map (·.record))
    ∨ (c = .validationComplete ∧ s.route.commit ≠ .idle ∧ t.route.epoch = s.route.epoch + 1
      ∧ ∀ i, t.route.active.get i = (s.route.staging.get i).map fun r => ⟨r, 0⟩)

/-! ## Resets -/

/-- R15, R169 and the cold values of the chapters. RESETn low: whatever is sent is cut off, and throughout the reset
every TXD is at mark, every TXEN and ALERTn are deasserted, no line is received, and no command but COLD_RESET and no
passing of time changes anything but the lines and the clock. RESETn high ends it: the straps are sampled, and every
block is at its cold values. What the blocks hold during the reset, that a command then has no effect, and that RXD
keeps its level are the model's choice (log 12); that the end of a delivered character is dropped (`charEnd`) is its
reading of R20 (log 6). -/
def Obligations.ColdReset : Prop :=
  (∀ (x : Straps) (s : State), ∃ t, exec (.coldReset .low x) s = .next t
    ∧ t.Held ∧ t.alertn = true ∧ (∀ p, t.txd p = .mark ∧ t.txen p = false ∧ t.listening p = false)
    ∧ t.addrStrap = s.addrStrap ∧ t.transparentStrap = s.transparentStrap
    ∧ ∀ p, (t.port p).rxd = (s.port p).rxd)
  ∧ (∀ s : State, s.Held → (∀ c, (∀ r x, c ≠ .coldReset r x) → exec c s = .next s)
    ∧ (s.pending = [] → ∃ t, step s = .next t ∧ t.Held
      ∧ t = { s with now := t.now, choices := s.choices + 1, lineInput := t.lineInput, ports := t.ports }
      ∧ ∀ p, t.port p = { s.port p with rxd := (t.port p).rxd }))
  ∧ (∀ (x : Straps) (s : State), s.inReset = false → exec (.coldReset .high x) s = .next s)
  ∧ ∀ (x : Straps) (s : State), s.inReset = true → ∃ t, exec (.coldReset .high x) s = .next t
      ∧ t.inReset = false ∧ t.ownAddr.toNat = 0xE0 + x.addr.toNat ∧ t.tick = 0 ∧ t.alertn = true
      ∧ t.relay = { defaultAction := if x.transparent then .flood else .drop, preferred := .t0, mirrorWindow := 10,
                    residence := 50, sessionTimeout := 60, notifyAddr := none, notifyT0 := true, notifyT1 := true }
      ∧ (∀ i, t.route.active.get i = none ∧ t.route.staging.get i = none)
      ∧ t.route.epoch = 0 ∧ t.route.commit = .idle
      ∧ t.grant = none ∧ t.dup = none ∧ t.inbound = [] ∧ t.freeCount = 40
      ∧ (∀ b, (t.pool.get b).use = .free)
      ∧ (∀ i, t.pollList.get i = none ∧ t.stations.get i = ⟨.unknown, 0, none, none, 0, 0⟩)
      ∧ t.session = ⟨none, 0, none, none⟩ ∧ t.deferred = none ∧ t.restart = none
      ∧ (∀ k, t.counters.get k = 0) ∧ t.alarms = [] ∧ t.alarmsLost = 0
      ∧ (∀ p, (t.port p).applied = { enabled := true, divisor := 120, gapLimit := 33, turnaround := 44,
                                     mgmtAllowed := p.trunk?.isSome }
          ∧ (t.port p).pendingConfig = none ∧ (t.port p).rxd = (s.port p).rxd
          ∧ (t.port p).rx = ⟨.idle, none, [], t.now⟩ ∧ (t.port p).lastActivity = t.now ∧ (t.port p).charEnd = none
          ∧ (t.port p).tx = .idle ∧ t.txen p = false ∧ t.txd p = .mark
          ∧ (t.port p).asm = .hunt ∧ (t.port p).queue = [] ∧ ∀ k, (t.port p).counters.get k = 0)
      ∧ (∀ b, (t.sched b).state = .stopped ∧ (t.sched b).cursor = none ∧ (t.sched b).cycleCount = 0
          ∧ (t.sched b).replyTimeout = 20 ∧ (t.sched b).cycleInterval = 1000
          ∧ (t.branch b).lastServed = .queue ∧ (t.branch b).outstanding = false)

/-- R140, R142, R20: with a restart pending whose reply's descriptor stands in its port no longer, WARM_RESTART is the
warm restart. From any state, so also where RESTART takes it at once, the warm restart sets every block as the table of
R142 gives and keeps what it keeps. That the row takes place under this condition is the model's reading of R140
(log 9); that the end of a delivered character is dropped (`charEnd`) is its reading of R20 (log 6). -/
def Obligations.WarmRestart : Prop :=
  (∀ (s : State) (r : Port) (x : BufId), s.restart = some (r, x) → (∀ d, d ∈ (s.port r).descriptors → d.buf ≠ x) →
    exec .warmRestart s = .next (warmRestart s))
  ∧ ∀ s : State, let t := warmRestart s
    (∀ p, (t.port p).pendingConfig = none ∧ (t.port p).tx = .idle ∧ t.txen p = false ∧ t.txd p = .mark
        ∧ (t.port p).rx = ⟨.idle, none, [], s.now⟩ ∧ (t.port p).lastActivity = s.now ∧ (t.port p).charEnd = none
        ∧ (t.port p).asm = .hunt ∧ (t.port p).queue = []
        ∧ (t.port p).applied = (s.port p).applied ∧ (t.port p).counters = (s.port p).counters
        ∧ (t.port p).rxd = (s.port p).rxd ∧ (t.port p).listening = (s.port p).applied.enabled)
    ∧ t.grant = none ∧ t.dup = none
    ∧ (∀ b, (t.pool.get b).use = .free) ∧ t.freeCount = 40 ∧ t.inbound = []
    ∧ t.route.commit = .idle ∧ t.route.active = s.route.active ∧ t.route.epoch = s.route.epoch
    ∧ (∀ i, t.route.staging.get i = (s.route.active.get i).map (·.record))
    ∧ (∀ b, (t.sched b).state = .stopped ∧ (t.sched b).cursor = none ∧ (t.sched b).cycleCount = 0
        ∧ (t.sched b).buffer = none ∧ (t.sched b).sentTick = none
        ∧ (t.branch b).lastServed = .queue ∧ (t.branch b).outstanding = false
        ∧ (t.sched b).replyTimeout = (s.sched b).replyTimeout
        ∧ (t.sched b).cycleInterval = (s.sched b).cycleInterval)
    ∧ (∀ i, t.stations.get i = ⟨.unknown, 0, none, none, 0, 0⟩) ∧ t.pollList = s.pollList
    ∧ t.session = ⟨none, 0, none, none⟩ ∧ t.deferred = none ∧ t.restart = none
    ∧ t.relay = s.relay ∧ t.alarms = s.alarms ∧ t.alarmsLost = s.alarmsLost ∧ t.alertn = s.alertn
    ∧ t.counters = s.counters ∧ t.ownAddr = s.ownAddr

/-! ## Receivers -/

/-- R4, R9: the decision on a start edge by the majority of its three samples: accepted, the receiver enters CHAR;
otherwise it stays in IDLE, no counter changes, and the line's return to mark is its last activity. Without an edge in
IDLE and its three samples there is no decision. -/
def Obligations.StartEdgeDecision : Prop :=
  (∀ (p : Port) (s : State) (e : Nat) (a b c : Level),
    (s.port p).rx.mode = .idle → (s.port p).rx.edge = some e → (s.port p).rx.samples = [a, b, c] →
    (2 ≤ [a, b, c].count Level.space →
      exec (.startEdge p) s = .next { s with ports := s.ports.set p { s.port p with
          rx := { (s.port p).rx with mode := .char } } }
      ∧ exec (.falseStart p) s = .next s)
    ∧ (2 ≤ [a, b, c].count Level.mark →
      exec (.falseStart p) s = .next { s with ports := s.ports.set p { s.port p with
          rx := { (s.port p).rx with edge := none, samples := [] }
          lastActivity := if (s.port p).rxd = .mark then max (s.port p).lastActivity (s.port p).rx.since
            else (s.port p).lastActivity } }
      ∧ exec (.startEdge p) s = .next s))
  ∧ ∀ (p : Port) (s : State), (s.port p).rx.mode ≠ .idle ∨ (s.port p).rx.edge = none
      ∨ (s.port p).rx.samples.length ≠ 3 → exec (.startEdge p) s = .next s ∧ exec (.falseStart p) s = .next s

/-- R1, R5, R6: what the 33 samples of a character say: each bit is the majority of its three, the data bits come
least significant first, the character is errored when its stop bit is space, noisy when three samples of a bit do
not all agree, and it ends 11 bit times after its start edge. -/
def Obligations.CharacterBits : Prop :=
  ∀ (xs : List Level) (edge : Nat) (c : PortConfig), xs.length = 33 →
    (∀ i, i < 8 →
      ((characterOf xs edge c).data.getLsbD i = true ↔ 2 ≤ ((xs.drop (3 * (i + 1))).take 3).count Level.mark))
    ∧ ((characterOf xs edge c).markBit = true ↔ 2 ≤ ((xs.drop 27).take 3).count Level.mark)
    ∧ ((characterOf xs edge c).errored = true ↔ 2 ≤ ((xs.drop 30).take 3).count Level.space)
    ∧ (sampledNoisy xs = true ↔ ∃ n, n < 11 ∧ .mark ∈ (xs.drop (3 * n)).take 3 ∧ .space ∈ (xs.drop (3 * n)).take 3)
    ∧ (characterOf xs edge c).start = edge
    ∧ (characterOf xs edge c).stop = edge + 11 * (16 * c.divisor.toNat)

/-- R5, R6, R9: a character sampled whole is delivered: CHARS_IN once, NOISY_CHARS and FRAMING_ERRORS where they
apply, the receiver back in IDLE, its end the line's last activity in place of the former one, and awaited, to be set
again when it comes (`IdleStep`; that it counts from the delivery on is the model's reading, log 6); no other port's
receiver changes. Before the last sample nothing is delivered. -/
def Obligations.CharacterDelivered : Prop :=
  (∀ (p : Port) (s : State), (s.port p).rx.mode ≠ .char ∨ (s.port p).rx.edge = none
      ∨ (s.port p).rx.samples.length ≠ 33 → exec (.characterDelivered p) s = .next s)
  ∧ ∀ (p : Port) (s : State) (ch : Character), (s.port p).dueCharacter = some ch →
    ∃ t, exec (.characterDelivered p) s = .next t
      ∧ (t.port p).rx = { (s.port p).rx with mode := .idle, edge := none, samples := [] }
      ∧ (t.port p).lastActivity = ch.stop ∧ (t.port p).charEnd = some ch.stop
      ∧ (t.port p).counters.charsIn = satInc (s.port p).counters.charsIn
      ∧ (t.port p).counters.noisyChars = (if sampledNoisy (s.port p).rx.samples then
          satInc (s.port p).counters.noisyChars else (s.port p).counters.noisyChars)
      ∧ (t.port p).counters.framingErrors = (if ch.errored then
          satInc (s.port p).counters.framingErrors else (s.port p).counters.framingErrors)
      ∧ (t.port p).counters.breaks = (s.port p).counters.breaks
      ∧ (∀ q, q ≠ p → (t.port q).rx = (s.port q).rx ∧ (t.port q).counters = (s.port q).counters
          ∧ (t.port q).asm = (s.port q).asm ∧ (t.port q).tx = (s.port q).tx)
      ∧ t.route = s.route ∧ t.session = s.session ∧ t.relay = s.relay ∧ t.stations = s.stations

/-- R7, R33, R36, R37: a space run of 22 bit times puts a listening receiver in BREAK, counts BREAKS, raises
LINE_BREAK, and ends the reception in progress. Before 22 bit times, at mark, in BREAK, or on a receiver that does not
listen, nothing comes about. That the raise comes before the release of a reception's buffer is the model's choice
(log 27). -/
def Obligations.BreakEntry : Prop :=
  (∀ (p : Port) (s : State), s.listening p = false ∨ (s.port p).rx.mode = .brk ∨ (s.port p).rxd = .mark
      ∨ s.now < (s.port p).rx.since + 22 * (16 * (s.port p).applied.divisor.toNat) →
    exec (.breakEntry p) s = .next s)
  ∧ ∀ (p : Port) (s : State), s.listening p = true → (s.port p).rx.mode ≠ .brk → (s.port p).rxd = .space →
    (s.port p).rx.since + 22 * (16 * (s.port p).applied.divisor.toNat) ≤ s.now →
    let u := raise (.lineBreak p) { s with ports := s.ports.set p { s.port p with
      rx := { (s.port p).rx with mode := .brk, edge := none, samples := [] }
      counters := (s.port p).counters.bump .breaks } }
    ((s.port p).asm = .hunt ∨ (∃ g, (s.port p).asm = .skip g) →
      exec (.breakEntry p) s = .next (setAsm p .hunt u))
    ∧ (∀ w, (s.port p).asm = .shadow w → exec (.breakEntry p) s = .next (setAsm p .hunt (countPort p .shadowed u)))
    ∧ (∀ c, (s.port p).asm = .collect c → exec (.breakEntry p) s = .next (u.failed p c .charError))

/-- R8, R9: BREAK ends after 11 bit times at mark, without a count; a return to space within it sets the mark count
back; each return to mark outside a character is line activity. Before 11 bit times BREAK stays, and a return that the
line or the receiver does not allow does not come about. -/
def Obligations.LineReturns : Prop :=
  (∀ (p : Port) (s : State),
    (s.listening p = false ∨ (s.port p).rx.mode ≠ .brk ∨ (s.port p).rxd = .space
      ∨ s.now < (s.port p).rx.since + 11 * (16 * (s.port p).applied.divisor.toNat) → exec (.breakExit p) s = .next s)
    ∧ (s.listening p = false ∨ (s.port p).rx.mode ≠ .brk ∨ (s.port p).rxd = .space →
      exec (.returnToSpaceInBreak p) s = .next s)
    ∧ (s.listening p = false ∨ (s.port p).rxd = .mark ∨ (s.port p).rx.mode = .char
        ∨ ((s.port p).rx.mode = .idle ∧ (s.port p).rx.edge ≠ none) → exec (.returnToMark p) s = .next s))
  ∧ ∀ (p : Port) (s : State), s.listening p = true →
    ((s.port p).rx.mode = .brk → (s.port p).rxd = .mark →
      (s.port p).rx.since + 11 * (16 * (s.port p).applied.divisor.toNat) ≤ s.now →
      exec (.breakExit p) s
        = .next { s with ports := s.ports.set p { s.port p with rx := { (s.port p).rx with mode := .idle } } })
    ∧ ((s.port p).rx.mode = .brk → (s.port p).rxd = .mark →
      exec (.returnToSpaceInBreak p) s = .next { s with ports := s.ports.set p { s.port p with
        rxd := .space, rx := { (s.port p).rx with since := s.now } } })
    ∧ ((s.port p).rxd = .space →
      ((s.port p).rx.mode = .brk ∨ ((s.port p).rx.mode = .idle ∧ (s.port p).rx.edge = none)) →
      exec (.returnToMark p) s = .next { s with ports := s.ports.set p { s.port p with
        rxd := .mark, rx := { (s.port p).rx with since := s.now }
        lastActivity := s.now } })

/-! ## Assemblers -/

/-- R25, R36, R37: a character that begins and stores no frame: stray in HUNT, passed over in SKIP, followed in
SHADOW to the end of the copy. -/
def Obligations.CharacterStoredNowhere : Prop :=
  ∀ (p : Port) (s : State) (ch : Character), (s.port p).dueCharacter = some ch → ch.isAddress = false →
    ((s.port p).asm = .hunt →
      exec (.characterDelivered p) s = .next (countPort p .strayChars (s.received p ch)))
    ∧ (∀ g, (s.port p).asm = .skip g →
      exec (.characterDelivered p) s = .next (setAsm p (.skip { g with ref := ch.stop }) (s.received p ch)))
    ∧ (∀ w, (s.port p).asm = .shadow w →
      let len := if w.pos + 1 = 4 then some ch.data.toNat else w.len
      let ends := ch.errored = true ∨ (w.pos + 1 = 4 ∧ 60 < ch.data.toNat) ∨ ∃ l, len = some l ∧ w.pos + 1 = 6 + l
      (ends → exec (.characterDelivered p) s = .next (setAsm p .hunt (countPort p .shadowed (s.received p ch))))
      ∧ (¬ ends → exec (.characterDelivered p) s
          = .next (setAsm p (.shadow ⟨⟨ch.stop, w.gap.limit⟩, w.pos + 1, len⟩) (s.received p ch))))

/-- R25 to R27, R36, R77: an address character on a branch begins a frame in a FREE buffer when more than 2 are
FREE; otherwise the reception ends NO_BUFFER, with its alarm, and the assembler passes over the frame. -/
def Obligations.FrameBeginsOnBranch : Prop :=
  ∀ (b : Branch) (s : State) (ch : Character), (s.port b.port).dueCharacter = some ch → ch.isAddress = true →
    (s.port b.port).asm = .hunt ∨ (∃ g, (s.port b.port).asm = .skip g) →
    let u := s.received b.port ch
    let gap : Gap := ⟨ch.stop, (s.port b.port).applied.gapLimit⟩
    (2 < s.freeCount → ∃ buf : BufId, (s.pool.get buf).use = .free
      ∧ exec (.characterDelivered b.port) s = .next { u with
          ports := u.ports.set b.port { u.port b.port with
            asm := .collect ⟨gap, 1, none, buf, crc [ch.data], s.tickAt ch.start⟩ }
          pool := u.pool.set buf.val ⟨.filling (.assembler b.port), [ch.data]⟩ buf.isLt })
    ∧ (s.freeCount ≤ 2 →
      exec (.characterDelivered b.port) s
        = .next (setAsm b.port (.skip gap) (raise .poolEmpty (countPort b.port .noBuffer u))))

/-- R37, R40 to R42, R44: an address character on a trunk, in HUNT, in SKIP or, ending a shadowed reception as SHADOWED,
in SHADOW: refused and shadowed while the grant is held, or in a tie that the preferred trunk wins, its own request
being due at this instant or having been given at it (log 10); otherwise the grant is given and the pool asked, and a
refusal there returns the grant to FREE. -/
def Obligations.FrameBeginsOnTrunk : Prop :=
  ∀ (k : Trunk) (s u : State) (ch : Character), (s.port k.port).dueCharacter = some ch → ch.isAddress = true →
    (((s.port k.port).asm = .hunt ∨ (∃ g, (s.port k.port).asm = .skip g)) ∧ u = s.received k.port ch)
      ∨ ((∃ w, (s.port k.port).asm = .shadow w) ∧ u = countPort k.port .shadowed (s.received k.port ch)) →
    let f := s.relay.preferred
    let gap : Gap := ⟨ch.stop, (s.port k.port).applied.gapLimit⟩
    let shadow := exec (.characterDelivered k.port) s = .next (setAsm k.port (.shadow ⟨gap, 1, none⟩) u)
    let requests := ((s.port f.port).asm = .hunt ∨ (∃ g, (s.port f.port).asm = .skip g)
        ∨ (∃ w, (s.port f.port).asm = .shadow w))
      ∧ ∃ x, (s.port f.port).dueCharacter = some x ∧ x.isAddress = true
    (s.grant ≠ none → shadow)
    ∧ (s.grant = none → k ≠ f → requests ∨ s.given = some (f, s.now) → shadow)
    ∧ (s.grant = none → k = f ∨ (¬ requests ∧ s.given ≠ some (f, s.now)) →
        (2 < s.freeCount → ∃ buf : BufId, (s.pool.get buf).use = .free
          ∧ exec (.characterDelivered k.port) s = .next { u with
              grant := some k
              given := some (k, s.now)
              ports := u.ports.set k.port { u.port k.port with
                asm := .collect ⟨gap, 1, none, buf, crc [ch.data], s.tickAt ch.start⟩ }
              pool := u.pool.set buf.val ⟨.filling (.assembler k.port), [ch.data]⟩ buf.isLt })
        ∧ (s.freeCount ≤ 2 → exec (.characterDelivered k.port) s = .next
          (setAsm k.port (.skip gap) { raise .poolEmpty (countPort k.port .noBuffer
            { u with grant := some k, given := some (k, s.now) }) with grant := none })))

/-- R28: a character of a frame in COLLECT that does not end it is stored at its position, taken into the running
check while the position is 4 + LEN or less, and kept as the length at position 4. -/
def Obligations.CharacterStored : Prop :=
  ∀ (p : Port) (s : State) (ch : Character) (c : Collect), (s.port p).dueCharacter = some ch →
    (s.port p).asm = .collect c → ch.errored = false → ch.markBit = false →
    let u := s.received p ch
    let len := if c.pos + 1 = 4 then some ch.data.toNat else c.len
    ¬ (c.pos + 1 = 4 ∧ 60 < ch.data.toNat) → (∀ l, len = some l → c.pos + 1 ≠ 6 + l) →
    exec (.characterDelivered p) s = .next { u with
      ports := u.ports.set p { u.port p with asm := .collect {
        gap := ⟨ch.stop, c.gap.limit⟩
        pos := c.pos + 1
        len := len
        buf := c.buf
        check := if c.len.all (fun l => decide (c.pos + 1 ≤ 4 + l)) then crcByte c.check ch.data else c.check
        startTick := c.startTick } }
      pool := u.pool.set c.buf.val { u.pool.get c.buf with bytes := (u.pool.get c.buf).bytes ++ [ch.data] } c.buf.isLt }

/-- R28 to R31, R35, R43: the receptions in COLLECT that a character ends with a fault: CHAR_ERROR, BAD_LENGTH and
CHECK_ERROR free the buffer; an address character ends the frame INTERRUPTED and begins a new one in the same buffer,
keeping the grant. -/
def Obligations.FailedReceptions : Prop :=
  ∀ (p : Port) (s : State) (ch : Character) (c : Collect), (s.port p).dueCharacter = some ch →
    (s.port p).asm = .collect c →
    let u := s.received p ch
    let f := (s.pool.get c.buf).bytes ++ [ch.data]
    (ch.errored = true → exec (.characterDelivered p) s = .next (u.failed p c .charError))
    ∧ (ch.errored = false → ch.markBit = true →
      exec (.characterDelivered p) s = .next { u with
        ports := u.ports.set p { u.port p with
          asm := .collect ⟨⟨ch.stop, (s.port p).applied.gapLimit⟩, 1, none, c.buf, crc [ch.data], s.tickAt ch.start⟩
          counters := (u.port p).counters.bump .interrupted }
        pool := u.pool.set c.buf.val { u.pool.get c.buf with bytes := [ch.data] } c.buf.isLt })
    ∧ (ch.errored = false → ch.markBit = false → c.pos + 1 = 4 → 60 < ch.data.toNat →
      exec (.characterDelivered p) s = .next (u.failed p c .badLength))
    ∧ (∀ l, ch.errored = false → ch.markBit = false → c.len = some l → c.pos + 1 = 6 + l →
      word16 (frameByte f (4 + frameLen f)) (frameByte f (5 + frameLen f)) ≠ c.check →
      exec (.characterDelivered p) s = .next (u.failed p c .checkError))

/-- R29, R35, R45, R46, R48: a frame whose check agrees ends GOOD on a branch; on a trunk it ends DUPLICATE, clearing
the duplicate memory, when it is judged one, and otherwise ends GOOD and is recorded, or clears the memory while the
mirror window is 0. -/
def Obligations.CompletedFrame : Prop :=
  (∀ (p : Port) (s : State) (ch : Character) (c : Collect) (l : Nat), (s.port p).dueCharacter = some ch →
    (s.port p).asm = .collect c → ch.errored = false → ch.markBit = false → c.len = some l → c.pos + 1 = 6 + l →
    let u := s.received p ch
    let f := (s.pool.get c.buf).bytes ++ [ch.data]
    word16 (frameByte f (4 + frameLen f)) (frameByte f (5 + frameLen f)) = c.check →
    (p.trunk? = none → exec (.characterDelivered p) s = .next (u.good p c f))
    ∧ (∀ k, p.trunk? = some k → s.isDuplicate k f c.check c.startTick = true →
      exec (.characterDelivered p) s = .next ({ u with dup := none }.failed p c .duplicates))
    ∧ (∀ k, p.trunk? = some k → s.isDuplicate k f c.check c.startTick = false →
      exec (.characterDelivered p) s = .next ({ u with
        dup := if s.relay.mirrorWindow = 0 then none
               else some ⟨k, frameDest f, frameSrc f, frameByte f 3, c.check, s.tick⟩ }.good p c f)))
  ∧ (∀ (s : State) (k : Trunk) (f : List Byte) (check : Word16) (start : Nat),
    s.isDuplicate k f check start = true ↔
      s.relay.mirrorWindow ≠ 0 ∧ ∃ r, s.dup = some r ∧ r.trunk ≠ k
        ∧ start ≤ r.endTick + s.relay.mirrorWindow.toNat
        ∧ frameDest f = r.dest ∧ frameSrc f = r.src ∧ frameByte f 3 = r.len ∧ check = r.check)

/-- R24, R32, R36, R37, R47: the gap expires when it is longer than its limit, unless a start edge, accepted or still
under evaluation, came before (log 20), and ends the reception; an edge at the expiry or after it does not hold it; the
duplicate memory expires when its window has passed and no reception of the other trunk that began within it is in
COLLECT. -/
def Obligations.Expiries : Prop :=
  (∀ (p : Port) (s : State) (g : Gap), (s.port p).asm.gap? = some g →
    let expiry := g.ref + (16 * g.limit.toNat + 1) * (s.port p).applied.divisor.toNat
    (s.now < expiry ∨ (∃ e, (s.port p).rx.edge = some e ∧ e < expiry) → exec (.gapExpiry p) s = .next s)
    ∧ (expiry ≤ s.now → (∀ e, (s.port p).rx.edge = some e → expiry ≤ e) →
      (∀ c, (s.port p).asm = .collect c → exec (.gapExpiry p) s = .next (s.failed p c .runt))
      ∧ (∀ w, (s.port p).asm = .shadow w →
          exec (.gapExpiry p) s = .next (setAsm p .hunt (countPort p .shadowed s)))
      ∧ (∀ h, (s.port p).asm = .skip h → exec (.gapExpiry p) s = .next (setAsm p .hunt s))))
  ∧ (∀ (s : State) (r : DupRecord), s.dup = some r →
    let limit := r.endTick + s.relay.mirrorWindow.toNat
    (limit < s.tick → (∀ c, (s.port r.trunk.other.port).asm = .collect c → limit < c.startTick) →
      exec .duplicateMemoryExpiry s = .next { s with dup := none })
    ∧ (s.tick ≤ limit ∨ (∃ c, (s.port r.trunk.other.port).asm = .collect c ∧ c.startTick ≤ limit) →
      exec .duplicateMemoryExpiry s = .next s))

/-! ## The buffer pool and forwarding -/

/-- R76, R77, R79: an assembler is given a buffer when more than 2 are FREE, an originator when 1 or more is; a given
request makes one FREE buffer FILLING and changes nothing else; a refused one changes nothing; a release takes one
from the count of a HELD buffer, and the last one frees it. -/
def Obligations.PoolRequestsAndReleases : Prop :=
  (∀ (f : Filler) (s : State),
    ((∃ p, f = .assembler p) → ((requestBuffer f s).isSome = true ↔ 2 < s.freeCount))
    ∧ ((∀ p, f ≠ .assembler p) → ((requestBuffer f s).isSome = true ↔ 0 < s.freeCount))
    ∧ ∀ b t, requestBuffer f s = some (b, t) → (s.pool.get b).use = .free
        ∧ t = { s with pool := s.pool.set b.val ⟨.filling f, []⟩ b.isLt } ∧ t.freeCount + 1 = s.freeCount)
  ∧ (∀ (b : BufId) (n : Nat) (s : State), (s.pool.get b).use = .held (n + 2) →
      dropRef b s = { s with pool := s.pool.set b.val { s.pool.get b with use := .held (n + 1) } b.isLt })
  ∧ (∀ (b : BufId) (s : State), (s.pool.get b).use = .held 1 →
      dropRef b s = { s with pool := s.pool.set b.val Buffer.empty b.isLt }
      ∧ (dropRef b s).freeCount = s.freeCount + 1)

/-- R55, R56: the lookup finds the first record of the active bank, in ascending position, that meets the three
conditions, and gives one of three results, counted in the same event. -/
def Obligations.Lookup : Prop :=
  (∀ (dest src : Byte) (p : Port) (t : RouteTable),
    (∀ i a, t.lookup dest src p = some (i, a) ↔
      t.active.get i = some a ∧ a.record.Fits dest src p
        ∧ ∀ j, j < i → ∀ x, t.active.get j = some x → ¬ x.record.Fits dest src p)
    ∧ (t.lookup dest src p = none ↔ ∀ i a, t.active.get i = some a → ¬ a.record.Fits dest src p))
  ∧ (∀ (dest src : Byte) (p : Port) (s : State),
    (∀ i a, s.route.lookup dest src p = some (i, a) →
      lookUp dest src p s = (match a.record.action with
          | .forward => .forward a.record.egress a.record.rewrite
          | .drop => .drop,
        { s with route := { s.route with
            active := s.route.active.set i.val (some { a with hits := satInc a.hits }) i.isLt } }))
    ∧ (s.route.lookup dest src p = none →
      lookUp dest src p s = (match s.relay.defaultAction with
          | .flood => .forward (BitVec.allOnes 6) none
          | .drop => .drop,
        { s with counters := { s.counters with defaultHits := satInc s.counters.defaultHits } })))

/-- R54, R65: validation finds the first invalid record, in ascending position, and the first of the five conditions it
fails; a bank it passes holds valid records only. -/
def Obligations.ValidationFindsFirstInvalid : Prop :=
  ∀ (own : Byte) (t : RouteTable),
    (t.firstInvalid own = none ↔ ∀ i r, t.staging.get i = some r → r.Valid own)
    ∧ ∀ i why, t.firstInvalid own = some (i, why) →
        (∃ r, t.staging.get i = some r ∧ ¬ r.Valid own ∧
          let range := 1 ≤ r.low.toNat ∧ r.low.toNat ≤ r.high.toNat
          let ingress := r.ingress ≠ 0
          let egress := (r.action = .forward → r.egress ≠ 0) ∧ (r.action = .drop → r.egress = 0)
          let rewrite := ∀ a, r.rewrite = some a → r.action = .forward ∧ 1 ≤ a.toNat ∧ a.toNat ≤ 254 ∧ a ≠ own
          let source := ∀ l h, r.source = some (l, h) → 1 ≤ l.toNat ∧ h.toNat ≤ 254 ∧ l.toNat ≤ h.toNat
          (¬ range ∧ why = .range)
            ∨ (range ∧ ¬ ingress ∧ why = .noIngress)
            ∨ (range ∧ ingress ∧ ¬ egress ∧ why = .egress)
            ∨ (range ∧ ingress ∧ egress ∧ ¬ rewrite ∧ why = .rewrite)
            ∨ (range ∧ ingress ∧ egress ∧ rewrite ∧ ¬ source ∧ why = .source))
        ∧ ∀ j, j < i → ∀ r, t.staging.get j = some r → r.Valid own

/-- R83 to R85, R121, R127: the frames disposed of without a lookup and without a command: BAD_DEST, LOCAL_UNKNOWN,
MGMT_REFUSED, MGMT_DISCARDED, an unknown code answered BAD_COMMAND, a REPLY no poll awaits. The buffer is FREE after
each. -/
def Obligations.DispositionOfLocalFrames : Prop :=
  ∀ (s : State) (e : Inbound) (rest : List Inbound), s.inbound = e :: rest →
    let f := (s.pool.get e.buf).bytes
    let u : State := { s with
      inbound := rest, headSince := s.now, pool := s.pool.set e.buf.val Buffer.empty e.buf.isLt }
    (frameDest f = 0 → exec .disposition s = .next (countRelay .badDest u))
    ∧ (frameDest f ≠ 0 → frameDest f = s.ownAddr →
      (frameCtl f ≠ 0x03 → frameCtl f ≠ 0x04 → exec .disposition s = .next (countRelay .localUnknown u))
      ∧ (frameCtl f = 0x04 → (s.port e.port).applied.mgmtAllowed = false →
          exec .disposition s = .next (countRelay .mgmtRefused u))
      ∧ (frameCtl f = 0x04 → (s.port e.port).applied.mgmtAllowed = true →
          ((framePayload f).length < 2 → exec .disposition s = .next (countRelay .mgmtDiscarded u))
          ∧ (∀ seq code args, framePayload f = seq :: code :: args → Command.ofCode code = none →
              (s.restart.isSome = true → exec .disposition s = .next (countRelay .mgmtDiscarded u))
              ∧ (s.restart = none → exec .disposition s = .next
                  (sendReply (frameSrc f) e.port seq code ⟨.badCommand, []⟩
                    (u.heard ⟨frameSrc f, e.port, seq, args⟩)).2)))
      ∧ (frameCtl f = 0x03 →
          (∀ b, e.port.branch? = some b →
            ¬ ((s.sched b).state = .await ∨ ((s.sched b).state = .stopping ∧ (s.sched b).sentTick ≠ none))
              ∨ (s.sched b).station ≠ some (frameSrc f)) →
          exec .disposition s = .next (countRelay .unexpectedReply u)))

/-- R84, R125: a management command disposed of on a port that allows management does what its row does. (During a
cold reset no frame is there to be disposed of, R169.) -/
def Obligations.DispositionRunsTheCommand : Prop :=
  ∀ (s : State) (e : Inbound) (rest : List Inbound), s.inbound = e :: rest →
    let f := (s.pool.get e.buf).bytes
    s.inReset = false → frameDest f ≠ 0 → frameDest f = s.ownAddr → frameCtl f = 0x04 →
    (s.port e.port).applied.mgmtAllowed = true →
    ∀ seq code args k, framePayload f = seq :: code :: args → Command.ofCode code = some k →
      exec .disposition s = exec (k.row ⟨frameSrc f, e.port, seq, args⟩)
        { s with inbound := rest, headSince := s.now, pool := s.pool.set e.buf.val Buffer.empty e.buf.isLt }

/-- R86 to R89: a frame for a station: a DROP result frees the buffer; a FORWARD result goes to each enabled port of the
egress set but the ingress port, in port order: a queue with room takes one copy, a full one refuses it, counts
QUEUE_OVERFLOWS and raises its alarm at once (whose notification may take room on a trunk). The buffer is HELD with the
number of copies that stand, or, with none placed, FREE and counted UNDELIVERED. -/
def Obligations.DispositionForwards : Prop :=
  ∀ (s : State) (e : Inbound) (rest : List Inbound), s.inbound = e :: rest →
    let f := (s.pool.get e.buf).bytes
    frameDest f ≠ 0 → frameDest f ≠ s.ownAddr →
    let l := lookUp (frameDest f) (frameSrc f) e.port { s with inbound := rest, headSince := s.now }
    let u := l.2
    (l.1 = .drop → exec .disposition s
      = .next { u with pool := u.pool.set e.buf.val Buffer.empty e.buf.isLt })
    ∧ (∀ egress rewrite, l.1 = .forward egress rewrite →
      let copied : Port → Bool := fun q => PortSet.mem egress q && decide (q ≠ e.port) && (s.port q).applied.enabled
      let d : Descriptor := ⟨e.buf, .forward, rewrite, some s.tick⟩
      let ended : Nat → State → State := fun n x => { x with
        pool := x.pool.set e.buf.val
          (if n = 0 then Buffer.empty else { x.pool.get e.buf with use := .held n }) e.buf.isLt
        counters := if n = 0 then { x.counters with undelivered := satInc x.counters.undelivered } else x.counters }
      let place : Nat × State → Port → Nat × State := fun x q =>
        if copied q = false then x
        else if (x.2.port q).queue.length < 8 then
          (x.1 + 1, { x.2 with ports := x.2.ports.set q { x.2.port q with queue := (x.2.port q).queue ++ [d] } })
        else (x.1, raise (.queueOverflow q) { x.2 with
          ports := x.2.ports.set q { x.2.port q with counters := (x.2.port q).counters.bump .queueOverflows } })
      let all := Port.all.foldl place (0, u)
      exec .disposition s = .next (ended all.1 all.2)
      ∧ ((∀ q, copied q = true → (s.port q).queue.length < 8) →
        exec .disposition s = .next (ended (Port.all.countP copied) { u with
          ports := PerPort.of fun q => if copied q then
            { u.port q with queue := (u.port q).queue ++ [d] } else u.port q }))
      ∧ ∃ t, exec .disposition s = .next t
        ∧ (∀ q, copied q = true → (s.port q).queue.length = 8 →
            (t.port q).queue = (s.port q).queue
              ∧ (t.port q).counters.queueOverflows = satInc (s.port q).counters.queueOverflows
              ∧ ((∃ a, a ∈ t.alarms ∧ a.key = .queueOverflow q ∧ a.last = s.tick) ∨ 16 ≤ t.alarms.length))
        ∧ (∀ q, copied q = false → (t.port q).counters = (s.port q).counters)
        ∧ (s.relay.notifyAddr = none →
            (∀ q, copied q = true → (s.port q).queue.length < 8 → (t.port q).queue = (s.port q).queue ++ [d])
            ∧ (∀ q, copied q = false → (t.port q).queue = (s.port q).queue)
            ∧ (let n := Port.all.countP fun q => copied q && decide ((s.port q).queue.length < 8)
               0 < n → t.pool.get e.buf = ⟨.held n, f⟩))
        ∧ ((∀ q, copied q = true → (s.port q).queue.length = 8) →
            (t.pool.get e.buf).use = .free ∧ t.counters.undelivered = satInc s.counters.undelivered))

/-! ## Egress -/

/-- R94, R96, R99, R105: a take that serves the queue releases its stale descriptors, counted, and puts the first
fresh one in the current slot; a queue with none fresh leaves the slot empty. On a branch this is so where the poll
does not want the transmitter, or was served last and a fresh descriptor stands. R10, R93, R100: a port takes nothing
while its slot is full, while a configuration is pending or a poll outstanding, or while no claimant wants it. (That the
stale descriptors behind a released RESTART reply are counted too is the model's choice, log 29.) -/
def Obligations.TakeServesQueue : Prop :=
  (∀ (p : Port) (s : State),
    (s.port p).tx ≠ .idle ∨ (s.port p).pendingConfig ≠ none
      ∨ (∃ b, p.branch? = some b ∧ (s.branch b).outstanding = true)
      ∨ (((s.port p).applied.enabled = false ∨ (s.port p).queue = [])
          ∧ ∀ b, p.branch? = some b → (s.sched b).buffer = none) →
    exec (.take p) s = .next s)
  ∧ ∀ (p : Port) (s : State) (stale : List Descriptor),
    (s.port p).tx = .idle → (s.port p).applied.enabled = true → (s.port p).pendingConfig = none →
    (∀ b, p.branch? = some b → (s.branch b).outstanding = false) →
    (∀ d, d ∈ stale → ∃ t, d.enqueued = some t ∧ 10 * s.relay.residence.toNat < s.tick - t) →
    (∀ d rest, (s.port p).queue = stale ++ d :: rest →
      (∀ t, d.enqueued = some t → s.tick - t ≤ 10 * s.relay.residence.toNat) →
      let u := s.released p stale rest
      let v : State := { u with ports := u.ports.set p { u.port p with tx := .waitLine d } }
      (p.branch? = none → exec (.take p) s = .next (settleRestart v))
      ∧ ∀ b, p.branch? = some b → ((s.sched b).buffer = none ∨ (s.branch b).lastServed = .poll) →
          exec (.take p) s = .next (settleRestart
            { v with branches := v.branches.set b { v.branch b with lastServed := .queue } }))
    ∧ ((s.port p).queue = stale → stale ≠ [] → (∀ b, p.branch? = some b → (s.sched b).buffer = none) →
        exec (.take p) s = .next (settleRestart (s.released p stale [])))

/-- R98 to R101: a take that serves the poll: the built POLL frame enters the current slot and the poll is
outstanding, where the queue wants nothing, was served last, or yields no fresh descriptor; on a disabled branch the
poll is served with no placement and reported sent at once. (Stale descriptors behind a released RESTART reply are
counted before the restart: the model's choice, log 29.) -/
def Obligations.TakeServesPoll : Prop :=
  ∀ (b : Branch) (s : State) (buf : BufId),
    (s.port b.port).tx = .idle → (s.port b.port).pendingConfig = none → (s.branch b).outstanding = false →
    (s.sched b).buffer = some buf →
    ((s.port b.port).applied.enabled = true →
      ((s.port b.port).queue = [] ∨ (s.branch b).lastServed = .queue →
        exec (.take b.port) s = .next (settleRestart (s.pollTaken b buf)))
      ∧ ((s.branch b).lastServed = .poll → (s.port b.port).queue ≠ [] →
        (∀ d, d ∈ (s.port b.port).queue → ∃ t, d.enqueued = some t ∧ 10 * s.relay.residence.toNat < s.tick - t) →
        exec (.take b.port) s
          = .next (settleRestart ((s.released b.port (s.port b.port).queue []).pollTaken b buf))))
    ∧ (∀ i, (s.port b.port).applied.enabled = false → (s.sched b).cursor = some i →
      exec (.take b.port) s = .next (settleRestart (({ s with
        branches := s.branches.set b
          { sched := { s.sched b with buffer := none }, lastServed := .poll, outstanding := true }
        pool := s.pool.set buf.val Buffer.empty buf.isLt }).pollReported b i)))

/-- R9, R11, R12, R14, R97, R117: sending starts when the line has been quiet for the turnaround idle, and the
receiver stops listening; it ends 6 + LEN characters later: FRAMES_OUT, the descriptor released, the line's last
activity now, the receiver listening again, and a poll's scheduler told. Before the last stop bit has been sent nothing
ends, and without a descriptor that waits nothing starts. R13: the bytes sent are the frame as stored,
or, with a rewrite address, that address for DEST and a check computed over the bytes sent, the rest as stored. -/
def Obligations.Sending : Prop :=
  (∀ (p : Port) (s : State) (d : Descriptor),
    ((s.port p).tx = .waitLine d →
      ((s.port p).rx.mode = .idle → (s.port p).rxd = .mark →
        (s.port p).lastActivity
          + (s.port p).applied.turnaround.toNat * (16 * (s.port p).applied.divisor.toNat) ≤ s.now →
        exec (.transmitStart p) s = .next { s with ports := s.ports.set p { s.port p with
          tx := .sending d s.now, rx := Receiver.fresh s.now } })
      ∧ ((s.port p).rx.mode ≠ .idle ∨ (s.port p).rxd = .space ∨ s.now < (s.port p).lastActivity
          + (s.port p).applied.turnaround.toNat * (16 * (s.port p).applied.divisor.toNat) →
        exec (.transmitStart p) s = .next s))
    ∧ ((∀ d', (s.port p).tx ≠ .waitLine d') → exec (.transmitStart p) s = .next s)
    ∧ ((∀ d' start, (s.port p).tx = .sending d' start →
        s.now < start + 11 * s.descLength d' * (16 * (s.port p).applied.divisor.toNat)) →
      exec (.endOfSending p) s = .next s)
    ∧ (∀ start, (s.port p).tx = .sending d start →
      start + 11 * s.descLength d * (16 * (s.port p).applied.divisor.toNat) ≤ s.now →
      let v := dropRef d.buf s
      let u : State := { v with ports := v.ports.set p { v.port p with
        tx := .idle
        rx := Receiver.fresh s.now
        lastActivity := s.now
        counters := (s.port p).counters.bump .framesOut } }
      ((d.origin ≠ .poll ∨ p.branch? = none) → exec (.endOfSending p) s = .next (settleRestart u))
      ∧ ∀ b i, d.origin = .poll → p.branch? = some b → (s.sched b).cursor = some i →
          exec (.endOfSending p) s = .next (settleRestart (u.pollReported b i))))
  ∧ (∀ f : List Byte, f.length = 6 + frameLen f →
    sentBytes none f = f
    ∧ ∀ a, (sentBytes (some a) f).length = f.length
      ∧ frameByte (sentBytes (some a) f) 0 = a
      ∧ (∀ i, 1 ≤ i → i < 4 + frameLen f → frameByte (sentBytes (some a) f) i = frameByte f i)
      ∧ word16 (frameByte (sentBytes (some a) f) (4 + frameLen f)) (frameByte (sentBytes (some a) f) (5 + frameLen f))
          = crc ((sentBytes (some a) f).take (4 + frameLen f)))

/-- R17 to R19, R102: a pending configuration is applied at a quiet port, and not before; one that disables the port
flushes its queue. A start edge taken first at the instant at which the port would have become quiet keeps the record
pending (R17). Of `Quiet`, that such an edge keeps it to the decision where it proves a false start, and that an edge
still under evaluation since an earlier instant keeps nothing pending, is the model's choice (log 26); so is that a
flush counts the descriptors behind a released RESTART reply (log 29). -/
def Obligations.ApplyPendingConfig : Prop :=
  (∀ (p : Port) (s : State), (s.port p).pendingConfig = none → exec (.applyPendingConfig p) s = .next s)
  ∧ ∀ (p : Port) (s : State) (c : PortConfig), (s.port p).pendingConfig = some c →
    (s.Quiet p → exec (.applyPendingConfig p) s = .next (settleRestart (s.configured p c)))
    ∧ (¬ s.Quiet p → exec (.applyPendingConfig p) s = .next s)

/-! ## Polling -/

/-- R115, R116, R122: a READY scheduler without a buffer asks again after a tick; a waiting one begins its cycle when
the interval has passed. Given a buffer, it builds the POLL frame; refused, it counts POLL_DEFERRED. -/
def Obligations.PollTimers : Prop :=
  ∀ (b : Branch) (s : State) (i : Fin 32) (e : PollEntry),
    (s.sched b).cursor = some i → s.pollList.get i = some e →
    ((s.sched b).state = .ready → (s.sched b).buffer = none → (s.branch b).outstanding = false →
      (s.sched b).asked < s.tick → ∃ t, exec (.pollBufferRetry b) s = .next t ∧ PollAsked b e s t)
    ∧ ((s.sched b).state = .waitInterval →
      ((s.sched b).cycleStart + (s.sched b).cycleInterval.toNat ≤ s.tick →
        ∃ t, exec (.newCycle b) s = .next t ∧ PollAsked b e { s with
          branches := s.branches.set b { s.branch b with sched := { s.sched b with
            state := .ready, cursor := some i, cycleStart := s.tick } } } t)
      ∧ (s.tick < (s.sched b).cycleStart + (s.sched b).cycleInterval.toNat → exec (.newCycle b) s = .next s))

/-- R117, R120, R122, R123: the expiry of the reply timer is a miss: the station becomes MISSING, or LOST at the miss
limit with an alarm when it was not, and the poll ends. That the alarm's frame asks the pool before the next POLL frame
does, where the poll's end goes on to READY, is the model's choice (log 28). -/
def Obligations.ReplyTimeout : Prop :=
  ∀ (b : Branch) (s : State) (i : Fin 32) (e : PollEntry) (sent : Nat),
    (s.sched b).cursor = some i → s.pollList.get i = some e →
    ((s.sched b).state = .await ∨ (s.sched b).state = .stopping) → (s.sched b).sentTick = some sent →
    (s.tick < sent + (s.sched b).replyTimeout.toNat → exec (.replyTimeout b) s = .next s)
    ∧ (sent + (s.sched b).replyTimeout.toNat ≤ s.tick →
      let r := s.stations.get i
      let misses := if r.misses < e.missLimit.toNat then r.misses + 1 else r.misses
      let u : State := { s with stations := s.stations.set i.val { r with
        misses := misses, state := if misses < e.missLimit.toNat then .missing else .lost } i.isLt }
      ∃ t, exec (.replyTimeout b) s = .next t
        ∧ (misses < e.missLimit.toNat ∨ r.state = .lost → PollEnded b u t)
        ∧ (e.missLimit.toNat ≤ misses → r.state ≠ .lost → PollEnded b (raise (.stationLost e.station) u) t))

/-- R85, R119, R122, R123: a REPLY from the polled station on its branch, while the poll awaits it, makes the station
PRESENT with the first 16 bytes of the payload, and ends the poll. That the REPLY's buffer is FREE before the poll's end
asks for the next POLL frame's is the model's choice (log 30). -/
def Obligations.ReplyAccepted : Prop :=
  ∀ (s : State) (e : Inbound) (rest : List Inbound) (b : Branch) (i : Fin 32), s.inbound = e :: rest →
    let f := (s.pool.get e.buf).bytes
    frameDest f ≠ 0 → frameDest f = s.ownAddr → frameCtl f = 0x03 → e.port.branch? = some b →
    ((s.sched b).state = .await ∨ ((s.sched b).state = .stopping ∧ (s.sched b).sentTick ≠ none)) →
    (s.sched b).station = some (frameSrc f) → (s.sched b).cursor = some i →
    ∃ t, exec .disposition s = .next t ∧ PollEnded b { s with
      inbound := rest
      headSince := s.now
      pool := s.pool.set e.buf.val Buffer.empty e.buf.isLt
      stations := s.stations.set i.val { s.stations.get i with
        state := .present
        misses := 0
        lastStatus := some ((framePayload f).take 16)
        lastReply := some s.tick
        repliesTaken := satInc (s.stations.get i).repliesTaken } i.isLt
      counters := if 16 < (framePayload f).length then
        { s.counters with truncatedReplies := satInc s.counters.truncatedReplies } else s.counters } t

/-! ## Replies, and the commands that are not executed -/

/-- R78, R126: a reply needs a FREE buffer and room on an enabled port: then the MGMT-RSP stands at the tail of the
port's queue in a buffer HELD once; otherwise REPLY_NOT_SENT is counted, every buffer that was not FREE is as it was, bytes
and all, and the FREE ones are FREE. A command is answered by such a reply to its SRC, on its ingress port, with its SEQ and its code as
11.3 gives it. -/
def Obligations.ReplySent : Prop :=
  (∀ (k : Command) (x : Byte), (k, x) ∈ ([(.readStatus, 0x01), (.readRelay, 0x02), (.readPort, 0x03),
      (.readCounters, 0x04), (.readRecord, 0x05), (.readPollEntry, 0x06), (.readStation, 0x07), (.readAlarms, 0x08),
      (.openSession, 0x10), (.closeSession, 0x11), (.writeRecord, 0x20), (.clearRecord, 0x21), (.discardStaging, 0x22),
      (.commit, 0x23), (.setPort, 0x24), (.setRelay, 0x25), (.writePollEntry, 0x26), (.clearPollEntry, 0x27),
      (.pollControl, 0x28), (.ackAlarm, 0x29), (.restart, 0x2A)] : List (Command × Byte)) →
    Command.ofCode x = some k
      ∧ ∀ (c : Cmd) (r : Reply) (s : State), answer c k r s = (sendReply c.src c.port c.seq x r s).2)
  ∧ ∀ (dest seq code : Byte) (p : Port) (r : Reply) (s : State),
    (0 < s.freeCount → (s.port p).applied.enabled = true → (s.port p).queue.length < 8 →
      ∃ buf : BufId, (s.pool.get buf).use = .free ∧ sendReply dest p seq code r s = (some buf, { s with
        pool := s.pool.set buf.val
          ⟨.held 1, buildFrame dest s.ownAddr 0x05 (seq :: code :: r.status.code :: r.data)⟩ buf.isLt
        ports := s.ports.set p { s.port p with queue := (s.port p).queue ++ [⟨buf, .reply, none, some s.tick⟩] } }))
    ∧ (s.freeCount = 0 ∨ (s.port p).applied.enabled = false ∨ 8 ≤ (s.port p).queue.length →
      ∃ t, sendReply dest p seq code r s = (none, t)
        ∧ t = { s with
                pool := t.pool
                counters := { s.counters with replyNotSent := satInc s.counters.replyNotSent } }
        ∧ ∀ b, (t.pool.get b).use = (s.pool.get b).use
          ∧ ((s.pool.get b).use ≠ .free → t.pool.get b = s.pool.get b))

/-- R135 to R137: a command of the sequenced rows that is not executed: a retry is answered from the cache, or
PENDING, or SEQ_ERROR; any other unexpected SEQ is answered SEQ_ERROR; from another station, or with no session, the
answer is NOT_OWNER. Nothing changes but the reply and, for the owner, the last activity (R132). R84, R141: on a port
that does not allow management a command is refused and counted; while a restart is pending it is discarded and
counted. During a cold reset none is received (R169). -/
def Obligations.CommandsNotExecuted : Prop :=
  (∀ (row : Instr) (k : Command) (c : Cmd) (s : State), sequencedOf row = some (k, c) → Serves c s →
    (s.session.owner = some c.src → c.seq ≠ s.session.nextSeq →
      (∀ r, c.seq = s.session.nextSeq - 1 → s.session.cache = some ⟨c.seq, k, .reply r⟩ →
        exec row s = .next (answer c k r (s.heard c)))
      ∧ (c.seq = s.session.nextSeq - 1 → s.session.cache = some ⟨c.seq, k, .pending⟩ →
        exec row s = .next (answer c k ⟨.pending, []⟩ (s.heard c)))
      ∧ (c.seq ≠ s.session.nextSeq - 1 ∨ s.session.cache = none
          ∨ (∃ e, s.session.cache = some e ∧ (e.seq ≠ c.seq ∨ e.command ≠ k)) →
        exec row s = .next (answer c k ⟨.seqError, [s.session.nextSeq]⟩ (s.heard c))))
    ∧ (∀ o, s.session.owner = some o → o ≠ c.src → exec row s = .next (answer c k ⟨.notOwner, [o]⟩ s))
    ∧ (s.session.owner = none → k ≠ .closeSession → exec row s = .next (answer c k ⟨.notOwner, [0]⟩ s)))
  ∧ (∀ (s : State) (c : Cmd) (row : Instr),
    ((∃ k, sequencedOf row = some (k, c)) ∨ row ∈ [.readStatus c, .readRelay c, .readPort c, .readCounters c,
      .readRecord c, .readPollEntry c, .readStation c, .readAlarms c, .openSession c]) →
    (s.inReset = true → exec row s = .next s)
    ∧ (s.inReset = false → (s.port c.port).applied.mgmtAllowed = false →
        exec row s = .next (countRelay .mgmtRefused s))
    ∧ (s.inReset = false → (s.port c.port).applied.mgmtAllowed = true → s.restart.isSome = true →
        exec row s = .next (countRelay .mgmtDiscarded s)))

/-! ## Reads -/

/-- R128, R132, R147, R151: READ-STATUS and READ-RELAY are answered with the relay's picture and the relay record, and
change nothing else but the owner's last activity. -/
def Obligations.ReadsOfTheRelay : Prop :=
  ∀ (c : Cmd) (s : State), Serves c s →
    exec (.readStatus c) s = .next (answer c .readStatus ⟨.ok,
      [s.ownAddr, s.route.epoch, if s.route.commit = .idle then 0 else 1, s.session.owner.getD 0,
       BitVec.ofNat 8 s.freeCount,
       BitVec.ofNat 8 (s.port .t0).queue.length, BitVec.ofNat 8 (s.port .t1).queue.length,
       BitVec.ofNat 8 (s.port .b0).queue.length, BitVec.ofNat 8 (s.port .b1).queue.length,
       BitVec.ofNat 8 (s.port .b2).queue.length, BitVec.ofNat 8 (s.port .b3).queue.length,
       (s.sched .b0).state.code, (s.sched .b1).state.code, (s.sched .b2).state.code, (s.sched .b3).state.code]
      ++ bytes32 (s.sched .b0).cycleCount ++ bytes32 (s.sched .b1).cycleCount
      ++ bytes32 (s.sched .b2).cycleCount ++ bytes32 (s.sched .b3).cycleCount
      ++ [BitVec.ofNat 8 s.alarms.length] ++ bytes32 s.alarmsLost⟩ (s.heard c))
    ∧ exec (.readRelay c) s = .next (answer c .readRelay ⟨.ok,
      [(match s.relay.defaultAction with | .drop => 0x01 | .flood => 0x02),
       (match s.relay.preferred with | .t0 => 0x00 | .t1 => 0x01),
       s.relay.mirrorWindow, s.relay.residence, s.relay.sessionTimeout,
       if s.relay.notifyAddr = none then 0x00 else 0x01, s.relay.notifyAddr.getD 0x00,
       (if s.relay.notifyT0 then 1 else 0) + (if s.relay.notifyT1 then 2 else 0), s.ownAddr]⟩ (s.heard c))

/-- R150, R152, R154, R155, R167: READ-PORT, and READ-COUNTERS without clear, are answered with the values of the
port or part named, BAD_ARG where none is; READ-COUNTERS with clear, executed, also sets the counters of the part to
0 and leaves the other part. -/
def Obligations.ReadsOfPortsAndCounters : Prop :=
  ∀ (c : Cmd) (s : State),
    (Serves c s →
      (∀ (p : Port) (rest : List Byte), c.args = Port.code p :: rest →
        exec (.readPort c) s = .next (answer c .readPort ⟨.ok,
          Port.code p :: (s.port p).applied.bytes ++ (match (s.port p).pendingConfig with
            | none => List.replicate 7 0x00
            | some x => 0x01 :: x.bytes)⟩ (s.heard c)))
      ∧ (∀ (p : Port) (rest : List Byte), c.args = Port.code p :: 0x00 :: 0x00 :: rest →
        exec (.readCounters c) s = .next (answer c .readCounters ⟨.ok,
          Port.code p :: 0x00 :: (s.port p).counters.part0.flatMap bytes32⟩ (s.heard c)))
      ∧ (∀ (p : Port) (rest : List Byte), c.args = Port.code p :: 0x01 :: 0x00 :: rest →
        exec (.readCounters c) s = .next (answer c .readCounters ⟨.ok,
          Port.code p :: 0x01 :: (s.port p).counters.part1.flatMap bytes32⟩ (s.heard c)))
      ∧ (∀ rest, c.args = 0x06 :: 0x00 :: 0x00 :: rest →
        exec (.readCounters c) s = .next (answer c .readCounters ⟨.ok,
          0x06 :: 0x00 :: s.counters.part0.flatMap bytes32⟩ (s.heard c)))
      ∧ (c.args = [] ∨ (∃ x rest, c.args = x :: rest ∧ 6 ≤ x.toNat) →
        exec (.readPort c) s = .next (answer c .readPort ⟨.badArg, []⟩ (s.heard c)))
      ∧ (c.args.length < 3 ∨ (∃ x y z rest, c.args = x :: y :: z :: rest ∧ z ≠ 0x01
            ∧ (7 ≤ x.toNat ∨ 2 ≤ y.toNat ∨ (x = 0x06 ∧ y ≠ 0x00) ∨ z ≠ 0x00)) →
        exec (.readCounters c) s = .next (answer c .readCounters ⟨.badArg, []⟩ (s.heard c))))
    ∧ (Accepts c s →
      (∀ (p : Port) (rest : List Byte), c.args = Port.code p :: 0x00 :: 0x01 :: rest →
        let r : Reply := ⟨.ok, Port.code p :: 0x00 :: (s.port p).counters.part0.flatMap bytes32⟩
        ∃ k : PortCounters, k.part0 = List.replicate 9 0 ∧ k.part1 = (s.port p).counters.part1
          ∧ exec (.readCountersClear c) s = .next (answer c .readCounters r
              { s.executed c .readCounters r with ports := s.ports.set p { s.port p with counters := k } }))
      ∧ (∀ (p : Port) (rest : List Byte), c.args = Port.code p :: 0x01 :: 0x01 :: rest →
        let r : Reply := ⟨.ok, Port.code p :: 0x01 :: (s.port p).counters.part1.flatMap bytes32⟩
        ∃ k : PortCounters, k.part1 = List.replicate 8 0 ∧ k.part0 = (s.port p).counters.part0
          ∧ exec (.readCountersClear c) s = .next (answer c .readCounters r
              { s.executed c .readCounters r with ports := s.ports.set p { s.port p with counters := k } }))
      ∧ (∀ rest, c.args = 0x06 :: 0x00 :: 0x01 :: rest →
        let r : Reply := ⟨.ok, 0x06 :: 0x00 :: s.counters.part0.flatMap bytes32⟩
        ∃ k : RelayCounters, k.part0 = List.replicate 12 0
          ∧ exec (.readCountersClear c) s = .next (answer c .readCounters r
              { s.executed c .readCounters r with counters := k }))
      ∧ ((∃ x y rest, c.args = x :: y :: 0x01 :: rest
            ∧ (7 ≤ x.toNat ∨ 2 ≤ y.toNat ∨ (x = 0x06 ∧ y ≠ 0x00))) →
        exec (.readCountersClear c) s
          = .next (answer c .readCounters ⟨.badArg, []⟩ (s.executed c .readCounters ⟨.badArg, []⟩))))

/-- R63, R110, R111, R162, R167, R168: READ-RECORD, READ-POLL-ENTRY, READ-STATION and READ-ALARMS are answered with
what the position or the list holds, 0x00 for what is absent, BAD_ARG outside the range or with too few argument bytes
(R127). -/
def Obligations.ReadsOfTables : Prop :=
  ∀ (c : Cmd) (s : State) (x : Byte) (rest : List Byte), Serves c s →
    (∀ i : Fin 96, i.val = x.toNat →
      (c.args = 0x00 :: x :: rest → exec (.readRecord c) s = .next (answer c .readRecord ⟨.ok,
        0x00 :: x :: s.route.epoch :: (match s.route.active.get i with
          | none => List.replicate 15 0x00
          | some a => 0x01 :: a.record.bytes ++ bytes32 a.hits)⟩ (s.heard c)))
      ∧ (c.args = 0x01 :: x :: rest → exec (.readRecord c) s = .next (answer c .readRecord ⟨.ok,
        0x01 :: x :: s.route.epoch :: (match s.route.staging.get i with
          | none => List.replicate 15 0x00
          | some r => 0x01 :: r.bytes ++ bytes32 0)⟩ (s.heard c))))
    ∧ (∀ y, c.args = y :: x :: rest → 95 < x.toNat ∨ 1 < y.toNat →
        exec (.readRecord c) s = .next (answer c .readRecord ⟨.badArg, []⟩ (s.heard c)))
    ∧ (c.args.length < 2 → exec (.readRecord c) s = .next (answer c .readRecord ⟨.badArg, []⟩ (s.heard c)))
    ∧ (c.args = [] →
        exec (.readPollEntry c) s = .next (answer c .readPollEntry ⟨.badArg, []⟩ (s.heard c))
        ∧ exec (.readStation c) s = .next (answer c .readStation ⟨.badArg, []⟩ (s.heard c))
        ∧ exec (.readAlarms c) s = .next (answer c .readAlarms ⟨.badArg, []⟩ (s.heard c)))
    ∧ (c.args = x :: rest →
      (∀ i : Fin 32, i.val = x.toNat →
        exec (.readPollEntry c) s = .next (answer c .readPollEntry ⟨.ok,
          x :: (match s.pollList.get i with
            | none => List.replicate 14 0x00
            | some e => [0x01, e.station, Port.code e.branch.port, boolByte e.enabled, e.missLimit,
                BitVec.ofNat 8 e.payload.length] ++ e.payload ++ List.replicate (8 - e.payload.length) 0x00)⟩
          (s.heard c))
        ∧ exec (.readStation c) s = .next (answer c .readStation ⟨.ok,
          x :: stationBytes (s.pollList.get i) (s.stations.get i) s.tick⟩ (s.heard c)))
      ∧ (32 ≤ x.toNat →
        exec (.readPollEntry c) s = .next (answer c .readPollEntry ⟨.badArg, []⟩ (s.heard c))
        ∧ exec (.readStation c) s = .next (answer c .readStation ⟨.badArg, []⟩ (s.heard c)))
      ∧ (x.toNat ≤ 15 → exec (.readAlarms c) s = .next (answer c .readAlarms ⟨.ok,
          BitVec.ofNat 8 s.alarms.length :: bytes32 s.alarmsLost ++ x ::
            ((s.alarms.drop x.toNat).take 6).flatMap (alarmBytes s.tick)⟩ (s.heard c)))
      ∧ (15 < x.toNat → exec (.readAlarms c) s = .next (answer c .readAlarms ⟨.badArg, []⟩ (s.heard c))))

/-- R168: the age code of an age in milliseconds, and the three ages of an alarm record, saturated, with 0xFF where
the last-notify tick is absent. -/
def Obligations.AgeCode : Prop :=
  (∀ age : Word32, (age.toNat < 16 → (ageCode age).toNat = age.toNat)
    ∧ ∀ k, 4 ≤ k → 2 ^ k ≤ age.toNat → age.toNat < 2 ^ (k + 1) →
      (ageCode age).toNat = 16 + 8 * (k - 4) + (age.toNat / 2 ^ (k - 3) - 8))
  ∧ ∀ (tick : Nat) (a : AlarmRecord),
    let age : Nat → Word32 := fun n => BitVec.ofNat 32 (min (tick - n) 4294967295)
    (alarmBytes tick a).drop 5 = [ageCode (age a.first), ageCode (age a.last),
      match a.lastNotify with
      | none => 0xFF
      | some n => ageCode (age n)]

/-! ## The session -/

/-- R130, R131, R133, R70, R73: opening, closing and expiry of the session. -/
def Obligations.OpeningAndEndOfSession : Prop :=
  (∀ (c : Cmd) (s : State), Serves c s →
    (c.src ≠ 0x00 → c.src ≠ 0xFF → c.src ≠ s.ownAddr →
      (s.session.owner = none ∨ s.session.owner = some c.src →
        exec (.openSession c) s = .next (answer c .openSession ⟨.ok, [s.route.epoch]⟩
          { s with session := ⟨some c.src, c.seq + 1, none, some s.tick⟩ }))
      ∧ (∀ o, s.session.owner = some o → o ≠ c.src →
        exec (.openSession c) s = .next (answer c .openSession ⟨.owned, [o]⟩ s)))
    ∧ (c.src = 0x00 ∨ c.src = 0xFF ∨ c.src = s.ownAddr →
      exec (.openSession c) s = .next (answer c .openSession ⟨.badArg, []⟩ (s.heard c)))
    ∧ (s.session.owner = none → exec (.closeSession c) s = .next (answer c .closeSession ⟨.ok, []⟩ s)))
  ∧ (∀ (c : Cmd) (s : State), Accepts c s →
    (s.route.commit ≠ .idle → exec (.closeSession c) s
      = .next (answer c .closeSession ⟨.busy, []⟩ (s.executed c .closeSession ⟨.busy, []⟩)))
    ∧ (s.route.commit = .idle → exec (.closeSession c) s = .next (answer c .closeSession ⟨.ok, []⟩
        { s with session := ⟨none, 0, none, none⟩, route := s.route.revert })))
  ∧ (∀ (s : State) (a : Nat), s.session.owner.isSome = true → s.session.lastActivity = some a →
    (s.route.commit = .idle → 1000 * s.relay.sessionTimeout.toNat < s.tick - a →
      exec .sessionExpiry s = .next { s with
        session := ⟨none, 0, none, none⟩
        route := s.route.revert
        counters := { s.counters with sessionExpired := satInc s.counters.sessionExpired } })
    ∧ (s.route.commit ≠ .idle ∨ s.tick - a ≤ 1000 * s.relay.sessionTimeout.toNat →
      exec .sessionExpiry s = .next s))

/-- R140, R142: RESTART is answered OK; placed, the restart is pending on its reply; not placed, the warm restart
takes place at once. A pending restart takes place when the reply's descriptor has left its port, and not before: so
every event that releases descriptors ends, and so does WARM_RESTART (the model's reading of R140, log 9). -/
def Obligations.Restart : Prop :=
  (∀ (c : Cmd) (s : State), Accepts c s →
    (∀ b t, sendReply c.src c.port c.seq 0x2A ⟨.ok, []⟩ (s.executed c .restart ⟨.ok, []⟩) = (some b, t) →
      exec (.restart c) s = .next { t with restart := some (c.port, b) })
    ∧ (∀ t, sendReply c.src c.port c.seq 0x2A ⟨.ok, []⟩ (s.executed c .restart ⟨.ok, []⟩) = (none, t) →
      exec (.restart c) s = .next (warmRestart t)))
  ∧ (∀ s : State, exec .warmRestart s = .next (settleRestart s))
  ∧ (∀ s : State, s.restart = none → settleRestart s = s)
  ∧ (∀ (s : State) (p : Port) (b : BufId), s.restart = some (p, b) →
    ((∃ d, d ∈ (s.port p).descriptors ∧ d.buf = b) → settleRestart s = s)
    ∧ ((∀ d, d ∈ (s.port p).descriptors → d.buf ≠ b) → settleRestart s = warmRestart s))

/-! ## Route Table commands -/

/-- R60, R69, R127: WRITE-RECORD writes a staging position; an encoding it cannot carry is BAD_ARG, even while
VALIDATING, and otherwise VALIDATING is BUSY. -/
def Obligations.WriteRecord : Prop :=
  ∀ (c : Cmd) (s : State), Accepts c s →
    (c.args.length < 11 → exec (.writeRecord c) s
      = .next (answer c .writeRecord ⟨.badArg, []⟩ (s.executed c .writeRecord ⟨.badArg, []⟩)))
    ∧ ∀ (x low high ing act egr rwp rw sp sl sh : Byte) (rest : List Byte),
      c.args = x :: low :: high :: ing :: act :: egr :: rwp :: rw :: sp :: sl :: sh :: rest →
      let encodes := x.toNat ≤ 95 ∧ (act = 0x01 ∨ act = 0x02) ∧ ing.toNat < 64 ∧ egr.toNat < 64
        ∧ (rwp = 0x00 ∨ rwp = 0x01) ∧ (sp = 0x00 ∨ sp = 0x01)
      (¬ encodes → exec (.writeRecord c) s
        = .next (answer c .writeRecord ⟨.badArg, []⟩ (s.executed c .writeRecord ⟨.badArg, []⟩)))
      ∧ (encodes → s.route.commit ≠ .idle → exec (.writeRecord c) s
        = .next (answer c .writeRecord ⟨.busy, []⟩ (s.executed c .writeRecord ⟨.busy, []⟩)))
      ∧ (encodes → s.route.commit = .idle → ∀ i : Fin 96, i.val = x.toNat →
        exec (.writeRecord c) s = .next (answer c .writeRecord ⟨.ok, []⟩
          { s.executed c .writeRecord ⟨.ok, []⟩ with route := { s.route with
              staging := s.route.staging.set i.val (some {
                low := low
                high := high
                ingress := ing.setWidth 6
                action := if act = 0x01 then .forward else .drop
                egress := egr.setWidth 6
                rewrite := if rwp = 0x01 then some rw else none
                source := if sp = 0x01 then some (sl, sh) else none }) i.isLt } }))

/-- R61: CLEAR-RECORD. -/
def Obligations.ClearRecord : Prop :=
  ∀ (c : Cmd) (s : State), Accepts c s →
    (c.args = [] → exec (.clearRecord c) s
      = .next (answer c .clearRecord ⟨.badArg, []⟩ (s.executed c .clearRecord ⟨.badArg, []⟩)))
    ∧ ∀ x rest, c.args = x :: rest →
      (95 < x.toNat → exec (.clearRecord c) s
        = .next (answer c .clearRecord ⟨.badArg, []⟩ (s.executed c .clearRecord ⟨.badArg, []⟩)))
      ∧ (x.toNat ≤ 95 → s.route.commit ≠ .idle → exec (.clearRecord c) s
        = .next (answer c .clearRecord ⟨.busy, []⟩ (s.executed c .clearRecord ⟨.busy, []⟩)))
      ∧ (∀ i : Fin 96, i.val = x.toNat → s.route.commit = .idle →
        exec (.clearRecord c) s = .next (answer c .clearRecord ⟨.ok, []⟩
          { s.executed c .clearRecord ⟨.ok, []⟩ with
            route := { s.route with staging := s.route.staging.set i.val none i.isLt } }))

/-- R62: DISCARD-STAGING. -/
def Obligations.DiscardStaging : Prop :=
  ∀ (c : Cmd) (s : State), Accepts c s →
    (s.route.commit ≠ .idle → exec (.discardStaging c) s
      = .next (answer c .discardStaging ⟨.busy, []⟩ (s.executed c .discardStaging ⟨.busy, []⟩)))
    ∧ (s.route.commit = .idle → ∃ staging : Vector (Option RouteRecord) 96,
      (∀ i, staging.get i = (s.route.active.get i).map (·.record))
      ∧ exec (.discardStaging c) s = .next (answer c .discardStaging ⟨.ok, []⟩
          { s.executed c .discardStaging ⟨.ok, []⟩ with route := { s.route with staging := staging } }))

/-- R64, R69, R138: COMMIT: refused BUSY or STALE_EPOCH at once, or validation begins and no reply is sent. -/
def Obligations.Commit : Prop :=
  ∀ (c : Cmd) (s : State), Accepts c s →
    (c.args = [] → exec (.commit c) s
      = .next (answer c .commit ⟨.badArg, []⟩ (s.executed c .commit ⟨.badArg, []⟩)))
    ∧ ∀ e rest, c.args = e :: rest →
      (s.route.commit ≠ .idle → exec (.commit c) s
        = .next (answer c .commit ⟨.busy, []⟩ (s.executed c .commit ⟨.busy, []⟩)))
      ∧ (s.route.commit = .idle → e ≠ s.route.epoch → exec (.commit c) s
        = .next (answer c .commit ⟨.staleEpoch, [s.route.epoch]⟩
            (s.executed c .commit ⟨.staleEpoch, [s.route.epoch]⟩)))
      ∧ (s.route.commit = .idle → e = s.route.epoch → exec (.commit c) s = .next { s with
          route := { s.route with commit := .validating s.now }
          deferred := some ⟨c.seq, c.src, c.port⟩
          session := { s.session with
            nextSeq := s.session.nextSeq + 1
            cache := some ⟨c.seq, .commit, .pending⟩
            lastActivity := some s.tick } })

/-- R66, R67, R70, R138: the completion of a validation: INVALID_TABLE with the first invalid record and nothing
changed, or the switch of the banks and OK with the new epoch; the deferred reply is sent and takes the place of its
pending mark. A session whose time has passed by then expires after it. -/
def Obligations.ValidationComplete : Prop :=
  ∀ (s : State) (start : Nat) (d : Deferred), s.route.commit = .validating start → s.deferred = some d →
    let cached : Reply → Option CacheEntry := fun r =>
      match s.session.cache with
      | none => none
      | some e => if e.content = .pending ∧ e.seq = d.seq then some { e with content := .reply r } else some e
    let complete : RouteTable → Reply → State := fun table r =>
      (sendReply d.src d.port d.seq 0x23 r
        { s with route := table, deferred := none, session := { s.session with cache := cached r } }).2
    let ends : State → Prop := fun u =>
      ((∀ a, s.session.lastActivity = some a → s.tick - a ≤ 1000 * s.relay.sessionTimeout.toNat) →
        exec .validationComplete s = .next u)
      ∧ (∀ a, s.session.owner.isSome = true → s.session.lastActivity = some a →
          1000 * s.relay.sessionTimeout.toNat < s.tick - a →
        exec .validationComplete s = .next { u with
          session := ⟨none, 0, none, none⟩
          route := u.route.revert
          counters := { u.counters with sessionExpired := satInc u.counters.sessionExpired } })
    (∀ i why, s.route.firstInvalid s.ownAddr = some (i, why) →
      ends (complete { s.route with commit := .idle }
        ⟨.invalidTable, [BitVec.ofNat 8 i.val, why.code, s.route.epoch]⟩))
    ∧ (s.route.firstInvalid s.ownAddr = none →
      ends (complete { s.route with
          active := countedRecords s.route.staging
          epoch := s.route.epoch + 1
          commit := .idle } ⟨.ok, [s.route.epoch + 1]⟩))

/-! ## Configuration -/

/-- R16 to R19, R149, R166: SET-PORT: BAD_ARG leaves the applied and the pending record; otherwise the record is
applied at a quiet port, and held pending elsewhere. Of `Quiet`, that a start edge taken at this same instant has the
record held pending, and that an edge still under evaluation since an earlier instant does not, is the model's choice
(log 26). -/
def Obligations.SetPort : Prop :=
  ∀ (c : Cmd) (s : State), Accepts c s →
    (c.args.length < 7 → exec (.setPort c) s
      = .next (answer c .setPort ⟨.badArg, []⟩ (s.executed c .setPort ⟨.badArg, []⟩)))
    ∧ ∀ (x en dh dl gap turn mg : Byte) (rest : List Byte),
      c.args = x :: en :: dh :: dl :: gap :: turn :: mg :: rest →
      let divisor := (dh.toNat % 16) * 256 + dl.toNat
      let fits := divisor ≠ 0 ∧ 2 ≤ gap.toNat ∧ turn.toNat ≠ 0 ∧ gap.toNat ≤ turn.toNat
      (6 ≤ x.toNat ∨ ¬ fits → exec (.setPort c) s
        = .next (answer c .setPort ⟨.badArg, []⟩ (s.executed c .setPort ⟨.badArg, []⟩)))
      ∧ ∀ p, x = Port.code p → fits →
        let cfg : PortConfig := { enabled := decide (en ≠ 0), divisor := BitVec.ofNat 12 divisor, gapLimit := gap,
                                  turnaround := turn, mgmtAllowed := p.trunk?.isSome || decide (mg ≠ 0) }
        (s.Quiet p → exec (.setPort c) s = .next (answer c .setPort ⟨.ok, [x, 0x00]⟩
          ((s.executed c .setPort ⟨.ok, [x, 0x00]⟩).configured p cfg)))
        ∧ (¬ s.Quiet p → exec (.setPort c) s = .next (answer c .setPort ⟨.ok, [x, 0x01]⟩
          { s.executed c .setPort ⟨.ok, [x, 0x01]⟩ with
            ports := s.ports.set p { s.port p with pendingConfig := some cfg } }))

/-- R48, R144 to R146, R166: SET-RELAY: every value is checked before any field changes; a mirror window of 0 makes
the duplicate memory absent. -/
def Obligations.SetRelay : Prop :=
  ∀ (c : Cmd) (s : State), Accepts c s →
    (c.args.length < 8 → exec (.setRelay c) s
      = .next (answer c .setRelay ⟨.badArg, []⟩ (s.executed c .setRelay ⟨.badArg, []⟩)))
    ∧ ∀ (da pt mw rl st np na nps : Byte) (rest : List Byte),
      c.args = da :: pt :: mw :: rl :: st :: np :: na :: nps :: rest →
      let fits := (da = 0x01 ∨ da = 0x02) ∧ (pt = 0x00 ∨ pt = 0x01) ∧ rl ≠ 0 ∧ st ≠ 0 ∧ (np = 0x00 ∨ np = 0x01)
        ∧ (np = 0x01 → na ≠ 0x00 ∧ na ≠ 0xFF ∧ na ≠ s.ownAddr) ∧ nps.toNat < 4
      (¬ fits → exec (.setRelay c) s
        = .next (answer c .setRelay ⟨.badArg, []⟩ (s.executed c .setRelay ⟨.badArg, []⟩)))
      ∧ (fits → exec (.setRelay c) s = .next (answer c .setRelay ⟨.ok, []⟩
        { s.executed c .setRelay ⟨.ok, []⟩ with
          relay := {
            defaultAction := if da = 0x02 then .flood else .drop
            preferred := if pt = 0x01 then .t1 else .t0
            mirrorWindow := mw
            residence := rl
            sessionTimeout := st
            notifyAddr := if np = 0x01 then some na else none
            notifyT0 := nps.getLsbD 0
            notifyT1 := nps.getLsbD 1 }
          dup := if mw = 0 then none else s.dup }))

/-! ## Poll List and schedulers -/

/-- R107 to R109: WRITE-POLL-ENTRY and CLEAR-POLL-ENTRY: BAD_ARG outside the ranges, BUSY while a scheduler they touch
is not STOPPED, and otherwise the position is written or emptied and its status record reset. -/
def Obligations.PollListCommands : Prop :=
  ∀ (c : Cmd) (s : State), Accepts c s →
    let idle : Fin 32 → Prop := fun i => ∀ e, s.pollList.get i = some e → (s.sched e.branch).state = .stopped
    let written : Command → Fin 32 → Option PollEntry → State := fun k i e =>
      { s.executed c k ⟨.ok, []⟩ with
        pollList := s.pollList.set i.val e i.isLt
        stations := s.stations.set i.val ⟨.unknown, 0, none, none, 0, 0⟩ i.isLt }
    (c.args.length < 6 → exec (.writePollEntry c) s
      = .next (answer c .writePollEntry ⟨.badArg, []⟩ (s.executed c .writePollEntry ⟨.badArg, []⟩)))
    ∧ (∀ (x st br en ml len : Byte) (rest : List Byte), c.args = x :: st :: br :: en :: ml :: len :: rest →
      (32 ≤ x.toNat ∨ st = 0x00 ∨ st = 0xFF ∨ st = s.ownAddr ∨ br.toNat < 2 ∨ 5 < br.toNat ∨ ml = 0 ∨ 15 < ml.toNat
          ∨ 8 < len.toNat ∨ rest.length < len.toNat →
        exec (.writePollEntry c) s
          = .next (answer c .writePollEntry ⟨.badArg, []⟩ (s.executed c .writePollEntry ⟨.badArg, []⟩)))
      ∧ (∀ (i : Fin 32) (b : Branch), i.val = x.toNat → br = Port.code b.port → st ≠ 0x00 → st ≠ 0xFF →
        st ≠ s.ownAddr → ml ≠ 0 → ml.toNat ≤ 15 → len.toNat ≤ 8 → len.toNat ≤ rest.length →
        ((s.sched b).state = .stopped → idle i → exec (.writePollEntry c) s
          = .next (answer c .writePollEntry ⟨.ok, []⟩
              (written .writePollEntry i (some ⟨st, b, decide (en ≠ 0), ml, rest.take len.toNat⟩))))
        ∧ ((s.sched b).state ≠ .stopped ∨ ¬ idle i → exec (.writePollEntry c) s
          = .next (answer c .writePollEntry ⟨.busy, []⟩ (s.executed c .writePollEntry ⟨.busy, []⟩)))))
    ∧ (c.args = [] → exec (.clearPollEntry c) s
      = .next (answer c .clearPollEntry ⟨.badArg, []⟩ (s.executed c .clearPollEntry ⟨.badArg, []⟩)))
    ∧ (∀ x rest, c.args = x :: rest →
      (32 ≤ x.toNat → exec (.clearPollEntry c) s
        = .next (answer c .clearPollEntry ⟨.badArg, []⟩ (s.executed c .clearPollEntry ⟨.badArg, []⟩)))
      ∧ (∀ i : Fin 32, i.val = x.toNat →
        (idle i → exec (.clearPollEntry c) s
          = .next (answer c .clearPollEntry ⟨.ok, []⟩ (written .clearPollEntry i none)))
        ∧ (¬ idle i → exec (.clearPollEntry c) s
          = .next (answer c .clearPollEntry ⟨.busy, []⟩ (s.executed c .clearPollEntry ⟨.busy, []⟩)))))

/-- R113: POLL-CONTROL START: BUSY unless STOPPED, EMPTY with no enabled entry; otherwise READY at the lowest enabled
entry with the new timing, and the pool asked for a buffer at the same event. A POLL-CONTROL that is too short, or
names no branch, or carries neither action, is BAD_ARG (R127, R166). -/
def Obligations.PollControlStart : Prop :=
  (∀ (c : Cmd) (s : State) (b : Branch) (timeout hi lo : Byte) (rest : List Byte), Accepts c s →
    c.args = Port.code b.port :: 0x01 :: timeout :: hi :: lo :: rest →
    let data : SchedState → List Byte := fun x => [Port.code b.port, x.code]
    (timeout.toNat < 2 → exec (.pollControlStart c) s
      = .next (answer c .pollControl ⟨.badArg, []⟩ (s.executed c .pollControl ⟨.badArg, []⟩)))
    ∧ (2 ≤ timeout.toNat → (s.sched b).state ≠ .stopped → exec (.pollControlStart c) s
      = .next (answer c .pollControl ⟨.busy, data (s.sched b).state⟩
          (s.executed c .pollControl ⟨.busy, data (s.sched b).state⟩)))
    ∧ (2 ≤ timeout.toNat → (s.sched b).state = .stopped → (∀ i, s.isEnabledEntry b i = false) →
      exec (.pollControlStart c) s
        = .next (answer c .pollControl ⟨.empty, data .stopped⟩ (s.executed c .pollControl ⟨.empty, data .stopped⟩)))
    ∧ (∀ i e, 2 ≤ timeout.toNat → (s.sched b).state = .stopped → s.pollList.get i = some e →
      s.isEnabledEntry b i = true → (∀ j, j < i → s.isEnabledEntry b j = false) →
      ∃ t, PollAsked b e { s.executed c .pollControl ⟨.ok, data .ready⟩ with
            branches := s.branches.set b { s.branch b with sched := { s.sched b with
              state := .ready
              cursor := some i
              replyTimeout := timeout
              cycleInterval := hi ++ lo
              cycleCount := 0
              cycleStart := s.tick } } } t
        ∧ exec (.pollControlStart c) s = .next (answer c .pollControl ⟨.ok, data .ready⟩ t)))
  ∧ (∀ (c : Cmd) (s : State), Accepts c s →
    c.args.length < 5 ∨ (∃ br act rest, c.args = br :: act :: rest
      ∧ (br.toNat < 2 ∨ 5 < br.toNat ∨ (act ≠ 0x01 ∧ act ≠ 0x02))) →
    let refused := Host.Outcome.next (φ := Fault) (ρ := Refusal)
      (answer c .pollControl ⟨.badArg, []⟩ (s.executed c .pollControl ⟨.badArg, []⟩))
    exec (.pollControlStart c) s = refused ∧ exec (.pollControlStop c) s = refused)

/-- R114: POLL-CONTROL STOP in each state of the scheduler: a poll not taken is given up with its buffer, a taken one
runs to its end in STOPPING; the timing stays. -/
def Obligations.PollControlStop : Prop :=
  ∀ (c : Cmd) (s : State) (b : Branch) (timeout hi lo : Byte) (rest : List Byte), Accepts c s →
    c.args = Port.code b.port :: 0x02 :: timeout :: hi :: lo :: rest →
    let ends : SchedState → Scheduler → Vector Buffer 40 → Prop := fun x sched pool =>
      exec (.pollControlStop c) s = .next (answer c .pollControl ⟨.ok, [Port.code b.port, x.code]⟩
        { s.executed c .pollControl ⟨.ok, [Port.code b.port, x.code]⟩ with
          branches := s.branches.set b { s.branch b with sched := sched }
          pool := pool })
    ((s.sched b).state = .stopped → ends .stopped (s.sched b) s.pool)
    ∧ ((s.sched b).state = .stopping → ends .stopping (s.sched b) s.pool)
    ∧ ((s.sched b).state = .await → ends .stopping { s.sched b with state := .stopping } s.pool)
    ∧ ((s.sched b).state = .waitInterval →
      ends .stopped { s.sched b with state := .stopped, cursor := none } s.pool)
    ∧ ((s.sched b).state = .ready → (s.branch b).outstanding = true →
      ends .stopping { s.sched b with state := .stopping } s.pool)
    ∧ ((s.sched b).state = .ready → (s.branch b).outstanding = false → (s.sched b).buffer = none →
      ends .stopped { s.sched b with state := .stopped, cursor := none, station := none } s.pool)
    ∧ (∀ buf : BufId, (s.sched b).state = .ready → (s.branch b).outstanding = false →
      (s.sched b).buffer = some buf →
      ends .stopped { s.sched b with state := .stopped, cursor := none, buffer := none, station := none }
        (s.pool.set buf.val Buffer.empty buf.isLt))

/-! ## Alarms -/

/-- R157, R158: the three ways of a raise, on a list of distinct keys. What a notification adds is the last-notify
tick of the record, a descriptor in a queue, a buffer taken, NOTIFY_SKIPPED; a raise changes nothing else. R160, R161: a
raise that updates or creates a record is the notification of that record, with the record in the list. -/
def Obligations.AlarmRaise : Prop :=
  ∀ (key : AlarmKey) (s : State), (s.alarms.map (·.key)).Nodup →
    RaisedFrom s (raise key s)
    ∧ (∀ (pre post : List AlarmRecord) (a : AlarmRecord), s.alarms = pre ++ a :: post → a.key = key →
      let again : AlarmRecord := { a with
        generation := if a.generation = 255 then 1 else a.generation + 1
        count := if a.count = 65535 then a.count else a.count + 1
        last := s.tick }
      raise key s = notify again { s with alarms := pre ++ again :: post }
      ∧ ∃ n, (raise key s).alarms = pre ++ { again with lastNotify := n } :: post
        ∧ (n = a.lastNotify ∨ n = some s.tick) ∧ (raise key s).alarmsLost = s.alarmsLost)
    ∧ ((∀ a, a ∈ s.alarms → a.key ≠ key) → s.alarms.length < 16 →
      raise key s = notify ⟨key, 1, 1, s.tick, s.tick, none⟩
          { s with alarms := s.alarms ++ [⟨key, 1, 1, s.tick, s.tick, none⟩] }
      ∧ ∃ n, (raise key s).alarms = s.alarms ++ [⟨key, 1, 1, s.tick, s.tick, n⟩]
        ∧ (n = none ∨ n = some s.tick) ∧ (raise key s).alarmsLost = s.alarmsLost)
    ∧ ((∀ a, a ∈ s.alarms → a.key ≠ key) → s.alarms.length = 16 →
      raise key s = { s with alarmsLost := satInc s.alarmsLost })

/-- R160, R161: the notification of a raise. Held off, or with no address or no port, nothing is sent. Otherwise, of the
notify ports, T0 and T1 as the configuration names them, those that are enabled and have room take the one ALARM frame,
which is HELD with their number, and the record's last-notify tick is set; NOTIFY_SKIPPED counts each of the others.
Where none takes it the frame's buffer is FREE again and every buffer that was not FREE is as it was, and where no
buffer is FREE every notify port is skipped; the last-notify tick then stays. -/
def Obligations.AlarmNotification : Prop :=
  ∀ (a : AlarmRecord) (s : State),
    (s.relay.notifyAddr = none ∨ (s.relay.notifyT0 = false ∧ s.relay.notifyT1 = false)
        ∨ (∃ n, a.lastNotify = some n ∧ s.tick - n ≤ 1000) → notify a s = s)
    ∧ (∀ addr, s.relay.notifyAddr = some addr → s.relay.notifyT0 = true ∨ s.relay.notifyT1 = true →
      (∀ n, a.lastNotify = some n → 1000 < s.tick - n) →
      let asked : Port → Bool := fun p =>
        (decide (p = .t0) && s.relay.notifyT0) || (decide (p = .t1) && s.relay.notifyT1)
      let takes : Port → Bool := fun p =>
        asked p && (s.port p).applied.enabled && decide ((s.port p).queue.length < 8)
      let skipped : Nat → RelayCounters := fun n =>
        { s.counters with notifySkipped := satInc^[n] s.counters.notifySkipped }
      (s.freeCount = 0 → notify a s = { s with counters := skipped (Port.all.countP asked) })
      ∧ (0 < s.freeCount → (∀ p, takes p = false) → ∃ t, notify a s = t
        ∧ t = { s with pool := t.pool, counters := skipped (Port.all.countP asked) }
        ∧ ∀ b, (t.pool.get b).use = (s.pool.get b).use
          ∧ ((s.pool.get b).use ≠ .free → t.pool.get b = s.pool.get b))
      ∧ (0 < s.freeCount → (∃ p, takes p = true) →
        ∃ buf : BufId, (s.pool.get buf).use = .free ∧ notify a s = { s with
          pool := s.pool.set buf.val ⟨.held (Port.all.countP takes), buildFrame addr s.ownAddr 0x06
            [a.key.kind, a.key.subject, a.generation, hiByte a.count, loByte a.count]⟩ buf.isLt
          ports := PerPort.of fun p => if takes p then
            { s.port p with queue := (s.port p).queue ++ [⟨buf, .notify, none, some s.tick⟩] } else s.port p
          counters := skipped (Port.all.countP fun p => asked p && !takes p)
          alarms := s.alarms.map fun x => if x.key = a.key then { x with lastNotify := some s.tick } else x }))

/-- R163: ACK-ALARM. -/
def Obligations.AckAlarm : Prop :=
  ∀ (c : Cmd) (s : State), Accepts c s →
    (c.args.length < 3 → exec (.ackAlarm c) s
      = .next (answer c .ackAlarm ⟨.badArg, []⟩ (s.executed c .ackAlarm ⟨.badArg, []⟩)))
    ∧ ∀ (kind subject gen : Byte) (rest : List Byte), c.args = kind :: subject :: gen :: rest →
      (kind = 0x00 ∨ 0x04 < kind.toNat ∨ (kind = 0x01 ∧ (subject = 0x00 ∨ subject = 0xFF))
          ∨ ((kind = 0x02 ∨ kind = 0x03) ∧ 5 < subject.toNat) ∨ (kind = 0x04 ∧ subject ≠ 0x00) ∨ gen = 0 →
        exec (.ackAlarm c) s = .next (answer c .ackAlarm ⟨.badArg, []⟩ (s.executed c .ackAlarm ⟨.badArg, []⟩)))
      ∧ (∀ key, AlarmKey.ofBytes kind subject = some key → gen ≠ 0 →
        (key.kind = kind ∧ key.subject = subject)
        ∧ ((∀ a, a ∈ s.alarms → a.key ≠ key) → exec (.ackAlarm c) s
          = .next (answer c .ackAlarm ⟨.notFound, []⟩ (s.executed c .ackAlarm ⟨.notFound, []⟩)))
        ∧ (∀ (pre post : List AlarmRecord) (a : AlarmRecord), s.alarms = pre ++ a :: post → a.key = key →
          (∀ x, x ∈ pre ++ post → x.key ≠ key) →
          (a.generation ≠ gen → exec (.ackAlarm c) s = .next (answer c .ackAlarm ⟨.recurred, [a.generation]⟩
            (s.executed c .ackAlarm ⟨.recurred, [a.generation]⟩)))
          ∧ (a.generation = gen →
            let r : Reply := ⟨.ok, [BitVec.ofNat 8 (pre ++ post).length]⟩
            exec (.ackAlarm c) s
              = .next (answer c .ackAlarm r { s.executed c .ackAlarm r with alarms := pre ++ post }))))

/-! ## Counters -/

/-- R153: an increment of one counter adds one and stops at 4,294,967,295, and no other counter changes. -/
def Obligations.CountersSaturate : Prop :=
  (∀ (k : PortCounters) (c d : PortCtr),
    (k.bump c).get d = if d = c ∧ (k.get d).toNat < 4294967295 then k.get d + 1 else k.get d)
  ∧ (∀ (k : RelayCounters) (c d : RelayCtr),
    (k.bump c).get d = if d = c ∧ (k.get d).toNat < 4294967295 then k.get d + 1 else k.get d)
end

