-- ==== Sys2Proof/Laws/State.lean ====
section
/-! SUPPORT. One lemma per field per update of the state: what each of the small updates leaves as it was, and
reading back what it wrote. -/

namespace Sys2Proof.Machine

section PerPort
variable {α : Type} (v : PerPort α)

@[simp] theorem PerPort.get_set_same (p : Port) (x : α) : (v.set p x).get p = x := by cases p <;> rfl

theorem PerPort.get_set_ne (p q : Port) (x : α) (h : q ≠ p) : (v.set p x).get q = v.get q := by
  cases p <;> cases q <;> first | rfl | exact absurd rfl h

theorem PerPort.get_set (p q : Port) (x : α) : (v.set p x).get q = if q = p then x else v.get q := by
  by_cases h : q = p
  · subst h; simp
  · simp [h, PerPort.get_set_ne]

@[simp] theorem PerPort.get_of (f : Port → α) (p : Port) : (PerPort.of f).get p = f p := by cases p <;> rfl

@[simp] theorem PerPort.set_set (p : Port) (x y : α) : (v.set p x).set p y = v.set p y := by cases p <;> rfl

@[simp] theorem PerPort.set_get (p : Port) : v.set p (v.get p) = v := by cases p <;> rfl

theorem PerPort.ext_get (w : PerPort α) (h : ∀ p, v.get p = w.get p) : v = w := by
  obtain ⟨a, b, c, d, e, f⟩ := v
  obtain ⟨a', b', c', d', e', f'⟩ := w
  have h0 := h .t0
  have h1 := h .t1
  have h2 := h .b0
  have h3 := h .b1
  have h4 := h .b2
  have h5 := h .b3
  simp only [PerPort.get] at h0 h1 h2 h3 h4 h5
  simp [h0, h1, h2, h3, h4, h5]

end PerPort

section PerBranch
variable {α : Type} (v : PerBranch α)

@[simp] theorem PerBranch.get_set_same (b : Branch) (x : α) : (v.set b x).get b = x := by cases b <;> rfl

theorem PerBranch.get_set_ne (b c : Branch) (x : α) (h : c ≠ b) : (v.set b x).get c = v.get c := by
  cases b <;> cases c <;> first | rfl | exact absurd rfl h

theorem PerBranch.get_set (b c : Branch) (x : α) : (v.set b x).get c = if c = b then x else v.get c := by
  by_cases h : c = b
  · subst h; simp
  · simp [h, PerBranch.get_set_ne]

@[simp] theorem PerBranch.get_of (f : Branch → α) (b : Branch) : (PerBranch.of f).get b = f b := by cases b <;> rfl

@[simp] theorem PerBranch.set_set (b : Branch) (x y : α) : (v.set b x).set b y = v.set b y := by cases b <;> rfl

end PerBranch

section Positions
variable {α : Type} {n : Nat}

theorem get_set_at (v : Vector α n) (i j : Fin n) (x : α) :
    (v.set i.val x i.isLt).get j = if j = i then x else v.get j := by
  by_cases h : j = i
  · subst h; simp [Vector.get_eq_getElem]
  · have : (i : Nat) ≠ j := fun e => h (Fin.ext e.symm)
    simp [Vector.get_eq_getElem, h, this]

theorem get_ofFn_at (f : Fin n → α) (j : Fin n) : (Vector.ofFn f).get j = f j := by
  simp [Vector.get_eq_getElem]

@[simp] theorem plainRecords_get (v : Vector (Option ActiveRecord) 96) (i : Fin 96) :
    (plainRecords v).get i = (v.get i).map (·.record) := by
  unfold plainRecords
  exact get_ofFn_at _ _

@[simp] theorem countedRecords_get (v : Vector (Option RouteRecord) 96) (i : Fin 96) :
    (countedRecords v).get i = (v.get i).map fun r => ⟨r, 0⟩ := by
  unfold countedRecords
  exact get_ofFn_at _ _

theorem get_replicate_at (x : α) (j : Fin n) : (Vector.replicate n x).get j = x := by
  simp [Vector.get_eq_getElem]

theorem vector_ext_get (v w : Vector α n) (h : ∀ i, v.get i = w.get i) : v = w := by
  apply Vector.ext
  intro i hi
  simpa [Vector.get_eq_getElem] using h ⟨i, hi⟩

end Positions

/-! ## Fields left as they were -/

section Fields
variable (s : State)

@[simp] theorem State.modPort_pending (p : Port) (f : PortState → PortState) : (s.modPort p f).pending = s.pending := rfl
@[simp] theorem State.modPort_lineInput (p : Port) (f : PortState → PortState) : (s.modPort p f).lineInput = s.lineInput := rfl
@[simp] theorem State.modPort_now (p : Port) (f : PortState → PortState) : (s.modPort p f).now = s.now := rfl
@[simp] theorem State.modPort_resetEnd (p : Port) (f : PortState → PortState) : (s.modPort p f).resetEnd = s.resetEnd := rfl
@[simp] theorem State.modPort_choices (p : Port) (f : PortState → PortState) : (s.modPort p f).choices = s.choices := rfl
@[simp] theorem State.modPort_inReset (p : Port) (f : PortState → PortState) : (s.modPort p f).inReset = s.inReset := rfl
@[simp] theorem State.modPort_addrStrap (p : Port) (f : PortState → PortState) : (s.modPort p f).addrStrap = s.addrStrap := rfl
@[simp] theorem State.modPort_transparentStrap (p : Port) (f : PortState → PortState) : (s.modPort p f).transparentStrap = s.transparentStrap := rfl
@[simp] theorem State.modPort_ownAddr (p : Port) (f : PortState → PortState) : (s.modPort p f).ownAddr = s.ownAddr := rfl
@[simp] theorem State.modPort_branches (p : Port) (f : PortState → PortState) : (s.modPort p f).branches = s.branches := rfl
@[simp] theorem State.modPort_grant (p : Port) (f : PortState → PortState) : (s.modPort p f).grant = s.grant := rfl
@[simp] theorem State.modPort_given (p : Port) (f : PortState → PortState) : (s.modPort p f).given = s.given := rfl
@[simp] theorem State.modPort_dup (p : Port) (f : PortState → PortState) : (s.modPort p f).dup = s.dup := rfl
@[simp] theorem State.modPort_pool (p : Port) (f : PortState → PortState) : (s.modPort p f).pool = s.pool := rfl
@[simp] theorem State.modPort_inbound (p : Port) (f : PortState → PortState) : (s.modPort p f).inbound = s.inbound := rfl
@[simp] theorem State.modPort_headSince (p : Port) (f : PortState → PortState) : (s.modPort p f).headSince = s.headSince := rfl
@[simp] theorem State.modPort_route (p : Port) (f : PortState → PortState) : (s.modPort p f).route = s.route := rfl
@[simp] theorem State.modPort_pollList (p : Port) (f : PortState → PortState) : (s.modPort p f).pollList = s.pollList := rfl
@[simp] theorem State.modPort_stations (p : Port) (f : PortState → PortState) : (s.modPort p f).stations = s.stations := rfl
@[simp] theorem State.modPort_session (p : Port) (f : PortState → PortState) : (s.modPort p f).session = s.session := rfl
@[simp] theorem State.modPort_deferred (p : Port) (f : PortState → PortState) : (s.modPort p f).deferred = s.deferred := rfl
@[simp] theorem State.modPort_restart (p : Port) (f : PortState → PortState) : (s.modPort p f).restart = s.restart := rfl
@[simp] theorem State.modPort_relay (p : Port) (f : PortState → PortState) : (s.modPort p f).relay = s.relay := rfl
@[simp] theorem State.modPort_counters (p : Port) (f : PortState → PortState) : (s.modPort p f).counters = s.counters := rfl
@[simp] theorem State.modPort_alarms (p : Port) (f : PortState → PortState) : (s.modPort p f).alarms = s.alarms := rfl
@[simp] theorem State.modPort_alarmsLost (p : Port) (f : PortState → PortState) : (s.modPort p f).alarmsLost = s.alarmsLost := rfl

@[simp] theorem State.modBranch_pending (b : Branch) (f : BranchState → BranchState) : (s.modBranch b f).pending = s.pending := rfl
@[simp] theorem State.modBranch_lineInput (b : Branch) (f : BranchState → BranchState) : (s.modBranch b f).lineInput = s.lineInput := rfl
@[simp] theorem State.modBranch_now (b : Branch) (f : BranchState → BranchState) : (s.modBranch b f).now = s.now := rfl
@[simp] theorem State.modBranch_resetEnd (b : Branch) (f : BranchState → BranchState) : (s.modBranch b f).resetEnd = s.resetEnd := rfl
@[simp] theorem State.modBranch_choices (b : Branch) (f : BranchState → BranchState) : (s.modBranch b f).choices = s.choices := rfl
@[simp] theorem State.modBranch_inReset (b : Branch) (f : BranchState → BranchState) : (s.modBranch b f).inReset = s.inReset := rfl
@[simp] theorem State.modBranch_addrStrap (b : Branch) (f : BranchState → BranchState) : (s.modBranch b f).addrStrap = s.addrStrap := rfl
@[simp] theorem State.modBranch_transparentStrap (b : Branch) (f : BranchState → BranchState) : (s.modBranch b f).transparentStrap = s.transparentStrap := rfl
@[simp] theorem State.modBranch_ownAddr (b : Branch) (f : BranchState → BranchState) : (s.modBranch b f).ownAddr = s.ownAddr := rfl
@[simp] theorem State.modBranch_ports (b : Branch) (f : BranchState → BranchState) : (s.modBranch b f).ports = s.ports := rfl
@[simp] theorem State.modBranch_grant (b : Branch) (f : BranchState → BranchState) : (s.modBranch b f).grant = s.grant := rfl
@[simp] theorem State.modBranch_given (b : Branch) (f : BranchState → BranchState) : (s.modBranch b f).given = s.given := rfl
@[simp] theorem State.modBranch_dup (b : Branch) (f : BranchState → BranchState) : (s.modBranch b f).dup = s.dup := rfl
@[simp] theorem State.modBranch_pool (b : Branch) (f : BranchState → BranchState) : (s.modBranch b f).pool = s.pool := rfl
@[simp] theorem State.modBranch_inbound (b : Branch) (f : BranchState → BranchState) : (s.modBranch b f).inbound = s.inbound := rfl
@[simp] theorem State.modBranch_headSince (b : Branch) (f : BranchState → BranchState) : (s.modBranch b f).headSince = s.headSince := rfl
@[simp] theorem State.modBranch_route (b : Branch) (f : BranchState → BranchState) : (s.modBranch b f).route = s.route := rfl
@[simp] theorem State.modBranch_pollList (b : Branch) (f : BranchState → BranchState) : (s.modBranch b f).pollList = s.pollList := rfl
@[simp] theorem State.modBranch_stations (b : Branch) (f : BranchState → BranchState) : (s.modBranch b f).stations = s.stations := rfl
@[simp] theorem State.modBranch_session (b : Branch) (f : BranchState → BranchState) : (s.modBranch b f).session = s.session := rfl
@[simp] theorem State.modBranch_deferred (b : Branch) (f : BranchState → BranchState) : (s.modBranch b f).deferred = s.deferred := rfl
@[simp] theorem State.modBranch_restart (b : Branch) (f : BranchState → BranchState) : (s.modBranch b f).restart = s.restart := rfl
@[simp] theorem State.modBranch_relay (b : Branch) (f : BranchState → BranchState) : (s.modBranch b f).relay = s.relay := rfl
@[simp] theorem State.modBranch_counters (b : Branch) (f : BranchState → BranchState) : (s.modBranch b f).counters = s.counters := rfl
@[simp] theorem State.modBranch_alarms (b : Branch) (f : BranchState → BranchState) : (s.modBranch b f).alarms = s.alarms := rfl
@[simp] theorem State.modBranch_alarmsLost (b : Branch) (f : BranchState → BranchState) : (s.modBranch b f).alarmsLost = s.alarmsLost := rfl

@[simp] theorem countPort_pending (p : Port) (c : PortCtr) : (countPort p c s).pending = s.pending := rfl
@[simp] theorem countPort_lineInput (p : Port) (c : PortCtr) : (countPort p c s).lineInput = s.lineInput := rfl
@[simp] theorem countPort_now (p : Port) (c : PortCtr) : (countPort p c s).now = s.now := rfl
@[simp] theorem countPort_resetEnd (p : Port) (c : PortCtr) : (countPort p c s).resetEnd = s.resetEnd := rfl
@[simp] theorem countPort_choices (p : Port) (c : PortCtr) : (countPort p c s).choices = s.choices := rfl
@[simp] theorem countPort_inReset (p : Port) (c : PortCtr) : (countPort p c s).inReset = s.inReset := rfl
@[simp] theorem countPort_addrStrap (p : Port) (c : PortCtr) : (countPort p c s).addrStrap = s.addrStrap := rfl
@[simp] theorem countPort_transparentStrap (p : Port) (c : PortCtr) : (countPort p c s).transparentStrap = s.transparentStrap := rfl
@[simp] theorem countPort_ownAddr (p : Port) (c : PortCtr) : (countPort p c s).ownAddr = s.ownAddr := rfl
@[simp] theorem countPort_branches (p : Port) (c : PortCtr) : (countPort p c s).branches = s.branches := rfl
@[simp] theorem countPort_grant (p : Port) (c : PortCtr) : (countPort p c s).grant = s.grant := rfl
@[simp] theorem countPort_given (p : Port) (c : PortCtr) : (countPort p c s).given = s.given := rfl
@[simp] theorem countPort_dup (p : Port) (c : PortCtr) : (countPort p c s).dup = s.dup := rfl
@[simp] theorem countPort_pool (p : Port) (c : PortCtr) : (countPort p c s).pool = s.pool := rfl
@[simp] theorem countPort_inbound (p : Port) (c : PortCtr) : (countPort p c s).inbound = s.inbound := rfl
@[simp] theorem countPort_headSince (p : Port) (c : PortCtr) : (countPort p c s).headSince = s.headSince := rfl
@[simp] theorem countPort_route (p : Port) (c : PortCtr) : (countPort p c s).route = s.route := rfl
@[simp] theorem countPort_pollList (p : Port) (c : PortCtr) : (countPort p c s).pollList = s.pollList := rfl
@[simp] theorem countPort_stations (p : Port) (c : PortCtr) : (countPort p c s).stations = s.stations := rfl
@[simp] theorem countPort_session (p : Port) (c : PortCtr) : (countPort p c s).session = s.session := rfl
@[simp] theorem countPort_deferred (p : Port) (c : PortCtr) : (countPort p c s).deferred = s.deferred := rfl
@[simp] theorem countPort_restart (p : Port) (c : PortCtr) : (countPort p c s).restart = s.restart := rfl
@[simp] theorem countPort_relay (p : Port) (c : PortCtr) : (countPort p c s).relay = s.relay := rfl
@[simp] theorem countPort_counters (p : Port) (c : PortCtr) : (countPort p c s).counters = s.counters := rfl
@[simp] theorem countPort_alarms (p : Port) (c : PortCtr) : (countPort p c s).alarms = s.alarms := rfl
@[simp] theorem countPort_alarmsLost (p : Port) (c : PortCtr) : (countPort p c s).alarmsLost = s.alarmsLost := rfl

@[simp] theorem countRelay_pending (c : RelayCtr) : (countRelay c s).pending = s.pending := rfl
@[simp] theorem countRelay_lineInput (c : RelayCtr) : (countRelay c s).lineInput = s.lineInput := rfl
@[simp] theorem countRelay_now (c : RelayCtr) : (countRelay c s).now = s.now := rfl
@[simp] theorem countRelay_resetEnd (c : RelayCtr) : (countRelay c s).resetEnd = s.resetEnd := rfl
@[simp] theorem countRelay_choices (c : RelayCtr) : (countRelay c s).choices = s.choices := rfl
@[simp] theorem countRelay_inReset (c : RelayCtr) : (countRelay c s).inReset = s.inReset := rfl
@[simp] theorem countRelay_addrStrap (c : RelayCtr) : (countRelay c s).addrStrap = s.addrStrap := rfl
@[simp] theorem countRelay_transparentStrap (c : RelayCtr) : (countRelay c s).transparentStrap = s.transparentStrap := rfl
@[simp] theorem countRelay_ownAddr (c : RelayCtr) : (countRelay c s).ownAddr = s.ownAddr := rfl
@[simp] theorem countRelay_ports (c : RelayCtr) : (countRelay c s).ports = s.ports := rfl
@[simp] theorem countRelay_branches (c : RelayCtr) : (countRelay c s).branches = s.branches := rfl
@[simp] theorem countRelay_grant (c : RelayCtr) : (countRelay c s).grant = s.grant := rfl
@[simp] theorem countRelay_given (c : RelayCtr) : (countRelay c s).given = s.given := rfl
@[simp] theorem countRelay_dup (c : RelayCtr) : (countRelay c s).dup = s.dup := rfl
@[simp] theorem countRelay_pool (c : RelayCtr) : (countRelay c s).pool = s.pool := rfl
@[simp] theorem countRelay_inbound (c : RelayCtr) : (countRelay c s).inbound = s.inbound := rfl
@[simp] theorem countRelay_headSince (c : RelayCtr) : (countRelay c s).headSince = s.headSince := rfl
@[simp] theorem countRelay_route (c : RelayCtr) : (countRelay c s).route = s.route := rfl
@[simp] theorem countRelay_pollList (c : RelayCtr) : (countRelay c s).pollList = s.pollList := rfl
@[simp] theorem countRelay_stations (c : RelayCtr) : (countRelay c s).stations = s.stations := rfl
@[simp] theorem countRelay_session (c : RelayCtr) : (countRelay c s).session = s.session := rfl
@[simp] theorem countRelay_deferred (c : RelayCtr) : (countRelay c s).deferred = s.deferred := rfl
@[simp] theorem countRelay_restart (c : RelayCtr) : (countRelay c s).restart = s.restart := rfl
@[simp] theorem countRelay_relay (c : RelayCtr) : (countRelay c s).relay = s.relay := rfl
@[simp] theorem countRelay_alarms (c : RelayCtr) : (countRelay c s).alarms = s.alarms := rfl
@[simp] theorem countRelay_alarmsLost (c : RelayCtr) : (countRelay c s).alarmsLost = s.alarmsLost := rfl

@[simp] theorem setAsm_pending (p : Port) (a : Assembler) : (setAsm p a s).pending = s.pending := rfl
@[simp] theorem setAsm_lineInput (p : Port) (a : Assembler) : (setAsm p a s).lineInput = s.lineInput := rfl
@[simp] theorem setAsm_now (p : Port) (a : Assembler) : (setAsm p a s).now = s.now := rfl
@[simp] theorem setAsm_resetEnd (p : Port) (a : Assembler) : (setAsm p a s).resetEnd = s.resetEnd := rfl
@[simp] theorem setAsm_choices (p : Port) (a : Assembler) : (setAsm p a s).choices = s.choices := rfl
@[simp] theorem setAsm_inReset (p : Port) (a : Assembler) : (setAsm p a s).inReset = s.inReset := rfl
@[simp] theorem setAsm_addrStrap (p : Port) (a : Assembler) : (setAsm p a s).addrStrap = s.addrStrap := rfl
@[simp] theorem setAsm_transparentStrap (p : Port) (a : Assembler) : (setAsm p a s).transparentStrap = s.transparentStrap := rfl
@[simp] theorem setAsm_ownAddr (p : Port) (a : Assembler) : (setAsm p a s).ownAddr = s.ownAddr := rfl
@[simp] theorem setAsm_branches (p : Port) (a : Assembler) : (setAsm p a s).branches = s.branches := rfl
@[simp] theorem setAsm_grant (p : Port) (a : Assembler) : (setAsm p a s).grant = s.grant := rfl
@[simp] theorem setAsm_given (p : Port) (a : Assembler) : (setAsm p a s).given = s.given := rfl
@[simp] theorem setAsm_dup (p : Port) (a : Assembler) : (setAsm p a s).dup = s.dup := rfl
@[simp] theorem setAsm_pool (p : Port) (a : Assembler) : (setAsm p a s).pool = s.pool := rfl
@[simp] theorem setAsm_inbound (p : Port) (a : Assembler) : (setAsm p a s).inbound = s.inbound := rfl
@[simp] theorem setAsm_headSince (p : Port) (a : Assembler) : (setAsm p a s).headSince = s.headSince := rfl
@[simp] theorem setAsm_route (p : Port) (a : Assembler) : (setAsm p a s).route = s.route := rfl
@[simp] theorem setAsm_pollList (p : Port) (a : Assembler) : (setAsm p a s).pollList = s.pollList := rfl
@[simp] theorem setAsm_stations (p : Port) (a : Assembler) : (setAsm p a s).stations = s.stations := rfl
@[simp] theorem setAsm_session (p : Port) (a : Assembler) : (setAsm p a s).session = s.session := rfl
@[simp] theorem setAsm_deferred (p : Port) (a : Assembler) : (setAsm p a s).deferred = s.deferred := rfl
@[simp] theorem setAsm_restart (p : Port) (a : Assembler) : (setAsm p a s).restart = s.restart := rfl
@[simp] theorem setAsm_relay (p : Port) (a : Assembler) : (setAsm p a s).relay = s.relay := rfl
@[simp] theorem setAsm_counters (p : Port) (a : Assembler) : (setAsm p a s).counters = s.counters := rfl
@[simp] theorem setAsm_alarms (p : Port) (a : Assembler) : (setAsm p a s).alarms = s.alarms := rfl
@[simp] theorem setAsm_alarmsLost (p : Port) (a : Assembler) : (setAsm p a s).alarmsLost = s.alarmsLost := rfl

@[simp] theorem setQueue_pending (p : Port) (ds : List Descriptor) : (setQueue p ds s).pending = s.pending := rfl
@[simp] theorem setQueue_lineInput (p : Port) (ds : List Descriptor) : (setQueue p ds s).lineInput = s.lineInput := rfl
@[simp] theorem setQueue_now (p : Port) (ds : List Descriptor) : (setQueue p ds s).now = s.now := rfl
@[simp] theorem setQueue_resetEnd (p : Port) (ds : List Descriptor) : (setQueue p ds s).resetEnd = s.resetEnd := rfl
@[simp] theorem setQueue_choices (p : Port) (ds : List Descriptor) : (setQueue p ds s).choices = s.choices := rfl
@[simp] theorem setQueue_inReset (p : Port) (ds : List Descriptor) : (setQueue p ds s).inReset = s.inReset := rfl
@[simp] theorem setQueue_addrStrap (p : Port) (ds : List Descriptor) : (setQueue p ds s).addrStrap = s.addrStrap := rfl
@[simp] theorem setQueue_transparentStrap (p : Port) (ds : List Descriptor) : (setQueue p ds s).transparentStrap = s.transparentStrap := rfl
@[simp] theorem setQueue_ownAddr (p : Port) (ds : List Descriptor) : (setQueue p ds s).ownAddr = s.ownAddr := rfl
@[simp] theorem setQueue_branches (p : Port) (ds : List Descriptor) : (setQueue p ds s).branches = s.branches := rfl
@[simp] theorem setQueue_grant (p : Port) (ds : List Descriptor) : (setQueue p ds s).grant = s.grant := rfl
@[simp] theorem setQueue_given (p : Port) (ds : List Descriptor) : (setQueue p ds s).given = s.given := rfl
@[simp] theorem setQueue_dup (p : Port) (ds : List Descriptor) : (setQueue p ds s).dup = s.dup := rfl
@[simp] theorem setQueue_pool (p : Port) (ds : List Descriptor) : (setQueue p ds s).pool = s.pool := rfl
@[simp] theorem setQueue_inbound (p : Port) (ds : List Descriptor) : (setQueue p ds s).inbound = s.inbound := rfl
@[simp] theorem setQueue_headSince (p : Port) (ds : List Descriptor) : (setQueue p ds s).headSince = s.headSince := rfl
@[simp] theorem setQueue_route (p : Port) (ds : List Descriptor) : (setQueue p ds s).route = s.route := rfl
@[simp] theorem setQueue_pollList (p : Port) (ds : List Descriptor) : (setQueue p ds s).pollList = s.pollList := rfl
@[simp] theorem setQueue_stations (p : Port) (ds : List Descriptor) : (setQueue p ds s).stations = s.stations := rfl
@[simp] theorem setQueue_session (p : Port) (ds : List Descriptor) : (setQueue p ds s).session = s.session := rfl
@[simp] theorem setQueue_deferred (p : Port) (ds : List Descriptor) : (setQueue p ds s).deferred = s.deferred := rfl
@[simp] theorem setQueue_restart (p : Port) (ds : List Descriptor) : (setQueue p ds s).restart = s.restart := rfl
@[simp] theorem setQueue_relay (p : Port) (ds : List Descriptor) : (setQueue p ds s).relay = s.relay := rfl
@[simp] theorem setQueue_counters (p : Port) (ds : List Descriptor) : (setQueue p ds s).counters = s.counters := rfl
@[simp] theorem setQueue_alarms (p : Port) (ds : List Descriptor) : (setQueue p ds s).alarms = s.alarms := rfl
@[simp] theorem setQueue_alarmsLost (p : Port) (ds : List Descriptor) : (setQueue p ds s).alarmsLost = s.alarmsLost := rfl

@[simp] theorem enqueue_pending (p : Port) (d : Descriptor) : (enqueue p d s).pending = s.pending := rfl
@[simp] theorem enqueue_lineInput (p : Port) (d : Descriptor) : (enqueue p d s).lineInput = s.lineInput := rfl
@[simp] theorem enqueue_now (p : Port) (d : Descriptor) : (enqueue p d s).now = s.now := rfl
@[simp] theorem enqueue_resetEnd (p : Port) (d : Descriptor) : (enqueue p d s).resetEnd = s.resetEnd := rfl
@[simp] theorem enqueue_choices (p : Port) (d : Descriptor) : (enqueue p d s).choices = s.choices := rfl
@[simp] theorem enqueue_inReset (p : Port) (d : Descriptor) : (enqueue p d s).inReset = s.inReset := rfl
@[simp] theorem enqueue_addrStrap (p : Port) (d : Descriptor) : (enqueue p d s).addrStrap = s.addrStrap := rfl
@[simp] theorem enqueue_transparentStrap (p : Port) (d : Descriptor) : (enqueue p d s).transparentStrap = s.transparentStrap := rfl
@[simp] theorem enqueue_ownAddr (p : Port) (d : Descriptor) : (enqueue p d s).ownAddr = s.ownAddr := rfl
@[simp] theorem enqueue_branches (p : Port) (d : Descriptor) : (enqueue p d s).branches = s.branches := rfl
@[simp] theorem enqueue_grant (p : Port) (d : Descriptor) : (enqueue p d s).grant = s.grant := rfl
@[simp] theorem enqueue_given (p : Port) (d : Descriptor) : (enqueue p d s).given = s.given := rfl
@[simp] theorem enqueue_dup (p : Port) (d : Descriptor) : (enqueue p d s).dup = s.dup := rfl
@[simp] theorem enqueue_pool (p : Port) (d : Descriptor) : (enqueue p d s).pool = s.pool := rfl
@[simp] theorem enqueue_inbound (p : Port) (d : Descriptor) : (enqueue p d s).inbound = s.inbound := rfl
@[simp] theorem enqueue_headSince (p : Port) (d : Descriptor) : (enqueue p d s).headSince = s.headSince := rfl
@[simp] theorem enqueue_route (p : Port) (d : Descriptor) : (enqueue p d s).route = s.route := rfl
@[simp] theorem enqueue_pollList (p : Port) (d : Descriptor) : (enqueue p d s).pollList = s.pollList := rfl
@[simp] theorem enqueue_stations (p : Port) (d : Descriptor) : (enqueue p d s).stations = s.stations := rfl
@[simp] theorem enqueue_session (p : Port) (d : Descriptor) : (enqueue p d s).session = s.session := rfl
@[simp] theorem enqueue_deferred (p : Port) (d : Descriptor) : (enqueue p d s).deferred = s.deferred := rfl
@[simp] theorem enqueue_restart (p : Port) (d : Descriptor) : (enqueue p d s).restart = s.restart := rfl
@[simp] theorem enqueue_relay (p : Port) (d : Descriptor) : (enqueue p d s).relay = s.relay := rfl
@[simp] theorem enqueue_counters (p : Port) (d : Descriptor) : (enqueue p d s).counters = s.counters := rfl
@[simp] theorem enqueue_alarms (p : Port) (d : Descriptor) : (enqueue p d s).alarms = s.alarms := rfl
@[simp] theorem enqueue_alarmsLost (p : Port) (d : Descriptor) : (enqueue p d s).alarmsLost = s.alarmsLost := rfl

@[simp] theorem setBuf_pending (b : BufId) (x : Buffer) : (setBuf b x s).pending = s.pending := rfl
@[simp] theorem setBuf_lineInput (b : BufId) (x : Buffer) : (setBuf b x s).lineInput = s.lineInput := rfl
@[simp] theorem setBuf_now (b : BufId) (x : Buffer) : (setBuf b x s).now = s.now := rfl
@[simp] theorem setBuf_resetEnd (b : BufId) (x : Buffer) : (setBuf b x s).resetEnd = s.resetEnd := rfl
@[simp] theorem setBuf_choices (b : BufId) (x : Buffer) : (setBuf b x s).choices = s.choices := rfl
@[simp] theorem setBuf_inReset (b : BufId) (x : Buffer) : (setBuf b x s).inReset = s.inReset := rfl
@[simp] theorem setBuf_addrStrap (b : BufId) (x : Buffer) : (setBuf b x s).addrStrap = s.addrStrap := rfl
@[simp] theorem setBuf_transparentStrap (b : BufId) (x : Buffer) : (setBuf b x s).transparentStrap = s.transparentStrap := rfl
@[simp] theorem setBuf_ownAddr (b : BufId) (x : Buffer) : (setBuf b x s).ownAddr = s.ownAddr := rfl
@[simp] theorem setBuf_ports (b : BufId) (x : Buffer) : (setBuf b x s).ports = s.ports := rfl
@[simp] theorem setBuf_branches (b : BufId) (x : Buffer) : (setBuf b x s).branches = s.branches := rfl
@[simp] theorem setBuf_grant (b : BufId) (x : Buffer) : (setBuf b x s).grant = s.grant := rfl
@[simp] theorem setBuf_given (b : BufId) (x : Buffer) : (setBuf b x s).given = s.given := rfl
@[simp] theorem setBuf_dup (b : BufId) (x : Buffer) : (setBuf b x s).dup = s.dup := rfl
@[simp] theorem setBuf_inbound (b : BufId) (x : Buffer) : (setBuf b x s).inbound = s.inbound := rfl
@[simp] theorem setBuf_headSince (b : BufId) (x : Buffer) : (setBuf b x s).headSince = s.headSince := rfl
@[simp] theorem setBuf_route (b : BufId) (x : Buffer) : (setBuf b x s).route = s.route := rfl
@[simp] theorem setBuf_pollList (b : BufId) (x : Buffer) : (setBuf b x s).pollList = s.pollList := rfl
@[simp] theorem setBuf_stations (b : BufId) (x : Buffer) : (setBuf b x s).stations = s.stations := rfl
@[simp] theorem setBuf_session (b : BufId) (x : Buffer) : (setBuf b x s).session = s.session := rfl
@[simp] theorem setBuf_deferred (b : BufId) (x : Buffer) : (setBuf b x s).deferred = s.deferred := rfl
@[simp] theorem setBuf_restart (b : BufId) (x : Buffer) : (setBuf b x s).restart = s.restart := rfl
@[simp] theorem setBuf_relay (b : BufId) (x : Buffer) : (setBuf b x s).relay = s.relay := rfl
@[simp] theorem setBuf_counters (b : BufId) (x : Buffer) : (setBuf b x s).counters = s.counters := rfl
@[simp] theorem setBuf_alarms (b : BufId) (x : Buffer) : (setBuf b x s).alarms = s.alarms := rfl
@[simp] theorem setBuf_alarmsLost (b : BufId) (x : Buffer) : (setBuf b x s).alarmsLost = s.alarmsLost := rfl

@[simp] theorem freeBuf_pending (b : BufId) : (freeBuf b s).pending = s.pending := rfl
@[simp] theorem freeBuf_lineInput (b : BufId) : (freeBuf b s).lineInput = s.lineInput := rfl
@[simp] theorem freeBuf_now (b : BufId) : (freeBuf b s).now = s.now := rfl
@[simp] theorem freeBuf_resetEnd (b : BufId) : (freeBuf b s).resetEnd = s.resetEnd := rfl
@[simp] theorem freeBuf_choices (b : BufId) : (freeBuf b s).choices = s.choices := rfl
@[simp] theorem freeBuf_inReset (b : BufId) : (freeBuf b s).inReset = s.inReset := rfl
@[simp] theorem freeBuf_addrStrap (b : BufId) : (freeBuf b s).addrStrap = s.addrStrap := rfl
@[simp] theorem freeBuf_transparentStrap (b : BufId) : (freeBuf b s).transparentStrap = s.transparentStrap := rfl
@[simp] theorem freeBuf_ownAddr (b : BufId) : (freeBuf b s).ownAddr = s.ownAddr := rfl
@[simp] theorem freeBuf_ports (b : BufId) : (freeBuf b s).ports = s.ports := rfl
@[simp] theorem freeBuf_branches (b : BufId) : (freeBuf b s).branches = s.branches := rfl
@[simp] theorem freeBuf_grant (b : BufId) : (freeBuf b s).grant = s.grant := rfl
@[simp] theorem freeBuf_given (b : BufId) : (freeBuf b s).given = s.given := rfl
@[simp] theorem freeBuf_dup (b : BufId) : (freeBuf b s).dup = s.dup := rfl
@[simp] theorem freeBuf_inbound (b : BufId) : (freeBuf b s).inbound = s.inbound := rfl
@[simp] theorem freeBuf_headSince (b : BufId) : (freeBuf b s).headSince = s.headSince := rfl
@[simp] theorem freeBuf_route (b : BufId) : (freeBuf b s).route = s.route := rfl
@[simp] theorem freeBuf_pollList (b : BufId) : (freeBuf b s).pollList = s.pollList := rfl
@[simp] theorem freeBuf_stations (b : BufId) : (freeBuf b s).stations = s.stations := rfl
@[simp] theorem freeBuf_session (b : BufId) : (freeBuf b s).session = s.session := rfl
@[simp] theorem freeBuf_deferred (b : BufId) : (freeBuf b s).deferred = s.deferred := rfl
@[simp] theorem freeBuf_restart (b : BufId) : (freeBuf b s).restart = s.restart := rfl
@[simp] theorem freeBuf_relay (b : BufId) : (freeBuf b s).relay = s.relay := rfl
@[simp] theorem freeBuf_counters (b : BufId) : (freeBuf b s).counters = s.counters := rfl
@[simp] theorem freeBuf_alarms (b : BufId) : (freeBuf b s).alarms = s.alarms := rfl
@[simp] theorem freeBuf_alarmsLost (b : BufId) : (freeBuf b s).alarmsLost = s.alarmsLost := rfl

@[simp] theorem fillBuf_pending (b : BufId) (x : List Byte) : (fillBuf b x s).pending = s.pending := rfl
@[simp] theorem fillBuf_lineInput (b : BufId) (x : List Byte) : (fillBuf b x s).lineInput = s.lineInput := rfl
@[simp] theorem fillBuf_now (b : BufId) (x : List Byte) : (fillBuf b x s).now = s.now := rfl
@[simp] theorem fillBuf_resetEnd (b : BufId) (x : List Byte) : (fillBuf b x s).resetEnd = s.resetEnd := rfl
@[simp] theorem fillBuf_choices (b : BufId) (x : List Byte) : (fillBuf b x s).choices = s.choices := rfl
@[simp] theorem fillBuf_inReset (b : BufId) (x : List Byte) : (fillBuf b x s).inReset = s.inReset := rfl
@[simp] theorem fillBuf_addrStrap (b : BufId) (x : List Byte) : (fillBuf b x s).addrStrap = s.addrStrap := rfl
@[simp] theorem fillBuf_transparentStrap (b : BufId) (x : List Byte) : (fillBuf b x s).transparentStrap = s.transparentStrap := rfl
@[simp] theorem fillBuf_ownAddr (b : BufId) (x : List Byte) : (fillBuf b x s).ownAddr = s.ownAddr := rfl
@[simp] theorem fillBuf_ports (b : BufId) (x : List Byte) : (fillBuf b x s).ports = s.ports := rfl
@[simp] theorem fillBuf_branches (b : BufId) (x : List Byte) : (fillBuf b x s).branches = s.branches := rfl
@[simp] theorem fillBuf_grant (b : BufId) (x : List Byte) : (fillBuf b x s).grant = s.grant := rfl
@[simp] theorem fillBuf_given (b : BufId) (x : List Byte) : (fillBuf b x s).given = s.given := rfl
@[simp] theorem fillBuf_dup (b : BufId) (x : List Byte) : (fillBuf b x s).dup = s.dup := rfl
@[simp] theorem fillBuf_inbound (b : BufId) (x : List Byte) : (fillBuf b x s).inbound = s.inbound := rfl
@[simp] theorem fillBuf_headSince (b : BufId) (x : List Byte) : (fillBuf b x s).headSince = s.headSince := rfl
@[simp] theorem fillBuf_route (b : BufId) (x : List Byte) : (fillBuf b x s).route = s.route := rfl
@[simp] theorem fillBuf_pollList (b : BufId) (x : List Byte) : (fillBuf b x s).pollList = s.pollList := rfl
@[simp] theorem fillBuf_stations (b : BufId) (x : List Byte) : (fillBuf b x s).stations = s.stations := rfl
@[simp] theorem fillBuf_session (b : BufId) (x : List Byte) : (fillBuf b x s).session = s.session := rfl
@[simp] theorem fillBuf_deferred (b : BufId) (x : List Byte) : (fillBuf b x s).deferred = s.deferred := rfl
@[simp] theorem fillBuf_restart (b : BufId) (x : List Byte) : (fillBuf b x s).restart = s.restart := rfl
@[simp] theorem fillBuf_relay (b : BufId) (x : List Byte) : (fillBuf b x s).relay = s.relay := rfl
@[simp] theorem fillBuf_counters (b : BufId) (x : List Byte) : (fillBuf b x s).counters = s.counters := rfl
@[simp] theorem fillBuf_alarms (b : BufId) (x : List Byte) : (fillBuf b x s).alarms = s.alarms := rfl
@[simp] theorem fillBuf_alarmsLost (b : BufId) (x : List Byte) : (fillBuf b x s).alarmsLost = s.alarmsLost := rfl

@[simp] theorem modSched_pending (b : Branch) (f : Scheduler → Scheduler) : (modSched b f s).pending = s.pending := rfl
@[simp] theorem modSched_lineInput (b : Branch) (f : Scheduler → Scheduler) : (modSched b f s).lineInput = s.lineInput := rfl
@[simp] theorem modSched_now (b : Branch) (f : Scheduler → Scheduler) : (modSched b f s).now = s.now := rfl
@[simp] theorem modSched_resetEnd (b : Branch) (f : Scheduler → Scheduler) : (modSched b f s).resetEnd = s.resetEnd := rfl
@[simp] theorem modSched_choices (b : Branch) (f : Scheduler → Scheduler) : (modSched b f s).choices = s.choices := rfl
@[simp] theorem modSched_inReset (b : Branch) (f : Scheduler → Scheduler) : (modSched b f s).inReset = s.inReset := rfl
@[simp] theorem modSched_addrStrap (b : Branch) (f : Scheduler → Scheduler) : (modSched b f s).addrStrap = s.addrStrap := rfl
@[simp] theorem modSched_transparentStrap (b : Branch) (f : Scheduler → Scheduler) : (modSched b f s).transparentStrap = s.transparentStrap := rfl
@[simp] theorem modSched_ownAddr (b : Branch) (f : Scheduler → Scheduler) : (modSched b f s).ownAddr = s.ownAddr := rfl
@[simp] theorem modSched_ports (b : Branch) (f : Scheduler → Scheduler) : (modSched b f s).ports = s.ports := rfl
@[simp] theorem modSched_grant (b : Branch) (f : Scheduler → Scheduler) : (modSched b f s).grant = s.grant := rfl
@[simp] theorem modSched_given (b : Branch) (f : Scheduler → Scheduler) : (modSched b f s).given = s.given := rfl
@[simp] theorem modSched_dup (b : Branch) (f : Scheduler → Scheduler) : (modSched b f s).dup = s.dup := rfl
@[simp] theorem modSched_pool (b : Branch) (f : Scheduler → Scheduler) : (modSched b f s).pool = s.pool := rfl
@[simp] theorem modSched_inbound (b : Branch) (f : Scheduler → Scheduler) : (modSched b f s).inbound = s.inbound := rfl
@[simp] theorem modSched_headSince (b : Branch) (f : Scheduler → Scheduler) : (modSched b f s).headSince = s.headSince := rfl
@[simp] theorem modSched_route (b : Branch) (f : Scheduler → Scheduler) : (modSched b f s).route = s.route := rfl
@[simp] theorem modSched_pollList (b : Branch) (f : Scheduler → Scheduler) : (modSched b f s).pollList = s.pollList := rfl
@[simp] theorem modSched_stations (b : Branch) (f : Scheduler → Scheduler) : (modSched b f s).stations = s.stations := rfl
@[simp] theorem modSched_session (b : Branch) (f : Scheduler → Scheduler) : (modSched b f s).session = s.session := rfl
@[simp] theorem modSched_deferred (b : Branch) (f : Scheduler → Scheduler) : (modSched b f s).deferred = s.deferred := rfl
@[simp] theorem modSched_restart (b : Branch) (f : Scheduler → Scheduler) : (modSched b f s).restart = s.restart := rfl
@[simp] theorem modSched_relay (b : Branch) (f : Scheduler → Scheduler) : (modSched b f s).relay = s.relay := rfl
@[simp] theorem modSched_counters (b : Branch) (f : Scheduler → Scheduler) : (modSched b f s).counters = s.counters := rfl
@[simp] theorem modSched_alarms (b : Branch) (f : Scheduler → Scheduler) : (modSched b f s).alarms = s.alarms := rfl
@[simp] theorem modSched_alarmsLost (b : Branch) (f : Scheduler → Scheduler) : (modSched b f s).alarmsLost = s.alarmsLost := rfl

@[simp] theorem modStation_pending (i : Fin 32) (f : StationRecord → StationRecord) : (modStation i f s).pending = s.pending := rfl
@[simp] theorem modStation_lineInput (i : Fin 32) (f : StationRecord → StationRecord) : (modStation i f s).lineInput = s.lineInput := rfl
@[simp] theorem modStation_now (i : Fin 32) (f : StationRecord → StationRecord) : (modStation i f s).now = s.now := rfl
@[simp] theorem modStation_resetEnd (i : Fin 32) (f : StationRecord → StationRecord) : (modStation i f s).resetEnd = s.resetEnd := rfl
@[simp] theorem modStation_choices (i : Fin 32) (f : StationRecord → StationRecord) : (modStation i f s).choices = s.choices := rfl
@[simp] theorem modStation_inReset (i : Fin 32) (f : StationRecord → StationRecord) : (modStation i f s).inReset = s.inReset := rfl
@[simp] theorem modStation_addrStrap (i : Fin 32) (f : StationRecord → StationRecord) : (modStation i f s).addrStrap = s.addrStrap := rfl
@[simp] theorem modStation_transparentStrap (i : Fin 32) (f : StationRecord → StationRecord) : (modStation i f s).transparentStrap = s.transparentStrap := rfl
@[simp] theorem modStation_ownAddr (i : Fin 32) (f : StationRecord → StationRecord) : (modStation i f s).ownAddr = s.ownAddr := rfl
@[simp] theorem modStation_ports (i : Fin 32) (f : StationRecord → StationRecord) : (modStation i f s).ports = s.ports := rfl
@[simp] theorem modStation_branches (i : Fin 32) (f : StationRecord → StationRecord) : (modStation i f s).branches = s.branches := rfl
@[simp] theorem modStation_grant (i : Fin 32) (f : StationRecord → StationRecord) : (modStation i f s).grant = s.grant := rfl
@[simp] theorem modStation_given (i : Fin 32) (f : StationRecord → StationRecord) : (modStation i f s).given = s.given := rfl
@[simp] theorem modStation_dup (i : Fin 32) (f : StationRecord → StationRecord) : (modStation i f s).dup = s.dup := rfl
@[simp] theorem modStation_pool (i : Fin 32) (f : StationRecord → StationRecord) : (modStation i f s).pool = s.pool := rfl
@[simp] theorem modStation_inbound (i : Fin 32) (f : StationRecord → StationRecord) : (modStation i f s).inbound = s.inbound := rfl
@[simp] theorem modStation_headSince (i : Fin 32) (f : StationRecord → StationRecord) : (modStation i f s).headSince = s.headSince := rfl
@[simp] theorem modStation_route (i : Fin 32) (f : StationRecord → StationRecord) : (modStation i f s).route = s.route := rfl
@[simp] theorem modStation_pollList (i : Fin 32) (f : StationRecord → StationRecord) : (modStation i f s).pollList = s.pollList := rfl
@[simp] theorem modStation_session (i : Fin 32) (f : StationRecord → StationRecord) : (modStation i f s).session = s.session := rfl
@[simp] theorem modStation_deferred (i : Fin 32) (f : StationRecord → StationRecord) : (modStation i f s).deferred = s.deferred := rfl
@[simp] theorem modStation_restart (i : Fin 32) (f : StationRecord → StationRecord) : (modStation i f s).restart = s.restart := rfl
@[simp] theorem modStation_relay (i : Fin 32) (f : StationRecord → StationRecord) : (modStation i f s).relay = s.relay := rfl
@[simp] theorem modStation_counters (i : Fin 32) (f : StationRecord → StationRecord) : (modStation i f s).counters = s.counters := rfl
@[simp] theorem modStation_alarms (i : Fin 32) (f : StationRecord → StationRecord) : (modStation i f s).alarms = s.alarms := rfl
@[simp] theorem modStation_alarmsLost (i : Fin 32) (f : StationRecord → StationRecord) : (modStation i f s).alarmsLost = s.alarmsLost := rfl

@[simp] theorem modAlarm_pending (k : AlarmKey) (f : AlarmRecord → AlarmRecord) : (modAlarm k f s).pending = s.pending := rfl
@[simp] theorem modAlarm_lineInput (k : AlarmKey) (f : AlarmRecord → AlarmRecord) : (modAlarm k f s).lineInput = s.lineInput := rfl
@[simp] theorem modAlarm_now (k : AlarmKey) (f : AlarmRecord → AlarmRecord) : (modAlarm k f s).now = s.now := rfl
@[simp] theorem modAlarm_resetEnd (k : AlarmKey) (f : AlarmRecord → AlarmRecord) : (modAlarm k f s).resetEnd = s.resetEnd := rfl
@[simp] theorem modAlarm_choices (k : AlarmKey) (f : AlarmRecord → AlarmRecord) : (modAlarm k f s).choices = s.choices := rfl
@[simp] theorem modAlarm_inReset (k : AlarmKey) (f : AlarmRecord → AlarmRecord) : (modAlarm k f s).inReset = s.inReset := rfl
@[simp] theorem modAlarm_addrStrap (k : AlarmKey) (f : AlarmRecord → AlarmRecord) : (modAlarm k f s).addrStrap = s.addrStrap := rfl
@[simp] theorem modAlarm_transparentStrap (k : AlarmKey) (f : AlarmRecord → AlarmRecord) : (modAlarm k f s).transparentStrap = s.transparentStrap := rfl
@[simp] theorem modAlarm_ownAddr (k : AlarmKey) (f : AlarmRecord → AlarmRecord) : (modAlarm k f s).ownAddr = s.ownAddr := rfl
@[simp] theorem modAlarm_ports (k : AlarmKey) (f : AlarmRecord → AlarmRecord) : (modAlarm k f s).ports = s.ports := rfl
@[simp] theorem modAlarm_branches (k : AlarmKey) (f : AlarmRecord → AlarmRecord) : (modAlarm k f s).branches = s.branches := rfl
@[simp] theorem modAlarm_grant (k : AlarmKey) (f : AlarmRecord → AlarmRecord) : (modAlarm k f s).grant = s.grant := rfl
@[simp] theorem modAlarm_given (k : AlarmKey) (f : AlarmRecord → AlarmRecord) : (modAlarm k f s).given = s.given := rfl
@[simp] theorem modAlarm_dup (k : AlarmKey) (f : AlarmRecord → AlarmRecord) : (modAlarm k f s).dup = s.dup := rfl
@[simp] theorem modAlarm_pool (k : AlarmKey) (f : AlarmRecord → AlarmRecord) : (modAlarm k f s).pool = s.pool := rfl
@[simp] theorem modAlarm_inbound (k : AlarmKey) (f : AlarmRecord → AlarmRecord) : (modAlarm k f s).inbound = s.inbound := rfl
@[simp] theorem modAlarm_headSince (k : AlarmKey) (f : AlarmRecord → AlarmRecord) : (modAlarm k f s).headSince = s.headSince := rfl
@[simp] theorem modAlarm_route (k : AlarmKey) (f : AlarmRecord → AlarmRecord) : (modAlarm k f s).route = s.route := rfl
@[simp] theorem modAlarm_pollList (k : AlarmKey) (f : AlarmRecord → AlarmRecord) : (modAlarm k f s).pollList = s.pollList := rfl
@[simp] theorem modAlarm_stations (k : AlarmKey) (f : AlarmRecord → AlarmRecord) : (modAlarm k f s).stations = s.stations := rfl
@[simp] theorem modAlarm_session (k : AlarmKey) (f : AlarmRecord → AlarmRecord) : (modAlarm k f s).session = s.session := rfl
@[simp] theorem modAlarm_deferred (k : AlarmKey) (f : AlarmRecord → AlarmRecord) : (modAlarm k f s).deferred = s.deferred := rfl
@[simp] theorem modAlarm_restart (k : AlarmKey) (f : AlarmRecord → AlarmRecord) : (modAlarm k f s).restart = s.restart := rfl
@[simp] theorem modAlarm_relay (k : AlarmKey) (f : AlarmRecord → AlarmRecord) : (modAlarm k f s).relay = s.relay := rfl
@[simp] theorem modAlarm_counters (k : AlarmKey) (f : AlarmRecord → AlarmRecord) : (modAlarm k f s).counters = s.counters := rfl
@[simp] theorem modAlarm_alarmsLost (k : AlarmKey) (f : AlarmRecord → AlarmRecord) : (modAlarm k f s).alarmsLost = s.alarmsLost := rfl

@[simp] theorem record_pending (c : Cmd) (k : Command) (x : Cached) : (record c k x s).pending = s.pending := rfl
@[simp] theorem record_lineInput (c : Cmd) (k : Command) (x : Cached) : (record c k x s).lineInput = s.lineInput := rfl
@[simp] theorem record_now (c : Cmd) (k : Command) (x : Cached) : (record c k x s).now = s.now := rfl
@[simp] theorem record_resetEnd (c : Cmd) (k : Command) (x : Cached) : (record c k x s).resetEnd = s.resetEnd := rfl
@[simp] theorem record_choices (c : Cmd) (k : Command) (x : Cached) : (record c k x s).choices = s.choices := rfl
@[simp] theorem record_inReset (c : Cmd) (k : Command) (x : Cached) : (record c k x s).inReset = s.inReset := rfl
@[simp] theorem record_addrStrap (c : Cmd) (k : Command) (x : Cached) : (record c k x s).addrStrap = s.addrStrap := rfl
@[simp] theorem record_transparentStrap (c : Cmd) (k : Command) (x : Cached) : (record c k x s).transparentStrap = s.transparentStrap := rfl
@[simp] theorem record_ownAddr (c : Cmd) (k : Command) (x : Cached) : (record c k x s).ownAddr = s.ownAddr := rfl
@[simp] theorem record_ports (c : Cmd) (k : Command) (x : Cached) : (record c k x s).ports = s.ports := rfl
@[simp] theorem record_branches (c : Cmd) (k : Command) (x : Cached) : (record c k x s).branches = s.branches := rfl
@[simp] theorem record_grant (c : Cmd) (k : Command) (x : Cached) : (record c k x s).grant = s.grant := rfl
@[simp] theorem record_given (c : Cmd) (k : Command) (x : Cached) : (record c k x s).given = s.given := rfl
@[simp] theorem record_dup (c : Cmd) (k : Command) (x : Cached) : (record c k x s).dup = s.dup := rfl
@[simp] theorem record_pool (c : Cmd) (k : Command) (x : Cached) : (record c k x s).pool = s.pool := rfl
@[simp] theorem record_inbound (c : Cmd) (k : Command) (x : Cached) : (record c k x s).inbound = s.inbound := rfl
@[simp] theorem record_headSince (c : Cmd) (k : Command) (x : Cached) : (record c k x s).headSince = s.headSince := rfl
@[simp] theorem record_route (c : Cmd) (k : Command) (x : Cached) : (record c k x s).route = s.route := rfl
@[simp] theorem record_pollList (c : Cmd) (k : Command) (x : Cached) : (record c k x s).pollList = s.pollList := rfl
@[simp] theorem record_stations (c : Cmd) (k : Command) (x : Cached) : (record c k x s).stations = s.stations := rfl
@[simp] theorem record_deferred (c : Cmd) (k : Command) (x : Cached) : (record c k x s).deferred = s.deferred := rfl
@[simp] theorem record_restart (c : Cmd) (k : Command) (x : Cached) : (record c k x s).restart = s.restart := rfl
@[simp] theorem record_relay (c : Cmd) (k : Command) (x : Cached) : (record c k x s).relay = s.relay := rfl
@[simp] theorem record_counters (c : Cmd) (k : Command) (x : Cached) : (record c k x s).counters = s.counters := rfl
@[simp] theorem record_alarms (c : Cmd) (k : Command) (x : Cached) : (record c k x s).alarms = s.alarms := rfl
@[simp] theorem record_alarmsLost (c : Cmd) (k : Command) (x : Cached) : (record c k x s).alarmsLost = s.alarmsLost := rfl

@[simp] theorem setStaging_pending (i : Fin 96) (r : Option RouteRecord) : (setStaging i r s).pending = s.pending := rfl
@[simp] theorem setStaging_lineInput (i : Fin 96) (r : Option RouteRecord) : (setStaging i r s).lineInput = s.lineInput := rfl
@[simp] theorem setStaging_now (i : Fin 96) (r : Option RouteRecord) : (setStaging i r s).now = s.now := rfl
@[simp] theorem setStaging_resetEnd (i : Fin 96) (r : Option RouteRecord) : (setStaging i r s).resetEnd = s.resetEnd := rfl
@[simp] theorem setStaging_choices (i : Fin 96) (r : Option RouteRecord) : (setStaging i r s).choices = s.choices := rfl
@[simp] theorem setStaging_inReset (i : Fin 96) (r : Option RouteRecord) : (setStaging i r s).inReset = s.inReset := rfl
@[simp] theorem setStaging_addrStrap (i : Fin 96) (r : Option RouteRecord) : (setStaging i r s).addrStrap = s.addrStrap := rfl
@[simp] theorem setStaging_transparentStrap (i : Fin 96) (r : Option RouteRecord) : (setStaging i r s).transparentStrap = s.transparentStrap := rfl
@[simp] theorem setStaging_ownAddr (i : Fin 96) (r : Option RouteRecord) : (setStaging i r s).ownAddr = s.ownAddr := rfl
@[simp] theorem setStaging_ports (i : Fin 96) (r : Option RouteRecord) : (setStaging i r s).ports = s.ports := rfl
@[simp] theorem setStaging_branches (i : Fin 96) (r : Option RouteRecord) : (setStaging i r s).branches = s.branches := rfl
@[simp] theorem setStaging_grant (i : Fin 96) (r : Option RouteRecord) : (setStaging i r s).grant = s.grant := rfl
@[simp] theorem setStaging_given (i : Fin 96) (r : Option RouteRecord) : (setStaging i r s).given = s.given := rfl
@[simp] theorem setStaging_dup (i : Fin 96) (r : Option RouteRecord) : (setStaging i r s).dup = s.dup := rfl
@[simp] theorem setStaging_pool (i : Fin 96) (r : Option RouteRecord) : (setStaging i r s).pool = s.pool := rfl
@[simp] theorem setStaging_inbound (i : Fin 96) (r : Option RouteRecord) : (setStaging i r s).inbound = s.inbound := rfl
@[simp] theorem setStaging_headSince (i : Fin 96) (r : Option RouteRecord) : (setStaging i r s).headSince = s.headSince := rfl
@[simp] theorem setStaging_pollList (i : Fin 96) (r : Option RouteRecord) : (setStaging i r s).pollList = s.pollList := rfl
@[simp] theorem setStaging_stations (i : Fin 96) (r : Option RouteRecord) : (setStaging i r s).stations = s.stations := rfl
@[simp] theorem setStaging_session (i : Fin 96) (r : Option RouteRecord) : (setStaging i r s).session = s.session := rfl
@[simp] theorem setStaging_deferred (i : Fin 96) (r : Option RouteRecord) : (setStaging i r s).deferred = s.deferred := rfl
@[simp] theorem setStaging_restart (i : Fin 96) (r : Option RouteRecord) : (setStaging i r s).restart = s.restart := rfl
@[simp] theorem setStaging_relay (i : Fin 96) (r : Option RouteRecord) : (setStaging i r s).relay = s.relay := rfl
@[simp] theorem setStaging_counters (i : Fin 96) (r : Option RouteRecord) : (setStaging i r s).counters = s.counters := rfl
@[simp] theorem setStaging_alarms (i : Fin 96) (r : Option RouteRecord) : (setStaging i r s).alarms = s.alarms := rfl
@[simp] theorem setStaging_alarmsLost (i : Fin 96) (r : Option RouteRecord) : (setStaging i r s).alarmsLost = s.alarmsLost := rfl

end Fields

/-! ## Reading back -/

section ReadBack
variable (s : State)

theorem State.modPort_get (p q : Port) (f : PortState → PortState) :
    (s.modPort p f).ports.get q = if q = p then f (s.ports.get p) else s.ports.get q := by
  simp [State.modPort, PerPort.get_set]

@[simp] theorem State.modPort_get_same (p : Port) (f : PortState → PortState) :
    (s.modPort p f).ports.get p = f (s.ports.get p) := by simp [State.modPort]

theorem State.modPort_get_ne (p q : Port) (f : PortState → PortState) (h : q ≠ p) :
    (s.modPort p f).ports.get q = s.ports.get q := by simp [State.modPort_get, h]

@[simp] theorem State.modPort_modPort (p : Port) (f g : PortState → PortState) :
    (s.modPort p f).modPort p g = s.modPort p (fun q => g (f q)) := by simp [State.modPort]

theorem State.modBranch_get (b c : Branch) (f : BranchState → BranchState) :
    (s.modBranch b f).branches.get c = if c = b then f (s.branches.get b) else s.branches.get c := by
  simp [State.modBranch, PerBranch.get_set]

@[simp] theorem State.modBranch_get_same (b : Branch) (f : BranchState → BranchState) :
    (s.modBranch b f).branches.get b = f (s.branches.get b) := by simp [State.modBranch]

theorem State.modBranch_get_ne (b c : Branch) (f : BranchState → BranchState) (h : c ≠ b) :
    (s.modBranch b f).branches.get c = s.branches.get c := by simp [State.modBranch_get, h]

theorem setBuf_get (b c : BufId) (x : Buffer) :
    (setBuf b x s).pool.get c = if c = b then x else s.pool.get c := get_set_at _ _ _ _

@[simp] theorem setBuf_get_same (b : BufId) (x : Buffer) : (setBuf b x s).pool.get b = x := by
  simp [setBuf_get]

theorem modStation_get (i j : Fin 32) (f : StationRecord → StationRecord) :
    (modStation i f s).stations.get j = if j = i then f (s.stations.get i) else s.stations.get j :=
  get_set_at _ _ _ _

@[simp] theorem modStation_get_same (i : Fin 32) (f : StationRecord → StationRecord) :
    (modStation i f s).stations.get i = f (s.stations.get i) := by simp [modStation_get]

end ReadBack

end Sys2Proof.Machine
end

