-- ==== Sys2Proof/Laws/Shared.lean ====
section
/-! SUPPORT. One specification per shared operation: what the pool, replies, alarms, releases, session ends and the
warm restart can do, so that no later proof unfolds them. -/

namespace Sys2Proof.Machine

/-! ## What steps on the lines leave as it was -/

/-- Everything that belongs to the management side and to time is as it was. -/
structure LineSame (s t : State) : Prop where
  pending : t.pending = s.pending
  lineInput : t.lineInput = s.lineInput
  now : t.now = s.now
  resetEnd : t.resetEnd = s.resetEnd
  inReset : t.inReset = s.inReset
  choices : t.choices = s.choices
  addrStrap : t.addrStrap = s.addrStrap
  transparentStrap : t.transparentStrap = s.transparentStrap
  ownAddr : t.ownAddr = s.ownAddr
  route : t.route = s.route
  pollList : t.pollList = s.pollList
  session : t.session = s.session
  deferred : t.deferred = s.deferred
  restart : t.restart = s.restart
  relay : t.relay = s.relay

theorem LineSame.refl (s : State) : LineSame s s := by constructor <;> rfl

theorem LineSame.trans {s t u : State} (h : LineSame s t) (g : LineSame t u) : LineSame s u := by
  constructor <;> first
    | exact g.pending.trans h.pending | exact g.lineInput.trans h.lineInput | exact g.now.trans h.now
    | exact g.resetEnd.trans h.resetEnd | exact g.inReset.trans h.inReset | exact g.choices.trans h.choices
    | exact g.addrStrap.trans h.addrStrap
    | exact g.transparentStrap.trans h.transparentStrap | exact g.ownAddr.trans h.ownAddr
    | exact g.route.trans h.route | exact g.pollList.trans h.pollList | exact g.session.trans h.session
    | exact g.deferred.trans h.deferred | exact g.restart.trans h.restart | exact g.relay.trans h.relay

/-- The tick count is as it was. -/
theorem LineSame.tick {s t : State} (h : LineSame s t) : t.tick = s.tick := by
  simp [State.tick, State.tickAt, h.now, h.resetEnd]

theorem modPort_same (s : State) (p : Port) (f : PortState → PortState) : LineSame s (s.modPort p f) := by
  constructor <;> rfl
theorem modBranch_same (s : State) (b : Branch) (f : BranchState → BranchState) : LineSame s (s.modBranch b f) := by
  constructor <;> rfl
theorem countPort_same (p : Port) (c : PortCtr) (s : State) : LineSame s (countPort p c s) := by constructor <;> rfl
theorem countRelay_same (c : RelayCtr) (s : State) : LineSame s (countRelay c s) := by constructor <;> rfl
theorem setAsm_same (p : Port) (a : Assembler) (s : State) : LineSame s (setAsm p a s) := by constructor <;> rfl
theorem setQueue_same (p : Port) (d : List Descriptor) (s : State) : LineSame s (setQueue p d s) := by
  constructor <;> rfl
theorem enqueue_same (p : Port) (d : Descriptor) (s : State) : LineSame s (enqueue p d s) := by constructor <;> rfl
theorem setBuf_same (b : BufId) (x : Buffer) (s : State) : LineSame s (setBuf b x s) := by constructor <;> rfl
theorem freeBuf_same (b : BufId) (s : State) : LineSame s (freeBuf b s) := by constructor <;> rfl
theorem fillBuf_same (b : BufId) (x : List Byte) (s : State) : LineSame s (fillBuf b x s) := by constructor <;> rfl
theorem modSched_same (b : Branch) (f : Scheduler → Scheduler) (s : State) : LineSame s (modSched b f s) := by
  constructor <;> rfl
theorem modStation_same (i : Fin 32) (f : StationRecord → StationRecord) (s : State) :
    LineSame s (modStation i f s) := by constructor <;> rfl
theorem modAlarm_same (k : AlarmKey) (f : AlarmRecord → AlarmRecord) (s : State) : LineSame s (modAlarm k f s) := by
  constructor <;> rfl

/-! ## The pool -/

/-- A given request makes a buffer that was FREE FILLING, and changes nothing else (R77). -/
theorem requestBuffer_some {f : Filler} {s t : State} {b : BufId} (h : requestBuffer f s = some (b, t)) :
    s.findFree = some b ∧ t = setBuf b ⟨.filling f, []⟩ s := by
  have g : giveBuffer f s = some (b, t) := by
    cases f with
    | assembler p =>
      simp only [requestBuffer] at h
      split at h
      · exact h
      · exact absurd h (by simp)
    | management => exact h
    | poll x => exact h
    | alarms => exact h
  simp only [giveBuffer, Option.map_eq_some_iff, Prod.mk.injEq] at g
  obtain ⟨a, ha, rfl, rfl⟩ := g
  exact ⟨ha, rfl⟩

/-- The buffer the pool finds is FREE. -/
theorem findFree_isFree {s : State} {b : BufId} (h : s.findFree = some b) : (s.pool.get b).use = .free := by
  have := List.find?_some h
  simpa [Buffer.isFree] using this

theorem requestBuffer_same {f : Filler} {s t : State} {b : BufId} (h : requestBuffer f s = some (b, t)) :
    LineSame s t := by
  obtain ⟨-, rfl⟩ := requestBuffer_some h
  exact setBuf_same _ _ _

theorem handOver_pool (b : BufId) (k : Nat) (s : State) : ∃ x, handOver b k s = setBuf b x s := by
  unfold handOver
  split
  · exact ⟨_, rfl⟩
  · exact ⟨_, rfl⟩

theorem handOver_same (b : BufId) (k : Nat) (s : State) : LineSame s (handOver b k s) := by
  obtain ⟨x, h⟩ := handOver_pool b k s
  rw [h]
  exact setBuf_same _ _ _

/-- A release changes the pool, and nothing else (R79). -/
theorem dropRef_pool (b : BufId) (s : State) : dropRef b s = { s with pool := (dropRef b s).pool } := by
  unfold dropRef
  split
  · split <;> rfl
  all_goals rfl

theorem dropRef_same (b : BufId) (s : State) : LineSame s (dropRef b s) := by
  rw [dropRef_pool]
  constructor <;> rfl

@[simp] theorem handOver_ports (b : BufId) (k : Nat) (s : State) : (handOver b k s).ports = s.ports := by
  obtain ⟨x, h⟩ := handOver_pool b k s
  rw [h, setBuf_ports]

@[simp] theorem handOver_alarms (b : BufId) (k : Nat) (s : State) : (handOver b k s).alarms = s.alarms := by
  obtain ⟨x, h⟩ := handOver_pool b k s
  rw [h, setBuf_alarms]

@[simp] theorem dropRef_ports (b : BufId) (s : State) : (dropRef b s).ports = s.ports := by rw [dropRef_pool]

@[simp] theorem dropRef_alarms (b : BufId) (s : State) : (dropRef b s).alarms = s.alarms := by rw [dropRef_pool]

/-! ## Replies (R126) -/

theorem RepliedOn.refl (p : Port) (s : State) : RepliedOn p s s := by constructor <;> simp

/-- All that the sending of a reply may change. -/
theorem sendReply_repliedOn (dest : Byte) (p : Port) (seq code : Byte) (r : Reply) (s : State) :
    RepliedOn p s (sendReply dest p seq code r s).2 := by
  unfold sendReply
  split
  · exact ⟨rfl, fun _ _ => rfl, rfl, rfl⟩
  · rename_i b s₁ h
    obtain ⟨-, rfl⟩ := requestBuffer_some h
    dsimp only
    split
    · obtain ⟨x, e⟩ := handOver_pool b 1
        (fillBuf b (buildFrame dest s.ownAddr ctlMgmtRsp (replyPayload seq code r)) (setBuf b ⟨.filling .management, []⟩ s))
      simp only [e]
      refine ⟨rfl, fun q hq => ?_, ?_, rfl⟩
      · simp [State.port, enqueue, PerPort.get_set_ne, hq, State.modPort]
      · simp [State.port, enqueue, State.modPort]
    · obtain ⟨x, e⟩ := handOver_pool b 0
        (fillBuf b (buildFrame dest s.ownAddr ctlMgmtRsp (replyPayload seq code r)) (setBuf b ⟨.filling .management, []⟩ s))
      simp only [e]
      exact ⟨rfl, fun _ _ => rfl, rfl, rfl⟩

theorem answer_repliedOn (c : Cmd) (k : Command) (r : Reply) (s : State) : RepliedOn c.port s (answer c k r s) :=
  sendReply_repliedOn _ _ _ _ _ _

theorem RepliedOn.same {p : Port} {s t : State} (h : RepliedOn p s t) : LineSame s t := by
  rw [h.rest]
  constructor <;> rfl

theorem sendReply_same (dest : Byte) (p : Port) (seq code : Byte) (r : Reply) (s : State) :
    LineSame s (sendReply dest p seq code r s).2 := (sendReply_repliedOn _ _ _ _ _ _).same

/-! ## Alarms (R157 to R161) -/

theorem placeNotify_same (b : BufId) (tick : Nat) (ps : List Port) (s : State) :
    LineSame s (placeNotify b tick ps s).2 := by
  induction ps generalizing s with
  | nil => exact LineSame.refl s
  | cons p ps ih =>
    simp only [placeNotify]
    split
    · exact (enqueue_same _ _ _).trans (ih _)
    · exact (countRelay_same _ _).trans (ih _)

theorem skipNotify_same (ps : List Port) (s : State) : LineSame s (skipNotify ps s) := by
  induction ps generalizing s with
  | nil => exact LineSame.refl s
  | cons p ps ih => exact (countRelay_same _ _).trans (ih _)

theorem notify_same (a : AlarmRecord) (s : State) : LineSame s (notify a s) := by
  unfold notify
  split
  · exact LineSame.refl s
  · split
    · exact LineSame.refl s
    · split
      · exact skipNotify_same _ _
      · rename_i addr _ _ _ b s₁ h
        have h₁ := (requestBuffer_same h).trans ((fillBuf_same b
          (buildFrame addr s.ownAddr ctlAlarm (alarmPayload a)) s₁).trans
          (placeNotify_same b s.tick s.relay.notifyPorts _))
        dsimp only
        split
        · exact h₁.trans (handOver_same _ _ _)
        · exact (h₁.trans (handOver_same _ _ _)).trans (modAlarm_same _ _ _)

theorem raise_same (k : AlarmKey) (s : State) : LineSame s (raise k s) := by
  unfold raise
  split
  · exact (modAlarm_same _ _ _).trans (notify_same _ _)
  · split
    · refine LineSame.trans ?_ (notify_same _ _)
      constructor <;> rfl
    · constructor <;> rfl

/-! ## Session ends and the warm restart -/

@[simp] theorem revert_active (t : RouteTable) : t.revert.active = t.active := by dsimp only [RouteTable.revert]
@[simp] theorem revert_epoch (t : RouteTable) : t.revert.epoch = t.epoch := by dsimp only [RouteTable.revert]
@[simp] theorem revert_commit (t : RouteTable) : t.revert.commit = t.commit := by dsimp only [RouteTable.revert]
theorem revert_staging (t : RouteTable) (i : Fin 96) :
    t.revert.staging.get i = (t.active.get i).map (·.record) := by simp [RouteTable.revert]

/-- A step that releases descriptors either goes on as it was or restarts the relay (R140). -/
theorem settleRestart_cases (s : State) : settleRestart s = s ∨ settleRestart s = warmRestart s := by
  unfold settleRestart
  split
  · exact .inl rfl
  · split
    · exact .inl rfl
    · exact .inr rfl

/-- With no restart pending, nothing happens at a release. -/
theorem settleRestart_none {s : State} (h : s.restart = none) : settleRestart s = s := by
  simp [settleRestart, h]

/-! ## The sequence rule -/

/-- R132: the owner's command sets the last activity. -/
theorem refresh_owner {c : Cmd} {s : State} (h : s.session.owner = some c.src) :
    refresh c s = { s with session := { s.session with lastActivity := some s.tick } } := by
  simp [refresh, h]

/-- R134: an accepted command is executed. -/
theorem serveSequenced_accepts {k : Command} {exe : Cmd → State → State} {c : Cmd} {s : State} (h : Accepts c s) :
    manage (serveSequenced k exe) c s
      = exe c { s with session := { s.session with lastActivity := some s.tick } } := by
  obtain ⟨h₀, h₁, h₂, h₃, h₄⟩ := h
  simp [manage, State.port, h₀, h₁, serveSequenced, h₂, refresh_owner h₃, h₃, h₄]

/-- R134: an accepted command with an immediate result changes what its body changes, the session, and what its
reply needs. -/
theorem runBody_accepts {k : Command} {body : List Byte → State → State × Reply} {c : Cmd} {s : State}
    (h : Accepts c s) :
    ∃ t, manage (serveSequenced k (runBody k body)) c s = t ∧
      RepliedOn c.port (record c k (.reply (body c.args
        { s with session := { s.session with lastActivity := some s.tick } }).2) (body c.args
        { s with session := { s.session with lastActivity := some s.tick } }).1) t := by
  rw [serveSequenced_accepts h]
  exact ⟨_, rfl, answer_repliedOn _ _ _ _⟩

end Sys2Proof.Machine
end

