-- ==== Sys2Proof/Laws/Alarms.lean ====
section
/-! SUPPORT. One specification of a raise and of a notification (R158 to R161): what they may change, and the alarm list they leave. -/

namespace Sys2Proof.Machine

theorem RaisedFrom.refl (s : State) : RaisedFrom s s := ⟨rfl, fun _ => rfl, rfl⟩

theorem RaisedFrom.trans {s t u : State} (h : RaisedFrom s t) (g : RaisedFrom t u) : RaisedFrom s u := by
  refine ⟨?_, fun p => ?_, ?_⟩
  · rw [g.rest, h.rest]
  · rw [g.ports, h.ports]
  · rw [g.counters, h.counters]

/-- A change of the pool and of the alarm list alone. -/
theorem RaisedFrom.of_rest {s t : State}
    (h : t = { s with pool := t.pool, alarms := t.alarms, alarmsLost := t.alarmsLost }) : RaisedFrom s t := by
  refine ⟨by rw [h], fun p => ?_, by rw [h]⟩
  rw [h]

theorem enqueue_raisedFrom (p : Port) (d : Descriptor) (s : State) : RaisedFrom s (enqueue p d s) := by
  refine ⟨rfl, fun q => ?_, rfl⟩
  simp only [enqueue, State.modPort, State.port, PerPort.get_set]
  split
  · rename_i h
    rw [h]
  · rfl

theorem placeNotify_raisedFrom (b : BufId) (tick : Nat) (ps : List Port) (s : State) :
    RaisedFrom s (placeNotify b tick ps s).2 := by
  induction ps generalizing s with
  | nil => exact .refl s
  | cons p ps ih =>
    simp only [placeNotify]
    split
    · exact (enqueue_raisedFrom _ _ _).trans (ih _)
    · exact RaisedFrom.trans (t := countRelay .notifySkipped s) ⟨rfl, fun _ => rfl, rfl⟩ (ih _)

theorem skipNotify_raisedFrom (ps : List Port) (s : State) : RaisedFrom s (skipNotify ps s) := by
  induction ps generalizing s with
  | nil => exact .refl s
  | cons p ps ih => exact RaisedFrom.trans (t := countRelay .notifySkipped s) ⟨rfl, fun _ => rfl, rfl⟩ (ih _)

theorem handOver_raisedFrom (b : BufId) (k : Nat) (s : State) : RaisedFrom s (handOver b k s) := by
  obtain ⟨x, e⟩ := handOver_pool b k s
  rw [e]
  exact .of_rest rfl

/-- R160, R161: all that a notification may change. -/
theorem notify_raisedFrom (a : AlarmRecord) (s : State) : RaisedFrom s (notify a s) := by
  unfold notify
  split
  · exact .refl s
  · split
    · exact .refl s
    · split
      · exact skipNotify_raisedFrom _ _
      · rename_i addr _ _ _ b s₁ h
        obtain ⟨-, rfl⟩ := requestBuffer_some h
        have h₁ : RaisedFrom s (fillBuf b (buildFrame addr s.ownAddr ctlAlarm (alarmPayload a))
            (setBuf b ⟨.filling .alarms, []⟩ s)) := .of_rest rfl
        have h₂ := h₁.trans (placeNotify_raisedFrom b s.tick s.relay.notifyPorts _)
        dsimp only
        split
        · exact h₂.trans (handOver_raisedFrom _ _ _)
        · exact (h₂.trans (handOver_raisedFrom _ _ _)).trans (.of_rest rfl)

/-- R158: all that a raise may change. -/
theorem raise_raisedFrom (key : AlarmKey) (s : State) : RaisedFrom s (raise key s) := by
  unfold raise
  split
  · exact RaisedFrom.trans (t := modAlarm key (AlarmRecord.again s.tick) s) (.of_rest rfl) (notify_raisedFrom _ _)
  · split
    · refine RaisedFrom.trans ?_ (notify_raisedFrom _ _)
      exact .of_rest rfl
    · exact .of_rest rfl

/-- R161: a notification sets at most the last-notify tick, and of its own key alone. -/
theorem notify_alarms (a s) : ∃ f : AlarmRecord → AlarmRecord, (notify a s).alarms = s.alarms.map f ∧ (∀ x, x.key ≠ a.key → f x = x) ∧
    (∀ x, f x = x ∨ f x = { x with lastNotify := some s.tick }) := by
  have pa : ∀ b tick ps s, (placeNotify b tick ps s).2.alarms = s.alarms := by
    intro b tick ps
    induction ps with
    | nil => intro s; rfl
    | cons p ps ih => intro s; simp only [placeNotify]; split <;> rw [ih] <;> rfl
  have sa : ∀ ps s, (skipNotify ps s).alarms = s.alarms := by
    intro ps
    induction ps with
    | nil => intro s; rfl
    | cons p ps ih => intro s; simp only [skipNotify]; rw [ih]; rfl
  unfold notify
  split
  · exact ⟨id, by simp, fun _ _ => rfl, fun _ => .inl rfl⟩
  · split
    · exact ⟨id, by simp, fun _ _ => rfl, fun _ => .inl rfl⟩
    · split
      · exact ⟨id, by simp [sa], fun _ _ => rfl, fun _ => .inl rfl⟩
      · rename_i addr _ _ _ b s₁ h
        obtain ⟨-, rfl⟩ := requestBuffer_some h
        dsimp only
        split
        · exact ⟨id, by rw [handOver_alarms, pa]; simp [fillBuf, setBuf], fun _ _ => rfl, fun _ => .inl rfl⟩
        · refine ⟨fun x => if x.key = a.key then { x with lastNotify := some s.tick } else x, ?_, fun x hx => if_neg hx, fun x => ?_⟩
          · simp only [modAlarm]; rw [handOver_alarms, pa]; rfl
          · by_cases h : x.key = a.key
            · exact .inr (if_pos h)
            · exact .inl (if_neg h)

theorem notify_alarmsLost (a : AlarmRecord) (s : State) : (notify a s).alarmsLost = s.alarmsLost := by
  have pl : ∀ b tick ps u, (placeNotify b tick ps u).2.alarmsLost = u.alarmsLost := by
    intro b tick ps
    induction ps with
    | nil => intro u; rfl
    | cons p ps ih => intro u; simp only [placeNotify]; split <;> rw [ih] <;> rfl
  have sk : ∀ ps u, (skipNotify ps u).alarmsLost = u.alarmsLost := by
    intro ps
    induction ps with
    | nil => intro u; rfl
    | cons p ps ih => intro u; simp only [skipNotify]; rw [ih]; rfl
  have ho : ∀ b k u, (handOver b k u).alarmsLost = u.alarmsLost := by
    intro b k u
    obtain ⟨x, e⟩ := handOver_pool b k u
    rw [e]
    rfl
  unfold notify
  split
  · rfl
  · split
    · rfl
    · split
      · exact sk _ _
      · rename_i h
        obtain ⟨-, rfl⟩ := requestBuffer_some h
        dsimp only
        split
        · rw [ho, pl]
          rfl
        · show (handOver _ _ _).alarmsLost = _
          rw [ho, pl]
          rfl

/-- In a list of distinct keys no other record has the key of one (R157). -/
theorem keys_apart {pre post : List AlarmRecord} {a : AlarmRecord} {key} (hk : a.key = key) (nd : ((pre ++ a :: post).map (·.key)).Nodup) :
    (∀ x ∈ pre, x.key ≠ key) ∧ ∀ x ∈ post, x.key ≠ key := by
  simp only [List.map_append, List.map_cons, List.nodup_append, List.nodup_cons, List.mem_map, List.mem_cons] at nd
  obtain ⟨_, ⟨h2, _⟩, h3⟩ := nd
  subst hk
  refine ⟨fun x hx e => h3 _ ⟨x, hx, rfl⟩ _ (.inl rfl) e, fun x hx e => h2 ⟨x, hx, e⟩⟩

theorem placeNotify_full (b : BufId) (tick) (ps) (s : State) (p : Port) (h : 8 ≤ (s.port p).queue.length) : ((placeNotify b tick ps s).2).port p = s.port p := by
  induction ps generalizing s with
  | nil => rfl
  | cons q qs ih =>
    simp only [placeNotify]
    split
    · rename_i hc
      have hn : p ≠ q := by
        rintro rfl
        simp [State.canAppend, Config.queueRoom] at hc; omega
      have e : (enqueue q ⟨b, .notify, none, some tick⟩ s).port p = s.port p := by
        simp [enqueue, State.modPort, State.port, PerPort.get_set_ne, hn]
      exact (ih _ (by rw [e]; exact h)).trans e
    · exact ih _ h

theorem skipNotify_ports (ps s) : (skipNotify ps s).ports = s.ports := by
  induction ps generalizing s with
  | nil => rfl
  | cons q qs ih => simp only [skipNotify]; rw [ih]; rfl

/-- R92, R161: a notification leaves a port whose queue is full as it was. -/
theorem notify_full (a) (s : State) (p : Port) (h : 8 ≤ (s.port p).queue.length) : (notify a s).port p = s.port p := by
  unfold notify
  split
  · rfl
  · split
    · rfl
    · split
      · simp only [State.port, skipNotify_ports]
      · rename_i addr _ _ _ b s₁ hr
        obtain ⟨-, rfl⟩ := requestBuffer_some hr
        dsimp only
        have e := placeNotify_full b s.tick s.relay.notifyPorts (fillBuf b (buildFrame addr s.ownAddr ctlAlarm (alarmPayload a)) (setBuf b ⟨.filling .alarms, []⟩ s)) p h
        split
        · simp only [State.port, handOver_ports]; exact e
        · simp only [State.port, modAlarm, handOver_ports]; exact e

/-- R92, R161: a raise leaves a port whose queue is full as it was. -/
theorem raise_full (key : AlarmKey) (s : State) (p : Port) (h : 8 ≤ (s.port p).queue.length) : (raise key s).port p = s.port p := by
  unfold raise
  split
  · exact notify_full _ _ p h
  · split
    · exact notify_full _ _ p h
    · rfl

end Sys2Proof.Machine
end

