-- ==== Sys2Proof/Laws/Codes.lean ====
section
/-! SUPPORT. The codes of ports, branches and positions read back, the divisor as a number, and the first position of a table that meets a test. -/

namespace Sys2Proof.Machine

theorem Port.ofCode_code (p : Port) : Port.ofCode (Port.code p) = some p := by cases p <;> rfl

/-- R166: a byte from 6 on names no port. -/
theorem Port.ofCode_none {x : Byte} (h : 6 ≤ x.toNat) : Port.ofCode x = none := by
  simp only [Port.ofCode, List.find?_eq_none, Port.all]
  intro p _; cases p <;> simp [Port.code] <;> rintro rfl <;> simp at h

theorem Branch.ofCode_code (b : Branch) : Branch.ofCode (Port.code b.port) = some b := by cases b <;> rfl

/-- R166: a byte outside 2 to 5 names no branch. -/
theorem Branch.ofCode_none {x : Byte} (h : x.toNat < 2 ∨ 5 < x.toNat) : Branch.ofCode x = none := by
  simp only [Branch.ofCode, List.find?_eq_none, Branch.all]
  intro p _; cases p <;> simp [Port.code, Branch.port] <;> rintro rfl <;> simp at h

theorem Branch.port_branch? (b : Branch) : b.port.branch? = some b := by cases b <;> rfl

theorem Port.eq_of_branch? {p : Port} {b : Branch} (h : p.branch? = some b) : p = b.port := by cases p <;> cases b <;> simp_all [Port.branch?, Branch.port]

theorem Trunk.port_trunk? (k : Trunk) : k.port.trunk? = some k := by cases k <;> rfl

theorem Trunk.port_ne {k j : Trunk} (h : k ≠ j) : j.port ≠ k.port := by
  cases k <;> cases j <;> simp_all [Trunk.port]

theorem posOf_none {n} {x : Byte} (h : n ≤ x.toNat) : posOf n x = none := by simp [posOf]; omega

theorem posOf_some {n} {x : Byte} {i : Fin n} (h : i.val = x.toNat) : posOf n x = some i := by simp [posOf, ← h]

/-- R166: the divisor is the first byte modulo 16, times 256, plus the second byte. -/
theorem divisorOf_eq (dh dl : Byte) : divisorOf dh dl = BitVec.ofNat 12 ((dh.toNat % 16) * 256 + dl.toNat) := by
  apply BitVec.eq_of_toNat_eq
  simp only [divisorOf, BitVec.toNat_append, BitVec.toNat_setWidth, BitVec.toNat_ofNat]
  have h1 := dh.isLt; have h2 := dl.isLt
  rw [← Nat.shiftLeft_add_eq_or_of_lt (by omega)]
  simp [Nat.shiftLeft_eq]; omega

/-- R163: a key is that of the bytes it was read from. -/
theorem AlarmKey.ofBytes_some {k sb : Byte} {key : AlarmKey} (h : AlarmKey.ofBytes k sb = some key) : key.kind = k ∧ key.subject = sb := by
  unfold AlarmKey.ofBytes at h
  split at h
  · split at h
    · cases h
    · cases h; exact ⟨by simp [AlarmKey.kind, *], rfl⟩
  split at h
  · obtain ⟨p, hp, rfl⟩ := Option.map_eq_some_iff.1 h
    have := List.find?_some hp
    exact ⟨by simp [AlarmKey.kind, *], by simpa [AlarmKey.subject] using this⟩
  split at h
  · obtain ⟨p, hp, rfl⟩ := Option.map_eq_some_iff.1 h
    have := List.find?_some hp
    exact ⟨by simp [AlarmKey.kind, *], by simpa [AlarmKey.subject] using this⟩
  split at h
  · split at h
    · cases h; exact ⟨by simp [AlarmKey.kind, *], by simp [AlarmKey.subject, *]⟩
    · cases h
  · cases h

/-- The lowest position that meets a test. -/
theorem find_first (n : Nat) (P : Fin n → Bool) (i : Fin n) (h : P i = true) (hl : ∀ j, j < i → P j = false) :
    (List.finRange n).find? P = some i := by
  rw [List.find?_eq_some_iff_getElem]
  refine ⟨h, i.val, by simp, by simp, fun j hj => ?_⟩
  simp [hl ⟨j, by omega⟩ (by simpa [Fin.lt_def] using hj)]

/-- The first result of a table, in ascending position. -/
theorem findSome_first {n : Nat} {α} (f : Fin n → Option α) (y : α) :
    (List.finRange n).findSome? f = some y ↔ ∃ i, f i = some y ∧ ∀ j, j < i → f j = none := by
  rw [List.findSome?_eq_some_iff]
  constructor
  · rintro ⟨l1, a, l2, h1, h2, h3⟩
    refine ⟨a, h2, fun j hj => h3 j ?_⟩
    have hs : (l1 ++ a :: l2).Pairwise (· < ·) := by rw [← h1]; exact List.pairwise_lt_finRange n
    have hm : j ∈ l1 ++ a :: l2 := by rw [← h1]; simp
    rw [List.pairwise_append] at hs
    simp only [List.mem_append, List.mem_cons] at hm
    rcases hm with hm | rfl | hm
    · exact hm
    · exact absurd hj (lt_irrefl _)
    · have := (List.pairwise_cons.1 hs.2.1).1 j hm; exact absurd hj (by omega)
  · rintro ⟨i, h1, h2⟩
    have hm : i ∈ List.finRange n := by simp
    obtain ⟨l1, l2, hl⟩ := List.append_of_mem hm
    refine ⟨l1, i, l2, hl, h1, fun x hx => h2 x ?_⟩
    have hs : (l1 ++ i :: l2).Pairwise (· < ·) := by rw [← hl]; exact List.pairwise_lt_finRange n
    rw [List.pairwise_append] at hs
    exact hs.2.2 x hx i (by simp)

theorem replicate_get {α} (n : Nat) (x : α) (i : Fin n) : (Vector.replicate n x).get i = x := by simp [Vector.get_eq_getElem]

end Sys2Proof.Machine
end

