-- ==== Sys2Proof/Laws/Pool.lean ====
section
/-! SUPPORT. What the pool gives and takes back: the FREE count through a change of one buffer, and releases as a function of the pool alone. -/

namespace Sys2Proof.Machine

/-- A buffer that was FREE no longer is: one FREE buffer less. -/
theorem free_after_taking (v : Vector Buffer 40) (b : BufId) (x : Buffer) (h : (v.get b).isFree = true) (hx : x.isFree = false) :
   (v.set b.val x b.isLt).toList.countP Buffer.isFree + 1 = v.toList.countP Buffer.isFree := by
  obtain ⟨i, hi⟩ := b
  have hl : i < v.toList.length := by rw [Vector.length_toList]; exact hi
  have hget : v.get ⟨i, hi⟩ = v.toList[i]'hl := by simp [Vector.get_eq_getElem]
  rw [hget] at h
  have : (v.set i x hi).toList = v.toList.set i x := by simp [Vector.toList_set]
  have hp : 0 < v.toList.countP Buffer.isFree := List.countP_pos_iff.2 ⟨_, List.getElem_mem _, h⟩
  rw [this, List.countP_set hl, if_pos h, if_neg (by simp [hx])]
  omega

/-- A buffer that was not FREE now is: one FREE buffer more. -/
theorem free_after_freeing (v : Vector Buffer 40) (b : BufId) (x : Buffer) (h : (v.get b).isFree = false) (hx : x.isFree = true) :
   (v.set b.val x b.isLt).toList.countP Buffer.isFree = v.toList.countP Buffer.isFree + 1:= by
  obtain ⟨i, hi⟩ := b
  have hl : i < v.toList.length := by rw [Vector.length_toList]; exact hi
  have hget : v.get ⟨i, hi⟩ = v.toList[i]'hl := by simp [Vector.get_eq_getElem]
  rw [hget] at h
  have : (v.set i x hi).toList = v.toList.set i x := by simp [Vector.toList_set]
  rw [this, List.countP_set hl, if_neg (by rw [h]; simp), if_pos hx]
  omega

/-- R77: the pool finds a buffer exactly while the FREE count is not 0. -/
theorem findFree_isSome (s : State) : s.findFree.isSome = true ↔ 0 < s.freeCount := by
  unfold State.findFree State.freeCount
  rw [List.find?_isSome, List.countP_pos_iff]
  constructor
  · rintro ⟨b, -, hb⟩
    exact ⟨_, by rw [Vector.get_eq_getElem]; simp, hb⟩
  · rintro ⟨x, hx, hf⟩
    rw [Vector.mem_toList_iff, Vector.mem_iff_getElem] at hx
    obtain ⟨i, hi, rfl⟩ := hx
    exact ⟨⟨i, hi⟩, by simp, by simpa [Vector.get_eq_getElem] using hf⟩

theorem findFree_none {s : State} (h : s.freeCount = 0) : s.findFree = none := by
  cases e : s.findFree with
  | none => rfl
  | some b => have := (findFree_isSome s).1 (by simp [e]); omega

theorem freeCount_congr {s t : State} (h : s.pool = t.pool) : s.freeCount = t.freeCount := by simp [State.freeCount, h]

/-- R80: all forty buffers FREE. -/
theorem freeCount_full (s : State) (h : ∀ b, (s.pool.get b).use = .free) : s.freeCount = 40 := by
  unfold State.freeCount
  have : s.pool.toList.countP Buffer.isFree = s.pool.toList.length := by
    rw [List.countP_eq_length]
    intro x hx
    obtain ⟨i, hi, rfl⟩ := List.mem_iff_getElem.1 hx
    have hi' : i < 40 := by simpa using hi
    have := h ⟨i, hi'⟩
    simp [Vector.get_eq_getElem] at this
    simp [Buffer.isFree, this]
  rw [this]; simp

/-- A release depends on the pool alone (R79). -/
theorem dropRef_congr {b : BufId} {s t : State} (h : s.pool = t.pool) : (dropRef b s).pool = (dropRef b t).pool := by
  simp only [dropRef, h]; split <;> (try split) <;> simp [setBuf, freeBuf, h]

/-- Releases in order depend on the pool alone (R79). -/
theorem dropRefs_congr (ds : List Descriptor) {s t : State} (h : s.pool = t.pool) :
    (ds.foldl (fun u d => dropRef d.buf u) s).pool = (ds.foldl (fun u d => dropRef d.buf u) t).pool := by
  induction ds generalizing s t with
  | nil => exact h
  | cons d ds ih => exact ih (dropRef_congr h)

/-- Releases leave a buffer that is not HELD as it was. -/
theorem dropRefs_other (ds : List Descriptor) (b : BufId) : ∀ s : State, (∀ n, (s.pool.get b).use ≠ .held n) → ((ds.foldl (fun u d => dropRef d.buf u) s).pool.get b) = s.pool.get b := by
  induction ds with
  | nil => intro s _; rfl
  | cons d ds ih =>
    intro s h
    have e : (dropRef d.buf s).pool.get b = s.pool.get b := by
      unfold dropRef
      split
      · rename_i n hn
        have : b ≠ d.buf := by rintro rfl; exact h n hn
        split <;> simp [freeBuf, setBuf, get_set_at, this]
      · rfl
      · rfl
      · rfl
    rw [List.foldl_cons, ih _ (by rw [e]; exact h), e]

end Sys2Proof.Machine
end

