-- ==== Sys2Proof/Laws/Egress.lean ====
section
/-! SUPPORT. Releases, takes and configurations in closed form: the states that Safety.lean names. -/

namespace Sys2Proof.Machine

theorem released_nil (s : State) (p : Port) (h : q = (s.port p).queue) : s.released p [] q = s := by
  subst h; unfold State.released State.port; dsimp only [List.length_nil, Function.iterate_zero, id, List.foldl_nil]; rw [PerPort.set_get]

/-- R79, R94: releasing descriptors in order, in closed form. -/
theorem releaseAll_eq (p : Port) (ds : List Descriptor) (s : State) :
    releaseAll p ds s = s.released p ds (s.port p).queue := by
  induction ds generalizing s with
  | nil => simp only [releaseAll]; rw [released_nil _ _ rfl]
  | cons d ds ih =>
    rw [releaseAll, ih]
    have e : dropRef d.buf (countPort p .staleDiscards s) = { countPort p .staleDiscards s with pool := (dropRef d.buf s).pool } := by
      rw [dropRef_pool]; congr 1; exact dropRef_congr rfl
    rw [e]
    simp only [State.released, List.foldl_cons, List.length_cons, Function.iterate_succ, Function.comp]
    have e2 : (ds.foldl (fun u d => dropRef d.buf u) { countPort p .staleDiscards s with pool := (dropRef d.buf s).pool }).pool
        = (ds.foldl (fun u d => dropRef d.buf u) (dropRef d.buf s)).pool := dropRefs_congr ds rfl
    rw [e2]
    simp [countPort, State.modPort, State.port, PortCounters.bump]

/-- R102: the flush, in closed form. -/
theorem flushQueue_eq (p : Port) (s : State) : flushQueue p s = s.released p (s.port p).queue [] := by
  unfold flushQueue; rw [releaseAll_eq]
  simp only [State.released, setQueue, State.modPort, State.port, PerPort.get_set_same, PerPort.set_set]
  congr 1
  exact dropRefs_congr _ rfl

theorem setQueue_released (s : State) (p : Port) (a q q' : List Descriptor) : setQueue p q' (s.released p a q) = s.released p a q' := by
  simp [setQueue, State.modPort, State.released, State.port]

theorem released_session (s : State) (p : Port) (a b) (x : Session) :
   { s.released p a b with session := x } = { s with session := x }.released p a b := by
  simp only [State.released]
  congr 1
  exact dropRefs_congr _ rfl

/-- R18, R19: an applied configuration, in closed form. -/
theorem PortState.apply_eq (c : PortConfig) (n : Nat) (q : PortState) : PortState.apply c n q = { q with
    applied := c
    pendingConfig := none
    rx := if c.enabled ≠ q.applied.enabled ∨ (c.enabled = true ∧ c.divisor ≠ q.applied.divisor) then
      Receiver.fresh n else q.rx
    retuned := if c.enabled = true ∧ (q.applied.enabled = false ∨ c.divisor ≠ q.applied.divisor) then
      some n else q.retuned
    lastActivity := n } := by
  unfold PortState.apply PortState.touch PortState.stopListen PortState.beginListen
  by_cases h3 : q.applied.divisor = c.divisor
  · cases h1 : c.enabled <;> cases q.applied.enabled <;> simp [h3, h1, PortState.touch]
  · have h4 : ¬ c.divisor = q.applied.divisor := fun h => h3 h.symm
    cases h1 : c.enabled <;> cases q.applied.enabled <;> simp [h3, h4, h1, PortState.touch]

/-- R18, R19, R102: the application of a configuration, in closed form. -/
theorem applyConfig_eq (p : Port) (c : PortConfig) (s : State) : applyConfig p c s = s.configured p c := by
  unfold applyConfig State.configured
  have e : s.modPort p (PortState.apply c s.now) = { s with ports := s.ports.set p { s.port p with
    applied := c
    pendingConfig := none
    rx := if c.enabled ≠ (s.port p).applied.enabled ∨ (c.enabled = true ∧ c.divisor ≠ (s.port p).applied.divisor) then
      Receiver.fresh s.now else (s.port p).rx
    retuned := if c.enabled = true ∧ ((s.port p).applied.enabled = false ∨ c.divisor ≠ (s.port p).applied.divisor) then
      some s.now else (s.port p).retuned
    lastActivity := s.now } } := by
    simp only [State.modPort, PortState.apply_eq, State.port]
  rw [e]
  dsimp only
  by_cases h : (s.port p).applied.enabled = true ∧ c.enabled = false
  · rw [if_pos h, if_pos (by simp only [h.2]; simpa using h.1), flushQueue_eq]
    simp [State.port]
  · rw [if_neg h, if_neg (by simpa using h)]

theorem configured_session (s : State) (p : Port) (c : PortConfig) (x : Session) :
   { s.configured p c with session := x } = { s with session := x }.configured p c := by
  unfold State.configured; dsimp only
  by_cases h : (s.port p).applied.enabled = true ∧ c.enabled = false
  · simp only [if_pos h]
    exact released_session _ _ _ _ _
  · simp only [if_neg h]

theorem configured_keeps_session (s : State) (p : Port) (c : PortConfig) : (s.configured p c).session = s.session := by
  unfold State.configured; dsimp only; split <;> rfl

theorem Tx.isIdle_iff (t : Tx) : t.isIdle = true ↔ t = .idle := by cases t <;> simp [Tx.isIdle]

theorem reserved_iff (s : State) (p : Port) : s.reserved p = false ↔ ∀ b, p.branch? = some b → (s.branch b).outstanding = false := by
  unfold State.reserved; cases p.branch? <;> simp

/-- R17: the four conditions of a quiet port. -/
theorem rested_iff (s : State) (p : Port) : s.rested p = true ↔ s.Rested p := by
  unfold State.rested State.Rested
  have h : (!s.reserved p) = true ↔ ∀ b, p.branch? = some b → (s.branch b).outstanding = false := by
    rw [Bool.not_eq_true', reserved_iff]
  simp only [Bool.and_eq_true, decide_eq_true_eq, Tx.isIdle_iff, h]
  cases (s.port p).rx.mode <;> simp [and_assoc]

theorem edgeHolds_iff (now : Nat) (q : PortState) :
    q.edgeHolds now = false ↔ ∀ e, q.rx.edge = some e → e ≠ now ∧ q.edgeFirst ≠ some e := by
  unfold PortState.edgeHolds
  cases q.rx.edge <;> simp

/-- R17: a quiet port. -/
theorem quiet_iff (s : State) (p : Port) : s.quiet p = true ↔ s.Quiet p := by
  unfold State.quiet State.Quiet
  rw [Bool.and_eq_true, rested_iff, Bool.not_eq_true', edgeHolds_iff]

/-- R94, R95: a stale descriptor. -/
theorem isStale_iff (s : State) (d : Descriptor) : s.isStale d = true ↔ ∃ t, d.enqueued = some t ∧ 10 * s.relay.residence.toNat < s.tick - t := by
  unfold State.isStale RelayConfig.residenceTicks
  cases d.enqueued <;> simp

theorem stale_prefix {α} (P : α → Bool) (xs : List α) (d : α) (r : List α) (h : ∀ x ∈ xs, P x = true) (hd : P d = false) :
    (xs ++ d :: r).takeWhile P = xs ∧ (xs ++ d :: r).dropWhile P = d :: r := by
  induction xs with
  | nil => simp [hd]
  | cons x xs ih =>
    have hx := h x (by simp)
    obtain ⟨a, b⟩ := ih (fun y hy => h y (by simp [hy]))
    simp [hx, a, b]

theorem stale_all {α} (P : α → Bool) (xs : List α) (h : ∀ x ∈ xs, P x = true) :
    xs.takeWhile P = xs ∧ xs.dropWhile P = [] := by
  induction xs with
  | nil => simp
  | cons x xs ih =>
    have hx := h x (by simp)
    obtain ⟨a, b⟩ := ih (fun y hy => h y (by simp [hy]))
    simp [hx, a, b]

theorem freshQueue_some {p : Port} {s : State} {stale d rest} (hs : ∀ x ∈ stale, s.isStale x = true) (hd : s.isStale d = false) (hq : (s.port p).queue = stale ++ d :: rest) : s.freshQueue p = d :: rest := by
  unfold State.freshQueue; rw [hq, (stale_prefix _ _ _ _ hs hd).2]

/-- R94, R96: the queue served with a fresh descriptor. -/
theorem serveQueue_some (p : Port) (s : State) (stale : List Descriptor) (d : Descriptor) (rest : List Descriptor) (hs : ∀ x ∈ stale, s.isStale x = true) (hd : s.isStale d = false) (hq : (s.port p).queue = stale ++ d :: rest) :
   serveQueue p s = setServed p .queue ((s.released p stale rest).modPort p fun q => { q with tx := .waitLine d }) := by
  unfold serveQueue State.freshQueue State.staleQueue
  rw [hq, (stale_prefix _ _ _ _ hs hd).1, (stale_prefix _ _ _ _ hs hd).2]
  dsimp only
  rw [releaseAll_eq, setQueue_released]

/-- R94, R96: the queue served with none fresh. -/
theorem serveQueue_none (p : Port) (s : State) (hs : ∀ x ∈ (s.port p).queue, s.isStale x = true) :
   serveQueue p s = s.released p (s.port p).queue [] := by
  unfold serveQueue State.freshQueue State.staleQueue
  rw [(stale_all _ _ hs).1, (stale_all _ _ hs).2]
  dsimp only
  rw [releaseAll_eq, setQueue_released]

/-- R98, R100: the poll served on an enabled branch. -/
theorem servePoll_enabled (b : Branch) (s : State) (buf : BufId) (hb : (s.sched b).buffer = some buf) (he : (s.port b.port).applied.enabled = true) :
    servePoll b s = s.pollTaken b buf := by
  unfold servePoll; rw [hb]; dsimp only; rw [if_pos he]
  simp [markTaken, handOver, setBuf, State.modBranch, State.modPort, State.pollTaken, State.port, State.branch, State.sched]

/-- R117: the report to the scheduler, in closed form. -/
theorem pollSent_eq (b : Branch) (s : State) (i : Fin 32) (h : (s.sched b).cursor = some i) : pollSent b s = s.pollReported b i := by
  unfold pollSent; rw [h]; dsimp only
  simp only [modSched, State.modBranch, modStation, State.pollReported, State.sched, State.branch]

end Sys2Proof.Machine
end

