-- ==== Sys2Proof/Laws/Accounting.lean ====
section
/-! SUPPORT. The accounting of buffers (R75, R76, R81) through each shared operation. A buffer is loose while an operation holds it: its references are counted, its state is not yet judged; `X` counts references that are still to be released. -/

namespace Sys2Proof.Machine

open Function

/-- The descriptors of a list that refer to a buffer. -/
abbrev refsIn (b : BufId) (ds : List Descriptor) : Nat := ds.countP fun d => d.buf == b

theorem refs_eq (s : State) (b : BufId) : s.refs b = refsIn b (s.port .t0).descriptors + refsIn b (s.port .t1).descriptors + refsIn b (s.port .b0).descriptors
   + refsIn b (s.port .b1).descriptors + refsIn b (s.port .b2).descriptors + refsIn b (s.port .b3).descriptors := by
  simp [State.refs, Port.all, refsIn]; omega

/-- The references after a change of one port. -/
theorem refs_port {s t : State} {p : Port} (h : ∀ q, q ≠ p → (t.port q).descriptors = (s.port q).descriptors) (b : BufId) :
    t.refs b + refsIn b (s.port p).descriptors = s.refs b + refsIn b (t.port p).descriptors := by
  rw [refs_eq, refs_eq]
  cases p
  · rw [h .t1 (by decide), h .b0 (by decide), h .b1 (by decide), h .b2 (by decide), h .b3 (by decide)]; omega
  · rw [h .t0 (by decide), h .b0 (by decide), h .b1 (by decide), h .b2 (by decide), h .b3 (by decide)]; omega
  · rw [h .t1 (by decide), h .t0 (by decide), h .b1 (by decide), h .b2 (by decide), h .b3 (by decide)]; omega
  · rw [h .t1 (by decide), h .b0 (by decide), h .t0 (by decide), h .b2 (by decide), h .b3 (by decide)]; omega
  · rw [h .t1 (by decide), h .b0 (by decide), h .b1 (by decide), h .t0 (by decide), h .b3 (by decide)]; omega
  · rw [h .t1 (by decide), h .b0 (by decide), h .b1 (by decide), h .b2 (by decide), h .t0 (by decide)]; omega

theorem refs_same {s t : State} (h : ∀ q, (t.port q).descriptors = (s.port q).descriptors) (b : BufId) : t.refs b = s.refs b := by
  rw [refs_eq, refs_eq]; simp only [h]

/-- The state of a buffer that is not loose, with `X` references still to be released. -/
def Accounted (X : BufId → Nat) (s : State) (b : BufId) : Prop :=
  match (s.pool.get b).use with
  | .free => s.refs b + X b = 0
  | .filling (.assembler p) => s.refs b + X b = 0 ∧ ∃ c, (s.port p).asm = .collect c ∧ c.buf = b
  | .filling (.poll x) => s.refs b + X b = 0 ∧ (s.branch x).sched.buffer = some b
  | .filling .management => False
  | .filling .alarms => False
  | .ready => s.refs b + X b = 0 ∧ (s.inbound.countP fun e => e.buf == b) = 1
  | .held n => n = s.refs b + X b ∧ 0 < n

/-- The books: every buffer that is not loose is accounted for, and every loose one has its references counted. -/
structure Books (L : BufId → Option Nat) (X : BufId → Nat) (s : State) : Prop where
  buffers : ∀ b, L b = none → Accounted X s b
  loose : ∀ b n, L b = some n → s.refs b = n ∧ X b = 0 ∧ (s.pool.get b).use ≠ .free
  collecting : ∀ p c, (s.port p).asm = .collect c → L c.buf = none ∧ (s.pool.get c.buf).use = .filling (.assembler p)
  built : ∀ x b, (s.branch x).sched.buffer = some b → L b = none ∧
    (s.pool.get b).use = .filling (.poll x) ∧ (s.branch x).sched.state = .ready ∧ (s.branch x).outstanding = false
  listed : ∀ e, e ∈ s.inbound → L e.buf = none ∧ (s.pool.get e.buf).use = .ready
  queued : ∀ p d, d ∈ (s.port p).queue → d.origin ≠ .poll
  polls : ∀ x, s.PollSound x

/-- PoolSound is the books with nothing loose and nothing to release. -/
theorem poolSound_iff (s : State) : s.PoolSound ↔ Books (fun _ => none) (fun _ => 0) s := by
  constructor
  · intro h
    exact ⟨fun b _ => h.buffers b, fun _ _ e => (by cases e), fun p c e => ⟨rfl, h.collecting p c e⟩, fun x b e => ⟨rfl, h.built x b e⟩, fun e he => ⟨rfl, h.listed e he⟩, h.queued, h.polls⟩
  · intro h
    exact ⟨fun b => h.buffers b rfl, fun p c e => (h.collecting p c e).2, fun x b e => (h.built x b e).2, fun e he => (h.listed e he).2, h.queued, h.polls⟩

/-- The parts of a state that the books read are as they were. -/
structure BookSame (s t : State) : Prop where
  asm : ∀ p, (t.port p).asm = (s.port p).asm
  queue : ∀ p, (t.port p).queue = (s.port p).queue
  tx : ∀ p, (t.port p).tx = (s.port p).tx
  use : ∀ b, (t.pool.get b).use = (s.pool.get b).use
  branch : ∀ x, t.branch x = s.branch x
  inbound : t.inbound = s.inbound

theorem BookSame.desc {s t} (h : BookSame s t) (p) : (t.port p).descriptors = (s.port p).descriptors := by
  simp [PortState.descriptors, h.queue, h.tx]

theorem Books.congr {L X s t} (h : Books L X s) (e : BookSame s t) : Books L X t := by
  have r := refs_same e.desc
  refine ⟨fun b hb => ?_, fun b n hb => ?_, fun p c hc => ?_, fun x b hb => ?_, fun i hi => ?_, fun p d hd => ?_, fun x => ?_⟩
  · have := h.buffers b hb
    unfold Accounted at *
    simp only [e.use, r, e.asm, e.branch, e.inbound]
    exact this
  · rw [r, e.use]; exact h.loose b n hb
  · rw [e.asm] at hc; rw [e.use]; exact h.collecting p c hc
  · rw [e.branch] at hb ⊢; rw [e.use]; exact h.built x b hb
  · rw [e.inbound] at hi; rw [e.use]; exact h.listed i hi
  · rw [e.queue] at hd; exact h.queued p d hd
  · obtain ⟨a, b, c⟩ := h.polls x
    constructor
    · rw [e.tx, e.branch]; exact a
    · rw [e.branch]; exact b
    · rw [e.branch]; exact c

theorem BookSame.refl (s) : BookSame s s := ⟨fun _ => rfl, fun _ => rfl, fun _ => rfl, fun _ => rfl, fun _ => rfl, rfl⟩

theorem BookSame.of_rest {s t : State} (h1 : t.ports = s.ports) (h2 : t.pool = s.pool) (h3 : t.branches = s.branches) (h4 : t.inbound = s.inbound) : BookSame s t :=
  ⟨fun p => by simp [State.port, h1], fun p => by simp [State.port, h1], fun p => by simp [State.port, h1], fun b => by rw [h2], fun x => by simp [State.branch, h3], h4⟩

theorem modPort_bookSame (s : State) (p : Port) (f : PortState → PortState) (h : ∀ q, (f q).asm = q.asm ∧ (f q).queue = q.queue ∧ (f q).tx = q.tx) : BookSame s (s.modPort p f) := by
  have : ∀ q, ((s.modPort p f).port q).asm = (s.port q).asm ∧ ((s.modPort p f).port q).queue = (s.port q).queue ∧ ((s.modPort p f).port q).tx = (s.port q).tx := by
    intro q
    simp only [State.modPort, State.port, PerPort.get_set]
    split
    · rename_i e; subst e; exact h _
    · exact ⟨rfl, rfl, rfl⟩
  exact ⟨fun q => (this q).1, fun q => (this q).2.1, fun q => (this q).2.2, fun _ => rfl, fun _ => rfl, rfl⟩

theorem countPort_bookSame (p k s) : BookSame s (countPort p k s) := modPort_bookSame _ _ _ fun _ => ⟨rfl, rfl, rfl⟩

theorem fillBuf_bookSame (b x) (s : State) : BookSame s (fillBuf b x s) := by
  refine ⟨fun _ => rfl, fun _ => rfl, fun _ => rfl, fun c => ?_, fun _ => rfl, rfl⟩
  simp only [fillBuf, setBuf, get_set_at]; split
  · rename_i e; subst e; rfl
  · rfl

theorem skipNotify_bookSame (ps) (s : State) : BookSame s (skipNotify ps s) := by
  have : ∀ ps s, (skipNotify ps s).pool = s.pool ∧ (skipNotify ps s).branches = s.branches ∧ (skipNotify ps s).inbound = s.inbound := by
    intro ps
    induction ps with
    | nil => intro s; exact ⟨rfl, rfl, rfl⟩
    | cons p ps ih => intro s; exact ih _
  exact BookSame.of_rest (skipNotify_ports _ _) (this ps s).1 (this ps s).2.1 (this ps s).2.2

theorem update_none_of_some {L : BufId → Option Nat} {b : BufId} {n : Nat} (h : L b = none) :
    update (update L b (some n)) b none = L := by
  rw [update_idem, ← h, update_eq_self]

/-- R77: a given buffer is loose with no references. -/
theorem books_request {L X s t b f} (h : Books L X s) (hr : requestBuffer f s = some (b, t)) :
    Books (update L b (some 0)) X t ∧ L b = none ∧ X b = 0 ∧ t = setBuf b ⟨.filling f, []⟩ s ∧ (s.pool.get b).use = .free := by
  obtain ⟨hf, rfl⟩ := requestBuffer_some hr
  have hu := findFree_isFree hf
  have hl : L b = none := by
    cases e : L b with
    | none => rfl
    | some n => exact absurd hu (h.loose b n e).2.2
  have hb := h.buffers b hl
  unfold Accounted at hb; rw [hu] at hb
  dsimp only at hb
  refine ⟨?_, hl, by omega, rfl, hu⟩
  have us : ∀ c, c ≠ b → ((setBuf b ⟨.filling f, []⟩ s).pool.get c).use = (s.pool.get c).use := fun c hc => by simp [setBuf, get_set_at, hc]
  have ne : ∀ c, L c = none → update L b (some 0) c = none → c ≠ b := by rintro c - h2 rfl; simp at h2
  refine ⟨fun c hc => ?_, fun c n hc => ?_, fun p c hc => ?_, fun x c hc => ?_, fun i hi => ?_, h.queued, fun x => ⟨(h.polls x).slot, (h.polls x).sent, (h.polls x).taken⟩⟩
  · have : c ≠ b := by rintro rfl; simp at hc
    rw [update_of_ne this] at hc
    have := h.buffers c hc
    unfold Accounted at *
    rw [us c ‹_›]; exact this
  · by_cases e : c = b
    · subst e; simp at hc; subst hc
      refine ⟨by show s.refs c = 0; omega, by omega, by simp [setBuf, get_set_at]⟩
    · rw [update_of_ne e] at hc; rw [us c e]; exact h.loose c n hc
  · obtain ⟨h1, h2⟩ := h.collecting p c hc
    have e : c.buf ≠ b := by intro e; rw [e, hu] at h2; cases h2
    rw [update_of_ne e, us _ e]; exact ⟨h1, h2⟩
  · obtain ⟨h1, h2, h3⟩ := h.built x c hc
    have e : c ≠ b := by intro e; rw [e, hu] at h2; cases h2
    rw [update_of_ne e, us _ e]; exact ⟨h1, h2, h3⟩
  · obtain ⟨h1, h2⟩ := h.listed i hi
    have e : i.buf ≠ b := by intro e; rw [e, hu] at h2; cases h2
    rw [update_of_ne e, us _ e]; exact ⟨h1, h2⟩

/-- R91: an append refers once more to a loose buffer. -/
theorem books_enqueue {L X s b n p} {d : Descriptor} (h : Books L X s) (hb : L b = some n) (hd : d.buf = b) (ho : d.origin ≠ .poll) :
    Books (update L b (some (n + 1))) X (enqueue p d s) := by
  have dp : ((enqueue p d s).port p).descriptors = (s.port p).descriptors ++ [d] := by
    simp [enqueue, State.modPort, State.port, PortState.descriptors]
  have dq : ∀ q, q ≠ p → ((enqueue p d s).port q).descriptors = (s.port q).descriptors := by
    intro q hq; simp [enqueue, State.modPort, State.port, PortState.descriptors, PerPort.get_set_ne, hq]
  have rf : ∀ c, (enqueue p d s).refs c = s.refs c + if c = b then 1 else 0 := by
    intro c
    have := refs_port dq c
    rw [dp] at this
    simp only [refsIn, List.countP_append, List.countP_singleton, hd] at this
    by_cases e : c = b
    · subst e; simp at this ⊢; omega
    · have : (b == c) = false := by simpa using fun h => e h.symm
      simp_all
  have as : ∀ q, ((enqueue p d s).port q).asm = (s.port q).asm := by
    intro q; simp only [enqueue, State.modPort, State.port, PerPort.get_set]; split
    · rename_i e; subst e; rfl
    · rfl
  have txs : ∀ q, ((enqueue p d s).port q).tx = (s.port q).tx := by
    intro q; simp only [enqueue, State.modPort, State.port, PerPort.get_set]; split
    · rename_i e; subst e; rfl
    · rfl
  refine ⟨fun c hc => ?_, fun c m hc => ?_, fun q c hc => ?_, fun x c hc => ?_, fun i hi => ?_, fun q x hx => ?_, fun x => ?_⟩
  · have e : c ≠ b := by rintro rfl; simp at hc
    rw [update_of_ne e] at hc
    have := h.buffers c hc
    unfold Accounted at *
    rw [rf, if_neg e, Nat.add_zero]
    simp only [as]; exact this
  · by_cases e : c = b
    · subst e; simp at hc; subst hc
      obtain ⟨h1, h2, h3⟩ := h.loose c n hb
      exact ⟨by rw [rf, if_pos rfl, h1], h2, h3⟩
    · rw [update_of_ne e] at hc
      obtain ⟨h1, h2, h3⟩ := h.loose c m hc
      exact ⟨by rw [rf, if_neg e, h1, Nat.add_zero], h2, h3⟩
  · rw [as] at hc
    obtain ⟨h1, h2⟩ := h.collecting q c hc
    have e : c.buf ≠ b := by intro e; rw [e, hb] at h1; cases h1
    rw [update_of_ne e]; exact ⟨h1, h2⟩
  · obtain ⟨h1, h2⟩ := h.built x c hc
    have e : c ≠ b := by intro e; rw [e, hb] at h1; cases h1
    rw [update_of_ne e]; exact ⟨h1, h2⟩
  · obtain ⟨h1, h2⟩ := h.listed i hi
    have e : i.buf ≠ b := by intro e; rw [e, hb] at h1; cases h1
    rw [update_of_ne e]; exact ⟨h1, h2⟩
  · simp only [enqueue, State.modPort, State.port, PerPort.get_set] at hx
    split at hx
    · rename_i e; subst e
      simp at hx
      rcases hx with hx | rfl
      · exact h.queued q x hx
      · exact ho
    · exact h.queued q x hx
  · obtain ⟨a, b', c⟩ := h.polls x
    exact ⟨fun d => by rw [txs]; exact a d, b', c⟩

/-- R78: the hand-over with as many placements as references ends the looseness. -/
theorem books_handOver {L X s b n} (h : Books L X s) (hb : L b = some n) : Books (update L b none) X (handOver b n s) := by
  obtain ⟨r, x0, uf⟩ := h.loose b n hb
  have hp : (handOver b n s).ports = s.ports := handOver_ports _ _ _
  have hbr : (handOver b n s).branches = s.branches := by obtain ⟨x, e⟩ := handOver_pool b n s; rw [e]; rfl
  have hin : (handOver b n s).inbound = s.inbound := by obtain ⟨x, e⟩ := handOver_pool b n s; rw [e]; rfl
  have us : ∀ c, c ≠ b → ((handOver b n s).pool.get c).use = (s.pool.get c).use := by
    intro c hc; obtain ⟨x, e⟩ := handOver_pool b n s; rw [e]; simp [setBuf, get_set_at, hc]
  have ub : ((handOver b n s).pool.get b).use = if n = 0 then .free else .held n := by
    unfold handOver; split <;> simp [freeBuf, setBuf, get_set_at, Buffer.empty]
  have rf : ∀ c, (handOver b n s).refs c = s.refs c := refs_same fun q => by simp [State.port]
  refine ⟨fun c hc => ?_, fun c m hc => ?_, fun q c hc => ?_, fun x c hc => ?_, fun i hi => ?_, fun q x hx => ?_, fun x => ?_⟩
  · by_cases e : c = b
    · subst e
      unfold Accounted; rw [ub, rf]
      by_cases hn : n = 0
      · simp only [hn, if_true]; omega
      · simp only [hn, if_false]; omega
    · rw [update_of_ne e] at hc
      have := h.buffers c hc
      unfold Accounted at *
      rw [us c e, rf]
      simp only [State.port, State.branch, hp, hbr, hin]; exact this
  · by_cases e : c = b
    · subst e; simp at hc
    · rw [update_of_ne e] at hc
      rw [rf, us c e]; exact h.loose c m hc
  · rw [State.port, hp] at hc
    obtain ⟨h1, h2⟩ := h.collecting q c hc
    have e : c.buf ≠ b := by intro e; rw [e, hb] at h1; cases h1
    rw [update_of_ne e, us _ e]; exact ⟨h1, h2⟩
  · rw [State.branch, hbr] at hc ⊢
    obtain ⟨h1, h2⟩ := h.built x c hc
    have e : c ≠ b := by intro e; rw [e, hb] at h1; cases h1
    rw [update_of_ne e, us _ e]; exact ⟨h1, h2⟩
  · rw [hin] at hi
    obtain ⟨h1, h2⟩ := h.listed i hi
    have e : i.buf ≠ b := by intro e; rw [e, hb] at h1; cases h1
    rw [update_of_ne e, us _ e]; exact ⟨h1, h2⟩
  · rw [State.port, hp] at hx; exact h.queued q x hx
  · obtain ⟨a, b', c⟩ := h.polls x
    refine ⟨?_, ?_, ?_⟩ <;> simp only [State.port, State.branch, hp, hbr] <;> assumption

theorem books_placeNotify {L X b tick} (ps : List Port) : ∀ {s : State} {n}, Books L X s → L b = some n →
    Books (update L b (some (n + (placeNotify b tick ps s).1))) X (placeNotify b tick ps s).2 := by
  induction ps generalizing L with
  | nil =>
    intro s n h hb
    simp only [placeNotify, Nat.add_zero]
    rw [← hb, update_eq_self]; exact h
  | cons p ps ih =>
    intro s n h hb
    simp only [placeNotify]
    split
    · have := ih (books_enqueue (p := p) (d := ⟨b, .notify, none, some tick⟩) h hb rfl (by simp)) (update_self ..)
      rw [update_idem] at this
      dsimp only
      rw [show n + ((placeNotify b tick ps (enqueue p ⟨b, .notify, none, some tick⟩ s)).1 + 1) = n + 1 + (placeNotify b tick ps (enqueue p ⟨b, .notify, none, some tick⟩ s)).1 by omega]
      exact this
    · exact ih (h.congr (BookSame.of_rest rfl rfl rfl rfl)) hb

theorem books_notify {L X s a} (h : Books L X s) : Books L X (notify a s) := by
  unfold notify
  split
  · exact h
  · split
    · exact h
    · split
      · exact h.congr (skipNotify_bookSame _ _)
      · rename_i addr _ _ _ b s₁ hr
        obtain ⟨h1, hl, -, rfl, -⟩ := books_request h hr
        have h2 := h1.congr (fillBuf_bookSame b (buildFrame addr s.ownAddr ctlAlarm (alarmPayload a)) _)
        have h3 := books_placeNotify (b := b) (tick := s.tick) s.relay.notifyPorts h2 (update_self ..)
        rw [update_idem] at h3
        have h4 := books_handOver h3 (update_self ..)
        rw [update_none_of_some hl, Nat.zero_add] at h4
        dsimp only
        split
        · exact h4
        · exact h4.congr (BookSame.of_rest rfl rfl rfl rfl)

/-- R158 to R161. -/
theorem books_raise {L X s k} (h : Books L X s) : Books L X (raise k s) := by
  unfold raise
  split
  · exact books_notify (h.congr (BookSame.of_rest rfl rfl rfl rfl))
  · split
    · exact books_notify (h.congr (BookSame.of_rest rfl rfl rfl rfl))
    · exact h.congr (BookSame.of_rest rfl rfl rfl rfl)

/-- R126. -/
theorem books_sendReply {L X s} {d p q c r} (h : Books L X s) : Books L X (sendReply d p q c r s).2 := by
  unfold sendReply
  split
  · exact h.congr (BookSame.of_rest rfl rfl rfl rfl)
  · rename_i b s₁ hr
    obtain ⟨h1, hl, -, rfl, -⟩ := books_request h hr
    have h2 := h1.congr (fillBuf_bookSame b (buildFrame d s.ownAddr ctlMgmtRsp (replyPayload q c r)) _)
    dsimp only
    split
    · have e : enqueue p ⟨b, .reply, none, some s.tick⟩ (handOver b 1 (fillBuf b (buildFrame d s.ownAddr ctlMgmtRsp (replyPayload q c r)) (setBuf b ⟨.filling .management, []⟩ s)))
        = handOver b 1 (enqueue p ⟨b, .reply, none, some s.tick⟩ (fillBuf b (buildFrame d s.ownAddr ctlMgmtRsp (replyPayload q c r)) (setBuf b ⟨.filling .management, []⟩ s))) := rfl
      dsimp only [Prod.snd]
      rw [e]
      have h3 := books_enqueue (p := p) (d := ⟨b, .reply, none, some s.tick⟩) h2 (update_self ..) rfl (by simp)
      have h4 := books_handOver h3 (update_self ..)
      rw [update_idem, update_none_of_some hl] at h4
      exact h4
    · have h4 := books_handOver h2 (update_self ..)
      rw [update_none_of_some hl] at h4
      exact h4.congr (BookSame.of_rest rfl rfl rfl rfl)

/-- An assembler that was not in COLLECT does not enter it. -/
theorem books_setAsm {L X s p a} (h : Books L X s) (h1 : ∀ c, (s.port p).asm ≠ .collect c) (h2 : ∀ c, a ≠ .collect c) : Books L X (setAsm p a s) := by
  have gp : ∀ q, (setAsm p a s).port q = if q = p then { s.port p with asm := a } else s.port q := by
    intro q; simp only [setAsm, State.modPort, State.port, PerPort.get_set]
  have ds : ∀ q, ((setAsm p a s).port q).descriptors = (s.port q).descriptors := by
    intro q; rw [gp]; split
    · rename_i e; subst e; rfl
    · rfl
  have r := refs_same ds
  refine ⟨fun b hb => ?_, fun b n hb => ?_, fun q c hc => ?_, h.built, h.listed, fun q d hd => ?_, fun x => ⟨?_, (h.polls x).sent, (h.polls x).taken⟩⟩
  · have := h.buffers b hb
    unfold Accounted at *
    rw [r]
    show match (s.pool.get b).use with | .free => _ | .filling (.assembler p) => _ | .filling (.poll x) => _ | .filling .management => _ | .filling .alarms => _ | .ready => _ | .held n => _
    split <;> rename_i e <;> rw [e] at this <;> dsimp only at this ⊢
    · exact this
    · rename_i q
      obtain ⟨t1, c, t2, t3⟩ := this
      refine ⟨t1, c, ?_, t3⟩
      rw [gp]; split
      · rename_i e; subst e; exact absurd t2 (h1 c)
      · exact t2
    all_goals exact this
  · rw [r]; exact h.loose b n hb
  · rw [gp] at hc; split at hc
    · exact absurd hc (h2 c)
    · exact h.collecting q c hc
  · rw [gp] at hd; split at hd
    · rename_i e; subst e; exact h.queued q d hd
    · exact h.queued q d hd
  · intro d; rw [gp]; split
    · rename_i e; rw [← e]; exact (h.polls x).slot d
    · exact (h.polls x).slot d

/-- An assembler leaves COLLECT: its buffer is loose. -/
theorem books_uncollect {L X s p a c} (h : Books L X s) (h1 : (s.port p).asm = .collect c) (h2 : ∀ c, a ≠ .collect c) : Books (update L c.buf (some 0)) X (setAsm p a s) := by
  have gp : ∀ q, (setAsm p a s).port q = if q = p then { s.port p with asm := a } else s.port q := by
    intro q; simp only [setAsm, State.modPort, State.port, PerPort.get_set]
  have ds : ∀ q, ((setAsm p a s).port q).descriptors = (s.port q).descriptors := by
    intro q; rw [gp]; split
    · rename_i e; subst e; rfl
    · rfl
  have r := refs_same ds
  obtain ⟨k1, k2⟩ := h.collecting p c h1
  have kb := h.buffers _ k1
  have kr : s.refs c.buf + X c.buf = 0 := by unfold Accounted at kb; rw [k2] at kb; exact kb.1
  refine ⟨fun b hb => ?_, fun b n hb => ?_, fun q c' hc => ?_, fun x b hb => ?_, fun i hi => ?_, fun q d hd => ?_, fun x => ⟨?_, (h.polls x).sent, (h.polls x).taken⟩⟩
  · have e : b ≠ c.buf := by rintro rfl; simp at hb
    rw [update_of_ne e] at hb
    have := h.buffers b hb
    unfold Accounted at *
    rw [r]
    show match (s.pool.get b).use with | .free => _ | .filling (.assembler p) => _ | .filling (.poll x) => _ | .filling .management => _ | .filling .alarms => _ | .ready => _ | .held n => _
    split <;> rename_i e <;> rw [e] at this <;> dsimp only at this ⊢
    · exact this
    · rename_i q
      obtain ⟨t1, c', t2, t3⟩ := this
      refine ⟨t1, c', ?_, t3⟩
      rw [gp]; split
      · rename_i e; subst e; rw [h1] at t2; cases t2; exact absurd t3.symm ‹b ≠ _›
      · exact t2
    all_goals exact this
  · rw [r]
    by_cases e : b = c.buf
    · subst e; simp at hb; subst hb; exact ⟨by omega, by omega, by show (s.pool.get c.buf).use ≠ _; rw [k2]; simp⟩
    · rw [update_of_ne e] at hb; exact h.loose b n hb
  · rw [gp] at hc; split at hc
    · exact absurd hc (h2 c')
    · rename_i hq
      obtain ⟨t1, t2⟩ := h.collecting q c' hc
      have e : c'.buf ≠ c.buf := by intro e; rw [e, k2] at t2; cases t2; exact hq rfl
      rw [update_of_ne e]; exact ⟨t1, t2⟩
  · obtain ⟨t1, t2⟩ := h.built x b hb
    have e : b ≠ c.buf := by intro e; rw [e, k2] at t2; cases t2.1
    rw [update_of_ne e]; exact ⟨t1, t2⟩
  · obtain ⟨t1, t2⟩ := h.listed i hi
    have e : i.buf ≠ c.buf := by intro e; rw [e, k2] at t2; cases t2
    rw [update_of_ne e]; exact ⟨t1, t2⟩
  · rw [gp] at hd; split at hd
    · rename_i e; subst e; exact h.queued q d hd
    · exact h.queued q d hd
  · intro d; rw [gp]; split
    · rename_i e; rw [← e]; exact (h.polls x).slot d
    · exact (h.polls x).slot d

/-- An assembler enters COLLECT with a loose buffer. -/
theorem books_collect {L X s p c} (h : Books L X s) (h1 : ∀ c, (s.port p).asm ≠ .collect c) (hb : L c.buf = some 0) (hu : (s.pool.get c.buf).use = .filling (.assembler p)) :
    Books (update L c.buf none) X (setAsm p (.collect c) s) := by
  have gp : ∀ q, (setAsm p (.collect c) s).port q = if q = p then { s.port p with asm := .collect c } else s.port q := by
    intro q; simp only [setAsm, State.modPort, State.port, PerPort.get_set]
  have ds : ∀ q, ((setAsm p (.collect c) s).port q).descriptors = (s.port q).descriptors := by
    intro q; rw [gp]; split
    · rename_i e; subst e; rfl
    · rfl
  have r := refs_same ds
  obtain ⟨l1, l2, -⟩ := h.loose _ _ hb
  refine ⟨fun b hb' => ?_, fun b n hb' => ?_, fun q c' hc => ?_, fun x b hb' => ?_, fun i hi => ?_, fun q d hd => ?_, fun x => ⟨?_, (h.polls x).sent, (h.polls x).taken⟩⟩
  · by_cases e : b = c.buf
    · subst e
      unfold Accounted; rw [r]
      show match (s.pool.get c.buf).use with | .free => _ | .filling (.assembler p) => _ | .filling (.poll x) => _ | .filling .management => _ | .filling .alarms => _ | .ready => _ | .held n => _
      rw [hu]; dsimp only
      exact ⟨by omega, c, by rw [gp]; simp, rfl⟩
    · rw [update_of_ne e] at hb'
      have := h.buffers b hb'
      unfold Accounted at *
      rw [r]
      show match (s.pool.get b).use with | .free => _ | .filling (.assembler p) => _ | .filling (.poll x) => _ | .filling .management => _ | .filling .alarms => _ | .ready => _ | .held n => _
      split <;> rename_i e <;> rw [e] at this <;> dsimp only at this ⊢
      · exact this
      · rename_i q
        obtain ⟨t1, c', t2, t3⟩ := this
        refine ⟨t1, c', ?_, t3⟩
        rw [gp]; split
        · rename_i e; subst e; exact absurd t2 (h1 c')
        · exact t2
      all_goals exact this
  · rw [r]
    by_cases e : b = c.buf
    · subst e; simp at hb'
    · rw [update_of_ne e] at hb'; exact h.loose b n hb'
  · rw [gp] at hc; split at hc
    · rename_i e; cases hc; subst e; simp; exact hu
    · obtain ⟨t1, t2⟩ := h.collecting q c' hc
      have e : c'.buf ≠ c.buf := by intro e; rw [e, hb] at t1; cases t1
      rw [update_of_ne e]; exact ⟨t1, t2⟩
  · obtain ⟨t1, t2⟩ := h.built x b hb'
    have e : b ≠ c.buf := by intro e; rw [e, hb] at t1; cases t1
    rw [update_of_ne e]; exact ⟨t1, t2⟩
  · obtain ⟨t1, t2⟩ := h.listed i hi
    have e : i.buf ≠ c.buf := by intro e; rw [e, hb] at t1; cases t1
    rw [update_of_ne e]; exact ⟨t1, t2⟩
  · rw [gp] at hd; split at hd
    · rename_i e; subst e; exact h.queued q d hd
    · exact h.queued q d hd
  · intro d; rw [gp]; split
    · rename_i e; rw [← e]; exact (h.polls x).slot d
    · exact (h.polls x).slot d

/-- A change of the slot and the queue of one port. -/
theorem books_port {L L' X X' s p q'} (h : Books L X s) (ha : q'.asm = (s.port p).asm)
   (hc : ∀ b, (L b = none ∧ L' b = none ∧ refsIn b q'.descriptors + X' b = refsIn b (s.port p).descriptors + X b) ∨
      (∃ n m, L b = some n ∧ L' b = some m ∧ n + refsIn b q'.descriptors = m + refsIn b (s.port p).descriptors ∧ X' b = X b))
   (hq : ∀ d ∈ q'.queue, d.origin ≠ .poll)
   (hs : ∀ x d, p = x.port → q'.tx.slot = some d → d.origin = .poll → (s.branch x).outstanding = true
    ∧ (s.branch x).sched.sentTick = none ∧ ((s.branch x).sched.state = .ready ∨ (s.branch x).sched.state = .stopping)) :
   Books L' X' { s with ports := s.ports.set p q' } := by
  have gp : ∀ q, ({ s with ports := s.ports.set p q' } : State).port q = if q = p then q' else s.port q := by
    intro q; simp only [State.port, PerPort.get_set]
  have hn : ∀ b, L b = none → L' b = none := fun b hb => by rcases hc b with ⟨-, h, -⟩ | ⟨n, m, h, -⟩; exact h; rw [hb] at h; cases h
  have hn' : ∀ b, L' b = none → L b = none := fun b hb => by rcases hc b with ⟨h, -, -⟩ | ⟨n, m, -, h, -⟩; exact h; rw [hb] at h; cases h
  have as : ∀ q, (({ s with ports := s.ports.set p q' } : State).port q).asm = (s.port q).asm := by
    intro q; rw [gp]; split
    · rename_i e; subst e; exact ha
    · rfl
  have rf := fun b => refs_port (s := s) (t := { s with ports := s.ports.set p q' }) (p := p) (fun q hq => by rw [gp, if_neg hq]) b
  have gpp : ({ s with ports := s.ports.set p q' } : State).port p = q' := by rw [gp, if_pos rfl]
  simp only [gpp] at rf
  refine ⟨fun b hb => ?_, fun b n hb => ?_, fun q c hq => ?_, fun x b hb => ?_, fun i hi => ?_, fun q d hd => ?_, fun x => ⟨?_, (h.polls x).sent, (h.polls x).taken⟩⟩
  · have := h.buffers b (hn' b hb)
    have e : ({ s with ports := s.ports.set p q' } : State).refs b + X' b = s.refs b + X b := by
      rcases hc b with ⟨-, -, h⟩ | ⟨n, m, -, h, -⟩
      · have := rf b; omega
      · rw [hb] at h; cases h
    unfold Accounted at *
    rw [e]; simp only [as]; exact this
  · rcases hc b with ⟨-, h', -⟩ | ⟨n', m, h1, h2, h3, h4⟩
    · rw [hb] at h'; cases h'
    · rw [hb] at h2; cases h2
      obtain ⟨t1, t2, t3⟩ := h.loose b n' h1
      have := rf b
      exact ⟨by omega, by omega, t3⟩
  · rw [as] at hq
    obtain ⟨h1, h2⟩ := h.collecting q c hq
    exact ⟨hn _ h1, h2⟩
  · obtain ⟨h1, h2⟩ := h.built x b hb; exact ⟨hn _ h1, h2⟩
  · obtain ⟨h1, h2⟩ := h.listed i hi; exact ⟨hn _ h1, h2⟩
  · rw [gp] at hd; split at hd
    · exact hq d hd
    · exact h.queued q d hd
  · intro d; rw [gp]; split
    · rename_i e; exact hs x d e.symm
    · exact (h.polls x).slot d

/-- R79: one reference released. -/
theorem books_dropRef {L X s b} (h : Books L X s) (hb : L b = none) (hx : 0 < X b) : Books L (update X b (X b - 1)) (dropRef b s) := by
  have hB := h.buffers b hb
  have hu : ∃ n, (s.pool.get b).use = .held n ∧ n = s.refs b + X b := by
    unfold Accounted at hB
    split at hB
    · omega
    · omega
    · omega
    · cases hB
    · cases hB
    · omega
    · rename_i n e; exact ⟨n, e, hB.1⟩
  obtain ⟨n, hu, hn⟩ := hu
  have hp := dropRef_ports b s
  have hbr : (dropRef b s).branches = s.branches := by rw [dropRef_pool]
  have hin : (dropRef b s).inbound = s.inbound := by rw [dropRef_pool]
  have us : ∀ c, c ≠ b → ((dropRef b s).pool.get c).use = (s.pool.get c).use := by
    intro c hc; unfold dropRef; rw [hu]; dsimp only; split <;> simp [freeBuf, setBuf, get_set_at, hc]
  have ub : ((dropRef b s).pool.get b).use = if n ≤ 1 then .free else .held (n - 1) := by
    unfold dropRef; rw [hu]; dsimp only; split <;> simp [freeBuf, setBuf, get_set_at, Buffer.empty]
  have rf : ∀ c, (dropRef b s).refs c = s.refs c := refs_same fun q => by simp [State.port]
  refine ⟨fun c hc => ?_, fun c m hc => ?_, fun q c hc => ?_, fun x c hc => ?_, fun i hi => ?_, fun q x hx => ?_, fun x => ?_⟩
  · by_cases e : c = b
    · subst e
      unfold Accounted; rw [ub, rf, update_self]
      by_cases hn : n ≤ 1
      · simp only [hn, if_true]; omega
      · simp only [hn, if_false]; omega
    · have := h.buffers c hc
      unfold Accounted at *
      rw [us c e, rf, update_of_ne e]
      simp only [State.port, State.branch, hp, hbr, hin]; exact this
  · have e : c ≠ b := by rintro rfl; rw [hb] at hc; cases hc
    rw [rf, us c e, update_of_ne e]; exact h.loose c m hc
  · rw [State.port, hp] at hc
    obtain ⟨h1, h2⟩ := h.collecting q c hc
    have e : c.buf ≠ b := by intro e; rw [e, hu] at h2; cases h2
    rw [us _ e]; exact ⟨h1, h2⟩
  · rw [State.branch, hbr] at hc ⊢
    obtain ⟨h1, h2⟩ := h.built x c hc
    have e : c ≠ b := by intro e; rw [e, hu] at h2; cases h2.1
    rw [us _ e]; exact ⟨h1, h2⟩
  · rw [hin] at hi
    obtain ⟨h1, h2⟩ := h.listed i hi
    have e : i.buf ≠ b := by intro e; rw [e, hu] at h2; cases h2
    rw [us _ e]; exact ⟨h1, h2⟩
  · rw [State.port, hp] at hx; exact h.queued q x hx
  · obtain ⟨a, b', c⟩ := h.polls x
    refine ⟨?_, ?_, ?_⟩ <;> simp only [State.port, State.branch, hp, hbr] <;> assumption

/-- R79: references released in order. -/
theorem books_dropRefs (ds : List Descriptor) : ∀ {X s}, Books (fun _ => none) X s → (∀ b, X b = refsIn b ds) → Books (fun _ => none) (fun _ => 0) (ds.foldl (fun u d => dropRef d.buf u) s) := by
  induction ds with
  | nil =>
    intro X s h hx
    have : X = fun _ => 0 := funext fun b => by rw [hx]; rfl
    rw [← this]; exact h
  | cons d ds ih =>
    intro X s h hx
    rw [List.foldl_cons]
    refine ih (books_dropRef h rfl (by rw [hx]; simp [refsIn])) fun b => ?_
    by_cases e : b = d.buf
    · subst e; rw [update_self, hx]; simp [refsIn]
    · rw [update_of_ne e, hx]
      have : (d.buf == b) = false := by simpa using fun h => e h.symm
      simp [refsIn, this]

/-- A change of a scheduler that keeps its buffer. -/
theorem books_branch {L X s x y} (h : Books L X s) (h1 : y.sched.buffer = (s.branch x).sched.buffer)
   (h2 : y.sched.buffer ≠ none → y.sched.state = .ready ∧ y.outstanding = false)
   (hp : ({ s with branches := s.branches.set x y } : State).PollSound x) : Books L X { s with branches := s.branches.set x y } := by
  have gb : ∀ z, ({ s with branches := s.branches.set x y } : State).branch z = if z = x then y else s.branch z := by
    intro z; simp only [State.branch, PerBranch.get_set]
  have bu : ∀ z, (({ s with branches := s.branches.set x y } : State).branch z).sched.buffer = (s.branch z).sched.buffer := by
    intro z; rw [gb]; split
    · rename_i e; subst e; exact h1
    · rfl
  refine ⟨fun b hb => ?_, fun b n hb => h.loose b n hb, h.collecting, fun z b hb => ?_, h.listed, h.queued, fun z => ?_⟩
  · have := h.buffers b hb
    unfold Accounted at *
    simp only [bu]; exact this
  · have hb' := hb
    rw [bu] at hb
    obtain ⟨t1, t2, t3⟩ := h.built z b hb
    refine ⟨t1, t2, ?_⟩
    rw [gb] at hb' ⊢; split
    · rename_i e; subst e; rw [if_pos rfl] at hb'; exact h2 (by rw [hb']; simp)
    · exact t3
  · by_cases e : z = x
    · subst e; exact hp
    · obtain ⟨a, b, c⟩ := h.polls z
      refine ⟨?_, ?_, ?_⟩ <;> rw [gb, if_neg e] <;> assumption

/-- A scheduler gives up its built frame: the buffer is loose. -/
theorem books_unbuild {L X s x y b} (h : Books L X s) (h1 : (s.branch x).sched.buffer = some b) (h2 : y.sched.buffer = none)
   (hp : ({ s with branches := s.branches.set x y } : State).PollSound x) : Books (update L b (some 0)) X { s with branches := s.branches.set x y } := by
  have gb : ∀ z, ({ s with branches := s.branches.set x y } : State).branch z = if z = x then y else s.branch z := by
    intro z; simp only [State.branch, PerBranch.get_set]
  obtain ⟨k1, k2, k3⟩ := h.built x b h1
  have kb := h.buffers _ k1
  have kr : s.refs b + X b = 0 := by unfold Accounted at kb; rw [k2] at kb; exact kb.1
  refine ⟨fun c hc => ?_, fun c n hc => ?_, fun p c hc => ?_, fun z c hc => ?_, fun i hi => ?_, h.queued, fun z => ?_⟩
  · have e : c ≠ b := by rintro rfl; simp at hc
    rw [update_of_ne e] at hc
    have := h.buffers c hc
    unfold Accounted at *
    show match (s.pool.get c).use with | .free => _ | .filling (.assembler p) => _ | .filling (.poll x) => _ | .filling .management => _ | .filling .alarms => _ | .ready => _ | .held n => _
    split <;> rename_i e' <;> rw [e'] at this <;> dsimp only at this ⊢
    · exact this
    · exact this
    · rename_i z
      obtain ⟨t1, t2⟩ := this
      refine ⟨t1, ?_⟩
      rw [gb]; split
      · rename_i e''; subst e''; rw [h1] at t2; cases t2; exact absurd rfl e
      · exact t2
    all_goals exact this
  · by_cases e : c = b
    · subst e; simp at hc; subst hc; exact ⟨by show s.refs c = 0; omega, by omega, by show (s.pool.get c).use ≠ _; rw [k2]; simp⟩
    · rw [update_of_ne e] at hc; exact h.loose c n hc
  · obtain ⟨t1, t2⟩ := h.collecting p c hc
    have e : c.buf ≠ b := by intro e; rw [e, k2] at t2; cases t2
    rw [update_of_ne e]; exact ⟨t1, t2⟩
  · rw [gb] at hc ⊢
    split at hc
    · rw [h2] at hc; cases hc
    · rename_i hz
      obtain ⟨t1, t2, t3⟩ := h.built z c hc
      have e : c ≠ b := by intro e; rw [e, k2] at t2; cases t2; exact hz rfl
      rw [update_of_ne e, if_neg hz]; exact ⟨t1, t2, t3⟩
  · obtain ⟨t1, t2⟩ := h.listed i hi
    have e : i.buf ≠ b := by intro e; rw [e, k2] at t2; cases t2
    rw [update_of_ne e]; exact ⟨t1, t2⟩
  · by_cases e : z = x
    · subst e; exact hp
    · obtain ⟨a, b, c⟩ := h.polls z
      refine ⟨?_, ?_, ?_⟩ <;> rw [gb, if_neg e] <;> assumption

/-- R116: a scheduler keeps a loose buffer as its built frame. -/
theorem books_build {L X s x y b} (h : Books L X s) (h0 : L b = some 0) (hu : (s.pool.get b).use = .filling (.poll x)) (h1 : (s.branch x).sched.buffer = none) (h2 : y.sched.buffer = some b)
   (h3 : y.sched.state = .ready ∧ y.outstanding = false)
   (hp : ({ s with branches := s.branches.set x y } : State).PollSound x) : Books (update L b none) X { s with branches := s.branches.set x y } := by
  have gb : ∀ z, ({ s with branches := s.branches.set x y } : State).branch z = if z = x then y else s.branch z := by
    intro z; simp only [State.branch, PerBranch.get_set]
  obtain ⟨k1, k2, k3⟩ := h.loose b 0 h0
  refine ⟨fun c hc => ?_, fun c n hc => ?_, fun p c hc => ?_, fun z c hc => ?_, fun i hi => ?_, h.queued, fun z => ?_⟩
  · by_cases e : c = b
    · subst e
      unfold Accounted
      show match (s.pool.get c).use with | .free => _ | .filling (.assembler p) => _ | .filling (.poll x) => _ | .filling .management => _ | .filling .alarms => _ | .ready => _ | .held n => _
      rw [hu]; dsimp only
      exact ⟨by show s.refs c + _ = 0; omega, by rw [gb, if_pos rfl]; exact h2⟩
    · rw [update_of_ne e] at hc
      have := h.buffers c hc
      unfold Accounted at *
      show match (s.pool.get c).use with | .free => _ | .filling (.assembler p) => _ | .filling (.poll x) => _ | .filling .management => _ | .filling .alarms => _ | .ready => _ | .held n => _
      split <;> rename_i e' <;> rw [e'] at this <;> dsimp only at this ⊢
      · exact this
      · exact this
      · rename_i z
        obtain ⟨t1, t2⟩ := this
        refine ⟨t1, ?_⟩
        rw [gb]; split
        · rename_i e''; subst e''; rw [h1] at t2; cases t2
        · exact t2
      all_goals exact this
  · by_cases e : c = b
    · subst e; simp at hc
    · rw [update_of_ne e] at hc; exact h.loose c n hc
  · obtain ⟨t1, t2⟩ := h.collecting p c hc
    have e : c.buf ≠ b := by intro e; rw [e, h0] at t1; cases t1
    rw [update_of_ne e]; exact ⟨t1, t2⟩
  · rw [gb] at hc ⊢
    split at hc
    · rename_i hz; subst hz; rw [h2] at hc; cases hc; simp; exact ⟨hu, h3⟩
    · rename_i hz
      obtain ⟨t1, t2, t3⟩ := h.built z c hc
      have e : c ≠ b := by intro e; rw [e, h0] at t1; cases t1
      rw [update_of_ne e, if_neg hz]; exact ⟨t1, t2, t3⟩
  · obtain ⟨t1, t2⟩ := h.listed i hi
    have e : i.buf ≠ b := by intro e; rw [e, h0] at t1; cases t1
    rw [update_of_ne e]; exact ⟨t1, t2⟩
  · by_cases e : z = x
    · subst e; exact hp
    · obtain ⟨a, b, c⟩ := h.polls z
      refine ⟨?_, ?_, ?_⟩ <;> rw [gb, if_neg e] <;> assumption

/-- R81: a loose buffer becomes READY at the tail of the inbound list. -/
theorem books_ready {L X s b p f} (h : Books L X s) (h0 : L b = some 0) :
   Books (update L b none) X { s with pool := s.pool.set b.val ⟨.ready, f⟩ b.isLt, inbound := s.inbound ++ [⟨b, p⟩] } := by
  obtain ⟨k1, k2, k3⟩ := h.loose b 0 h0
  have nb : ∀ i ∈ s.inbound, i.buf ≠ b := by
    intro i hi e; have := (h.listed i hi).1; rw [e, h0] at this; cases this
  have gu : ∀ c, c ≠ b → (({ s with pool := s.pool.set b.val ⟨.ready, f⟩ b.isLt, inbound := s.inbound ++ [⟨b, p⟩] } : State).pool.get c).use = (s.pool.get c).use := by
    intro c hc; simp [get_set_at, hc]
  have gub : (({ s with pool := s.pool.set b.val ⟨.ready, f⟩ b.isLt, inbound := s.inbound ++ [⟨b, p⟩] } : State).pool.get b).use = .ready := by
    simp [get_set_at]
  refine ⟨fun c hc => ?_, fun c n hc => ?_, fun p c hc => ?_, fun z c hc => ?_, fun i hi => ?_, h.queued, fun z => ⟨(h.polls z).slot, (h.polls z).sent, (h.polls z).taken⟩⟩
  · by_cases e : c = b
    · subst e
      unfold Accounted; rw [gub]; dsimp only
      refine ⟨by show s.refs c + _ = 0; omega, ?_⟩
      rw [List.countP_append, List.countP_eq_zero.2 (by intro i hi; simpa using nb i hi)]
      simp
    · rw [update_of_ne e] at hc
      have := h.buffers c hc
      unfold Accounted at *
      rw [gu c e]
      split <;> rename_i e' <;> rw [e'] at this <;> dsimp only at this ⊢
      case h_6 =>
        refine ⟨this.1, ?_⟩
        rw [List.countP_append, this.2]
        have : (b == c) = false := by simpa using fun h => e h.symm
        simp [this]
      all_goals exact this
  · by_cases e : c = b
    · subst e; simp at hc
    · rw [update_of_ne e] at hc; rw [gu c e]; exact h.loose c n hc
  · obtain ⟨t1, t2⟩ := h.collecting p c hc
    have e : c.buf ≠ b := by intro e; rw [e, h0] at t1; cases t1
    rw [update_of_ne e, gu _ e]; exact ⟨t1, t2⟩
  · obtain ⟨t1, t2, t3⟩ := h.built z c hc
    have e : c ≠ b := by intro e; rw [e, h0] at t1; cases t1
    rw [update_of_ne e, gu _ e]; exact ⟨t1, t2, t3⟩
  · simp only [List.mem_append, List.mem_singleton] at hi
    rcases hi with hi | rfl
    · obtain ⟨t1, t2⟩ := h.listed i hi
      rw [update_of_ne (nb i hi), gu _ (nb i hi)]; exact ⟨t1, t2⟩
    · simp [get_set_at]

/-- R82: the head of the inbound list is taken: its buffer is loose. -/
theorem books_taken {L X s e rest x} (h : Books L X s) (hi : s.inbound = e :: rest) :
   Books (update L e.buf (some 0)) X { s with inbound := rest, headSince := x } := by
  obtain ⟨k1, k2⟩ := h.listed e (by rw [hi]; simp)
  have kb := h.buffers _ k1
  unfold Accounted at kb; rw [k2] at kb; dsimp only at kb
  obtain ⟨kr, kc⟩ := kb
  rw [hi, List.countP_cons] at kc
  simp at kc
  refine ⟨fun c hc => ?_, fun c n hc => ?_, fun p c hc => ?_, fun z c hc => ?_, fun i hi' => ?_, h.queued, fun z => ⟨(h.polls z).slot, (h.polls z).sent, (h.polls z).taken⟩⟩
  · have ne : c ≠ e.buf := by rintro rfl; simp at hc
    rw [update_of_ne ne] at hc
    have := h.buffers c hc
    unfold Accounted at *
    show match (s.pool.get c).use with | .free => _ | .filling (.assembler p) => _ | .filling (.poll x) => _ | .filling .management => _ | .filling .alarms => _ | .ready => _ | .held n => _
    split <;> rename_i e' <;> rw [e'] at this <;> dsimp only at this ⊢
    case h_6 =>
      refine ⟨this.1, ?_⟩
      have t := this.2
      rw [hi, List.countP_cons] at t
      have : (e.buf == c) = false := by simpa using fun h => ne h.symm
      rw [this] at t; simpa using t
    all_goals exact this
  · by_cases ne : c = e.buf
    · subst ne; simp at hc; subst hc; exact ⟨by show s.refs _ = 0; omega, by omega, by show (s.pool.get _).use ≠ _; rw [k2]; simp⟩
    · rw [update_of_ne ne] at hc; exact h.loose c n hc
  · obtain ⟨t1, t2⟩ := h.collecting p c hc
    have ne : c.buf ≠ e.buf := by intro e; rw [e, k2] at t2; cases t2
    rw [update_of_ne ne]; exact ⟨t1, t2⟩
  · obtain ⟨t1, t2⟩ := h.built z c hc
    have ne : c ≠ e.buf := by intro e; rw [e, k2] at t2; cases t2.1
    rw [update_of_ne ne]; exact ⟨t1, t2⟩
  · obtain ⟨t1, t2⟩ := h.listed i (by rw [hi]; simp [show i ∈ rest from hi'])
    have ne : i.buf ≠ e.buf := kc i hi'
    rw [update_of_ne ne]; exact ⟨t1, t2⟩

end Sys2Proof.Machine
end

