-- ==== Sys2Proof/Laws/Assembly.lean ====
section
/-! SUPPORT. The assemblers: the ends of a reception in closed form, the receiver's part of a character, and all that a character may change. -/

namespace Sys2Proof.Machine

/-- R43: the release of the grant, in closed form. -/
theorem releaseGrant_eq (p : Port) (s : State) : releaseGrant p s = { s with grant := if p.trunk? = s.grant then none else s.grant } := by
  unfold releaseGrant
  cases h : p.trunk? with
  | none =>
    by_cases hg : s.grant = none
    · rw [if_pos hg.symm]; rw [show s = { s with grant := none } by rw [← hg]]
    · rw [if_neg (fun e => hg e.symm)]
  | some t =>
    dsimp only
    by_cases hg : s.grant = some t
    · rw [if_pos hg, if_pos hg.symm]
    · rw [if_neg hg, if_neg (fun e => hg e.symm)]

/-- R35: a reception that keeps no frame. -/
theorem failFrame_eq (p : Port) (c : Collect) (k : PortCtr) (s : State) : failFrame p c k s = s.failed p c k := by
  unfold failFrame; rw [releaseGrant_eq]
  simp [setAsm, freeBuf, setBuf, countPort, State.modPort, State.failed, State.port]

/-- R35, R81: a reception that ends GOOD. -/
theorem goodFrame_eq (p : Port) (c : Collect) (f : List Byte) (s : State) (h : (s.pool.get c.buf).bytes = f) : goodFrame p c s = s.good p c f := by
  unfold goodFrame; rw [releaseGrant_eq]
  simp [setAsm, appendInbound, setBuf, countPort, State.modPort, State.good, State.port, h]

theorem failed_pool (s : State) (p : Port) (c c' : Collect) (k : PortCtr) (x : Buffer) (h : c'.buf = c.buf) :
   ({ s with pool := s.pool.set c.buf.val x c.buf.isLt } : State).failed p c' k = s.failed p c k := by
  simp [State.failed, h, State.port]

theorem good_pool (s : State) (p : Port) (c c' : Collect) (f : List Byte) (x : Buffer) (h : c'.buf = c.buf) :
   ({ s with pool := s.pool.set c.buf.val x c.buf.isLt } : State).good p c' f = s.good p c f := by
  simp [State.good, h, State.port]

/-- R5, R6, R9: the receiver's part changes its port alone. -/
theorem received_eq (p : Port) (s : State) (ch : Character) : s.received p ch = { s with ports := (s.received p ch).ports } := by
  simp only [State.received, countCharacter]; split <;> split <;> rfl

theorem received_pool {p : Port} {s : State} {ch : Character} : (s.received p ch).pool = s.pool := by rw [received_eq]

theorem received_asm {p : Port} {s : State} {ch : Character} : ((s.received p ch).port p).asm = (s.port p).asm := by
  simp only [State.received, State.port, State.modPort, PerPort.get_set_same, PortState.endCharacter, PortState.touch, countCharacter]
  split <;> split <;> simp [countPort, State.modPort]

theorem received_applied {p q : Port} {s : State} {ch : Character} : ((s.received p ch).port q).applied = (s.port q).applied := by
  simp only [State.received, State.port, State.modPort, countCharacter]
  rw [PerPort.get_set]
  split
  · rename_i h; subst h
    split <;> split <;> simp [countPort, State.modPort, PortState.endCharacter, PortState.touch]
  · rename_i h
    split <;> split <;> simp [countPort, State.modPort, PerPort.get_set_ne, h]

theorem received_other {p q : Port} {s : State} {ch : Character} (h : q ≠ p) : (s.received p ch).port q = s.port q := by
  simp only [State.received, countCharacter]
  split <;> split <;> simp [State.modPort, countPort, State.port, PerPort.get_set_ne, h]

theorem received_freeCount {p : Port} {s : State} {ch : Character} : (s.received p ch).freeCount = s.freeCount := freeCount_congr received_pool

/-- R5: a character due for delivery is delivered to the assembler. -/
theorem exec_characterDelivered {p : Port} {s : State} {ch : Character} (h : (s.port p).dueCharacter = some ch) :
    execCharacterDelivered p s = .next (assemble p ch (s.received p ch)) := by
  unfold execCharacterDelivered
  rw [h]
  rfl

theorem Character.isAddress_parts {ch : Character} (h : ch.isAddress = true) : ch.markBit = true ∧ ch.errored = false := by
  simpa [Character.isAddress] using h

/-- R26, R27: a frame begins in a given buffer. -/
theorem takeBuffer_given {p : Port} {ch : Character} {s : State} (h : 2 < s.freeCount) :
  ∃ buf : BufId, (s.pool.get buf).use = .free ∧ takeBuffer p ch s = { s with
          ports := s.ports.set p { s.port p with
            asm := .collect ⟨⟨ch.stop, (s.port p).applied.gapLimit⟩, 1, none, buf, crc [ch.data], s.tickAt ch.start⟩ }
          pool := s.pool.set buf.val ⟨.filling (.assembler p), [ch.data]⟩ buf.isLt } := by
  obtain ⟨x, hx⟩ := Option.isSome_iff_exists.1 ((findFree_isSome s).2 (by omega))
  refine ⟨x, findFree_isFree hx, ?_⟩
  simp only [takeBuffer, requestBuffer]
  rw [if_pos (show s.freeCount > Config.reserve from h)]
  simp only [giveBuffer, hx, Option.map_some, beginFrame, setAsm, State.modPort, fillBuf, setBuf, get_set_at, if_true, Collect.begin, Character.gap, State.port]
  congr 1
  simp

/-- R25: an address character in HUNT or SKIP begins a reception. -/
theorem assemble_address {p : Port} {ch : Character} {s : State} (hh : (s.port p).asm = .hunt ∨ (∃ g, (s.port p).asm = .skip g)) (ha : ch.isAddress = true) :
   assemble p ch s = beginReception p ch s := by
  unfold assemble
  rcases hh with h | ⟨g, h⟩ <;> rw [h] <;> simp [ha]

/-- All that an assembler of a port may change. -/
structure Assembled (p : Port) (s t : State) : Prop where
  rest : t = { s with ports := t.ports, pool := t.pool, grant := t.grant, given := t.given, dup := t.dup, inbound := t.inbound, headSince := t.headSince, alarms := t.alarms, alarmsLost := t.alarmsLost, counters := t.counters }
  other : ∀ q, q ≠ p → t.port q = { s.port q with queue := (t.port q).queue }
  this : t.port p = { s.port p with queue := (t.port p).queue, asm := (t.port p).asm, counters := (t.port p).counters }
  ctr : ∀ k ∈ [PortCtr.charsIn, .noisyChars, .framingErrors, .breaks, .framesOut, .staleDiscards, .queueOverflows], (t.port p).counters.get k = (s.port p).counters.get k

theorem Assembled.refl (p s) : Assembled p s s := ⟨rfl, fun _ _ => rfl, rfl, fun _ _ => rfl⟩

theorem Assembled.trans {p} {s t u : State} (h : Assembled p s t) (g : Assembled p t u) : Assembled p s u := by
  refine ⟨?_, fun q hq => ?_, ?_, fun k hk => (g.ctr k hk).trans (h.ctr k hk)⟩
  · rw [g.rest, h.rest]
  · rw [g.other q hq, h.other q hq]
  · rw [g.this, h.this]

theorem setAsm_assembled (p a s) : Assembled p s (setAsm p a s) := by
  refine ⟨rfl, fun q hq => ?_, ?_, fun k _ => ?_⟩ <;> simp [setAsm, State.modPort, State.port, PerPort.get_set_ne, *]

theorem countPort_assembled (p k s) (hk : k ∈ [PortCtr.strayChars, .framesGood, .checkError, .runt, .badLength, .charError, .interrupted, .noBuffer, .shadowed, .duplicates]) : Assembled p s (countPort p k s) := by
  refine ⟨rfl, fun q hq => ?_, ?_, fun k' hk' => ?_⟩
  · simp [countPort, State.modPort, State.port, PerPort.get_set_ne, *]
  · simp [countPort, State.modPort, State.port]
  · simp [countPort, State.modPort, State.port]
    simp at hk hk'
    rcases hk with rfl|rfl|rfl|rfl|rfl|rfl|rfl|rfl|rfl|rfl <;> rcases hk' with rfl|rfl|rfl|rfl|rfl|rfl|rfl <;> rfl

theorem Assembled.of_rest (p) {s t : State} (h : t = { s with pool := t.pool, grant := t.grant, given := t.given, dup := t.dup, inbound := t.inbound, headSince := t.headSince }) : Assembled p s t := by
  have : t.ports = s.ports := by rw [h]
  refine ⟨by rw [h], fun q _ => ?_, ?_, fun k _ => ?_⟩ <;> simp [State.port, this]

theorem raise_assembled (p : Port) (key : AlarmKey) (s : State) : Assembled p s (raise key s) := by
  have := raise_raisedFrom key s
  refine ⟨?_, fun q _ => this.ports q, ?_, fun k _ => ?_⟩
  · rw [this.rest]
  · rw [this.ports p]
  · rw [this.ports p]

theorem releaseGrant_assembled (p q s) : Assembled p s (releaseGrant q s) := by rw [releaseGrant_eq]; exact Assembled.of_rest p rfl

theorem beginFrame_assembled (p ch b s) : Assembled p s (beginFrame p ch b s) := (Assembled.of_rest p (t := fillBuf b [ch.data] s) rfl).trans (setAsm_assembled _ _ _)

theorem takeBuffer_assembled (p ch s) : Assembled p s (takeBuffer p ch s) := by
  unfold takeBuffer
  split
  · rename_i b t h
    obtain ⟨-, rfl⟩ := requestBuffer_some h
    exact (Assembled.of_rest p (t := setBuf b ⟨.filling (.assembler p), []⟩ s) rfl).trans (beginFrame_assembled _ _ _ _)
  · exact ((countPort_assembled p .noBuffer s (by simp)).trans ((raise_assembled _ _ _).trans (releaseGrant_assembled p p _))).trans (setAsm_assembled _ _ _)

theorem beginReception_assembled (p ch s) : Assembled p s (beginReception p ch s) := by
  unfold beginReception
  split
  · exact takeBuffer_assembled _ _ _
  · split
    · exact (Assembled.of_rest p (t := giveGrant _ s) rfl).trans (takeBuffer_assembled _ _ _)
    · exact setAsm_assembled _ _ _

theorem failFrame_assembled (p c k s) (hk : k ∈ [PortCtr.strayChars, .framesGood, .checkError, .runt, .badLength, .charError, .interrupted, .noBuffer, .shadowed, .duplicates]) : Assembled p s (failFrame p c k s) := by
  unfold failFrame
  exact (((countPort_assembled p k s hk).trans (Assembled.of_rest p (t := freeBuf c.buf _) rfl)).trans (setAsm_assembled _ _ _)).trans (releaseGrant_assembled _ _ _)

theorem goodFrame_assembled (p c s) : Assembled p s (goodFrame p c s) := by
  unfold goodFrame
  exact ((((countPort_assembled p .framesGood s (by simp)).trans (Assembled.of_rest p (t := setBuf c.buf _ _) rfl)).trans (Assembled.of_rest p (t := appendInbound p c.buf _) rfl)).trans (setAsm_assembled _ _ _)).trans (releaseGrant_assembled _ _ _)

theorem completeFrame_assembled (p c s) : Assembled p s (completeFrame p c s) := by
  unfold completeFrame; dsimp only
  split
  · exact failFrame_assembled _ _ _ _ (by simp)
  · split
    · exact goodFrame_assembled _ _ _
    · split
      · exact (Assembled.of_rest p (t := { s with dup := none }) rfl).trans (failFrame_assembled _ _ _ _ (by simp))
      · exact (Assembled.of_rest p (t := recordGood _ _ _ s) rfl).trans (goodFrame_assembled _ _ _)

/-- A delivered character changes no more than this. -/
theorem assemble_assembled (p ch s) : Assembled p s (assemble p ch s) := by
  unfold assemble
  split
  · split
    · exact beginReception_assembled _ _ _
    · exact countPort_assembled _ _ _ (by simp)
  · split
    · exact beginReception_assembled _ _ _
    · exact setAsm_assembled _ _ _
  · split
    · exact (countPort_assembled p .shadowed s (by simp)).trans (setAsm_assembled _ _ _)
    · split
      · exact (countPort_assembled p .shadowed s (by simp)).trans (beginReception_assembled _ _ _)
      · unfold followCharacter; dsimp only
        split_ifs <;> first | exact (countPort_assembled p .shadowed s (by simp)).trans (setAsm_assembled _ _ _) | exact setAsm_assembled _ _ _
  · split
    · exact failFrame_assembled _ _ _ _ (by simp)
    · split
      · exact (countPort_assembled p .interrupted s (by simp)).trans (beginFrame_assembled _ _ _ _)
      · unfold storeCharacter; dsimp only
        split_ifs <;> first | exact failFrame_assembled _ _ _ _ (by simp) | exact (Assembled.of_rest p (t := fillBuf _ _ s) rfl).trans (completeFrame_assembled _ _ _) | exact (Assembled.of_rest p (t := fillBuf _ _ s) rfl).trans (setAsm_assembled _ _ _)

end Sys2Proof.Machine
end

