-- ==== Sys2Proof/Laws/Lines.lean ====
section
/-! SUPPORT. What a transition of a line does to its port, what a tie of R17 remembers, what a cold reset in progress
holds still, and which step an empty queue gives. -/

namespace Sys2Proof.Machine

/-! ## Settings of the last activity -/

/-- R9: a setting replaces the former instant, and nothing else. -/
theorem PortState.touch_eq (t : Nat) (q : PortState) : q.touch t = { q with lastActivity := t } := rfl

/-- R9: the return to mark of a false start is the last activity where no later instant stands (log 23). -/
theorem PortState.returned_eq (t : Nat) (q : PortState) :
    q.returned t = { q with lastActivity := max q.lastActivity t } := rfl

/-- R4, R8, R9: all that a level on the pin does to its port. -/
theorem PortState.lineTo_moved (hears : Bool) (now : Nat) (l : Level) (q : PortState) :
    LineMoved hears now l q (q.lineTo hears now l) := by
  refine ⟨fun h => ?_, fun h h2 => ?_, fun h1 h2 h3 h4 h5 h6 => ?_, fun h1 h2 h3 h4 => ?_, fun h1 h2 h3 h4 => ?_,
    fun h1 h2 h3 h4 => ?_⟩ <;> unfold PortState.lineTo
  · rw [if_pos h]
  · rw [if_neg h, if_pos (by simp [h2])]
  · subst h2
    rw [if_neg (by rw [h1]; simp), if_neg (by simp [h3]), h4, h5]
    dsimp only; rw [if_neg h6]
    dsimp only [PortState.openEdge]
    rw [show q.rx = ⟨q.rx.mode, q.rx.edge, q.rx.samples, q.rx.since⟩ from rfl, h4]
  · subst h2
    rw [if_neg (by rw [h1]; simp), if_neg (by simp [h3])]
    split
    · rename_i h5 h6; rcases h4 with h | h | h
      · exact absurd h5 h
      · exact absurd h6 h
      · rw [if_pos h]; rfl
    · rfl
    · rename_i h _; cases h
    · rename_i h _; cases h
  · subst h2
    rw [if_neg (by rw [h1]; simp), if_neg (by simp [h3]), h4]; rfl
  · subst h2
    rw [if_neg (by rw [h1]; simp), if_neg (by simp [h3])]
    cases hm : q.rx.mode with
    | char => exact absurd hm h4
    | idle => rfl
    | brk => rfl

/-! ## A start edge together with an application (R17; log 26) -/

/-- Time going on changes nothing of a port but the edge that it remembers. -/
theorem holdEdge_eq (s : State) (p : Port) :
    s.holdEdge p = { s.port p with edgeFirst := (s.holdEdge p).edgeFirst } := by
  unfold State.holdEdge; dsimp only; split <;> rfl

/-- The edge is remembered exactly where a pending record would have been applied at its instant without it. -/
theorem holdEdge_edgeFirst (s : State) (p : Port) :
    let tied := (s.port p).pendingConfig ≠ none ∧ s.Rested p ∧ (s.port p).rx.edge = some s.now
    (tied → (s.holdEdge p).edgeFirst = some s.now)
      ∧ (¬ tied → (s.holdEdge p).edgeFirst = (s.port p).edgeFirst) := by
  have h : ((s.port p).pendingConfig.isSome && s.rested p && decide ((s.port p).rx.edge = some s.now)) = true
      ↔ (s.port p).pendingConfig ≠ none ∧ s.Rested p ∧ (s.port p).rx.edge = some s.now := by
    rw [Bool.and_eq_true, Bool.and_eq_true, rested_iff, decide_eq_true_eq, and_assoc, Option.isSome_iff_ne_none]
  refine ⟨fun ht => ?_, fun ht => ?_⟩ <;> unfold State.holdEdge <;> dsimp only
  · rw [if_pos (h.2 ht)]
  · rw [if_neg (fun x => ht (h.1 x))]

theorem holdEdge_none {s : State} {p : Port} (h : (s.port p).rx.edge = none) : s.holdEdge p = s.port p := by
  unfold State.holdEdge; dsimp only; rw [if_neg]; simp [h]

/-- The passing of an instant changes nothing of a port but its last activity and the end that it awaits. -/
theorem PortState.passEnd_eq (now : Nat) (q : PortState) :
    q.passEnd now = { q with lastActivity := (q.passEnd now).lastActivity, charEnd := (q.passEnd now).charEnd } := by
  by_cases h : ∃ e, q.charEnd = some e ∧ e ≤ now
  · obtain ⟨e, h1, h2⟩ := h
    unfold PortState.passEnd; rw [h1]; dsimp only; rw [if_pos h2]; split <;> rfl
  · have : q.passEnd now = q := by
      unfold PortState.passEnd; split
      · rfl
      · rename_i e h1; rw [if_neg fun h2 => h ⟨e, h1, h2⟩]
    rw [this]

/-- R9, R11: an awaited end that is reached is the last activity if the line is at mark. -/
theorem PortState.passEnd_reached {now e : Nat} {q : PortState} (h : q.charEnd = some e) (he : e ≤ now) :
    (q.passEnd now).charEnd = none
      ∧ (q.passEnd now).lastActivity = if q.rxd = .mark then e else q.lastActivity := by
  unfold PortState.passEnd; rw [h]; dsimp only; rw [if_pos he]; split <;> exact ⟨rfl, rfl⟩

theorem PortState.passEnd_ahead {now : Nat} {q : PortState} (h : ∀ e, q.charEnd = some e → now < e) :
    q.passEnd now = q := by
  unfold PortState.passEnd
  split
  · rfl
  · rename_i e he; rw [if_neg (by have := h e he; omega)]

/-- A sample changes nothing of a port but its samples. -/
theorem PortState.sample_eq (now : Nat) (q : PortState) :
    q.sample now = { q with rx := { q.rx with samples := (q.sample now).rx.samples } } := by
  unfold PortState.sample; split
  · rfl
  · dsimp only; split <;> rfl

/-! ## A cold reset in progress (R169) -/

theorem listening_inReset {s : State} (h : s.inReset = true) (p : Port) : s.listening p = false := by
  simp [State.listening, h]

theorem txen_inReset {s : State} (h : s.inReset = true) (p : Port) : s.txen p = false := by simp [State.txen, h]

theorem alertn_inReset {s : State} (h : s.inReset = true) : s.alertn = true := by simp [State.alertn, h]

/-- During a cold reset no management command is handed over. -/
theorem manage_inReset {s : State} (h : s.inReset = true) (serve : Cmd → State → State) (c : Cmd) :
    manage serve c s = s := by simp [manage, h]

/-! ## The pending restart (R140) -/

/-- With no descriptor of the reply left on its port, the restart takes place. -/
theorem settleRestart_left {s : State} {p : Port} {b : BufId} (h : s.restart = some (p, b))
    (hd : ∀ d, d ∈ (s.port p).descriptors → d.buf ≠ b) : settleRestart s = warmRestart s := by
  simp only [settleRestart, h]; rw [if_neg]
  simp only [PortState.descriptors, List.mem_append, Option.mem_toList] at hd
  simp only [State.placed, Bool.or_eq_true, List.any_eq_true, Option.any_eq_true]
  rintro (⟨d, hm, hb⟩ | ⟨d, hm, hb⟩)
  · exact hd d (.inl hm) (by simpa using hb)
  · exact hd d (.inr hm) (by simpa using hb)

/-! ## The step on an empty queue (log 2, log 3) -/

/-- What is picked is one of the options. -/
theorem pickIdle_mem (k : Nat) : ∀ xs : List Idle, xs ≠ [] → pickIdle k xs ∈ xs
  | [], h => absurd rfl h
  | [x], _ => by simp [pickIdle]
  | x :: y :: r, _ => by
    have hk : k % (r.length + 2) < (x :: y :: r).length := by
      have := Nat.mod_lt k (show 0 < r.length + 2 by omega)
      simp only [List.length_cons]; exact this
    simp only [pickIdle]
    rw [List.getD_eq_getElem?_getD, List.getElem?_eq_getElem hk]
    exact List.getElem_mem _

/-- The choice is a step that is due or open, the due line input, or, with nothing due, the passing of a cycle. -/
theorem idleChoice_cases (s : State) :
    (∃ i, (i ∈ s.dueSteps ∨ i ∈ s.openSteps) ∧ s.idleChoice = .run i)
      ∨ (s.inputDue = true ∧ s.idleChoice = .input)
      ∨ (s.inputDue = false ∧ s.dueSteps = [] ∧ s.idleChoice = .advance) := by
  have hne : s.idleOptions ≠ [] := by
    unfold State.idleOptions State.otherOptions
    simp only [List.append_eq]
    split
    · simp
    · split
      · simp
      · rename_i h; intro e; simp at e; simp [e] at h
  have hm : s.idleChoice ∈ s.idleOptions := pickIdle_mem (Config.choice s.choices) _ hne
  unfold State.idleOptions at hm
  simp only [List.append_eq, List.mem_append, List.mem_map] at hm
  rcases hm with ⟨x, h1, h2⟩ | h
  · exact .inl ⟨x, h1, h2.symm⟩
  · unfold State.otherOptions at h
    split at h
    · rename_i hi; simp at h; exact .inr (.inl ⟨hi, h⟩)
    · rename_i hi; split at h
      · rename_i hd; simp at h; exact .inr (.inr ⟨by simpa using hi, by simpa using hd, h⟩)
      · simp at h

end Sys2Proof.Machine
end

