-- ==== Sys2Proof/Laws/Due.lean ====
section
/-! SUPPORT. The condition of each step of the part, and with them which steps are due and which are open. -/

namespace Sys2Proof.Machine

theorem bitTimes_eq (c : PortConfig) (n : Nat) : c.bitTimes n = n * (16 * c.divisor.toNat) := by
  simp only [PortConfig.bitTimes, PortConfig.periods, Config.periodsPerBit]; rw [Nat.mul_assoc]

/-! ## Lines -/

theorem majority_space (a b c : Level) : majority a b c = .space ↔ 2 ≤ [a, b, c].count Level.space := by
  cases a <;> cases b <;> cases c <;> decide

theorem majority_mark (a b c : Level) : majority a b c = .mark ↔ 2 ≤ [a, b, c].count Level.mark := by
  cases a <;> cases b <;> cases c <;> decide

/-- R4: there is a decision exactly where three samples of an edge in IDLE stand. -/
theorem decision_iff (q : PortState) (l : Level) : q.decision = some l ↔
    q.rx.mode = .idle ∧ q.rx.edge ≠ none ∧ q.rx.samples.length = 3 ∧ 2 ≤ q.rx.samples.count l := by
  unfold PortState.decision
  split
  · rename_i a b c h1 h2 h3
    rw [h1, h2, h3]
    cases l <;> simp [majority_space, majority_mark]
  · rename_i h
    refine ⟨fun h => (by cases h), fun ⟨h1, h2, h3, h4⟩ => ?_⟩
    obtain ⟨e, he⟩ := Option.ne_none_iff_exists'.1 h2
    obtain ⟨a, b, c, hs⟩ := List.length_eq_three.1 h3
    exact (h _ _ _ _ h1 he hs).elim

/-- R5: a character is due exactly where its 33 samples stand in CHAR. -/
theorem dueCharacter_isSome (q : PortState) : q.dueCharacter.isSome = true ↔
    q.rx.mode = .char ∧ q.rx.edge ≠ none ∧ q.rx.samples.length = 33 := by
  unfold PortState.dueCharacter
  split
  · rename_i e h1 h2
    rw [h1, h2]; split <;> simp_all
  · rename_i h
    refine ⟨fun h => (by cases h), fun ⟨h1, h2, h3⟩ => ?_⟩
    obtain ⟨e, he⟩ := Option.ne_none_iff_exists'.1 h2
    exact absurd he (h _ h1)

/-- R7. -/
theorem breakDue_iff (s : State) (p : Port) : s.breakDue p = true ↔ s.listening p = true ∧ (s.port p).rx.mode ≠ .brk
    ∧ (s.port p).rxd = .space ∧ (s.port p).rx.since + 22 * (16 * (s.port p).applied.divisor.toNat) ≤ s.now := by
  simp only [State.breakDue, bitTimes_eq, Bool.and_eq_true, decide_eq_true_eq, and_assoc]

/-- R8. -/
theorem breakOver_iff (s : State) (p : Port) : s.breakOver p = true ↔ s.listening p = true ∧ (s.port p).rx.mode = .brk
    ∧ (s.port p).rxd = .mark ∧ (s.port p).rx.since + 11 * (16 * (s.port p).applied.divisor.toNat) ≤ s.now := by
  simp only [State.breakOver, bitTimes_eq, Bool.and_eq_true, decide_eq_true_eq, and_assoc]

theorem expiry_eq (g : Gap) (c : PortConfig) : g.expiry c = g.ref + (16 * g.limit.toNat + 1) * c.divisor.toNat := by
  simp only [Gap.expiry, PortConfig.periods, Config.periodsPerBit, Nat.mul_comm 16]

/-- R24: the gap has expired, and no start edge came before (log 20). -/
theorem gapExpired_iff (s : State) (p : Port) : s.gapExpired p = true ↔ ∃ g, (s.port p).asm.gap? = some g
    ∧ g.ref + (16 * g.limit.toNat + 1) * (s.port p).applied.divisor.toNat ≤ s.now
    ∧ ∀ e, (s.port p).rx.edge = some e →
        g.ref + (16 * g.limit.toNat + 1) * (s.port p).applied.divisor.toNat ≤ e := by
  unfold State.gapExpired
  dsimp only
  cases hg : (s.port p).asm.gap? with
  | none => simp
  | some g => cases he : (s.port p).rx.edge <;> simp [expiry_eq]

/-! ## Transmitters -/

/-- R10, R93, R100, R101: a take. -/
theorem canTake_iff (s : State) (p : Port) : s.canTake p = true ↔ (s.port p).tx = .idle
    ∧ (s.port p).pendingConfig = none ∧ (∀ b, p.branch? = some b → (s.branch b).outstanding = false)
    ∧ (((s.port p).applied.enabled = true ∧ (s.port p).queue ≠ [])
      ∨ ∃ b, p.branch? = some b ∧ (s.sched b).buffer ≠ none) := by
  simp only [State.canTake, Bool.and_eq_true, Bool.not_eq_true', reserved_iff, Tx.isIdle_iff,
    Option.isNone_iff_eq_none, Bool.or_eq_true, and_assoc, State.queueWants, List.isEmpty_eq_false_iff]
  unfold State.portPollWants
  cases p.branch? <;> simp [State.pollWants, Option.isSome_iff_ne_none]

/-- R11: a start of sending. -/
theorem canStart_iff (s : State) (p : Port) : s.canStart p = true ↔ ∃ d, (s.port p).tx = .waitLine d
    ∧ (s.port p).rx.mode = .idle ∧ (s.port p).rxd = .mark
    ∧ (s.port p).lastActivity
        + (s.port p).applied.turnaround.toNat * (16 * (s.port p).applied.divisor.toNat) ≤ s.now := by
  unfold State.canStart
  cases (s.port p).tx <;> simp [State.lineQuiet, bitTimes_eq, and_assoc]

/-- R14: an end of sending. -/
theorem hasSent_iff (s : State) (p : Port) : s.hasSent p = true ↔ ∃ d start, (s.port p).tx = .sending d start
    ∧ start + 11 * s.descLength d * (16 * (s.port p).applied.divisor.toNat) ≤ s.now := by
  unfold State.hasSent
  cases (s.port p).tx <;> simp [State.sendingEnds, bitTimes_eq]

/-- R17. -/
theorem canApply_iff (s : State) (p : Port) : s.canApply p = true ↔ (s.port p).pendingConfig ≠ none ∧ s.Quiet p := by
  unfold State.canApply
  rw [Bool.and_eq_true, quiet_iff, Option.isSome_iff_ne_none]

/-! ## Schedulers, expiries and bounds -/

/-- R115. -/
theorem canRetry_iff (s : State) (b : Branch) : s.canRetry b = true ↔ (s.sched b).state = .ready
    ∧ (s.sched b).buffer = none ∧ (s.branch b).outstanding = false ∧ (s.sched b).asked < s.tick := by
  simp only [State.canRetry, Bool.and_eq_true, decide_eq_true_eq, Option.isNone_iff_eq_none, Bool.not_eq_true',
    and_assoc]

/-- R117, R120. -/
theorem canTimeOut_iff (s : State) (b : Branch) : s.canTimeOut b = true ↔
    ((s.sched b).state = .await ∨ (s.sched b).state = .stopping)
    ∧ ∃ t, (s.sched b).sentTick = some t ∧ t + (s.sched b).replyTimeout.toNat ≤ s.tick := by
  unfold State.canTimeOut State.awaiting
  cases (s.sched b).sentTick <;> simp

/-- R122. -/
theorem canCycle_iff (s : State) (b : Branch) : s.canCycle b = true ↔ (s.sched b).state = .waitInterval
    ∧ (s.sched b).cycleStart + (s.sched b).cycleInterval.toNat ≤ s.tick := by
  simp only [State.canCycle, State.cycleDue, Bool.and_eq_true, decide_eq_true_eq]

/-- R47. -/
theorem dupExpired_iff (s : State) : s.dupExpired = true ↔ ∃ r, s.dup = some r
    ∧ r.endTick + s.relay.mirrorWindow.toNat < s.tick
    ∧ ∀ c, (s.port r.trunk.other.port).asm = .collect c →
        r.endTick + s.relay.mirrorWindow.toNat < c.startTick := by
  unfold State.dupExpired
  cases s.dup with
  | none => simp
  | some r =>
    simp only [Bool.and_eq_true, decide_eq_true_eq, Option.some.injEq, exists_eq_left']
    cases h : (s.port r.trunk.other.port).asm <;> simp

/-- R133. -/
theorem sessionIdle_iff (s : State) : s.sessionIdle = true ↔ s.session.owner ≠ none ∧ s.route.commit = .idle
    ∧ ∃ t, s.session.lastActivity = some t ∧ 1000 * s.relay.sessionTimeout.toNat < s.tick - t := by
  unfold State.sessionIdle State.validating
  cases s.session.lastActivity <;> simp [Option.isSome_iff_ne_none, and_assoc]

/-- R82: the bound on the disposition of the head frame (log 15). -/
theorem mustDispose_iff (s : State) : s.mustDispose = true ↔ s.inbound ≠ [] ∧ s.headSince + 147 ≤ s.now := by
  simp [State.mustDispose]

/-- R65: the bound on validation (log 15). -/
theorem mustComplete_iff (s : State) : s.mustComplete = true ↔
    ∃ start, s.route.commit = .validating start ∧ start + 221184 ≤ s.now := by
  unfold State.mustComplete
  cases s.route.commit <;> simp

/-! ## The steps that can come (log 2, log 3) -/

theorem mem_dueOf {i : Instr} {xs : List (Bool × Instr)} : i ∈ dueOf xs ↔ (true, i) ∈ xs := by
  unfold dueOf
  rw [List.mem_map]
  constructor
  · rintro ⟨⟨b, j⟩, h, rfl⟩
    obtain ⟨h, rfl⟩ := List.mem_filter.1 h
    exact h
  · intro h
    exact ⟨_, List.mem_filter.2 ⟨h, rfl⟩, rfl⟩

/-- A step is due exactly where the condition that the spec gives it holds. -/
theorem dueSteps_iff (s : State) (i : Instr) : i ∈ s.dueSteps ↔ s.Due i := by
  have hp : ∀ p : Port, p ∈ Port.all := by intro p; cases p <;> decide
  have hb : ∀ b : Branch, b ∈ Branch.all := by intro b; cases b <;> decide
  unfold State.dueSteps
  simp only [List.append_eq, List.mem_append, List.mem_flatMap, hp, hb, true_and]
  unfold State.portSteps State.branchSteps
  simp only [mem_dueOf, List.mem_cons, Prod.mk.injEq, List.not_mem_nil, or_false]
  cases i <;> simp only [State.Due, reduceCtorEq, and_false, or_false, false_or, exists_false, Instr.startEdge.injEq,
    Instr.falseStart.injEq, Instr.characterDelivered.injEq, Instr.breakEntry.injEq, Instr.breakExit.injEq,
    Instr.gapExpiry.injEq, Instr.endOfSending.injEq, Instr.applyPendingConfig.injEq, Instr.take.injEq,
    Instr.transmitStart.injEq, Instr.pollBufferRetry.injEq, Instr.replyTimeout.injEq, Instr.newCycle.injEq,
    exists_eq_right', and_true, eq_comm (a := true), decide_eq_true_eq]
  case characterDelivered => exact dueCharacter_isSome _
  case startEdge => exact decision_iff _ _
  case falseStart => exact decision_iff _ _
  case breakEntry => exact breakDue_iff _ _
  case breakExit => exact breakOver_iff _ _
  case gapExpiry => exact gapExpired_iff _ _
  case duplicateMemoryExpiry => exact dupExpired_iff _
  case disposition => exact mustDispose_iff _
  case take => exact canTake_iff _ _
  case transmitStart => exact canStart_iff _ _
  case endOfSending => exact hasSent_iff _ _
  case applyPendingConfig => exact canApply_iff _ _
  case pollBufferRetry => exact canRetry_iff _ _
  case replyTimeout => exact canTimeOut_iff _ _
  case newCycle => exact canCycle_iff _ _
  case validationComplete => exact mustComplete_iff _
  case sessionExpiry => exact sessionIdle_iff _

/-- A step is open exactly within its bound. -/
theorem openSteps_iff (s : State) (i : Instr) : i ∈ s.openSteps ↔ s.Open i := by
  unfold State.openSteps
  rw [mem_dueOf]
  simp only [List.mem_cons, Prod.mk.injEq, List.not_mem_nil, or_false, eq_comm (a := true)]
  cases i <;> simp only [State.Open, reduceCtorEq, and_false, or_false, false_or, and_true]
  case disposition =>
    have h := mustDispose_iff s
    cases hm : s.mustDispose <;> simp_all
  case validationComplete =>
    have h := mustComplete_iff s
    unfold State.validating
    cases hc : s.route.commit <;> cases hm : s.mustComplete <;> simp_all

/-- No line input is due exactly while the next one, if there is one, lies ahead. -/
theorem inputDue_false_iff (s : State) :
    s.inputDue = false ↔ ∀ i rest, s.lineInput = i :: rest → s.now < i.instant := by
  unfold State.inputDue
  cases s.lineInput with
  | nil => simp
  | cons i rest =>
    simp only [decide_eq_false_iff_not, Nat.not_le, List.cons.injEq]
    exact ⟨fun h j r e => by obtain ⟨rfl, _⟩ := e; exact h, fun h => h i rest ⟨rfl, rfl⟩⟩

end Sys2Proof.Machine
end

