-- ==== Sys2Proof/Laws/Forward.lean ====
section
/-! SUPPORT. The copies of a forwarded frame (R87 to R89): placements, and queues that refuse them. -/

namespace Sys2Proof.Machine

theorem lookUp_keeps (d x : Byte) (p : Port) (s : State) : (lookUp d x p s).2.ports = s.ports ∧ (lookUp d x p s).2.pool = s.pool ∧ (lookUp d x p s).2.tick = s.tick 
   ∧ (lookUp d x p s).2.counters.undelivered = s.counters.undelivered := by
  unfold lookUp; split <;> exact ⟨rfl, rfl, rfl, rfl⟩

/-- R88: every queue has room. -/
theorem placeCopies_room (b : BufId) (rw : Option Byte) (ps : List Port) (s : State) (nd : ps.Nodup)
    (h : ∀ q ∈ ps, (s.port q).queue.length < 8) :
    placeCopies b rw ps s = (ps.length, { s with ports := PerPort.of fun q => if q ∈ ps then
      { s.port q with queue := (s.port q).queue ++ [⟨b, .forward, rw, some s.tick⟩] } else s.port q }) := by
  induction ps generalizing s with
  | nil =>
    simp only [placeCopies, List.length_nil, List.not_mem_nil, if_false]
    congr 1
  | cons p ps ih =>
    obtain ⟨n1, n2⟩ := List.nodup_cons.1 nd
    simp only [placeCopies]
    rw [if_pos (show (s.port p).queue.length < Config.queueRoom from h p (by simp))]
    have hq : ∀ q ∈ ps, ((enqueue p ⟨b, .forward, rw, some s.tick⟩ s).port q).queue.length < 8 := by
      intro q hq
      have : q ≠ p := fun e => n1 (e ▸ hq)
      simp [enqueue, State.modPort, State.port, PerPort.get_set_ne, this]
      exact h q (by simp [hq])
    rw [ih _ n2 hq]
    simp only [List.length_cons, Prod.mk.injEq, true_and]
    simp only [enqueue, State.modPort]
    congr 1
    apply PerPort.ext_get
    intro q
    simp only [PerPort.get_of, State.port, PerPort.get_set, List.mem_cons]
    by_cases hqp : q = p
    · subst hqp; simp [n1]
    · simp [hqp, State.tick, State.tickAt]

theorem placeCopies_cons (b : BufId) (rw : Option Byte) (x : Port) (xs : List Port) (s : State) : ∃ u, placeCopies b rw (x :: xs) s = (if (s.port x).queue.length < 8 then ((placeCopies b rw xs u).1 + 1, (placeCopies b rw xs u).2) else placeCopies b rw xs u)
   ∧ ((s.port x).queue.length < 8 → u = enqueue x ⟨b, .forward, rw, some s.tick⟩ s) ∧ (¬ (s.port x).queue.length < 8 → u = raise (.queueOverflow x) (countPort x .queueOverflows s)) := by
  by_cases h : (s.port x).queue.length < 8
  · exact ⟨enqueue x ⟨b, .forward, rw, some s.tick⟩ s, by simp only [placeCopies]; rw [if_pos (show _ < Config.queueRoom from h), if_pos h], fun _ => rfl, fun h' => absurd h h'⟩
  · exact ⟨raise (.queueOverflow x) (countPort x .queueOverflows s), by simp only [placeCopies]; rw [if_neg (show ¬ _ < Config.queueRoom from h), if_neg h], fun h' => absurd h' h, fun _ => rfl⟩

theorem placeCopies_snd (b : BufId) (rw : Option Byte) (x : Port) (xs : List Port) (s : State) : (placeCopies b rw (x :: xs) s).2 = (placeCopies b rw xs (if (s.port x).queue.length < 8 then enqueue x ⟨b, .forward, rw, some s.tick⟩ s else raise (.queueOverflow x) (countPort x .queueOverflows s))).2 := by
  obtain ⟨u, h1, h2, h3⟩ := placeCopies_cons b rw x xs s
  rw [h1]
  by_cases h : (s.port x).queue.length < 8
  · rw [if_pos h, if_pos h, h2 h]
  · rw [if_neg h, if_neg h, h3 h]

theorem placeOne_counters (b : BufId) (rw : Option Byte) (x q : Port) (s : State) :
    ((if (s.port x).queue.length < 8 then enqueue x ⟨b, .forward, rw, some s.tick⟩ s
      else raise (.queueOverflow x) (countPort x .queueOverflows s)).port q).counters
    = if q = x ∧ 8 ≤ (s.port x).queue.length then (s.port q).counters.bump .queueOverflows
      else (s.port q).counters := by
  by_cases h : (s.port x).queue.length < 8
  · rw [if_pos h, if_neg (by omega)]
    simp only [enqueue, State.modPort, State.port, PerPort.get_set]
    split
    · rename_i e
      subst e
      rfl
    · rfl
  · rw [if_neg h, (raise_raisedFrom _ _).ports q]
    by_cases e : q = x
    · subst e
      rw [if_pos ⟨rfl, by omega⟩]
      simp [countPort, State.modPort, State.port]
    · rw [if_neg (by tauto)]
      simp [countPort, State.modPort, State.port, PerPort.get_set_ne, e]

theorem placeOne_full (b : BufId) (rw : Option Byte) (x q : Port) (s : State) (h : 8 ≤ (s.port q).queue.length) : ((if (s.port x).queue.length < 8 then enqueue x ⟨b, .forward, rw, some s.tick⟩ s else raise (.queueOverflow x) (countPort x .queueOverflows s)).port q).queue = (s.port q).queue := by
  by_cases hx : (s.port x).queue.length < 8
  · rw [if_pos hx]
    have : q ≠ x := by rintro rfl; omega
    simp [enqueue, State.modPort, State.port, PerPort.get_set_ne, this]
  · rw [if_neg hx, raise_full]
    all_goals
      simp only [countPort, State.modPort, State.port, PerPort.get_set]
      split
      · rename_i e; subst e; first | rfl | exact h
      · first | rfl | exact h

/-- R88: a full queue stays as it was. -/
theorem placeCopies_full (b : BufId) (rw : Option Byte) (ps : List Port) (s : State) (q : Port) (hl : 8 ≤ (s.port q).queue.length) :
    ((placeCopies b rw ps s).2.port q).queue = (s.port q).queue := by
  induction ps generalizing s with
  | nil => rfl
  | cons x xs ih =>
    rw [placeCopies_snd]
    have := placeOne_full b rw x q s hl
    rw [ih _ (by rw [this]; exact hl), this]

theorem placeCopies_other (b : BufId) (rw : Option Byte) (ps : List Port) (s : State) (q : Port) (hq : q ∉ ps) :
    ((placeCopies b rw ps s).2.port q).counters = (s.port q).counters := by
  induction ps generalizing s with
  | nil => rfl
  | cons x xs ih =>
    simp at hq
    rw [placeCopies_snd, ih _ hq.2, placeOne_counters, if_neg (by tauto)]

/-- R88: a full queue that refuses a copy counts QUEUE_OVERFLOWS once. -/
theorem placeCopies_overflow (b : BufId) (rw : Option Byte) (ps : List Port) (s : State) (q : Port) (hq : q ∈ ps) (nd : ps.Nodup) (hl : 8 ≤ (s.port q).queue.length) :
    ((placeCopies b rw ps s).2.port q).counters = (s.port q).counters.bump .queueOverflows := by
  induction ps generalizing s with
  | nil => simp at hq
  | cons x xs ih =>
    obtain ⟨n1, n2⟩ := List.nodup_cons.1 nd
    rw [placeCopies_snd]
    by_cases e : q = x
    · subst e
      rw [placeCopies_other _ _ _ _ _ n1, placeOne_counters, if_pos ⟨rfl, hl⟩]
    · have hq' : q ∈ xs := by simpa [e] using hq
      rw [ih _ hq' n2, placeOne_counters, if_neg (by tauto)]
      rw [placeOne_full b rw x q s hl]; exact hl

/-- R89: no queue takes a copy. -/
theorem placeCopies_none (b : BufId) (rw : Option Byte) (ps : List Port) (s : State) (h : ∀ q ∈ ps, 8 ≤ (s.port q).queue.length) :
    (placeCopies b rw ps s).1 = 0 := by
  induction ps generalizing s with
  | nil => rfl
  | cons x xs ih =>
    obtain ⟨u, h1, h2, h3⟩ := placeCopies_cons b rw x xs s
    have hx : ¬ (s.port x).queue.length < 8 := by have := h x (by simp); omega
    rw [h1, if_neg hx]
    apply ih
    intro q hq
    have := placeOne_full b rw x q s (h q (by simp [hq]))
    rw [if_neg hx, ← h3 hx] at this
    rw [this]; exact h q (by simp [hq])

theorem placeCopies_undelivered (b : BufId) (rw : Option Byte) (ps : List Port) (s : State) :
    (placeCopies b rw ps s).2.counters.undelivered = s.counters.undelivered := by
  induction ps generalizing s with
  | nil => rfl
  | cons x xs ih =>
    rw [placeCopies_snd, ih]
    split
    · rfl
    · rw [(raise_raisedFrom _ _).counters]
      rfl

end Sys2Proof.Machine
end

