-- ==== Sys2Proof/Laws/Management.lean ====
section
/-! SUPPORT. What every served command shares: the owner heard, a read answered, an accepted command executed and recorded. -/

namespace Sys2Proof.Machine

/-- R132. -/
theorem refresh_eq (c : Cmd) (s : State) : refresh c s = s.heard c := by
  unfold refresh State.heard
  split <;> simp_all

/-- R132. -/
theorem heard_owner {s : State} {c : Cmd} (h : s.session.owner = some c.src) :
    s.heard c = { s with session := { s.session with lastActivity := some s.tick } } := by
  unfold State.heard; rw [if_pos h]

theorem heard_other {s : State} {c : Cmd} (h : s.session.owner ≠ some c.src) : s.heard c = s := by
  unfold State.heard; rw [if_neg h]

/-- R128: a read that is served. -/
theorem manage_serveRead {k f} {c : Cmd} {s : State} (h : Serves c s) :
   manage (serveRead k f) c s = answer c k (f c.args (s.heard c)) (s.heard c) := by
  obtain ⟨h0, h1, h2⟩ := h
  have : (s.ports.get c.port).applied.mgmtAllowed = true := h1
  simp [manage, State.port, h0, this, serveRead, h2, refresh_eq]

/-- R134: an accepted command with an immediate result. -/
theorem manage_runBody {k} {body : List Byte → State → State × Reply} {c : Cmd} {s : State} (h : Accepts c s) :
    manage (serveSequenced k (runBody k body)) c s
      = answer c k (body c.args { s with session := { s.session with lastActivity := some s.tick } }).2
         (record c k (.reply (body c.args { s with session := { s.session with lastActivity := some s.tick } }).2)
          (body c.args { s with session := { s.session with lastActivity := some s.tick } }).1) := by
  rw [serveSequenced_accepts h]; rfl

theorem record_heard (c k r) (s : State) : record c k (.reply r) { s with session := { s.session with lastActivity := some s.tick } } = s.executed c k r := rfl

/-- R138. -/
theorem Session.settleMark_eq (d : Deferred) (r : Reply) (x : Session) : x.settleMark d r = { x with cache :=
      match x.cache with
      | none => none
      | some e => if e.content = .pending ∧ e.seq = d.seq then some { e with content := .reply r } else some e } := by
  unfold Session.settleMark
  cases h : x.cache with
  | none => cases x; simp_all
  | some e => dsimp only; split <;> (cases x; simp_all)

/-- R84. -/
theorem deliverLocal_command {p : Port} {f : List Byte} {u : State} (h : frameCtl f = 0x04) (hm : (u.port p).applied.mgmtAllowed = true) :
   deliverLocal p f u = handCommand (frameSrc f) p (framePayload f) u := by
  unfold deliverLocal; rw [if_pos h, if_pos hm]

end Sys2Proof.Machine
end

