-- ==== Sys2Proof/Laws/Polling.lean ====
section
/-! SUPPORT. The schedulers: the entries they move to, and a poll end as Safety.lean states it. -/

namespace Sys2Proof.Machine

theorem firstEntry_eq {s : State} {b : Branch} {i : Fin 32} (h : s.isEnabledEntry b i = true)
    (hl : ∀ j, j < i → s.isEnabledEntry b j = false) : s.firstEntry b = some i := find_first 32 _ i h hl

theorem firstEntry_none {s : State} {b : Branch} (h : ∀ i, s.isEnabledEntry b i = false) : s.firstEntry b = none := by
  unfold State.firstEntry; simp [h]

theorem nextEntry_eq {s : State} {b : Branch} {c i : Fin 32} (hc : c < i) (h : s.isEnabledEntry b i = true)
    (hl : ∀ j, c < j → j < i → s.isEnabledEntry b j = false) : s.nextEntry b c = some i := by
  apply find_first
  · simp [hc, h]
  · intro j hj
    by_cases hcj : c < j
    · simp [hl j hcj hj]
    · simp [hcj]

theorem nextEntry_none {s : State} {b : Branch} {c : Fin 32} (hl : ∀ j, c < j → s.isEnabledEntry b j = false) : s.nextEntry b c = none := by
  simp only [State.nextEntry, List.find?_eq_none]
  intro j _
  by_cases hcj : c < j
  · simp [hl j hcj]
  · simp [hcj]

theorem stopped_iff (s : State) (b : Branch) : s.stopped b = true ↔ (s.sched b).state = .stopped := by simp [State.stopped]

theorem entryStopped_iff (s : State) (i : Fin 32) : s.entryStopped i = true ↔ ∀ e, s.pollList.get i = some e → (s.sched e.branch).state = .stopped := by
  unfold State.entryStopped
  rw [Option.all_eq_true]
  simp [State.stopped]

/-- R115, R116: what asking for a buffer does. -/
theorem askPollBuffer_asked (b : Branch) (e : PollEntry) (s : State) (i : Fin 32) (h : (s.sched b).cursor = some i) (he : s.pollList.get i = some e) :
    PollAsked b e s (askPollBuffer b s) := by
  have hc : s.cursorEntry b = some e := by simp [State.cursorEntry, h, he]
  refine ⟨fun hf => ?_, fun hf => ?_⟩
  · obtain ⟨x, hx⟩ := Option.isSome_iff_exists.1 ((findFree_isSome s).2 hf)
    refine ⟨x, findFree_isFree hx, ?_⟩
    simp only [askPollBuffer, hc, requestBuffer, giveBuffer, hx, Option.map_some, fillBuf, setBuf, get_set_at, if_true, modSched, State.modBranch]
    congr 1
    simp
  · simp only [askPollBuffer, hc, requestBuffer, giveBuffer, findFree_none hf, Option.map_none]
    rfl

theorem askPollBuffer_at {b : Branch} {e : PollEntry} {u v : State} (i : Fin 32) (huv : v = u) (h : (u.sched b).cursor = some i) (he : u.pollList.get i = some e) :
    PollAsked b e u (askPollBuffer b v) := by subst huv; exact askPollBuffer_asked b e _ i h he

theorem PollAsked.session {b e} {s t : State} (x : Session) (h : PollAsked b e s t) : PollAsked b e { s with session := x } { t with session := x } := by
  obtain ⟨h1, h2⟩ := h
  refine ⟨fun hf => ?_, fun hf => ?_⟩
  · obtain ⟨buf, hb, ht⟩ := h1 hf
    exact ⟨buf, hb, by rw [ht]⟩
  · rw [h2 hf]; rfl

theorem PollAsked.state {b e} {s t : State} (h : PollAsked b e s t) : (t.sched b).state = (s.sched b).state ∧ t.session = s.session := by
  obtain ⟨h1, h2⟩ := h
  rcases Nat.eq_zero_or_pos s.freeCount with hf | hf
  · rw [h2 hf]; simp [State.sched, State.branch]
  · obtain ⟨buf, -, ht⟩ := h1 hf
    rw [ht]; simp [State.sched, State.branch]

/-- R100, R122, R123: what the end of a poll does. -/
theorem endPoll_ended (b : Branch) (s : State) : PollEnded b s (endPoll b s) := by
  constructor
  · intro h
    unfold endPoll
    rw [h]
    simp [modSched, State.modBranch, State.sched, State.branch]
  · intro c i e hs hc hci he hi hl
    unfold endPoll
    have : decide ((s.sched b).state = .stopping) = false := by simpa using hs
    simp only [this, Bool.false_eq_true, if_false]
    unfold advanceCursor
    have e1 : ((s.modBranch b fun x => { x with outstanding := false, sched := { x.sched with sentTick := none, station := none } }).sched b).cursor = some c := by
      simp [State.modBranch, State.sched, State.branch]; exact hc
    rw [e1]; dsimp only
    rw [nextEntry_eq (s := s.modBranch b _) hci hi hl]
    dsimp only
    unfold enterReady
    refine askPollBuffer_at i ?_ ?_ he
    · simp [modSched, State.modBranch, State.sched, State.branch]
    · simp [State.sched, State.branch]
  · intro c i e hs hc hl he hi hli
    dsimp only
    unfold endPoll
    have : decide ((s.sched b).state = .stopping) = false := by simpa using hs
    simp only [this, Bool.false_eq_true, if_false]
    unfold advanceCursor
    have e1 : ((s.modBranch b fun x => { x with outstanding := false, sched := { x.sched with sentTick := none, station := none } }).sched b).cursor = some c := by
      simp [State.modBranch, State.sched, State.branch]; exact hc
    rw [e1]; dsimp only
    rw [nextEntry_none (s := s.modBranch b _) hl]
    dsimp only
    unfold completeCycle
    rw [firstEntry_eq (s := s.modBranch b _) hi hli]
    dsimp only
    have e2 : ∀ f, State.cycleDue (modSched b (fun x => { x with cycleCount := satInc x.cycleCount, cursor := some i, state := .waitInterval }) (s.modBranch b fun x => { x with outstanding := false, sched := { x.sched with sentTick := none, station := none } })) b = f ↔ decide ((s.sched b).cycleStart + (s.sched b).cycleInterval.toNat ≤ s.tick) = f := by
      intro f
      simp [State.cycleDue, modSched, State.modBranch, State.sched, State.branch, State.tick, State.tickAt]
      exact Iff.rfl
    refine ⟨fun h => ?_, fun h => ?_⟩
    · rw [if_pos ((e2 true).2 (decide_eq_true h))]
      unfold beginCycle enterReady
      refine askPollBuffer_at i ?_ ?_ he
      · simp [modSched, State.modBranch, State.sched, State.branch, State.tick, State.tickAt]
      · simp [State.sched, State.branch]
    · rw [if_neg (by rw [(e2 false).2 (by simpa using h)]; simp)]
      simp [modSched, State.modBranch, State.sched, State.branch]

end Sys2Proof.Machine
end

