-- ==== Sys2Proof/Tests/Slice0.lean ====
section
/-! SUPPORT. The model's own tests: ill-formed commands refused by `Instr.wf`, values of the spec's formats and
worked examples, one step of each command on a small state, and for each claim with hypotheses a state and operands
that meet them (`witness_…`). -/

namespace Sys2Proof.Tests

set_option Elab.async false

open Sys2Proof Sys2Proof.Machine

/-! ## Helpers -/

/-- The state of a step that answers a next one. -/
def after (i : Instr) (s : State) : Option State :=
  match exec i s with
  | .next t => some t
  | .fault _ => none
  | .refused _ => none

/-- A fact of the next state. -/
def gives (i : Instr) (s : State) (f : State → Bool) : Bool := (after i s).any f

/-- A command from station 5 on T0 with SEQ 7. -/
def cmd (args : List Byte) : Cmd := ⟨5, .t0, 7, args⟩

/-- Station 5 owns the session and its next SEQ is 7. -/
def owned : State := { State.reset with session := ⟨some 5, 7, none, some 0⟩ }

/-- A pool with `40 - n` READY buffers and `n` FREE ones, for three values of `n`. -/
def pool0 : Vector Buffer 40 := ⟨(List.replicate 40 (⟨.ready, []⟩ : Buffer)).toArray, rfl⟩
def pool2 : Vector Buffer 40 := ⟨(List.replicate 38 (⟨.ready, []⟩ : Buffer) ++ List.replicate 2 Buffer.empty).toArray, rfl⟩
def pool3 : Vector Buffer 40 := ⟨(List.replicate 37 (⟨.ready, []⟩ : Buffer) ++ List.replicate 3 Buffer.empty).toArray, rfl⟩

def bit3 (b : Bool) : List Level := List.replicate 3 (if b then .mark else .space)

/-- The samples of a character: data, mark bit, stop bit. -/
def samplesOf (x : Byte) (m stop : Bool) : List Level :=
  bit3 false ++ [0, 1, 2, 3, 4, 5, 6, 7].flatMap (fun i => bit3 (x.getLsbD i)) ++ bit3 m ++ bit3 stop

/-- The character of those samples at the cold divisor, begun at instant 0. -/
def charOf (x : Byte) (m stop : Bool) : Character := ⟨x, m, !stop, 0, 21120⟩

/-- A port whose character stands sampled whole, its assembler in a state. -/
def sampled (p : Port) (x : Byte) (m stop : Bool) (a : Assembler) (s : State) : State :=
  { s.modPort p fun q => { q with rx := ⟨.char, some 0, samplesOf x m stop, 0⟩, asm := a } with now := 20280 }

/-- A frame from station 9 with a payload, its check appended. -/
def frameOf (dest ctl : Byte) (payload : List Byte) : List Byte := buildFrame dest 9 ctl payload

/-- A frame READY in buffer 0, at the head of the inbound list. -/
def arrived (p : Port) (f : List Byte) (s : State) : State :=
  { s with pool := s.pool.set 0 ⟨.ready, f⟩, inbound := [⟨0, p⟩] }

/-- A frame in COLLECT in buffer 0 at a position. -/
def collecting (pos : Nat) (len : Option Nat) (check : Word16) : Collect := ⟨⟨0, 33⟩, pos, len, 0, check, 0⟩

/-- Buffer 0 is FILLING with bytes. -/
def filling (p : Port) (bytes : List Byte) (s : State) : State :=
  { s with pool := s.pool.set 0 ⟨.filling (.assembler p), bytes⟩ }

/-- The frame 0x10 0x09 0x01 0x00 and its check. -/
def short : List Byte := frameOf 0x10 0x01 []
/-- A character and a half of it: the check as the assembler has it at the last character. -/
def shortCheck : Word16 := crc [0x10, 0x09, 0x01, 0x00]

/-- A descriptor of buffer 0 appended at tick 0. -/
def desc : Descriptor := ⟨0, .forward, none, some 0⟩

/-- A queue of a port, the first buffer HELD. -/
def queued (p : Port) (ds : List Descriptor) (s : State) : State :=
  { s.modPort p fun q => { q with queue := ds } with pool := s.pool.set 0 ⟨.held ds.length, short⟩ }

/-- The poll list holds station 0x21 on B0, enabled, at position 3, and 0x22 on B0 at position 5. -/
def polled : State :=
  let one : PollEntry := ⟨0x21, .b0, true, 2, [0xAA]⟩
  let two : PollEntry := ⟨0x22, .b0, true, 1, []⟩
  { owned with pollList := (owned.pollList.set 3 (some one)).set 5 (some two) }

/-- The scheduler of B0 in a state at position 3. -/
def scheduled (f : Scheduler → Scheduler) (s : State) : State :=
  s.modBranch .b0 fun x => { x with sched := f { x.sched with cursor := some 3, station := some 0x21 } }

/-- Ticks pass. -/
def later (n : Nat) (s : State) : State := { s with now := s.now + n * 18432 }

/-- A route record: 0x10 to 0x1F from every port to B0. -/
def route1 : RouteRecord := ⟨0x10, 0x1F, 63, .forward, 4, none, none⟩

/-- The active bank holds a record at position 2. -/
def routed (r : RouteRecord) (s : State) : State :=
  { s with route := { s.route with active := s.route.active.set 2 (some ⟨r, 41⟩) } }

/-! ## Well-formedness: one ill-formed command for each check -/

theorem test_wf_refuses_59_argument_bytes : (Instr.readStatus (cmd (List.replicate 59 0))).wf = false := by decide
theorem test_wf_takes_58_argument_bytes : (Instr.readStatus (cmd (List.replicate 58 0))).wf = true := by decide
theorem test_wf_refuses_READ_COUNTERS_that_clears : (Instr.readCounters (cmd [6, 0, 1])).wf = false := by decide
theorem test_wf_refuses_READ_COUNTERS_CLEAR_that_does_not : (Instr.readCountersClear (cmd [6, 0, 0])).wf = false := by
  decide
theorem test_wf_refuses_POLL_CONTROL_START_that_stops : (Instr.pollControlStart (cmd [2, 2, 0, 0, 0])).wf = false := by
  decide
theorem test_wf_refuses_POLL_CONTROL_STOP_that_starts : (Instr.pollControlStop (cmd [2, 1, 20, 0, 9])).wf = false := by
  decide
theorem test_no_word_spells_a_command : decodeTableWord 8 0 = none := by decide

/-! ## Formats -/

theorem test_check_of_123456789 : crc [0x31, 0x32, 0x33, 0x34, 0x35, 0x36, 0x37, 0x38, 0x39] = 0x29B1 := by decide +kernel
theorem test_age_1500_is_67 : ageCode 1500 = 67 := by decide +kernel
theorem test_age_saturated_is_239 : ageCode 0xFFFFFFFF = 239 := by decide +kernel
theorem test_divisor_of_two_bytes : divisorOf 0xF1 0x20 = 0x120 := by decide
theorem test_port_set_64_names_no_port : PortSet.ofByte 64 = none := by decide
theorem test_route_record_reads_back :
    (RouteRecord.ofBytes 0x10 0x1F 63 1 4 1 0x31 1 3 8).map RouteRecord.bytes
      = some [0x10, 0x1F, 63, 1, 4, 1, 0x31, 1, 3, 8] := by decide
theorem test_reasons_are_given_in_the_table_order :
    ([⟨0, 3, 0, .drop, 0, none, none⟩, ⟨1, 3, 0, .drop, 1, none, none⟩, ⟨1, 3, 1, .drop, 1, some 4, none⟩,
      ⟨1, 3, 1, .drop, 0, some 4, some (0, 1)⟩, ⟨1, 3, 1, .drop, 0, none, some (0, 1)⟩, route1] : List RouteRecord).map
        (RouteRecord.fault 0xE0)
      = [some .range, some .noIngress, some .egress, some .rewrite, some .source, none] := by decide
theorem test_station_status_layout :
    stationBytes (some ⟨0x21, .b1, true, 2, []⟩) ⟨.missing, 1, some [0xAA, 0xBB], some 1000, 7, 6⟩ 1300
      = [1, 0x21, 3, 2, 1, 1, 2, 1, 0, 0, 1, 44, 0, 0, 0, 7, 0, 0, 0, 6, 0xAA, 0xBB] ++ List.replicate 14 0 := by
  decide +kernel
theorem test_alarm_record_layout :
    alarmBytes 20000 ⟨.lineBreak .b1, 3, 0x0102, 18500, 19995, none⟩ = [2, 3, 3, 1, 2, 67, 5, 0xFF] := by
  decide +kernel
theorem test_rewritten_frame_is_checked_anew :
    sentBytes (some 0x31) (frameOf 0x10 0x01 [7, 8]) = frameOf 0x31 0x01 [7, 8] := by decide +kernel

/-! ## One step of each command -/

theorem test_warm_restart_ends_the_session_and_keeps_the_counters :
    gives .warmRestart { owned with restart := some (.t0, 0), counters := { owned.counters with badDest := 3 } }
      (fun t => t.session.owner.isNone && t.counters.badDest == 3 && t.restart.isNone) = true := by decide +kernel
theorem test_warm_restart_waits_for_its_reply :
    gives .warmRestart { queued .t0 [desc] owned with restart := some (.t0, 0) }
      (fun t => t.restart.isSome && t.session.owner.isSome) = true := by decide +kernel
theorem test_character_delivered_counts_and_stores :
    gives (.characterDelivered .b0) (filling .b0 [0x10] (sampled .b0 0x5A false true (.collect (collecting 1 none 0)) .reset))
      (fun t => (t.pool.get 0).bytes == [0x10, 0x5A] && (t.port .b0).counters.charsIn == 1
        && (t.port .b0).lastActivity == 21120) = true := by decide +kernel
theorem test_an_address_character_takes_the_grant :
    gives (.characterDelivered .t1) (sampled .t1 0x10 true true .hunt .reset)
      (fun t => decide (t.grant = some .t1) && t.freeCount == 39) = true := by decide +kernel
theorem test_the_last_check_character_completes_the_frame :
    gives (.characterDelivered .b0) (filling .b0 (short.take 5)
        (sampled .b0 (loByte shortCheck) false true (.collect (collecting 5 (some 0) shortCheck)) .reset))
      (fun t => decide (t.inbound = [⟨0, .b0⟩]) && (t.port .b0).counters.framesGood == 1) = true := by decide +kernel
theorem test_start_edge_enters_CHAR :
    gives (.startEdge .b0) (State.reset.modPort .b0 fun q => { q with rx := ⟨.idle, some 0, [.space, .mark, .space], 0⟩ })
      (fun t => decide ((t.port .b0).rx.mode = .char)) = true := by decide +kernel
theorem test_false_start_counts_nothing :
    gives (.falseStart .b0) (State.reset.modPort .b0 fun q => { q with rx := ⟨.idle, some 0, [.mark, .mark, .space], 0⟩ })
      (fun t => decide ((t.port .b0).rx.edge = none) && (t.port .b0).counters == PortCounters.zero) = true := by
  decide +kernel
/-- A configuration applied at the delivery of a character whose end lies ahead, at an instant after it (R9, R18). -/
def appliedAt (rxd : Level) (now : Nat) : State :=
  { State.reset.modPort .b1 fun q => { q with rxd := rxd, lastActivity := 20280, charEnd := some 21120 } with now := now }
theorem test_an_application_replaces_the_last_activity :
    gives (.applyPendingConfig .b1)
      { State.reset.modPort .b1 fun q => { q with
          pendingConfig := some ⟨true, 120, 33, 44, true⟩, lastActivity := 21120, charEnd := some 21120 } with now := 20280 }
      (fun t => decide (t.port .b1 = ((appliedAt .mark 20280).modPort .b1 fun q => { q with
        applied := ⟨true, 120, 33, 44, true⟩ }).port .b1)) = true := by decide +kernel
theorem test_the_end_of_a_character_replaces_the_application :
    ((advance (appliedAt .mark 21119)).port .b1).lastActivity = 21120
      ∧ ((advance (appliedAt .mark 21118)).port .b1).lastActivity = 20280
      ∧ ((advance (appliedAt .space 21119)).port .b1).lastActivity = 20280 := by decide +kernel
/-- A line at space for 22 bit times. -/
def broken (p : Port) : State := { State.reset.modPort p fun q => { q with rxd := .space } with now := 42240 }
theorem test_break_entry_raises_an_alarm :
    gives (.breakEntry .b1) (broken .b1) (fun t => decide (t.alarms.map (·.key) = [.lineBreak .b1]) && !t.alertn
      && (t.port .b1).counters.breaks == 1) = true := by decide +kernel
theorem test_break_exit_returns_to_IDLE :
    gives (.breakExit .b1)
      { State.reset.modPort .b1 fun q => { q with rx := ⟨.brk, none, [], 0⟩ } with now := 21120 }
      (fun t => decide ((t.port .b1).rx.mode = .idle)) = true := by decide +kernel
theorem test_return_to_mark_is_activity :
    gives (.returnToMark .b1) (broken .b1) (fun t => decide ((t.port .b1).rxd = .mark)
      && (t.port .b1).lastActivity == 42240) = true := by decide +kernel
theorem test_return_to_space_clears_the_mark_count :
    gives (.returnToSpaceInBreak .b1)
      { State.reset.modPort .b1 fun q => { q with rx := ⟨.brk, none, [], 0⟩ } with now := 500 }
      (fun t => (t.port .b1).rx.since == 500 && decide ((t.port .b1).rxd = .space)) = true := by decide +kernel
/-- A reception whose gap reference is the instant 0, at an instant. -/
def gapped (a : Assembler) (now : Nat) : State := { State.reset.modPort .t0 fun q => { q with asm := a } with now := now }
theorem test_gap_expiry_is_a_runt :
    gives (.gapExpiry .t0) { filling .t0 [0x10] (gapped (.collect (collecting 1 none 0)) 63480) with grant := some .t0 }
      (fun t => (t.port .t0).counters.runt == 1 && t.grant.isNone && t.freeCount == 40) = true := by decide +kernel
theorem test_gap_does_not_expire_a_cycle_early :
    after (.gapExpiry .t0) (gapped (.skip ⟨0, 33⟩) 63479) = some (gapped (.skip ⟨0, 33⟩) 63479) := by decide +kernel
theorem test_duplicate_memory_expires_after_its_window :
    gives .duplicateMemoryExpiry (later 11 { State.reset with dup := some ⟨.t0, 1, 2, 3, 4, 0⟩ })
      (fun t => t.dup.isNone) = true := by decide +kernel
theorem test_disposition_copies_to_the_egress_set_less_the_ingress :
    gives .disposition (routed { route1 with egress := 0b001101, rewrite := some 0x31 } (arrived .t0 short .reset))
      (fun t => decide ((t.pool.get 0).use = .held 2) && (t.port .t0).queue.isEmpty
        && decide ((t.port .b0).queue = [⟨0, .forward, some 0x31, some 0⟩])
        && (t.port .b1).queue.length == 1) = true := by decide +kernel
theorem test_disposition_serves_a_command :
    gives .disposition (arrived .t0 (buildFrame 0xE0 5 0x04 [7, 0x10]) .reset)
      (fun t => decide (t.session.owner = some 5) && t.session.nextSeq == 8
        && (t.pool.get 0).bytes == buildFrame 5 0xE0 0x05 [7, 0x10, 0, 0]) = true := by decide +kernel
theorem test_take_serves_the_queue :
    gives (.take .t0) (queued .t0 [desc] .reset) (fun t => decide ((t.port .t0).tx = .waitLine desc)
      && (t.port .t0).queue.isEmpty) = true := by decide +kernel
theorem test_take_releases_stale_descriptors :
    gives (.take .t0) (later 501 (queued .t0 [desc] .reset)) (fun t => decide ((t.port .t0).tx = .idle)
      && (t.port .t0).counters.staleDiscards == 1 && t.freeCount == 40) = true := by decide +kernel
/-- A descriptor waits for its line. -/
def waiting (now : Nat) : State :=
  { (queued .t0 [desc] .reset).modPort .t0 fun q => { q with tx := .waitLine desc, queue := [] } with now := now }
theorem test_transmit_start_after_the_turnaround :
    gives (.transmitStart .t0) (waiting 84480) (fun t => t.txen .t0 && decide (t.txd .t0 = .space)) = true := by
  decide +kernel
theorem test_transmit_start_not_before :
    after (.transmitStart .t0) (waiting 84479) = some (waiting 84479) := by decide +kernel
/-- Its frame of 6 characters is being sent since the instant 0. -/
def sending (now : Nat) : State :=
  { (waiting 0).modPort .t0 fun q => { q with tx := .sending desc 0 } with now := now }
/-- The straps at ADDR 7, TRANSPARENT high. -/
def straps : Straps := ⟨0x7, true⟩
/-- The part held in reset: RESETn went low while it had a session, a broken line and an alarm. -/
def inReset : State :=
  enterReset { owned.modPort .b1 fun q => { q with rxd := .space } with alarms := [AlarmRecord.created .poolEmpty 0] }
theorem test_reset_low_holds_the_part :
    gives (.coldReset .low straps) { sending 500 with alarms := [AlarmRecord.created .poolEmpty 0] }
      (fun t => t.inReset && t.alertn && !t.txen .t0 && decide (t.txd .t0 = .mark) && t.ownAddr == 0xE0) = true := by
  decide +kernel
theorem test_reset_held_receives_nothing :
    gives (.breakEntry .b1) (later 9 inReset) (fun t => decide (t = later 9 inReset)) = true
      ∧ gives (.openSession (cmd [])) inReset (fun t => decide (t = inReset)) = true := by decide +kernel
theorem test_cold_reset_samples_the_straps :
    gives (.coldReset .high straps) (later 9 inReset) (fun t => !t.inReset && t.ownAddr == 0xE7 && t.tick == 0
      && decide (t.relay.defaultAction = .flood) && t.session.owner.isNone) = true := by decide +kernel
theorem test_end_of_sending_frees_the_buffer :
    gives (.endOfSending .t0) (sending 126720) (fun t => decide ((t.port .t0).tx = .idle) && t.freeCount == 40
      && (t.port .t0).counters.framesOut == 1 && (t.port .t0).lastActivity == 126720) = true := by decide +kernel
/-- A configuration that disables B1 waits. -/
def toDisable : PortConfig := ⟨false, 120, 33, 44, false⟩
theorem test_a_disabling_configuration_flushes_the_queue :
    gives (.applyPendingConfig .b1) ((queued .b1 [desc] .reset).modPort .b1 fun q => { q with pendingConfig := some toDisable })
      (fun t => decide ((t.port .b1).applied = toDisable) && (t.port .b1).queue.isEmpty
        && (t.port .b1).counters.staleDiscards == 1 && t.freeCount == 40) = true := by decide +kernel
/-- B1 with a configuration pending and a start edge taken at an instant, at an instant. -/
def edgeTie (c : PortConfig) (edge now : Nat) : State :=
  { State.reset.modPort .b1 fun q => { q with pendingConfig := some c, rxd := .space, rx := ⟨.idle, some edge, [], edge⟩ } with
    now := now }
theorem test_an_edge_taken_first_keeps_the_record_pending :
    gives (.applyPendingConfig .b1) (edgeTie toDisable 500 500)
      (fun t => t == edgeTie toDisable 500 500 && !(advance t).canApply .b1 && !(advance (advance t)).canApply .b1
        && ((advance t).modPort .b1 PortState.rejectEdge).canApply .b1
        && !((advance t).modPort .b1 PortState.acceptEdge).canApply .b1) = true := by decide +kernel
theorem test_an_earlier_edge_does_not :
    gives (.applyPendingConfig .b1) (edgeTie toDisable 499 500)
      (fun t => decide ((t.port .b1).applied = toDisable)) = true := by decide +kernel
/-- A line of B1 that goes to space at the instant of an application. -/
def tieInput (c : PortConfig) : State :=
  { State.reset.modPort .b1 fun q => { q with pendingConfig := some c } with now := 500, lineInput := [⟨500, .b1, .space⟩] }
theorem test_an_edge_at_a_change_of_the_divisor_begins_a_space_run :
    gives (.applyPendingConfig .b1) (tieInput ⟨true, 240, 33, 44, true⟩) (fun t =>
      decide (((takeInput t).port .b1).rx = ⟨.idle, none, [], 500⟩ ∧ ((takeInput t).port .b1).rxd = .space)) = true := by
  decide +kernel
theorem test_an_edge_at_an_application_that_keeps_the_divisor_is_a_candidate :
    gives (.applyPendingConfig .b1) (tieInput ⟨true, 120, 20, 44, true⟩)
      (fun t => decide (((takeInput t).port .b1).rx.edge = some 500)) = true := by decide +kernel
theorem test_poll_buffer_retry_builds_the_frame :
    gives (.pollBufferRetry .b0) (later 1 (scheduled (fun x => { x with state := .ready }) polled))
      (fun t => decide ((t.sched .b0).buffer = some 0)
        && (t.pool.get 0).bytes == buildFrame 0x21 0xE0 0x02 [0xAA]) = true := by decide +kernel
theorem test_reply_timeout_at_the_miss_limit_is_LOST :
    gives (.replyTimeout .b0)
      { later 20 (scheduled (fun x => { x with state := .await, sentTick := some 0 }) polled) with
        stations := polled.stations.set 3 ⟨.missing, 1, none, none, 1, 0⟩ }
      (fun t => decide ((t.stations.get 3).state = .lost) && (t.stations.get 3).misses == 2
        && decide (t.alarms.map (·.key) = [.stationLost 0x21]) && decide ((t.sched .b0).cursor = some 5)
        && decide ((t.sched .b0).state = .ready)) = true := by decide +kernel
theorem test_new_cycle_begins_when_the_interval_has_passed :
    gives (.newCycle .b0) (later 1000 (scheduled (fun x => { x with state := .waitInterval }) polled))
      (fun t => decide ((t.sched .b0).state = .ready) && (t.sched .b0).cycleStart == 1000) = true := by decide +kernel
/-- A commit is validating. -/
def validating (s : State) : State :=
  { s with
    route := { s.route with commit := .validating 0 }
    deferred := some ⟨6, 5, .t0⟩
    session := { s.session with cache := some ⟨6, .commit, .pending⟩ } }
theorem test_validation_complete_switches_the_banks :
    gives .validationComplete
      (validating { owned with route := { owned.route with staging := owned.route.staging.set 2 (some route1) } })
      (fun t => t.route.epoch == 1 && decide (t.route.active.get 2 = some ⟨route1, 0⟩)
        && decide (t.session.cache = some ⟨6, .commit, .reply ⟨.ok, [1]⟩⟩)) = true := by decide +kernel
theorem test_validation_complete_names_the_first_invalid_record :
    gives .validationComplete
      (validating { owned with route := { owned.route with
        staging := owned.route.staging.set 4 (some { route1 with ingress := 0 }) } })
      (fun t => t.route.epoch == 0 && decide (t.session.cache = some ⟨6, .commit, .reply ⟨.invalidTable, [4, 2, 0]⟩⟩))
      = true := by decide +kernel
theorem test_session_expires_after_its_timeout :
    gives .sessionExpiry (later 60001 owned) (fun t => t.session.owner.isNone && t.counters.sessionExpired == 1) = true := by
  decide +kernel
theorem test_session_does_not_expire_at_its_timeout : after .sessionExpiry (later 60000 owned) = some (later 60000 owned) := by
  decide +kernel

/-- The status and data of the reply that stands last in T0's queue, after its SEQ. -/
def replied (t : State) : List Byte :=
  match (t.port .t0).queue.getLast? with
  | none => []
  | some d => (framePayload (t.pool.get d.buf).bytes).drop 1

theorem test_READ_STATUS :
    gives (.readStatus (cmd [])) owned (fun t => replied t == [1, 0, 0xE0, 0, 0, 5, 40] ++ List.replicate 31 0) = true := by
  decide +kernel
theorem test_READ_RELAY :
    gives (.readRelay (cmd [])) owned (fun t => replied t == [2, 0, 1, 0, 10, 50, 60, 0, 0, 3, 0xE0]) = true := by
  decide +kernel
theorem test_READ_PORT :
    gives (.readPort (cmd [2])) owned
      (fun t => replied t == [3, 0, 2, 1, 0, 120, 33, 44, 0, 0, 0, 0, 0, 0, 0, 0]) = true := by decide +kernel
theorem test_READ_COUNTERS :
    gives (.readCounters (cmd [6, 0, 0])) { owned with counters := { owned.counters with undelivered := 0x102 } }
      (fun t => replied t == [4, 0, 6, 0] ++ List.replicate 34 0 ++ [1, 2] ++ List.replicate 12 0) = true := by
  decide +kernel
theorem test_READ_COUNTERS_CLEAR :
    gives (.readCountersClear (cmd [6, 0, 1])) { owned with counters := { owned.counters with undelivered := 9 } }
      (fun t => t.counters == RelayCounters.zero && (replied t).length == 52) = true := by decide +kernel
theorem test_READ_RECORD :
    gives (.readRecord (cmd [0, 2])) (routed route1 owned)
      (fun t => replied t == [5, 0, 0, 2, 0, 1, 0x10, 0x1F, 63, 1, 4, 0, 0, 0, 0, 0, 0, 0, 0, 41]) = true := by
  decide +kernel
theorem test_READ_POLL_ENTRY :
    gives (.readPollEntry (cmd [3])) polled
      (fun t => replied t == [6, 0, 3, 1, 0x21, 2, 1, 2, 1, 0xAA, 0, 0, 0, 0, 0, 0, 0]) = true := by decide +kernel
theorem test_READ_STATION :
    gives (.readStation (cmd [3])) polled (fun t => replied t == [7, 0, 3, 1, 0x21, 2] ++ List.replicate 33 0) = true := by
  decide +kernel
/-- The alarm list holds a pool alarm. -/
def alarmed : State := { owned with alarms := [⟨.poolEmpty, 3, 4, 0, 0, none⟩] }
theorem test_READ_ALARMS :
    gives (.readAlarms (cmd [0])) alarmed
      (fun t => replied t == [8, 0, 1, 0, 0, 0, 0, 0, 4, 0, 3, 0, 4, 0, 0, 0xFF]) = true := by decide +kernel
theorem test_OPEN_SESSION_from_another_station :
    gives (.openSession { cmd [] with src := 9 }) owned
      (fun t => replied t == [0x10, 5, 5] && decide (t.session = owned.session)) = true := by decide +kernel
theorem test_CLOSE_SESSION :
    gives (.closeSession (cmd [])) owned (fun t => replied t == [0x11, 0] && t.session.owner.isNone) = true := by
  decide +kernel
theorem test_WRITE_RECORD :
    gives (.writeRecord (cmd [95, 0x10, 0x1F, 63, 1, 4, 0, 0, 0, 0, 0])) owned
      (fun t => decide (t.route.staging.get 95 = some route1) && replied t == [0x20, 0]) = true := by decide +kernel
theorem test_CLEAR_RECORD_above_95 :
    gives (.clearRecord (cmd [96])) owned (fun t => replied t == [0x21, 2] && t.session.nextSeq == 8) = true := by
  decide +kernel
theorem test_DISCARD_STAGING :
    gives (.discardStaging (cmd [])) { owned with route := { owned.route with
      staging := owned.route.staging.set 7 (some route1) } } (fun t => (t.route.staging.get 7).isNone) = true := by
  decide +kernel
theorem test_COMMIT_with_a_stale_epoch :
    gives (.commit (cmd [1])) owned (fun t => replied t == [0x23, 8, 0]) = true := by decide +kernel
theorem test_COMMIT_begins_validation :
    gives (.commit (cmd [0])) owned (fun t => t.validating && replied t == []
      && decide (t.session.cache = some ⟨7, .commit, .pending⟩)) = true := by decide +kernel
theorem test_SET_PORT :
    gives (.setPort (cmd [2, 1, 0x10, 60, 20, 30, 1])) owned (fun t => replied t == [0x24, 0, 2, 0]
      && decide ((t.port .b0).applied = ⟨true, 60, 20, 30, true⟩)) = true := by decide +kernel
theorem test_SET_RELAY :
    gives (.setRelay (cmd [2, 1, 0, 9, 8, 1, 5, 2])) { owned with dup := some ⟨.t0, 1, 2, 3, 4, 0⟩ }
      (fun t => decide (t.relay = ⟨.flood, .t1, 0, 9, 8, some 5, false, true⟩) && t.dup.isNone) = true := by
  decide +kernel
theorem test_WRITE_POLL_ENTRY :
    gives (.writePollEntry (cmd [31, 0x21, 3, 1, 2, 2, 7, 8])) owned
      (fun t => decide (t.pollList.get 31 = some ⟨0x21, .b1, true, 2, [7, 8]⟩)) = true := by decide +kernel
theorem test_CLEAR_POLL_ENTRY_while_its_branch_polls :
    gives (.clearPollEntry (cmd [3])) (scheduled (fun x => { x with state := .await }) polled)
      (fun t => replied t == [0x27, 1] && (t.pollList.get 3).isSome) = true := by decide +kernel
theorem test_POLL_CONTROL_START :
    gives (.pollControlStart (cmd [2, 1, 20, 1, 0])) polled
      (fun t => replied t == [0x28, 0, 2, 1] && decide ((t.sched .b0).cursor = some 3)
        && (t.sched .b0).cycleInterval == 256 && decide ((t.sched .b0).buffer = some 0)) = true := by decide +kernel
theorem test_POLL_CONTROL_STOP :
    gives (.pollControlStop (cmd [2, 2, 0, 0, 0])) (scheduled (fun x => { x with state := .await }) polled)
      (fun t => replied t == [0x28, 0, 2, 4]) = true := by decide +kernel
theorem test_ACK_ALARM_of_an_older_generation :
    gives (.ackAlarm (cmd [4, 0, 2])) alarmed (fun t => replied t == [0x29, 12, 3] && !t.alertn) = true := by
  decide +kernel
theorem test_ACK_ALARM :
    gives (.ackAlarm (cmd [4, 0, 3])) alarmed (fun t => replied t == [0x29, 0, 0] && t.alertn) = true := by
  decide +kernel
theorem test_RESTART_waits_for_its_reply :
    gives (.restart (cmd [])) owned (fun t => replied t == [0x2A, 0] && decide (t.restart = some (.t0, 0))
      && decide (t.session.owner = some 5)) = true := by decide +kernel

/-! ## A state and operands for each claim with hypotheses, its clauses at the bounds of their ranges -/

theorem witness_EveryCommandAnswersAtOnce : ∀ r x, Instr.disposition ≠ .coldReset r x := by intro _ _; simp

/-- A start edge at instant 0 on T0, no sample taken yet. -/
def edged (now : Nat) : State :=
  { State.reset.modPort .t0 fun q => { q with rxd := .space, rx := ⟨.idle, some 0, [], 0⟩ } with now := now }
/-- A transition of B1's RXD is due. -/
def lined : State := { State.reset with lineInput := [⟨0, .b1, .space⟩] }

theorem witness_IdleStep_sample :
    (edged 839).pending = [] ∧ (edged 839).dueSteps = [] ∧ (edged 839).openSteps = [] ∧ (edged 839).inputDue = false
      ∧ ((edged 839).port .t0).rx.edge = some 0 ∧ (edged 839).now + 1 = 0 + (16 * 0 + 7) * 120
      ∧ (edged 1079).dueSteps = [] ∧ (edged 1079).now + 1 = 0 + (16 * 0 + 9) * 120
      ∧ ((edged 839).port .t0).applied.divisor.toNat = 120 ∧ ((edged 839).port .t0).rx.samples.length < 33
      ∧ ((edged 839).port .t1).rx.edge = none := by decide +kernel
theorem witness_IdleStep_no_sample :
    ((edged 719).dueSteps = [] ∧ (edged 719).openSteps = [] ∧ (edged 719).inputDue = false)
      ∧ ∀ n j, 7 ≤ j → j ≤ 9 → (edged 719).now + 1 ≠ 0 + (16 * n + j) * 120 :=
  ⟨by decide +kernel, fun n j _ _ => by show 719 + 1 ≠ _; omega⟩
theorem witness_IdleStep_input :
    lined.pending = [] ∧ lined.dueSteps = [] ∧ lined.openSteps = [] ∧ lined.lineInput = ⟨0, .b1, .space⟩ :: [] ∧ 0 ≤ lined.now
      ∧ lined.listening .b1 = true ∧ (lined.port .b1).rx.mode = .idle ∧ (lined.port .b1).rx.edge = none
      ∧ (lined.port .b1).rxd = .mark := by decide +kernel

/-- Steps that are due, open, or both: a break on B1, a frame that waits to be disposed of. -/
theorem witness_IdleStep_steps :
    Instr.breakEntry .b1 ∈ (broken .b1).dueSteps ∧ Instr.disposition ∈ (arrived .t0 short .reset).openSteps := by
  decide +kernel
/-- A character's end lies ahead at 21118 and is reached from 21119, at mark and at space. -/
theorem witness_IdleStep_end : ∀ l, l ∈ [Level.mark, .space] →
    (∀ i, ¬ (appliedAt l 21119).Due i) ∧ (appliedAt l 21119).lineInput = []
      ∧ ((appliedAt l 21119).port .b1).charEnd = some 21120 ∧ 21120 ≤ (appliedAt l 21119).now + 1
      ∧ ((appliedAt l 21119).port .b1).rxd = l
      ∧ (∀ i, ¬ (appliedAt l 21118).Due i) ∧ (appliedAt l 21118).now + 1 < 21120 := by
  intro l hl
  have h : (appliedAt l 21119).dueSteps = [] ∧ (appliedAt l 21118).dueSteps = [] := by
    revert l; decide +kernel
  refine ⟨fun i hi => ?_, rfl, rfl, Nat.le_refl _, rfl, fun i hi => ?_, by show 21118 + 1 < 21120; decide⟩
  · have := (dueSteps_iff _ i).2 hi; rw [h.1] at this; cases this
  · have := (dueSteps_iff _ i).2 hi; rw [h.2] at this; cases this
/-- Nothing is due, and time goes on; the head frame is open at 146 cycles and due at 147; a tie is remembered. -/
theorem witness_IdleStep_idle :
    ((∀ i, ¬ (edged 839).Due i) ∧ ∀ i rest, (edged 839).lineInput = i :: rest → (edged 839).now < i.instant)
      ∧ (let s := { arrived .t0 short .reset with now := 146 }; s.Open .disposition ∧ ¬ s.Due .disposition)
      ∧ { arrived .t0 short .reset with now := 147 }.Due .disposition
      ∧ (let s := edgeTie toDisable 500 500
         (s.port .b1).pendingConfig ≠ none ∧ s.Rested .b1 ∧ (s.port .b1).rx.edge = some s.now
           ∧ ∀ i, ¬ s.Due i) := by
  refine ⟨⟨fun i h => ?_, fun i r h => (by cases h)⟩, ⟨⟨?_, ?_⟩, ?_⟩, ⟨?_, ?_⟩, ?_, (rested_iff _ _).1 ?_, ?_, fun i h => ?_⟩
  · have h := (dueSteps_iff _ i).2 h
    rw [show (edged 839).dueSteps = [] by decide +kernel] at h; cases h
  · simp [arrived]
  · decide +kernel
  · rintro ⟨_, h⟩; revert h; decide +kernel
  · simp [arrived]
  · decide +kernel
  · decide +kernel
  · decide +kernel
  · decide +kernel
  · have h := (dueSteps_iff _ i).2 h
    rw [show (edgeTie toDisable 500 500).dueSteps = [] by decide +kernel] at h; cases h
/-- The transitions of a line: in BREAK to mark and from it, in CHAR, on a port that does not listen. -/
theorem witness_IdleStep_lines :
    (let s := State.reset.modPort .b1 fun q => { q with rxd := .space, rx := ⟨.brk, none, [], 0⟩ }
     s.listening .b1 = true ∧ (s.port .b1).rx.mode ≠ .char ∧ (s.port .b1).rxd = .space)
      ∧ (let s := State.reset.modPort .b1 fun q => { q with rx := ⟨.brk, none, [], 0⟩ }
         s.listening .b1 = true ∧ (s.port .b1).rx.mode ≠ .idle ∧ (s.port .b1).rxd = .mark)
      ∧ (let s := State.reset.modPort .b1 fun q => { q with rxd := .space, rx := ⟨.char, some 0, [], 0⟩ }
         s.listening .b1 = true ∧ (s.port .b1).rx.mode = .char ∧ (s.port .b1).rxd = .space)
      ∧ (State.reset.modPort .b1 fun q => { q with applied := toDisable }).listening .b1 = false := by decide +kernel

theorem witness_PinsFollowTheState :
    ((sending 0).port .t0).tx = .sending desc 0 ∧ 0 < (sending 0).descLength desc ∧ 5 < (sending 0).descLength desc
      ∧ 16 * ((sending 0).port .t0).applied.divisor.toNat = 1920
      ∧ (sending 0).now = 0 + (11 * 0 + 0) * 1920 + 0
      ∧ (sending 23040).now = 0 + (11 * 1 + 1) * 1920 + 0
      ∧ (sending 38399).now = 0 + (11 * 1 + 8) * 1920 + 1919
      ∧ (sending 17280).now = 0 + (11 * 0 + 9) * 1920 + 0
      ∧ (sending 126719).now = 0 + (11 * 5 + 10) * 1920 + 1919
      ∧ (sending 0).inReset = false ∧ inReset.inReset = true
      ∧ (State.reset.port .t1).tx = .idle := by decide +kernel

/-- T0's queue is full, and the alarm list holds sixteen records. -/
def full : State :=
  let records : List AlarmRecord := (List.range 16).map fun i => ⟨.stationLost (BitVec.ofNat 8 (i + 1)), 1, 1, 0, 0, none⟩
  { State.reset.modPort .t0 fun q => { q with queue := List.replicate 8 desc } with
    alarms := records, pending := [.breakEntry .t0] }
theorem witness_EveryStepKeepsBounds : full.Bounded ∧ ∃ t, step full = .next t := by
  refine ⟨⟨fun p => ?_, ?_⟩, _, rfl⟩
  · cases p <;> decide +kernel
  · decide +kernel

/-- A valid record stands in the active bank, and a commit is validating. -/
def tabled : State := { validating (routed route1 owned) with pending := [.validationComplete] }
theorem witness_EveryStepKeepsTableValid : tabled.TableValid ∧ ∃ t, step tabled = .next t := by
  have h : ∀ i : Fin 96, tabled.route.active.get i = if i = 2 then some ⟨route1, 41⟩ else none := by decide +kernel
  refine ⟨fun i a e => ?_, _, rfl⟩
  rw [h] at e
  split at e <;> cases e
  simp [RouteRecord.Valid, route1]

/-- No session is open, and the banks are equal. -/
def sessionless : State := { routed route1 .reset with
  route := { (routed route1 .reset).route with staging := State.reset.route.staging.set 2 (some route1) }
  pending := [.openSession (cmd [])] }
theorem witness_EveryStepKeepsStagingFollows :
    sessionless.StagingFollows ∧ sessionless.session.owner = none ∧ ∃ t, step sessionless = .next t :=
  ⟨fun _ => ⟨rfl, by decide +kernel⟩, rfl, _, rfl⟩

/-- T0 holds the grant and is in COLLECT. -/
def granted : State :=
  { filling .t0 [0x10] (State.reset.modPort .t0 fun q => { q with asm := .collect (collecting 1 none 0) }) with
    grant := some .t0, pending := [.breakEntry .t0] }
theorem witness_EveryStepKeepsGrantHeld : granted.GrantHeld ∧ ∃ t, step granted = .next t := by
  refine ⟨fun t => ?_, _, rfl⟩
  cases t
  · exact ⟨fun _ => ⟨_, rfl⟩, fun _ => rfl⟩
  · constructor
    · intro h; cases h
    · rintro ⟨c, h⟩; exact Assembler.noConfusion h

/-- A buffer HELD once, by a descriptor that T0 may take. -/
def held : State := { queued .t0 [desc] .reset with pending := [.take .t0] }
theorem witness_EveryStepKeepsPoolSound : held.PoolSound ∧ ∃ t, step held = .next t := by
  have use : ∀ b : BufId, (held.pool.get b).use = if b = 0 then .held 1 else .free := by decide +kernel
  have refs : ∀ b : BufId, held.refs b = if b = 0 then 1 else 0 := by decide +kernel
  have asm : ∀ p, (held.port p).asm = .hunt := by intro p; cases p <;> rfl
  have sched : ∀ x, (held.branch x) = BranchState.cold := by intro x; cases x <;> rfl
  have slot : ∀ p, (held.port p).tx.slot = none := by intro p; cases p <;> rfl
  refine ⟨⟨fun b => ?_, fun p c h => ?_, fun x b h => ?_, fun e h => ?_, fun p => ?_, fun x => ⟨fun d h => ?_, fun h => ?_, fun h => ?_⟩⟩,
    _, rfl⟩
  · unfold State.BufferSound
    rw [use, refs]
    split_ifs <;> simp
  · rw [asm] at h; cases h
  · rw [sched] at h; cases h
  · have h' : e ∈ ([] : List Inbound) := h
    simp at h'
  · cases p <;> decide +kernel
  · rw [slot] at h; cases h
  · rw [sched] at h; exact absurd rfl h
  · rw [sched] at h; cases h

theorem witness_TableChangesOnlyByCommit :
    (∃ t, exec .disposition tabled = .next t) ∧ (∃ t, exec .validationComplete tabled = .next t)
      ∧ (∀ r x, Instr.validationComplete ≠ .coldReset r x) ∧ tabled.route.commit ≠ .idle :=
  ⟨⟨_, rfl⟩, ⟨_, rfl⟩, by intro _ _; simp, by decide +kernel⟩

theorem witness_ColdReset :
    inReset.Held ∧ inReset.pending = [] ∧ State.reset.inReset = false ∧ (∀ r x, Instr.disposition ≠ .coldReset r x) := by
  refine ⟨⟨rfl, fun p => ?_, fun b => ?_, rfl, ⟨rfl, rfl⟩, ⟨rfl, rfl⟩⟩, rfl, rfl, by intro _ _; simp⟩
  · cases p <;> decide +kernel
  · cases b <;> decide +kernel

theorem witness_WarmRestart :
    ({ State.reset with restart := some (.t0, 0) } : State).restart = some (.t0, 0)
      ∧ ∀ d, d ∈ (({ State.reset with restart := some (.t0, 0) } : State).port .t0).descriptors → d.buf ≠ 0 := by
  decide +kernel

theorem witness_StartEdgeDecision :
    2 ≤ [Level.space, .mark, .space].count .space ∧ 2 ≤ [Level.mark, .mark, .space].count .mark
      ∧ (((edged 0).modPort .t0 fun q => { q with rx := ⟨.idle, some 0, [.space, .mark, .space], 0⟩ }).port .t0).rx
          = ⟨.idle, some 0, [.space, .mark, .space], 0⟩ := by decide +kernel
theorem witness_StartEdgeDecision_not_before :
    ((edged 900).port .t0).rx.mode = .idle ∧ ((edged 900).port .t0).rx.samples.length ≠ 3
      ∧ (State.reset.port .t0).rx.edge = none := by decide +kernel

theorem witness_CharacterBits : (samplesOf 0x81 true false).length = 33 := by decide +kernel

theorem witness_CharacterDelivered :
    ((sampled .b0 0x81 true false .hunt .reset).port .b0).dueCharacter = some (charOf 0x81 true false) := by decide +kernel
theorem witness_CharacterDelivered_not_before :
    let s := State.reset.modPort .b0 fun q => { q with rx := ⟨.char, some 0, (samplesOf 0x5A false true).take 32, 0⟩ }
    (s.port .b0).rx.mode = .char ∧ (s.port .b0).rx.samples.length = 32 ∧ (s.port .b0).dueCharacter = none := by
  decide +kernel

/-- The broken line of B1, its assembler in a state. -/
def brokenIn (a : Assembler) : State := (broken .b1).modPort .b1 fun q => { q with asm := a }
theorem witness_BreakEntry : ∀ a, a ∈ [Assembler.hunt, .skip ⟨0, 33⟩, .shadow ⟨⟨0, 33⟩, 2, none⟩, .collect (collecting 1 none 0)] →
    ((brokenIn a).port .b1).asm = a ∧ (brokenIn a).listening .b1 = true ∧ ((brokenIn a).port .b1).rx.mode ≠ .brk
      ∧ ((brokenIn a).port .b1).rxd = .space
      ∧ ((brokenIn a).port .b1).rx.since + 22 * (16 * ((brokenIn a).port .b1).applied.divisor.toNat) = (brokenIn a).now := by
  decide +kernel
theorem witness_BreakEntry_not_before :
    (let s := { broken .b1 with now := 42239 }
     s.listening .b1 = true ∧ (s.port .b1).rxd = .space
       ∧ s.now < (s.port .b1).rx.since + 22 * (16 * (s.port .b1).applied.divisor.toNat))
      ∧ ((broken .b1).port .t0).rxd = .mark ∧ inReset.listening .b1 = false := by decide +kernel

/-- B1 in BREAK, its line at a level since instant 0. -/
def inBreak (l : Level) : State :=
  { State.reset.modPort .b1 fun q => { q with rxd := l, rx := ⟨.brk, none, [], 0⟩ } with now := 21120 }
theorem witness_LineReturns :
    (inBreak .mark).listening .b1 = true ∧ ((inBreak .mark).port .b1).rx.mode = .brk
      ∧ ((inBreak .mark).port .b1).rxd = .mark
      ∧ ((inBreak .mark).port .b1).rx.since + 11 * (16 * ((inBreak .mark).port .b1).applied.divisor.toNat) = (inBreak .mark).now
      ∧ ((inBreak .space).port .b1).rxd = .space ∧ ((inBreak .space).port .b1).rx.mode = .brk
      ∧ ((broken .b1).port .b1).rx.mode = .idle ∧ ((broken .b1).port .b1).rx.edge = none := by decide +kernel
theorem witness_LineReturns_not_before :
    (let s := { inBreak .mark with now := (inBreak .mark).now - 1 }
     s.listening .b1 = true ∧ (s.port .b1).rx.mode = .brk ∧ (s.port .b1).rxd = .mark
       ∧ s.now < (s.port .b1).rx.since + 11 * (16 * (s.port .b1).applied.divisor.toNat))
      ∧ ((edged 900).port .t0).rx.mode = .idle ∧ ((edged 900).port .t0).rx.edge ≠ none := by decide +kernel

/-- A character due on B0, its assembler in a state. -/
def due (x : Byte) (m stop : Bool) (a : Assembler) : State := sampled .b0 x m stop a .reset
theorem due_character (x : Byte) (m stop : Bool) (a : Assembler)
    (h : ((due x m stop .hunt).port .b0).dueCharacter = some (charOf x m stop)) :
    ((due x m stop a).port .b0).dueCharacter = some (charOf x m stop) ∧ ((due x m stop a).port .b0).asm = a := ⟨h, rfl⟩
theorem witness_CharacterStoredNowhere :
    ((due 60 false true .hunt).port .b0).dueCharacter = some (charOf 60 false true)
      ∧ ((due 61 false true .hunt).port .b0).dueCharacter = some (charOf 61 false true)
      ∧ ((due 9 true false .hunt).port .b0).dueCharacter = some (charOf 9 true false)
      ∧ (charOf 60 false true).isAddress = false ∧ (charOf 9 true false).isAddress = false
      ∧ (charOf 9 true false).errored = true
      ∧ (3 + 1 = 4 ∧ 60 < (charOf 61 false true).data.toNat)
      ∧ ¬ ((charOf 60 false true).errored = true) ∧ ¬ (60 < (charOf 60 false true).data.toNat)
      ∧ 3 + 1 ≠ 6 + (charOf 60 false true).data.toNat ∧ 65 + 1 = 6 + 60 ∧ 64 + 1 ≠ 6 + 60 := by decide +kernel

/-- An address character due on a port, a pool, the assembler in HUNT. -/
def address (p : Port) (pool : Vector Buffer 40) : State := { sampled p 0x10 true true .hunt .reset with pool := pool }
theorem witness_FrameBeginsOnBranch :
    ((address .b0 pool3).port .b0).dueCharacter = some (charOf 0x10 true true) ∧ (charOf 0x10 true true).isAddress = true
      ∧ ((address .b0 pool3).port .b0).asm = .hunt ∧ (address .b0 pool3).freeCount = 3
      ∧ ((address .b0 pool2).port .b0).dueCharacter = some (charOf 0x10 true true) ∧ (address .b0 pool2).freeCount = 2
      ∧ ((due 0x10 true true (.skip ⟨0, 33⟩)).port .b0).asm = .skip ⟨0, 33⟩ := by decide +kernel

/-- Address characters due on both trunks. -/
def tied : State := sampled .t0 0x11 true true .hunt (address .t1 pool3)
theorem witness_FrameBeginsOnTrunk :
    -- the grant is held
    ({ address .t1 pool3 with grant := some .t0 }.port .t1).dueCharacter = some (charOf 0x10 true true)
      -- a tie that T1 loses, T0 preferred
      ∧ (tied.port .t1).dueCharacter = some (charOf 0x10 true true) ∧ tied.grant = none
      ∧ Trunk.t1 ≠ tied.relay.preferred ∧ (tied.port tied.relay.preferred.port).asm = .hunt
      ∧ (tied.port tied.relay.preferred.port).dueCharacter = some (charOf 0x11 true true)
      ∧ (charOf 0x11 true true).isAddress = true
      -- the same, T1 in SHADOW, T0 in SKIP or in SHADOW
      ∧ ((sampled .t1 0x10 true true (.shadow ⟨⟨0, 33⟩, 2, none⟩) tied).port .t1).asm = .shadow ⟨⟨0, 33⟩, 2, none⟩
      ∧ ((sampled .t0 0x11 true true (.skip ⟨0, 33⟩) tied).port .t0).asm = .skip ⟨0, 33⟩
      -- T0's request was given at this instant and ended NO_BUFFER
      ∧ ({ address .t1 pool2 with given := some (.t0, 20280) } : State).given = some (.t0, (address .t1 pool2).now)
      ∧ (address .t1 pool2).now = 20280
      -- T0's due character is no address character
      ∧ ((sampled .t0 0x11 false true .hunt (address .t1 pool3)).port .t0).dueCharacter = some (charOf 0x11 false true)
      ∧ (charOf 0x11 false true).isAddress = false
      -- a request that is given, from each trunk, with 3 FREE and with 2
      ∧ ((address .t0 pool3).port .t0).dueCharacter = some (charOf 0x10 true true)
      ∧ Trunk.t0 = (address .t0 pool3).relay.preferred ∧ (address .t0 pool3).freeCount = 3
      ∧ (address .t1 pool2).grant = none ∧ (address .t1 pool2).given = none
      ∧ ((address .t1 pool2).port .t0).dueCharacter = none ∧ (address .t1 pool2).freeCount = 2 := by decide +kernel

theorem witness_CharacterStored :
    ((due 60 false true (.collect (collecting 3 none 0))).port .b0).dueCharacter = some (charOf 60 false true)
      ∧ ((due 60 false true (.collect (collecting 3 none 0))).port .b0).asm = .collect (collecting 3 none 0)
      ∧ (charOf 60 false true).errored = false ∧ (charOf 60 false true).markBit = false
      ∧ ¬ (60 < (charOf 60 false true).data.toNat) ∧ 3 + 1 ≠ 6 + (charOf 60 false true).data.toNat
      ∧ (collecting 64 (some 60) 0).len = some 60 ∧ 64 + 1 ≠ 6 + 60 := by decide +kernel

theorem witness_FailedReceptions :
    (charOf 9 true false).errored = true
      ∧ ((charOf 9 true true).errored = false ∧ (charOf 9 true true).markBit = true)
      ∧ ((charOf 61 false true).errored = false ∧ (charOf 61 false true).markBit = false
        ∧ (collecting 3 none 0).pos + 1 = 4 ∧ 60 < (charOf 61 false true).data.toNat)
      ∧ ((collecting 5 (some 0) shortCheck).len = some 0 ∧ (collecting 5 (some 0) shortCheck).pos + 1 = 6 + 0
        ∧ word16 (frameByte (short.take 5 ++ [loByte shortCheck + 1]) (4 + frameLen (short.take 5 ++ [loByte shortCheck + 1])))
          (frameByte (short.take 5 ++ [loByte shortCheck + 1]) (5 + frameLen (short.take 5 ++ [loByte shortCheck + 1])))
            ≠ shortCheck) := by decide +kernel

/-- The last check character of the short frame due on a port, the frame in COLLECT in buffer 0. -/
def lastOf (p : Port) : State :=
  filling p (short.take 5) (sampled p (loByte shortCheck) false true (.collect (collecting 5 (some 0) shortCheck)) .reset)
theorem witness_CompletedFrame :
    (∀ p, p ∈ Port.all → ((lastOf p).port p).dueCharacter = some (charOf (loByte shortCheck) false true)
      ∧ ((lastOf p).port p).asm = .collect (collecting 5 (some 0) shortCheck))
      ∧ ((lastOf .b0).pool.get 0).bytes ++ [loByte shortCheck] = short
      ∧ word16 (frameByte short (4 + frameLen short)) (frameByte short (5 + frameLen short)) = shortCheck
      ∧ Port.b0.trunk? = none ∧ Port.t0.trunk? = some .t0
      ∧ { lastOf .t0 with dup := some ⟨.t1, 0x10, 9, 0, shortCheck, 0⟩ }.isDuplicate .t0 short shortCheck 10 = true
      ∧ { lastOf .t0 with dup := some ⟨.t1, 0x10, 9, 0, shortCheck, 0⟩ }.isDuplicate .t0 short shortCheck 11 = false := by
  decide +kernel

theorem witness_Expiries :
    (∀ a, a ∈ [Assembler.skip ⟨0, 33⟩, .shadow ⟨⟨0, 33⟩, 2, none⟩, .collect (collecting 1 none 0)] →
      ((gapped a 63480).port .t0).asm = a ∧ a.gap? = some ⟨0, 33⟩ ∧ ((gapped a 63480).port .t0).rx.edge = none)
      ∧ 0 + (16 * (33 : Byte).toNat + 1) * ((gapped .hunt 0).port .t0).applied.divisor.toNat = 63480
      -- a start edge one cycle before the expiry, and one at it
      ∧ (((edged 63480).modPort .t0 fun q => { q with asm := .skip ⟨0, 33⟩, rx := ⟨.char, some 63479, [], 0⟩ }).port .t0).rx.edge
          = some 63479
      ∧ ((edged 63480).modPort .t0 fun q => { q with asm := .skip ⟨0, 33⟩, rx := ⟨.idle, some 63480, [], 0⟩ }).now = 63480
      -- the duplicate memory: a window of 10 ticks that ended, with no collection, a later and an earlier one
      ∧ (later 11 State.reset).tick = 11 ∧ (later 10 State.reset).tick = 10
      ∧ (State.reset.port Trunk.t0.other.port).asm = .hunt
      ∧ 0 + State.reset.relay.mirrorWindow.toNat = 10
      ∧ 10 < ({ collecting 1 none 0 with startTick := 11 } : Collect).startTick
      ∧ ({ collecting 1 none 0 with startTick := 10 } : Collect).startTick ≤ 10 := by decide +kernel

theorem witness_PoolRequestsAndReleases :
    (∃ b t, requestBuffer (.assembler .t0) { State.reset with pool := pool3 } = some (b, t))
      ∧ (∃ b t, requestBuffer .management { State.reset with pool := pool2 } = some (b, t))
      ∧ (∀ p, Filler.management ≠ .assembler p)
      ∧ ((queued .t0 [desc, desc] .reset).pool.get 0).use = .held (0 + 2)
      ∧ ((queued .t0 [desc] .reset).pool.get 0).use = .held 1 :=
  ⟨⟨37, { State.reset with pool := pool3.set 37 ⟨.filling (.assembler .t0), []⟩ }, by decide +kernel⟩,
   ⟨38, { State.reset with pool := pool2.set 38 ⟨.filling .management, []⟩ }, by decide +kernel⟩,
   by intro _; simp, by decide +kernel, by decide +kernel⟩

theorem witness_Lookup :
    (routed route1 .reset).route.lookup 0x10 9 .t0 = some (2, ⟨route1, 41⟩)
      ∧ (routed route1 .reset).route.lookup 0x1F 9 .t0 = some (2, ⟨route1, 41⟩)
      ∧ (routed route1 .reset).route.lookup 0x20 9 .t0 = none
      ∧ (routed route1 .reset).route.lookup 0x0F 9 .t0 = none := by decide +kernel

theorem witness_ValidationFindsFirstInvalid :
    ({ RouteTable.cold with staging := RouteTable.cold.staging.set 4 (some { route1 with ingress := 0 }) }).firstInvalid 0xE0
      = some (4, .noIngress) ∧ RouteTable.cold.firstInvalid 0xE0 = none
      ∧ (∀ x, x ∈ ([⟨⟨0, 3, 0, .drop, 0, none, none⟩, .range⟩, ⟨⟨3, 2, 1, .drop, 0, none, none⟩, .range⟩,
          ⟨⟨1, 1, 1, .forward, 0, none, none⟩, .egress⟩, ⟨⟨1, 1, 1, .drop, 1, none, none⟩, .egress⟩,
          ⟨⟨1, 1, 1, .forward, 1, some 0xE0, none⟩, .rewrite⟩, ⟨⟨1, 1, 1, .forward, 1, some 254, some (9, 8)⟩, .source⟩]
            : List (RouteRecord × Reason)) →
        ({ RouteTable.cold with staging := RouteTable.cold.staging.set 95 (some x.1) } : RouteTable).firstInvalid 0xE0
          = some (95, x.2)) := by decide +kernel

theorem witness_DispositionOfLocalFrames :
    (∀ p f, (arrived p f State.reset).inbound = ⟨0, p⟩ :: [])
      ∧ (∀ p f, ((arrived p f State.reset).pool.get 0).bytes = f)
      ∧ frameDest (frameOf 0 1 []) = 0
      ∧ (frameDest (frameOf 0xE0 1 []) = State.reset.ownAddr ∧ frameCtl (frameOf 0xE0 1 []) = 1)
      ∧ (frameCtl (frameOf 0xE0 4 [7]) = 0x04 ∧ (State.reset.port .b0).applied.mgmtAllowed = false
        ∧ (State.reset.port .t0).applied.mgmtAllowed = true ∧ framePayload (frameOf 0xE0 4 [7]) = [7])
      ∧ (framePayload (frameOf 0xE0 4 [7, 0x30]) = 7 :: 0x30 :: [] ∧ Command.ofCode 0x30 = none
        ∧ State.reset.restart = none)
      ∧ (frameCtl (frameOf 0xE0 3 []) = 0x03 ∧ Port.t0.branch? = none ∧ Port.b0.branch? = some .b0
        ∧ (State.reset.sched .b0).state = .stopped ∧ (State.reset.sched .b0).station = none) :=
  ⟨fun _ _ => rfl, fun _ _ => rfl, by decide +kernel, by decide +kernel, by decide +kernel,
   by decide +kernel, by decide +kernel⟩

theorem witness_DispositionRunsTheCommand :
    (arrived .t0 (frameOf 0xE0 4 [7, 0x10, 3]) .reset).inbound = ⟨0, .t0⟩ :: []
      ∧ frameDest (frameOf 0xE0 4 [7, 0x10, 3]) = State.reset.ownAddr ∧ frameCtl (frameOf 0xE0 4 [7, 0x10, 3]) = 0x04
      ∧ (State.reset.port .t0).applied.mgmtAllowed = true ∧ State.reset.inReset = false
      ∧ framePayload (frameOf 0xE0 4 [7, 0x10, 3]) = 7 :: 0x10 :: [3] ∧ Command.ofCode 0x10 = some .openSession := by
  decide +kernel

/-- A frame for B0 and T1 at the head of the inbound list, B0's queue holding a number of descriptors. -/
def toForward (n : Nat) : State :=
  routed { route1 with egress := 0b000110 }
    (arrived .t0 short (State.reset.modPort .b0 fun q => { q with queue := List.replicate n desc }))
theorem witness_DispositionForwards :
    (toForward 7).inbound = ⟨0, .t0⟩ :: [] ∧ frameDest short ≠ 0 ∧ frameDest short ≠ State.reset.ownAddr
      ∧ (lookUp (frameDest short) (frameSrc short) .t0 { toForward 7 with inbound := [], headSince := 0 }).1
          = .forward 0b000110 none
      ∧ (lookUp 0x20 (frameSrc short) .t0 { toForward 7 with inbound := [], headSince := 0 }).1 = .drop
      ∧ ((toForward 7).port .b0).queue.length < 8 ∧ ((toForward 7).port .t1).queue.length < 8
      ∧ ((toForward 8).port .b0).queue.length = 8
      ∧ (PortSet.mem 0b000110 .b0 && decide (Port.b0 ≠ .t0) && ((toForward 8).port .b0).applied.enabled) = true
      ∧ (PortSet.mem 0b000110 .b1 && decide (Port.b1 ≠ .t0) && ((toForward 8).port .b1).applied.enabled) = false := by
  decide +kernel

/-- B0's queue is full and T1's has room; notifications are off: one copy stands. -/
theorem witness_DispositionForwards_partly :
    (toForward 8).relay.notifyAddr = none ∧ ((toForward 8).port .t1).queue.length < 8
      ∧ Port.all.countP (fun q => (PortSet.mem 0b000110 q && decide (q ≠ .t0) && ((toForward 8).port q).applied.enabled)
          && decide (((toForward 8).port q).queue.length < 8)) = 1
      ∧ gives .disposition (toForward 8) (fun t => decide ((t.pool.get 0).use = .held 1)
          && decide (t.alarms.map (·.key) = [.queueOverflow .b0])) = true := by decide +kernel

/-- A second descriptor, appended at tick 1. -/
def desc1 : Descriptor := ⟨0, .forward, none, some 1⟩
theorem witness_TakeServesQueue :
    (∀ p, p ∈ [Port.t0, .b0] →
      let s := later 501 (queued p [desc, desc1] .reset)
      (s.port p).tx = .idle ∧ (s.port p).applied.enabled = true ∧ (s.port p).pendingConfig = none
        ∧ (s.port p).queue = [desc] ++ desc1 :: [] ∧ s.tick = 501 ∧ 10 * s.relay.residence.toNat = 500)
      ∧ (desc.enqueued = some 0 ∧ 500 < 501 - 0) ∧ (desc1.enqueued = some 1 ∧ 501 - 1 ≤ 500)
      ∧ (State.reset.branch .b0).outstanding = false ∧ (State.reset.sched .b0).buffer = none
      ∧ ((later 501 (queued .t0 [desc] .reset)).port .t0).queue = [desc] ∧ [desc] ≠ [] := by decide +kernel
/-- The four reasons why a take takes nothing: a full slot, a pending configuration, an outstanding poll, no claimant. -/
theorem witness_TakeServesQueue_nothing :
    ((waiting 0).port .t0).tx ≠ .idle
      ∧ (((queued .b1 [desc] .reset).modPort .b1 fun q => { q with pendingConfig := some toDisable }).port .b1).pendingConfig ≠ none
      ∧ Port.b1.branch? = some .b1
      ∧ ((State.reset.modBranch .b1 fun x => { x with outstanding := true }).branch .b1).outstanding = true
      ∧ (State.reset.port .b1).queue = [] ∧ (State.reset.sched .b1).buffer = none := by decide +kernel

/-- B0's scheduler holds a built frame in buffer 1; its queue holds descriptors. -/
def built (enabled : Bool) (ds : List Descriptor) (k : Claimant) : State :=
  let s := scheduled (fun x => { x with state := .ready, buffer := some 1 }) (queued .b0 ds polled)
  later 501 ((s.modPort .b0 fun q => { q with applied := { q.applied with enabled := enabled } }).modBranch .b0
    fun x => { x with lastServed := k })
theorem witness_TakeServesPoll :
    ((built true [] .queue).port .b0).tx = .idle ∧ ((built true [] .queue).port .b0).pendingConfig = none
      ∧ ((built true [] .queue).branch .b0).outstanding = false ∧ ((built true [] .queue).sched .b0).buffer = some 1
      ∧ ((built true [] .queue).port .b0).applied.enabled = true ∧ ((built true [] .queue).port .b0).queue = []
      ∧ ((built true [desc1] .queue).branch .b0).lastServed = .queue
      ∧ ((built true [desc] .poll).branch .b0).lastServed = .poll ∧ ((built true [desc] .poll).port .b0).queue = [desc]
      ∧ 10 * (built true [desc] .poll).relay.residence.toNat < (built true [desc] .poll).tick - 0
      ∧ ((built false [] .queue).port .b0).applied.enabled = false
      ∧ ((built false [] .queue).sched .b0).cursor = some 3 := by decide +kernel

/-- A POLL frame of buffer 0 being sent on B0 since the instant 0. -/
def pollSending : State :=
  let s := scheduled (fun x => { x with state := .ready }) (queued .b0 [] polled)
  { s.modPort .b0 fun q => { q with tx := .sending ⟨0, .poll, none, none⟩ 0 } with now := 126720 }
theorem witness_Sending :
    ((waiting 84480).port .t0).tx = .waitLine desc ∧ ((waiting 84480).port .t0).rx.mode = .idle
      ∧ ((waiting 84480).port .t0).rxd = .mark
      ∧ ((waiting 84480).port .t0).lastActivity + ((waiting 84480).port .t0).applied.turnaround.toNat
          * (16 * ((waiting 84480).port .t0).applied.divisor.toNat) = (waiting 84480).now
      ∧ (waiting 84479).now < 84480
      ∧ ((sending 126720).port .t0).tx = .sending desc 0
      ∧ 0 + 11 * (sending 126720).descLength desc * (16 * ((sending 126720).port .t0).applied.divisor.toNat) = 126720
      ∧ desc.origin ≠ .poll
      ∧ (pollSending.port .b0).tx = .sending ⟨0, .poll, none, none⟩ 0 ∧ (pollSending.sched .b0).cursor = some 3
      ∧ 0 + 11 * pollSending.descLength ⟨0, .poll, none, none⟩ * (16 * (pollSending.port .b0).applied.divisor.toNat)
          ≤ pollSending.now
      ∧ short.length = 6 + frameLen short := by decide +kernel
theorem witness_Sending_not_before :
    ((sending 126719).port .t0).tx = .sending desc 0
      ∧ (sending 126719).now < 0 + 11 * (sending 126719).descLength desc
          * (16 * ((sending 126719).port .t0).applied.divisor.toNat) := by decide +kernel

/-- A configuration waits on B1, its assembler in a state. -/
def configuring (a : Assembler) : State :=
  State.reset.modPort .b1 fun q => { q with pendingConfig := some toDisable, asm := a }
theorem witness_ApplyPendingConfig :
    ((configuring .hunt).port .b1).pendingConfig = some toDisable ∧ ((configuring .hunt).port .b1).asm = .hunt
      ∧ ((configuring .hunt).port .b1).rx.mode ≠ .char ∧ ((configuring .hunt).port .b1).tx = .idle
      ∧ ((configuring .hunt).branch .b1).outstanding = false
      ∧ ((configuring (.skip ⟨0, 33⟩)).port .b1).asm ≠ .hunt := by decide +kernel
/-- Quiet with an edge taken a cycle ago; not quiet with one taken now, nor later with the same one remembered. -/
theorem witness_ApplyPendingConfig_quiet :
    (configuring .hunt).Quiet .b1 ∧ (edgeTie toDisable 499 500).Quiet .b1 ∧ ¬ (edgeTie toDisable 500 500).Quiet .b1
      ∧ ¬ (advance (edgeTie toDisable 500 500)).Quiet .b1 ∧ (State.reset.port .b1).pendingConfig = none := by
  simp only [← quiet_iff]; decide +kernel

theorem witness_PollTimers :
    (let s := later 1 (scheduled (fun x => { x with state := .ready }) polled)
     (s.sched .b0).cursor = some 3 ∧ s.pollList.get 3 = some ⟨0x21, .b0, true, 2, [0xAA]⟩ ∧ (s.sched .b0).state = .ready
       ∧ (s.sched .b0).buffer = none ∧ (s.branch .b0).outstanding = false ∧ (s.sched .b0).asked = 0 ∧ s.tick = 1)
      ∧ (let s := later 1000 (scheduled (fun x => { x with state := .waitInterval }) polled)
         (s.sched .b0).state = .waitInterval ∧ (s.sched .b0).cycleStart + (s.sched .b0).cycleInterval.toNat = s.tick)
      ∧ (let s := later 999 (scheduled (fun x => { x with state := .waitInterval }) polled)
         s.tick < (s.sched .b0).cycleStart + (s.sched .b0).cycleInterval.toNat) := by decide +kernel

/-- B0 awaits the reply of the station at position 3, asked at tick 0, with a status record. -/
def awaiting (r : StationRecord) (n : Nat) : State :=
  { later n (scheduled (fun x => { x with state := .await, sentTick := some 0 }) polled) with
    stations := polled.stations.set 3 r }
theorem witness_ReplyTimeout :
    (let s := awaiting ⟨.present, 0, none, none, 1, 0⟩ 20
     (s.sched .b0).cursor = some 3 ∧ s.pollList.get 3 = some ⟨0x21, .b0, true, 2, [0xAA]⟩ ∧ (s.sched .b0).state = .await
       ∧ (s.sched .b0).sentTick = some 0 ∧ 0 + (s.sched .b0).replyTimeout.toNat = s.tick
       ∧ (s.stations.get 3).misses + 1 < (2 : Byte).toNat)
      ∧ (awaiting ⟨.present, 0, none, none, 1, 0⟩ 19).tick < 0 + 20
      ∧ (let r := (awaiting ⟨.missing, 1, none, none, 1, 0⟩ 20).stations.get 3
         (2 : Byte).toNat ≤ r.misses + 1 ∧ r.state ≠ .lost)
      ∧ ((awaiting ⟨.lost, 2, none, none, 1, 0⟩ 20).stations.get 3).state = .lost := by decide +kernel
/-- The next enabled entry of B0 after position 3 is at 5, and after 5 the cursor wraps to 3. -/
theorem witness_PollEnded :
    (∀ j : Fin 32, 3 < j → j < 5 → polled.isEnabledEntry .b0 j = false) ∧ polled.isEnabledEntry .b0 5 = true
      ∧ (∀ j : Fin 32, 5 < j → polled.isEnabledEntry .b0 j = false) ∧ polled.isEnabledEntry .b0 3 = true
      ∧ (∀ j : Fin 32, j < 3 → polled.isEnabledEntry .b0 j = false) := by decide +kernel

theorem witness_ReplyAccepted :
    let f := buildFrame 0xE0 0x21 3 (List.replicate 17 0x55)
    let s := arrived .b0 f (awaiting ⟨.present, 0, none, none, 1, 0⟩ 3)
    s.inbound = ⟨0, .b0⟩ :: [] ∧ (s.pool.get 0).bytes = f ∧ frameDest f ≠ 0 ∧ frameDest f = s.ownAddr
      ∧ frameCtl f = 0x03 ∧ Port.b0.branch? = some .b0 ∧ (s.sched .b0).state = .await
      ∧ (s.sched .b0).station = some (frameSrc f) ∧ (s.sched .b0).cursor = some 3
      ∧ 16 < (framePayload f).length := by decide +kernel

theorem witness_ReplySent :
    0 < State.reset.freeCount ∧ (State.reset.port .t0).applied.enabled = true
      ∧ ((queued .t0 (List.replicate 7 desc) .reset).port .t0).queue.length = 7
      ∧ 8 ≤ ((queued .t0 (List.replicate 8 desc) .reset).port .t0).queue.length
      ∧ ((queued .t0 (List.replicate 8 desc) .reset).pool.get 0).use ≠ .free
      ∧ ({ State.reset with pool := pool0 } : State).freeCount = 0
      ∧ ((State.reset.modPort .b1 fun q => { q with applied := toDisable }).port .b1).applied.enabled = false := by
  decide +kernel

/-- The session of station 5 with its last command cached. -/
def cached (x : Cached) : State := { owned with session := { owned.session with cache := some ⟨6, .commit, x⟩ } }
theorem witness_CommandsNotExecuted :
    let c : Cmd := { cmd [0] with seq := 6 }
    sequencedOf (.commit c) = some (.commit, c) ∧ Serves c owned ∧ owned.session.owner = some c.src
      ∧ c.seq ≠ owned.session.nextSeq ∧ c.seq = owned.session.nextSeq - 1
      ∧ (cached (.reply ⟨.ok, [1]⟩)).session.cache = some ⟨c.seq, .commit, .reply ⟨.ok, [1]⟩⟩
      ∧ (cached .pending).session.cache = some ⟨c.seq, .commit, .pending⟩
      ∧ owned.session.cache = none ∧ (cmd [0]).seq - 2 ≠ owned.session.nextSeq - 1
      ∧ (5 : Byte) ≠ ({ c with src := 9 } : Cmd).src ∧ Command.commit ≠ .closeSession
      ∧ State.reset.session.owner = none
      ∧ (owned.port ({ c with port := .b0 } : Cmd).port).applied.mgmtAllowed = false
      ∧ ({ owned with restart := some (.t0, 0) } : State).restart.isSome = true
      ∧ owned.inReset = false ∧ inReset.inReset = true := by
  unfold Serves; decide +kernel

theorem witness_ReadsOfTheRelay : Serves (cmd []) State.reset := by unfold Serves; decide +kernel
theorem witness_ReadsOfPortsAndCounters :
    Serves (cmd [Port.code .b3, 0x01, 0x00]) owned ∧ Accepts (cmd [Port.code .b3, 0x01, 0x01]) owned
      ∧ 6 ≤ (6 : Byte).toNat ∧ 7 ≤ (7 : Byte).toNat ∧ 2 ≤ (2 : Byte).toNat ∧ (0x02 : Byte) ≠ 0x00 ∧ (0x02 : Byte) ≠ 0x01 := by
  unfold Serves Accepts; decide +kernel
theorem witness_ReadsOfTables :
    Serves (cmd [0x00, 95]) owned ∧ Serves (cmd [0x01, 0]) owned ∧ (95 : Fin 96).val = (95 : Byte).toNat
      ∧ 95 < (96 : Byte).toNat ∧ 1 < (2 : Byte).toNat ∧ (31 : Fin 32).val = (31 : Byte).toNat ∧ 32 ≤ (32 : Byte).toNat
      ∧ Serves (cmd [0x00]) owned ∧ (cmd [0x00]).args.length < 2 ∧ Serves (cmd []) owned
      ∧ (15 : Byte).toNat ≤ 15 ∧ 15 < (16 : Byte).toNat := by unfold Serves; decide +kernel

theorem witness_AgeCode :
    (15 : Word32).toNat < 16 ∧ (2 ^ 4 ≤ (16 : Word32).toNat ∧ (16 : Word32).toNat < 2 ^ (4 + 1))
      ∧ (2 ^ 31 ≤ (0xFFFFFFFF : Word32).toNat ∧ (0xFFFFFFFF : Word32).toNat < 2 ^ (31 + 1)) := by decide +kernel

theorem witness_OpeningAndEndOfSession :
    Serves (cmd []) State.reset ∧ (cmd []).src ≠ 0x00 ∧ (cmd []).src ≠ 0xFF ∧ (cmd []).src ≠ State.reset.ownAddr
      ∧ State.reset.session.owner = none ∧ owned.session.owner = some 5 ∧ (5 : Byte) ≠ ({ cmd [] with src := 9 } : Cmd).src
      ∧ ({ cmd [] with src := 0xE0 } : Cmd).src = State.reset.ownAddr
      ∧ Accepts (cmd []) owned ∧ owned.route.commit = .idle ∧ Accepts (cmd []) (validating owned)
      ∧ (validating owned).route.commit ≠ .idle
      ∧ owned.session.lastActivity = some 0
      ∧ 1000 * (later 60001 owned).relay.sessionTimeout.toNat < (later 60001 owned).tick - 0
      ∧ (later 60000 owned).tick - 0 ≤ 1000 * (later 60000 owned).relay.sessionTimeout.toNat := by
  unfold Serves Accepts; decide +kernel

theorem witness_Restart :
    Accepts (cmd []) owned
      ∧ (sendReply 5 .t0 7 0x2A ⟨.ok, []⟩ (owned.executed (cmd []) .restart ⟨.ok, []⟩)).1 = some 0
      ∧ (sendReply 5 .t0 7 0x2A ⟨.ok, []⟩ ({ owned with pool := pool0 }.executed (cmd []) .restart ⟨.ok, []⟩)).1 = none
      ∧ State.reset.restart = none
      ∧ desc ∈ ((queued .t0 [desc] .reset).port .t0).descriptors ∧ desc.buf = 0
      ∧ (State.reset.port .t0).descriptors = [] := by unfold Accepts; decide +kernel

theorem witness_WriteRecord :
    Accepts (cmd [95, 0x10, 0x1F, 63, 2, 63, 1, 4, 1, 3, 8]) owned
      ∧ Accepts (cmd [95, 0x10, 0x1F, 63, 2, 63, 1, 4, 1, 3, 8]) (validating owned)
      ∧ (95 : Byte).toNat ≤ 95 ∧ (63 : Byte).toNat < 64 ∧ ¬ (96 : Byte).toNat ≤ 95 ∧ ¬ (64 : Byte).toNat < 64
      ∧ (validating owned).route.commit ≠ .idle ∧ owned.route.commit = .idle := by unfold Accepts; decide +kernel
theorem witness_ClearRecord :
    Accepts (cmd [95]) owned ∧ Accepts (cmd [96]) owned ∧ Accepts (cmd []) owned ∧ Accepts (cmd [95]) (validating owned)
      ∧ 95 < (96 : Byte).toNat ∧ (95 : Fin 96).val = (95 : Byte).toNat
      ∧ (validating owned).route.commit ≠ .idle ∧ owned.route.commit = .idle := by unfold Accepts; decide +kernel
theorem witness_DiscardStaging :
    Accepts (cmd []) owned ∧ owned.route.commit = .idle ∧ Accepts (cmd []) (validating owned)
      ∧ (validating owned).route.commit ≠ .idle := by unfold Accepts; decide +kernel
theorem witness_Commit :
    Accepts (cmd [0]) owned ∧ owned.route.commit = .idle ∧ owned.route.epoch = 0 ∧ (1 : Byte) ≠ owned.route.epoch
      ∧ Accepts (cmd [0]) (validating owned) ∧ (validating owned).route.commit ≠ .idle := by unfold Accepts; decide +kernel

/-- A commit validates over a staging bank with an invalid record. -/
def invalid : State :=
  validating { owned with route := { owned.route with staging := owned.route.staging.set 4 (some { route1 with ingress := 0 }) } }
theorem witness_ValidationComplete :
    invalid.route.commit = .validating 0 ∧ invalid.deferred = some ⟨6, 5, .t0⟩
      ∧ invalid.route.firstInvalid invalid.ownAddr = some (4, .noIngress)
      ∧ (validating owned).route.commit = .validating 0 ∧ (validating owned).deferred = some ⟨6, 5, .t0⟩
      ∧ (validating owned).route.firstInvalid (validating owned).ownAddr = none
      ∧ (validating owned).session.lastActivity = some 0 ∧ (validating owned).session.owner.isSome = true
      ∧ (later 60000 (validating owned)).tick - 0 = 1000 * (validating owned).relay.sessionTimeout.toNat
      ∧ 1000 * (validating owned).relay.sessionTimeout.toNat < (later 60001 (validating owned)).tick - 0 := by
  decide +kernel

theorem witness_SetPort :
    Accepts (cmd [5, 1, 0xF0, 1, 2, 2, 0]) owned ∧ (5 : Byte) = Port.code .b3
      ∧ (((0xF0 : Byte).toNat % 16) * 256 + (1 : Byte).toNat ≠ 0 ∧ 2 ≤ (2 : Byte).toNat ∧ (2 : Byte).toNat ≠ 0
        ∧ (2 : Byte).toNat ≤ (2 : Byte).toNat)
      ∧ 6 ≤ (6 : Byte).toNat ∧ ¬ ((0xF0 : Byte).toNat % 16) * 256 + (0 : Byte).toNat ≠ 0 ∧ ¬ 2 ≤ (1 : Byte).toNat
      ∧ ((owned.port .b3).asm = .hunt ∧ (owned.port .b3).rx.mode ≠ .char ∧ (owned.port .b3).tx = .idle
        ∧ (owned.branch .b3).outstanding = false)
      ∧ ((owned.modPort .b3 fun q => { q with asm := .skip ⟨0, 33⟩ }).port .b3).asm ≠ .hunt := by
  unfold Accepts; decide +kernel
theorem witness_SetPort_quiet :
    owned.Quiet .b3 ∧ ¬ (owned.modPort .b3 fun q => { q with asm := .skip ⟨0, 33⟩ }).Quiet .b3 := by
  simp only [← quiet_iff]; decide +kernel
theorem witness_SetRelay :
    Accepts (cmd [2, 1, 0, 1, 1, 1, 254, 3]) owned ∧ (254 : Byte) ≠ 0x00 ∧ (254 : Byte) ≠ 0xFF ∧ (254 : Byte) ≠ owned.ownAddr
      ∧ (3 : Byte).toNat < 4 ∧ ¬ (4 : Byte).toNat < 4 ∧ ¬ ((0xE0 : Byte) ≠ owned.ownAddr) := by
  unfold Accepts; decide +kernel

theorem witness_PollListCommands :
    Accepts (cmd [31, 254, 5, 1, 15, 8, 1, 2, 3, 4, 5, 6, 7, 8]) polled ∧ Accepts (cmd [3]) polled
      ∧ (31 : Fin 32).val = (31 : Byte).toNat ∧ 32 ≤ (32 : Byte).toNat ∧ (5 : Byte) = Port.code Branch.b3.port
      ∧ 5 < (6 : Byte).toNat ∧ (1 : Byte).toNat < 2 ∧ (15 : Byte).toNat ≤ 15 ∧ 15 < (16 : Byte).toNat
      ∧ (8 : Byte).toNat ≤ 8 ∧ 8 < (9 : Byte).toNat ∧ (8 : Byte).toNat ≤ [1, 2, 3, 4, 5, 6, 7, 8].length
      ∧ [1, 2, 3, 4, 5, 6, 7].length < (8 : Byte).toNat
      ∧ polled.pollList.get 31 = none ∧ polled.pollList.get 3 = some ⟨0x21, .b0, true, 2, [0xAA]⟩
      ∧ (polled.sched .b0).state = .stopped ∧ (polled.sched .b3).state = .stopped
      ∧ ((scheduled (fun x => { x with state := .await }) polled).sched .b0).state ≠ .stopped := by
  unfold Accepts; decide +kernel

theorem witness_PollControlStart :
    Accepts (cmd (Port.code Branch.b0.port :: 0x01 :: 2 :: 0 :: 0 :: [])) polled ∧ (1 : Byte).toNat < 2 ∧ 2 ≤ (2 : Byte).toNat
      ∧ (polled.sched .b0).state = .stopped ∧ polled.pollList.get 3 = some ⟨0x21, .b0, true, 2, [0xAA]⟩
      ∧ polled.isEnabledEntry .b0 3 = true ∧ (∀ j : Fin 32, j < 3 → polled.isEnabledEntry .b0 j = false)
      ∧ (∀ j : Fin 32, polled.isEnabledEntry .b1 j = false)
      ∧ ((scheduled (fun x => { x with state := .await }) polled).sched .b0).state ≠ .stopped
      ∧ Accepts (cmd [2, 1, 9, 9]) owned ∧ [(2 : Byte), 1, 9, 9].length < 5
      ∧ Accepts (cmd [6, 3]) owned ∧ 5 < (6 : Byte).toNat ∧ (3 : Byte) ≠ 0x01 ∧ (3 : Byte) ≠ 0x02 := by
  unfold Accepts; decide +kernel
theorem witness_PollControlStop :
    Accepts (cmd (Port.code Branch.b0.port :: 0x02 :: 0 :: 0 :: 0 :: [])) polled
      ∧ (∀ x, x ∈ [SchedState.stopped, .ready, .await, .waitInterval, .stopping] →
        ((scheduled (fun y => { y with state := x }) polled).sched .b0).state = x)
      ∧ ((scheduled (fun x => { x with state := .ready }) polled).branch .b0).outstanding = false
      ∧ ((scheduled (fun x => { x with state := .ready }) polled).sched .b0).buffer = none
      ∧ ((built true [] .queue).sched .b0).buffer = some 1
      ∧ (((built true [] .queue).modBranch .b0 fun x => { x with outstanding := true }).branch .b0).outstanding = true := by
  unfold Accepts; decide +kernel

theorem witness_AlarmRaise :
    (full.alarms.map (·.key)).Nodup ∧ full.alarms.length = 16 ∧ (∀ a, a ∈ full.alarms → a.key ≠ .poolEmpty)
      ∧ (alarmed.alarms.map (·.key)).Nodup ∧ alarmed.alarms = [] ++ ⟨.poolEmpty, 3, 4, 0, 0, none⟩ :: []
      ∧ (∀ a, a ∈ (full.alarms.take 15) → a.key ≠ .poolEmpty) ∧ (full.alarms.take 15).length < 16 := by decide +kernel

/-- Alarms are notified to station 5 on both trunks. -/
def notifying : State := { State.reset with relay := { State.reset.relay with notifyAddr := some 5 } }
theorem witness_AlarmNotification :
    State.reset.relay.notifyAddr = none ∧ notifying.relay.notifyAddr = some 5 ∧ notifying.relay.notifyT0 = true
      ∧ notifying.relay.notifyT1 = true ∧ 0 < notifying.freeCount ∧ (notifying.port .t0).applied.enabled = true
      ∧ (notifying.port .t1).applied.enabled = true ∧ (notifying.port .t0).queue.length < 8
      ∧ (notifying.port .t1).queue.length < 8
      ∧ (later 1000 notifying).tick - 0 ≤ 1000 ∧ 1000 < (later 1001 notifying).tick - 0
      -- one notify port only, a full queue, a disabled trunk, no FREE buffer
      ∧ ({ notifying with relay := { notifying.relay with notifyT0 := false } } : State).relay.notifyT0 = false
      ∧ ¬ ((queued .t1 (List.replicate 8 desc) notifying).port .t1).queue.length < 8
      ∧ ((notifying.modPort .t0 fun q => { q with applied := toDisable }).port .t0).applied.enabled = false
      ∧ ({ notifying with pool := pool0 } : State).freeCount = 0 := by decide +kernel
/-- T0 is disabled and T1's queue is full: no placement, two skips, the buffer FREE again. -/
theorem test_a_notification_that_no_trunk_takes :
    let s := queued .t1 (List.replicate 8 desc) (notifying.modPort .t0 fun q => { q with applied := toDisable })
    (notify (AlarmRecord.created .poolEmpty 0) s).counters.notifySkipped = 2
      ∧ (notify (AlarmRecord.created .poolEmpty 0) s).freeCount = s.freeCount
      ∧ (s.pool.get 0).use ≠ .free
      ∧ (notify (AlarmRecord.created .poolEmpty 0) s).pool.get 0 = s.pool.get 0 := by decide +kernel

theorem witness_AckAlarm :
    Accepts (cmd [4, 0, 3]) alarmed ∧ alarmed.alarms = [] ++ ⟨.poolEmpty, 3, 4, 0, 0, none⟩ :: []
      ∧ AlarmKey.ofBytes 4 0 = some .poolEmpty ∧ AlarmKey.ofBytes 2 5 = some (.lineBreak .b3)
      ∧ (∀ a, a ∈ alarmed.alarms → a.key ≠ .lineBreak .b3) ∧ (3 : Byte) ≠ 0 ∧ (3 : Byte) ≠ 2
      ∧ 5 < (6 : Byte).toNat ∧ 0x04 < (5 : Byte).toNat := by unfold Accepts; decide +kernel

end Sys2Proof.Tests
end

section
/-! Proofs of the receivers' claims (01, section 1.3). -/

namespace Sys2Proof.Machine

/-- A change of one port, in closed form. -/
theorem State.modPort_eq_set {s : State} {p : Port} {f : PortState → PortState} {x : PortState}
    (h : f (s.port p) = x) : s.modPort p f = { s with ports := s.ports.set p x } := by
  rw [← h]
  rfl

/-! ## Start edges (R4) -/

theorem exec_startEdge (p : Port) (s : State) : exec (.startEdge p) s
    = .next (if (s.port p).decision = some .space then s.modPort p PortState.acceptEdge else s) := rfl

theorem exec_falseStart (p : Port) (s : State) : exec (.falseStart p) s
    = .next (if (s.port p).decision = some .mark then s.modPort p PortState.rejectEdge else s) := rfl

/-- R4: without an edge in IDLE and its three samples there is no decision. -/
theorem decision_eq_none {q : PortState} (h : q.rx.mode ≠ .idle ∨ q.rx.edge = none ∨ q.rx.samples.length ≠ 3) :
    q.decision = none := by
  refine Option.eq_none_iff_forall_ne_some.2 fun l hl => ?_
  obtain ⟨hmode, hedge, hlength, -⟩ := (decision_iff q l).1 hl
  rcases h with h | h | h <;> contradiction

/-- R4, R9: a rejected edge, in closed form. -/
theorem PortState.rejectEdge_eq (q : PortState) : q.rejectEdge = { q with
    rx := { q.rx with edge := none, samples := [] }
    lastActivity := if q.rxd = .mark then max q.lastActivity q.rx.since else q.lastActivity } := by
  unfold PortState.rejectEdge
  dsimp only
  split <;> rfl

/-! ## Sampled characters (R1, R5, R6) -/

/-- Bit `n` of a sampled character is at a level exactly when at least two of its three samples are. -/
theorem sampledBits_getElem? (xs : List Level) (l : Level) (n : Nat) (h : 3 * n + 3 ≤ xs.length) :
    (sampledBits xs)[n]? = some l ↔ 2 ≤ ((xs.drop (3 * n)).take 3).count l := by
  induction xs using sampledBits.induct generalizing n with
  | case1 a b c rest ih =>
    cases n with
    | zero => cases l <;> simp [sampledBits, majority_space, majority_mark]
    | succ n =>
      have hn : 3 * n + 3 ≤ rest.length := by simp only [List.length_cons] at h; omega
      rw [show 3 * (n + 1) = 3 * n + 1 + 1 + 1 by omega]
      simpa [sampledBits] using ih n hn
  | case2 xs hshort =>
    match xs, h with
    | [], h | [_], h | [_, _], h => simp at h
    | a :: b :: c :: rest, _ => exact (hshort a b c rest rfl).elim

/-- A bit that is not at mark is at space. -/
theorem sampledBits_ne_mark (xs : List Level) (n : Nat) (h : 3 * n + 3 ≤ xs.length) :
    (sampledBits xs)[n]? ≠ some .mark ↔ 2 ≤ ((xs.drop (3 * n)).take 3).count Level.space := by
  rw [Ne, sampledBits_getElem? xs .mark n h]
  have htotal : ((xs.drop (3 * n)).take 3).count Level.mark + ((xs.drop (3 * n)).take 3).count Level.space = 3 := by
    obtain ⟨a, b, c, habc⟩ := List.length_eq_three.1
      (show ((xs.drop (3 * n)).take 3).length = 3 by rw [List.length_take, List.length_drop]; omega)
    rw [habc]
    cases a <;> cases b <;> cases c <;> rfl
  omega

/-- R5: a character is noisy exactly when the three samples of some bit differ. -/
theorem sampledNoisy_iff (xs : List Level) : sampledNoisy xs = true ↔
    ∃ n, 3 * n + 3 ≤ xs.length ∧ .mark ∈ (xs.drop (3 * n)).take 3 ∧ .space ∈ (xs.drop (3 * n)).take 3 := by
  induction xs using sampledNoisy.induct with
  | case1 a b c rest ih =>
    have hfirst : (!decide (a = b ∧ b = c)) = true ↔ .mark ∈ [a, b, c] ∧ .space ∈ [a, b, c] := by
      cases a <;> cases b <;> cases c <;> decide
    rw [sampledNoisy, Bool.or_eq_true, hfirst, ih]
    constructor
    · rintro (h | ⟨n, hn, h⟩)
      · exact ⟨0, by simp, h⟩
      · exact ⟨n + 1, by simp only [List.length_cons]; omega, h⟩
    · rintro ⟨_ | n, hn, h⟩
      · exact .inl h
      · exact .inr ⟨n, by simp only [List.length_cons] at hn; omega, h⟩
  | case2 xs hshort =>
    match xs with
    | [] | [_] | [_, _] => simp [sampledNoisy]
    | a :: b :: c :: rest => exact (hshort a b c rest rfl).elim

/-- R1: bits least significant first, a bit at mark 1 (log 24). -/
theorem bitsValue_testBit (ls : List Level) (i : Nat) : (bitsValue ls).testBit i = decide (ls[i]? = some .mark) := by
  induction ls generalizing i with
  | nil => simp [bitsValue]
  | cons l ls ih =>
    cases i with
    | zero => cases l <;> simp [bitsValue, Nat.testBit_zero] 
    | succ i =>
      rw [Nat.testBit_succ, List.getElem?_cons_succ, ← ih]
      congr 1
      rw [bitsValue]
      split <;> omega

/-- R1, R5: data bit `i` is bit `i + 1` of the character. -/
theorem characterOf_data (xs : List Level) (edge : Nat) (c : PortConfig) (i : Nat) (h : i < 8) :
    (characterOf xs edge c).data.getLsbD i = true ↔ (sampledBits xs)[i + 1]? = some .mark := by
  show (BitVec.ofNat 8 (bitsValue (((sampledBits xs).drop 1).take 8))).getLsbD i = true ↔ _
  rw [BitVec.getLsbD_ofNat, bitsValue_testBit, List.getElem?_take_of_lt h, List.getElem?_drop, Nat.add_comm 1 i]
  simp [h]

end Sys2Proof.Machine

namespace Sys2Proof.LinePorts

open Sys2Proof.Machine

/-- Settles O14: each row acts on its own majority, and without three samples of an edge in IDLE there is none. -/
theorem startEdgeDecision : Obligations.StartEdgeDecision := by
  unfold Obligations.StartEdgeDecision
  refine ⟨fun p s e a b c hmode hedge hsamples => ?_, fun p s h => ?_⟩
  · have hdecision : ∀ l, 2 ≤ [a, b, c].count l → (s.port p).decision = some l := fun l hl =>
      (decision_iff _ _).2 ⟨hmode, by rw [hedge]; exact Option.some_ne_none e, by rw [hsamples]; rfl,
        by rw [hsamples]; exact hl⟩
    refine ⟨fun hspace => ?_, fun hmark => ?_⟩
    · rw [exec_startEdge, exec_falseStart, hdecision _ hspace]
      exact ⟨rfl, rfl⟩
    · rw [exec_startEdge, exec_falseStart, hdecision _ hmark]
      exact ⟨congrArg _ (State.modPort_eq_set (PortState.rejectEdge_eq _)), rfl⟩
  · rw [exec_startEdge, exec_falseStart, decision_eq_none h]
    exact ⟨rfl, rfl⟩

/-- Settles O15: each bit is the majority of its three samples. -/
theorem characterBits : Obligations.CharacterBits := by
  unfold Obligations.CharacterBits
  intro xs edge c hlength
  refine ⟨fun i hi => ?_, ?_, ?_, ?_, rfl, ?_⟩
  · rw [characterOf_data xs edge c i hi, sampledBits_getElem? xs .mark (i + 1) (by omega)]
  · rw [← sampledBits_getElem? xs .mark 9 (by omega)]
    exact decide_eq_true_iff
  · rw [← sampledBits_ne_mark xs 10 (by omega)]
    exact decide_eq_true_iff
  · rw [sampledNoisy_iff]
    refine exists_congr fun n => and_congr_left' ?_
    omega
  · rw [← bitTimes_eq]
    rfl

end Sys2Proof.LinePorts
end

section
/-! Proofs of the receivers' claims (01, section 1.3): delivered characters, breaks and the returns of the line. -/

namespace Sys2Proof.Machine

/-! ## Delivered characters (R5, R6) -/

/-- R5, R6: the counters of a character, in closed form. -/
def PortCounters.withCharacter (k : PortCounters) (ch : Character) (noisy : Bool) : PortCounters :=
  { k with
    charsIn := satInc k.charsIn
    noisyChars := if noisy then satInc k.noisyChars else k.noisyChars
    framingErrors := if ch.errored then satInc k.framingErrors else k.framingErrors }

theorem countCharacter_eq (p : Port) (ch : Character) (noisy : Bool) (s : State) :
    countCharacter p ch noisy s = s.modPort p fun q => { q with counters := q.counters.withCharacter ch noisy } := by
  unfold countCharacter PortCounters.withCharacter
  cases noisy <;> cases ch.errored <;> simp [countPort, PortCounters.bump]

/-- R5, R6, R9: the port after the receiver's part of a character. -/
theorem received_this (p : Port) (s : State) (ch : Character) : (s.received p ch).port p = { s.port p with
    rx := { (s.port p).rx with mode := .idle, edge := none, samples := [] }
    lastActivity := ch.stop
    charEnd := some ch.stop
    counters := (s.port p).counters.withCharacter ch (sampledNoisy (s.port p).rx.samples) } := by
  simp [State.received, countCharacter_eq, PortState.endCharacter, PortState.touch_eq, State.port]

/-- R5: without a character due nothing is delivered. -/
theorem dueCharacter_eq_none {q : PortState}
    (h : q.rx.mode ≠ .char ∨ q.rx.edge = none ∨ q.rx.samples.length ≠ 33) : q.dueCharacter = none := by
  rw [← Option.not_isSome_iff_eq_none, dueCharacter_isSome]
  rintro ⟨hmode, hedge, hlength⟩
  rcases h with h | h | h <;> contradiction

/-! ## Breaks (R7, R8) -/

theorem exec_breakEntry_due {p : Port} {s : State} (h : s.breakDue p = true) : exec (.breakEntry p) s
    = .next (breakAssembler p (raise (.lineBreak p) ((countPort p .breaks s).modPort p PortState.enterBreak))) :=
  congrArg Host.Outcome.next (if_pos h)

theorem exec_breakEntry_not_due {p : Port} {s : State} (h : ¬ s.breakDue p = true) :
    exec (.breakEntry p) s = .next s := congrArg Host.Outcome.next (if_neg h)

theorem exec_breakExit (p : Port) (s : State) : exec (.breakExit p) s
    = .next (if s.breakOver p then s.modPort p fun q => { q with rx := { q.rx with mode := .idle } } else s) := rfl

/-- R7: the receiver's part of the entry into BREAK, in closed form. -/
theorem enterBreak_eq (p : Port) (s : State) : (countPort p .breaks s).modPort p PortState.enterBreak
    = { s with ports := s.ports.set p { s.port p with
        rx := { (s.port p).rx with mode := .brk, edge := none, samples := [] }
        counters := (s.port p).counters.bump .breaks } } := by
  simp [countPort, State.modPort, PortState.enterBreak, State.port]

/-- A raise leaves the assemblers as they were. -/
theorem raise_asm (key : AlarmKey) (s : State) (p : Port) : ((raise key s).port p).asm = (s.port p).asm := by
  rw [(raise_raisedFrom key s).ports p]

theorem setAsm_self {p : Port} {a : Assembler} {s : State} (h : (s.port p).asm = a) : setAsm p a s = s := by
  rw [setAsm, State.modPort_eq_set (x := s.port p) (by rw [← h]), PerPort.set_get]

/-- R36: a break in HUNT or SKIP leaves the assembler in HUNT. -/
theorem breakAssembler_unstored {p : Port} {s : State}
    (h : (s.port p).asm = .hunt ∨ ∃ g, (s.port p).asm = .skip g) : breakAssembler p s = setAsm p .hunt s := by
  unfold breakAssembler
  obtain h | ⟨g, h⟩ := h
  · rw [setAsm_self h, h]
  · rw [h]

/-- R37. -/
theorem breakAssembler_shadow {p : Port} {s : State} {w : Shadow} (h : (s.port p).asm = .shadow w) :
    breakAssembler p s = setAsm p .hunt (countPort p .shadowed s) := by
  unfold breakAssembler
  rw [h]

/-- R33, R35. -/
theorem breakAssembler_collect {p : Port} {s : State} {c : Collect} (h : (s.port p).asm = .collect c) :
    breakAssembler p s = s.failed p c .charError := by
  unfold breakAssembler
  rw [h, ← failFrame_eq]

/-! ## Returns of the line (R8, R9) -/

theorem exec_returnToMark (p : Port) (s : State) : exec (.returnToMark p) s
    = .next (if s.awaitsMark p then s.modPort p (PortState.toMark s.now) else s) := rfl

theorem exec_returnToSpaceInBreak (p : Port) (s : State) : exec (.returnToSpaceInBreak p) s
    = .next (if s.breakAtMark p then s.modPort p (PortState.setLine s.now .space) else s) := rfl

/-- R9: the line is at space outside a character. -/
theorem awaitsMark_iff (s : State) (p : Port) : s.awaitsMark p = true ↔ s.listening p = true ∧ (s.port p).rxd = .space
    ∧ ((s.port p).rx.mode = .brk ∨ ((s.port p).rx.mode = .idle ∧ (s.port p).rx.edge = none)) := by
  simp only [State.awaitsMark, Bool.and_eq_true, Bool.or_eq_true, decide_eq_true_eq, Option.isNone_iff_eq_none,
    and_assoc]

/-- R8: in BREAK with the line at mark. -/
theorem breakAtMark_iff (s : State) (p : Port) : s.breakAtMark p = true ↔
    s.listening p = true ∧ (s.port p).rx.mode = .brk ∧ (s.port p).rxd = .mark := by
  simp only [State.breakAtMark, Bool.and_eq_true, decide_eq_true_eq, and_assoc]

end Sys2Proof.Machine

namespace Sys2Proof.LinePorts

open Sys2Proof.Machine

/-- Settles O16: the receiver's part in closed form, and what an assembler may change of it. -/
theorem characterDelivered : Obligations.CharacterDelivered := by
  unfold Obligations.CharacterDelivered
  refine ⟨fun p s h => ?_, fun p s ch hdue => ?_⟩
  · show execCharacterDelivered p s = _
    rw [execCharacterDelivered, dueCharacter_eq_none h]
  · have hasm : Assembled p (s.received p ch) (assemble p ch (s.received p ch)) := assemble_assembled _ _ _
    have hthis := hasm.this
    have hctr := hasm.ctr
    rw [received_this] at hthis hctr
    refine ⟨_, exec_characterDelivered hdue, congrArg PortState.rx hthis, congrArg PortState.lastActivity hthis,
      congrArg PortState.charEnd hthis, hctr .charsIn (by decide), hctr .noisyChars (by decide),
      hctr .framingErrors (by decide), hctr .breaks (by decide), fun q hq => ?_, ?_⟩
    · rw [hasm.other q hq, received_other hq]
      exact ⟨rfl, rfl, rfl, rfl⟩
    · rw [hasm.rest, received_eq]
      exact ⟨rfl, rfl, rfl, rfl⟩

/-- Settles O17: the raise leaves the assembler as it was, so its state decides what the break does to it. -/
theorem breakEntry : Obligations.BreakEntry := by
  unfold Obligations.BreakEntry
  refine ⟨fun p s h => ?_, fun p s hlistens hmode hline hrun => ?_⟩
  · refine exec_breakEntry_not_due fun hdue => ?_
    obtain ⟨hlistens, hmode, hline, hrun⟩ := (breakDue_iff s p).1 hdue
    rcases h with h | h | h | h
    · simp [hlistens] at h
    · contradiction
    · simp [hline] at h
    · omega
  · rw [exec_breakEntry_due ((breakDue_iff s p).2 ⟨hlistens, hmode, hline, hrun⟩), enterBreak_eq]
    intro u
    have hasm : (u.port p).asm = (s.port p).asm := by simp [u, raise_asm, State.port]
    rw [← hasm]
    exact ⟨fun h => congrArg _ (breakAssembler_unstored h), fun w h => congrArg _ (breakAssembler_shadow h),
      fun c h => congrArg _ (breakAssembler_collect h)⟩

/-- Settles O18: each row acts exactly under its condition. -/
theorem lineReturns : Obligations.LineReturns := by
  unfold Obligations.LineReturns
  refine ⟨fun p s => ⟨fun h => ?_, fun h => ?_, fun h => ?_⟩,
    fun p s hlistens => ⟨fun hmode hline hrun => ?_, fun hmode hline => ?_, fun hline hmode => ?_⟩⟩
  · rw [exec_breakExit, if_neg]
    rw [breakOver_iff]
    rintro ⟨hlistens, hmode, hline, hrun⟩
    rcases h with h | h | h | h
    · simp [hlistens] at h
    · contradiction
    · simp [hline] at h
    · omega
  · rw [exec_returnToSpaceInBreak, if_neg]
    rw [breakAtMark_iff]
    rintro ⟨hlistens, hmode, hline⟩
    simp_all
  · rw [exec_returnToMark, if_neg]
    rw [awaitsMark_iff]
    rintro ⟨hlistens, hline, hmode⟩
    rcases hmode with hmode | ⟨hmode, hedge⟩ <;> simp_all
  · rw [exec_breakExit, if_pos ((breakOver_iff s p).2 ⟨hlistens, hmode, hline, hrun⟩)]
    rfl
  · rw [exec_returnToSpaceInBreak, if_pos ((breakAtMark_iff s p).2 ⟨hlistens, hmode, hline⟩)]
    rfl
  · rw [exec_returnToMark, if_pos ((awaitsMark_iff s p).2 ⟨hlistens, hline, hmode⟩)]
    rfl

end Sys2Proof.LinePorts
end

section
/-! Proofs of the transmitters' claims (01, section 1.4): the pins, and the start and the end of sending. -/

namespace Sys2Proof.Machine

/-! ## The pins (R1, R12, R164, R169) -/

/-- R164, R169. -/
theorem alertn_iff (s : State) : s.alertn = false ↔ s.inReset = false ∧ s.alarms ≠ [] := by simp [State.alertn]

theorem Tx.isSending_iff (t : Tx) : t.isSending = true ↔ ∃ d start, t = .sending d start := by
  cases t <;> simp [Tx.isSending]

/-- R12, R169. -/
theorem txen_iff (s : State) (p : Port) :
    s.txen p = true ↔ s.inReset = false ∧ ∃ d start, (s.port p).tx = .sending d start := by
  rw [State.txen, Bool.and_eq_true, Bool.not_eq_true', Tx.isSending_iff]

/-- R12, R169: during a cold reset and outside sending TXD is at mark. -/
theorem txd_rest {s : State} {p : Port}
    (h : s.inReset = true ∨ ∀ d start, (s.port p).tx ≠ .sending d start) : s.txd p = .mark := by
  unfold State.txd
  dsimp only
  cases htx : (s.port p).tx with
  | idle => rfl
  | waitLine d => rfl
  | sending d start =>
    obtain h | h := h
    · simp [h]
    · exact absurd htx (h d start)

/-- An instant within a span of length `b` that is the `n`-th since a beginning. -/
theorem spans_since {start b n r : Nat} (h : r < b) : (start + n * b + r - start) / b = n := by
  rw [Nat.add_assoc, Nat.add_sub_cancel_left, Nat.add_comm, Nat.add_mul_div_right _ _ (by omega),
    Nat.div_eq_of_lt h, Nat.zero_add]

/-- R1, R12: bit `n` of character `k` is on TXD during its bit time. -/
theorem txd_sending {s : State} {p : Port} {d : Descriptor} {start k n r : Nat} (hreset : s.inReset = false)
    (htx : (s.port p).tx = .sending d start) (hk : k < s.descLength d) (hn : n < 11)
    (hr : r < 16 * (s.port p).applied.divisor.toNat)
    (hnow : s.now = start + (11 * k + n) * (16 * (s.port p).applied.divisor.toNat) + r) :
    s.txd p = charLevel (k == 0) ((s.descBytes d).getD k 0) n := by
  have hbit : (s.now - start) / (s.port p).applied.bitTimes 1 = 11 * k + n := by
    rw [bitTimes_eq, Nat.one_mul, hnow, spans_since hr]
  have hchar : (11 * k + n) / 11 = k := by omega
  have hpos : (11 * k + n) % 11 = n := by omega
  unfold State.txd
  simp only [htx, hbit, hchar, hpos]
  exact if_pos ⟨hreset, hk⟩

/-- R1: the start bit. -/
theorem charLevel_start (m : Bool) (x : Byte) : charLevel m x 0 = .space := rfl

/-- R1: a data bit of value 1 is at mark (log 24). -/
theorem charLevel_data (m : Bool) (x : Byte) (n : Nat) (h : 1 ≤ n) (h8 : n ≤ 8) :
    charLevel m x n = .mark ↔ x.getLsbD (n - 1) = true := by
  rw [charLevel, if_neg (by omega), if_pos h8]
  cases x.getLsbD (n - 1) <;> decide

/-- R1: the mark bit. -/
theorem charLevel_mark (m : Bool) (x : Byte) : charLevel m x 9 = .mark ↔ m = true := by
  cases m <;> simp [charLevel]

/-- R1: the stop bit. -/
theorem charLevel_stop (m : Bool) (x : Byte) : charLevel m x 10 = .mark := rfl

/-! ## The start of sending (R9, R11) -/

/-- R9, R11: the line has been quiet for the turnaround idle. -/
theorem lineQuiet_iff (s : State) (p : Port) : s.lineQuiet p = true ↔
    (s.port p).rx.mode = .idle ∧ (s.port p).rxd = .mark ∧ (s.port p).lastActivity
      + (s.port p).applied.turnaround.toNat * (16 * (s.port p).applied.divisor.toNat) ≤ s.now := by
  simp only [State.lineQuiet, bitTimes_eq, Bool.and_eq_true, decide_eq_true_eq, and_assoc]

theorem exec_transmitStart_waiting {p : Port} {s : State} {d : Descriptor} (h : (s.port p).tx = .waitLine d) :
    exec (.transmitStart p) s = .next (if s.lineQuiet p then { s with ports := s.ports.set p { s.port p with
      tx := .sending d s.now, rx := Receiver.fresh s.now } } else s) := by
  show execTransmitStart p s = _
  rw [execTransmitStart, h]
  rfl

theorem exec_transmitStart_not_waiting {p : Port} {s : State} (h : ∀ d, (s.port p).tx ≠ .waitLine d) :
    exec (.transmitStart p) s = .next s := by
  show execTransmitStart p s = _
  unfold execTransmitStart
  cases htx : (s.port p).tx with
  | idle => rfl
  | waitLine d => exact absurd htx (h d)
  | sending d start => rfl

/-! ## The end of sending (R12, R14, R97) -/

/-- R12: 6 + LEN characters of 11 bit times. -/
theorem sendingEnds_eq (s : State) (p : Port) (d : Descriptor) (start : Nat) : s.sendingEnds p d start
    = start + 11 * s.descLength d * (16 * (s.port p).applied.divisor.toNat) := by
  rw [State.sendingEnds, bitTimes_eq]

theorem exec_endOfSending_sent {p : Port} {s : State} {d : Descriptor} {start : Nat}
    (htx : (s.port p).tx = .sending d start)
    (h : start + 11 * s.descLength d * (16 * (s.port p).applied.divisor.toNat) ≤ s.now) :
    exec (.endOfSending p) s = .next (finishSending p d s) := by
  show execEndOfSending p s = _
  rw [execEndOfSending, htx]
  exact congrArg _ (if_pos (by rwa [sendingEnds_eq]))

theorem exec_endOfSending_before {p : Port} {s : State} (h : ∀ d start, (s.port p).tx = .sending d start →
      s.now < start + 11 * s.descLength d * (16 * (s.port p).applied.divisor.toNat)) :
    exec (.endOfSending p) s = .next s := by
  show execEndOfSending p s = _
  unfold execEndOfSending
  cases htx : (s.port p).tx with
  | idle => rfl
  | waitLine d => rfl
  | sending d start =>
    have hbefore := h d start htx
    exact congrArg _ (if_neg (by rw [sendingEnds_eq]; omega))

/-- R12, R14: the port at the end of sending, in closed form. -/
theorem PortState.endSending_eq (now : Nat) (q : PortState) :
    q.endSending now = { q with tx := .idle, rx := Receiver.fresh now, lastActivity := now } := by
  unfold PortState.endSending PortState.beginListen
  dsimp only
  split
  · split <;> rfl
  · rfl

/-- A release and a count of a port do not meet. -/
theorem dropRef_countPort (b : BufId) (p : Port) (k : PortCtr) (s : State) :
    dropRef b (countPort p k s) = countPort p k (dropRef b s) := by
  rw [dropRef_pool b (countPort p k s), dropRef_congr (countPort_pool s p k), dropRef_pool b s]
  rfl

/-- R14, R79: the state at the end of sending, before the scheduler is told. -/
theorem released_endSending (p : Port) (b : BufId) (s : State) :
    (dropRef b (countPort p .framesOut s)).modPort p (PortState.endSending s.now)
      = { dropRef b s with ports := (dropRef b s).ports.set p { (dropRef b s).port p with
          tx := .idle
          rx := Receiver.fresh s.now
          lastActivity := s.now
          counters := (s.port p).counters.bump .framesOut } } := by
  rw [dropRef_countPort, countPort, State.modPort_modPort]
  refine State.modPort_eq_set ?_
  rw [PortState.endSending_eq]
  simp [State.port]

/-- R97: only a branch's scheduler is told, and only of a POLL. -/
theorem reportSent_other {p : Port} {d : Descriptor} (s : State) (h : d.origin ≠ .poll ∨ p.branch? = none) :
    reportSent p d s = s := by
  unfold reportSent
  split
  · rename_i b horigin hbranch
    rcases h with h | h
    · exact absurd horigin h
    · rw [h] at hbranch
      cases hbranch
  · rfl

/-- R97, R117. -/
theorem reportSent_poll {p : Port} {d : Descriptor} {b : Branch} {i : Fin 32} {s : State} (horigin : d.origin = .poll)
    (hbranch : p.branch? = some b) (hcursor : (s.sched b).cursor = some i) :
    reportSent p d s = s.pollReported b i := by
  unfold reportSent
  rw [horigin, hbranch]
  exact pollSent_eq b s i hcursor

/-! ## The bytes sent (R12, R13, R22) -/

theorem word16_hiByte_loByte (x : Word16) : word16 (hiByte x) (loByte x) = x := by
  apply BitVec.eq_of_getLsbD_eq
  intro i hi
  simp only [word16, hiByte, loByte, BitVec.getLsbD_append, BitVec.getLsbD_extractLsb']
  split
  · rename_i hlow
    simp [hlow]
  · simp [show i - 8 < 8 by omega, show 8 + (i - 8) = i by omega]

/-- The bytes before the check, with a rewrite address for DEST. -/
def rewrittenBody (a : Byte) (f : List Byte) : List Byte := a :: (f.drop 1).take (3 + frameLen f)

theorem sentBytes_some (a : Byte) (f : List Byte) :
    sentBytes (some a) f = rewrittenBody a f ++ checkBytes (crc (rewrittenBody a f)) := rfl

section
variable {a : Byte} {f : List Byte} (h : f.length = 6 + frameLen f)
include h

theorem rewrittenBody_length : (rewrittenBody a f).length = 4 + frameLen f := by
  simp only [rewrittenBody, List.length_cons, List.length_take, List.length_drop, h]
  omega

theorem sentBytes_length : (sentBytes (some a) f).length = f.length := by
  rw [sentBytes_some, List.length_append, rewrittenBody_length h, h]
  show 4 + frameLen f + 2 = 6 + frameLen f
  omega

/-- R13: the bytes before the check. -/
theorem sentBytes_take : (sentBytes (some a) f).take (4 + frameLen f) = rewrittenBody a f := by
  rw [sentBytes_some, List.take_append_of_le_length (rewrittenBody_length h).ge,
    List.take_of_length_le (rewrittenBody_length h).le]

/-- R13: between DEST and the check the bytes are as stored. -/
theorem sentBytes_stored (i : Nat) (h1 : 1 ≤ i) (hi : i < 4 + frameLen f) :
    frameByte (sentBytes (some a) f) i = frameByte f i := by
  obtain ⟨j, rfl⟩ := Nat.exists_eq_add_of_le' h1
  simp only [frameByte, List.getD_eq_getElem?_getD]
  rw [sentBytes_some, List.getElem?_append_left (by rw [rewrittenBody_length h]; exact hi), rewrittenBody,
    List.getElem?_cons_succ, List.getElem?_take_of_lt (by omega), List.getElem?_drop, Nat.add_comm 1 j]

/-- R13, R22: a check over the bytes sent. -/
theorem sentBytes_check : word16 (frameByte (sentBytes (some a) f) (4 + frameLen f))
    (frameByte (sentBytes (some a) f) (5 + frameLen f)) = crc (rewrittenBody a f) := by
  have hlength : (rewrittenBody a f).length = 4 + frameLen f := rewrittenBody_length h
  simp only [frameByte, List.getD_eq_getElem?_getD, sentBytes_some]
  rw [List.getElem?_append_right (by omega), List.getElem?_append_right (by omega), hlength, Nat.sub_self,
    show 5 + frameLen f - (4 + frameLen f) = 1 by omega]
  exact word16_hiByte_loByte _

end

end Sys2Proof.Machine

namespace Sys2Proof.LinePorts

open Sys2Proof.Machine

/-- Settles O4: while sending, the instant fixes the character and the bit that TXD shows. -/
theorem pinsFollowTheState : Obligations.PinsFollowTheState := by
  unfold Obligations.PinsFollowTheState
  refine fun s => ⟨alertn_iff s, fun p => ⟨txen_iff s p, txd_rest, fun d start k n r hreset htx hk hn hr hnow => ?_⟩⟩
  rw [txd_sending hreset htx hk hn hr hnow]
  refine ⟨?_, charLevel_data _ _ n, ?_, ?_⟩
  · rintro rfl
    exact charLevel_start _ _
  · rintro rfl
    rw [charLevel_mark, beq_iff_eq]
  · rintro rfl
    exact charLevel_stop _ _

/-- Settles O34: the start, the end and the bytes of sending, each by its closed form. -/
theorem sending : Obligations.Sending := by
  unfold Obligations.Sending
  refine ⟨fun p s d => ⟨fun htx => ⟨fun hmode hline hquiet => ?_, fun h => ?_⟩, exec_transmitStart_not_waiting,
    exec_endOfSending_before, fun start htx hend => ?_⟩, fun f hlength => ⟨rfl, fun a => ?_⟩⟩
  · rw [exec_transmitStart_waiting htx, if_pos ((lineQuiet_iff s p).2 ⟨hmode, hline, hquiet⟩)]
  · rw [exec_transmitStart_waiting htx, if_neg]
    rw [lineQuiet_iff]
    rintro ⟨hmode, hline, hquiet⟩
    rcases h with h | h | h
    · contradiction
    · simp [hline] at h
    · omega
  · rw [exec_endOfSending_sent htx hend, finishSending, released_endSending]
    intro v u
    refine ⟨fun h => by rw [reportSent_other _ h], fun b i horigin hbranch hcursor => ?_⟩
    have hsched : (u.sched b).cursor = some i := by
      rw [← hcursor]
      show ((dropRef d.buf s).sched b).cursor = _
      rw [dropRef_pool]
    rw [reportSent_poll horigin hbranch hsched]
  · refine ⟨sentBytes_length hlength, rfl, sentBytes_stored hlength, ?_⟩
    rw [sentBytes_take hlength, sentBytes_check hlength]

end Sys2Proof.LinePorts
end

section
/-! Proofs of the port configurations' claims (01, section 1.5). -/

namespace Sys2Proof.Machine

/-! ## The pending record (R17) -/

theorem exec_applyPendingConfig_none {p : Port} {s : State} (h : (s.port p).pendingConfig = none) :
    exec (.applyPendingConfig p) s = .next s := by
  show execApplyPendingConfig p s = _
  rw [execApplyPendingConfig, h]

theorem exec_applyPendingConfig_some {p : Port} {s : State} {c : PortConfig} (h : (s.port p).pendingConfig = some c) :
    exec (.applyPendingConfig p) s = .next (if s.quiet p then settleRestart (s.configured p c) else s) := by
  show execApplyPendingConfig p s = _
  rw [execApplyPendingConfig, h, ← applyConfig_eq]

/-! ## Accepted commands with an immediate result (R134) -/

/-- The reply and the record of an accepted command follow from its body's result. -/
theorem manage_runBody_of {k : Command} {body : List Byte → State → State × Reply} {c : Cmd} {s t : State} {r : Reply}
    (h : Accepts c s) (hbody : body c.args (s.heard c) = (t, r)) :
    manage (serveSequenced k (runBody k body)) c s = answer c k r (record c k (.reply r) t) := by
  obtain ⟨-, -, -, howner, -⟩ := id h
  rw [heard_owner howner] at hbody
  rw [manage_runBody h, hbody]

theorem record_heard_of_accepts {c : Cmd} {s : State} (h : Accepts c s) (k : Command) (r : Reply) :
    record c k (.reply r) (s.heard c) = s.executed c k r := by
  obtain ⟨-, -, -, howner, -⟩ := h
  rw [heard_owner howner, record_heard]

/-- The record of a command and the application of a configuration do not meet. -/
theorem record_configured (c : Cmd) (k : Command) (x : Cached) (p : Port) (cfg : PortConfig) (s : State) :
    record c k x (s.configured p cfg) = (record c k x s).configured p cfg := by
  rw [record, configured_keeps_session, configured_session]
  rfl

/-! ## SET-PORT (R16, R17, R149, R166) -/

theorem yes_eq (x : Byte) : yes x = decide (x ≠ 0) := by
  rw [Bool.eq_iff_iff, decide_eq_true_iff]
  exact bne_iff_ne

/-- R166: the divisor is 0 exactly when its number is. -/
theorem divisorOf_eq_zero_iff (dh dl : Byte) : divisorOf dh dl = 0 ↔ (dh.toNat % 16) * 256 + dl.toNat = 0 := by
  have hlow := dl.isLt
  rw [divisorOf_eq, ← BitVec.toNat_inj, BitVec.toNat_ofNat, Nat.mod_eq_of_lt (by omega)]
  rfl

/-- R16, R166: the record that six bytes give, where R16 does not refuse them. -/
theorem PortConfig.ofBytes_eq (p : Port) (en dh dl gap turn mg : Byte) :
    let divisor := (dh.toNat % 16) * 256 + dl.toNat
    PortConfig.ofBytes p en dh dl gap turn mg
      = if divisor ≠ 0 ∧ 2 ≤ gap.toNat ∧ turn.toNat ≠ 0 ∧ gap.toNat ≤ turn.toNat then
          some { enabled := decide (en ≠ 0), divisor := BitVec.ofNat 12 divisor, gapLimit := gap, turnaround := turn,
                 mgmtAllowed := p.trunk?.isSome || decide (mg ≠ 0) }
        else none := by
  have hrefused : (divisorOf dh dl = 0 ∨ gap.toNat < 2 ∨ turn = 0 ∨ turn.toNat < gap.toNat) ↔
      ¬ ((dh.toNat % 16) * 256 + dl.toNat ≠ 0 ∧ 2 ≤ gap.toNat ∧ turn.toNat ≠ 0 ∧ gap.toNat ≤ turn.toNat) := by
    have hturn : turn = 0 ↔ turn.toNat = 0 := BitVec.toNat_inj.symm
    rw [divisorOf_eq_zero_iff, hturn]
    omega
  dsimp only
  rw [PortConfig.ofBytes, if_congr hrefused rfl rfl, ite_not, divisorOf_eq, yes_eq, yes_eq]

theorem exec_setPort_of {c : Cmd} {s t : State} {r : Reply} (h : Accepts c s)
    (hbody : setPortBody c.args (s.heard c) = (t, r)) :
    exec (.setPort c) s = .next (answer c .setPort r (record c .setPort (.reply r) t)) :=
  congrArg Host.Outcome.next (manage_runBody_of h hbody)

/-- R149: a command whose body is refused changes no record. -/
theorem exec_setPort_badArg {c : Cmd} {s : State} (h : Accepts c s)
    (hbody : setPortBody c.args (s.heard c) = (s.heard c, .badArg)) : exec (.setPort c) s
      = .next (answer c .setPort ⟨.badArg, []⟩ (s.executed c .setPort ⟨.badArg, []⟩)) := by
  rw [exec_setPort_of h hbody, record_heard_of_accepts h]
  rfl

theorem setPortBody_short {args : List Byte} {s : State} (h : args.length < 7) :
    setPortBody args s = (s, .badArg) := by
  unfold setPortBody
  split
  · simp only [List.length_cons] at h
    omega
  · rfl

theorem setPortBody_no_port {x en dh dl gap turn mg : Byte} {rest : List Byte} {s : State} (h : 6 ≤ x.toNat) :
    setPortBody (x :: en :: dh :: dl :: gap :: turn :: mg :: rest) s = (s, .badArg) := by
  rw [setPortBody, Port.ofCode_none h]

theorem setPortBody_refused {x en dh dl gap turn mg : Byte} {rest : List Byte} {s : State}
    (h : ∀ p, PortConfig.ofBytes p en dh dl gap turn mg = none) :
    setPortBody (x :: en :: dh :: dl :: gap :: turn :: mg :: rest) s = (s, .badArg) := by
  rw [setPortBody]
  cases Port.ofCode x with
  | none => rfl
  | some p =>
    dsimp only
    rw [h p]

theorem setPortBody_record {p : Port} {en dh dl gap turn mg : Byte} {rest : List Byte} {s : State} {cfg : PortConfig}
    (h : PortConfig.ofBytes p en dh dl gap turn mg = some cfg) :
    setPortBody (Port.code p :: en :: dh :: dl :: gap :: turn :: mg :: rest) s
      = if s.quiet p then (s.configured p cfg, .ok [Port.code p, 0x00])
        else (s.modPort p fun q => { q with pendingConfig := some cfg }, .ok [Port.code p, 0x01]) := by
  rw [setPortBody, Port.ofCode_code]
  dsimp only
  rw [h, ← applyConfig_eq]

/-- The owner's being heard is nothing to a port's quiet. -/
theorem quiet_heard (s : State) (c : Cmd) (p : Port) : (s.heard c).quiet p = s.quiet p := rfl

end Sys2Proof.Machine

namespace Sys2Proof.LinePorts

open Sys2Proof.Machine

/-- Settles O35: the row applies the pending record exactly at a quiet port. -/
theorem applyPendingConfig : Obligations.ApplyPendingConfig := by
  unfold Obligations.ApplyPendingConfig
  refine ⟨fun p s => exec_applyPendingConfig_none, fun p s c hpending => ⟨fun hquiet => ?_, fun hquiet => ?_⟩⟩
  · rw [exec_applyPendingConfig_some hpending, if_pos ((quiet_iff s p).2 hquiet)]
  · rw [exec_applyPendingConfig_some hpending, if_neg (mt (quiet_iff s p).1 hquiet)]

/-- Settles O52: the body refuses, applies or holds the record, and each result is answered and cached. -/
theorem setPort : Obligations.SetPort := by
  unfold Obligations.SetPort
  refine fun c s h => ⟨fun hshort => exec_setPort_badArg h (setPortBody_short hshort),
    fun x en dh dl gap turn mg rest hargs => ⟨fun hrefused => exec_setPort_badArg h ?_, ?_⟩⟩
  · rw [hargs]
    obtain hport | hfits := hrefused
    · exact setPortBody_no_port hport
    · exact setPortBody_refused fun p => by rw [PortConfig.ofBytes_eq, if_neg hfits]
  · rintro p rfl hfits cfg
    have hcfg : PortConfig.ofBytes p en dh dl gap turn mg = some cfg := by rw [PortConfig.ofBytes_eq, if_pos hfits]
    have hbody := setPortBody_record (rest := rest) (s := s.heard c) hcfg
    rw [← hargs, quiet_heard] at hbody
    refine ⟨fun hquiet => ?_, fun hquiet => ?_⟩
    · rw [if_pos ((quiet_iff s p).2 hquiet)] at hbody
      rw [exec_setPort_of h hbody, record_configured, record_heard_of_accepts h]
      rfl
    · rw [if_neg (mt (quiet_iff s p).1 hquiet)] at hbody
      rw [exec_setPort_of h hbody, ← record_heard_of_accepts h]
      rfl

end Sys2Proof.LinePorts
end

section
/-! What no command changes but a cold reset: the queue, time, the inputs to come and what the straps gave. One lemma
per operation, then one per command. -/

namespace Sys2Proof.Machine

/-- The queue, time, the inputs and choices to come, and what the straps gave are as they were. -/
structure AtOnce (s t : State) : Prop where
  pending : t.pending = s.pending
  lineInput : t.lineInput = s.lineInput
  now : t.now = s.now
  choices : t.choices = s.choices
  inReset : t.inReset = s.inReset
  resetEnd : t.resetEnd = s.resetEnd
  ownAddr : t.ownAddr = s.ownAddr
  addrStrap : t.addrStrap = s.addrStrap
  transparentStrap : t.transparentStrap = s.transparentStrap

namespace AtOnce

variable {s t u : State}

theorem refl (s : State) : AtOnce s s := by constructor <;> rfl

theorem trans (h : AtOnce s t) (g : AtOnce t u) : AtOnce s u where
  pending := g.pending.trans h.pending
  lineInput := g.lineInput.trans h.lineInput
  now := g.now.trans h.now
  choices := g.choices.trans h.choices
  inReset := g.inReset.trans h.inReset
  resetEnd := g.resetEnd.trans h.resetEnd
  ownAddr := g.ownAddr.trans h.ownAddr
  addrStrap := g.addrStrap.trans h.addrStrap
  transparentStrap := g.transparentStrap.trans h.transparentStrap

theorem ite {c : Prop} [Decidable c] (h : AtOnce s t) (g : AtOnce s u) : AtOnce s (if c then t else u) := by
  split
  · exact h
  · exact g

/-- The row of an event acts under its condition only. -/
theorem guarded {c : Prop} [Decidable c] (h : AtOnce s t) : AtOnce s (if c then t else s) := ite h (refl s)

end AtOnce

theorem LineSame.atOnce {s t : State} (h : LineSame s t) : AtOnce s t :=
  ⟨h.pending, h.lineInput, h.now, h.choices, h.inReset, h.resetEnd, h.ownAddr, h.addrStrap, h.transparentStrap⟩

theorem Assembled.atOnce {p : Port} {s t : State} (h : Assembled p s t) : AtOnce s t := by
  rw [h.rest]
  constructor <;> rfl

/-! ## Lines and assemblers -/

theorem settleRestart_atOnce (s : State) : AtOnce s (settleRestart s) := by
  obtain h | h := settleRestart_cases s <;> rw [h]
  · exact .refl s
  · constructor <;> rfl

theorem received_atOnce (p : Port) (ch : Character) (s : State) : AtOnce s (s.received p ch) := by
  rw [received_eq]
  constructor <;> rfl

theorem failFrame_atOnce (p : Port) (c : Collect) (k : PortCtr) (s : State) : AtOnce s (failFrame p c k s) := by
  rw [failFrame_eq]
  constructor <;> rfl

theorem breakAssembler_atOnce (p : Port) (s : State) : AtOnce s (breakAssembler p s) := by
  unfold breakAssembler
  split
  · exact .refl s
  · exact (setAsm_same _ _ _).atOnce
  · exact ((countPort_same _ _ _).trans (setAsm_same _ _ _)).atOnce
  · exact failFrame_atOnce _ _ _ _

theorem expireGap_atOnce (p : Port) (s : State) : AtOnce s (expireGap p s) := by
  unfold expireGap
  split
  · exact .refl s
  · exact (setAsm_same _ _ _).atOnce
  · exact ((countPort_same _ _ _).trans (setAsm_same _ _ _)).atOnce
  · exact failFrame_atOnce _ _ _ _

/-! ## Schedulers -/

theorem askPollBuffer_same (b : Branch) (s : State) : LineSame s (askPollBuffer b s) := by
  unfold askPollBuffer
  split
  · exact .refl s
  · split
    · exact (countRelay_same _ _).trans (modSched_same _ _ _)
    · rename_i h
      exact (requestBuffer_same h).trans ((fillBuf_same _ _ _).trans (modSched_same _ _ _))

theorem enterReady_same (b : Branch) (i : Fin 32) (s : State) : LineSame s (enterReady b i s) :=
  (modSched_same _ _ _).trans (askPollBuffer_same _ _)

theorem beginCycle_same (b : Branch) (i : Fin 32) (s : State) : LineSame s (beginCycle b i s) :=
  (modSched_same _ _ _).trans (enterReady_same _ _ _)

theorem completeCycle_same (b : Branch) (s : State) : LineSame s (completeCycle b s) := by
  unfold completeCycle
  split
  · exact .refl s
  · dsimp only
    split
    · exact (modSched_same _ _ _).trans (beginCycle_same _ _ _)
    · exact modSched_same _ _ _

theorem advanceCursor_same (b : Branch) (s : State) : LineSame s (advanceCursor b s) := by
  unfold advanceCursor
  split
  · exact .refl s
  · split
    · exact enterReady_same _ _ _
    · exact completeCycle_same _ _

theorem endPoll_same (b : Branch) (s : State) : LineSame s (endPoll b s) := by
  unfold endPoll
  dsimp only
  split
  · exact (modBranch_same _ _ _).trans (modSched_same _ _ _)
  · exact (modBranch_same _ _ _).trans (advanceCursor_same _ _)

theorem pollSent_same (b : Branch) (s : State) : LineSame s (pollSent b s) := by
  unfold pollSent
  dsimp only
  split
  · exact modSched_same _ _ _
  · exact (modSched_same _ _ _).trans (modStation_same _ _ _)

theorem acceptReply_same (b : Branch) (payload : List Byte) (s : State) : LineSame s (acceptReply b payload s) := by
  unfold acceptReply
  refine LineSame.trans ?_ (endPoll_same _ _)
  cases (s.sched b).cursor with
  | none =>
    split
    · exact countRelay_same _ _
    · exact .refl s
  | some i =>
    split
    · exact (modStation_same _ _ _).trans (countRelay_same _ _)
    · exact modStation_same _ _ _

theorem handReply_same (p : Port) (src : Byte) (payload : List Byte) (s : State) :
    LineSame s (handReply p src payload s) := by
  unfold handReply
  split
  · exact countRelay_same _ _
  · split
    · exact acceptReply_same _ _ _
    · exact countRelay_same _ _

theorem missPoll_same (b : Branch) (s : State) : LineSame s (missPoll b s) := by
  unfold missPoll
  split
  · refine LineSame.trans ?_ (endPoll_same _ _)
    split
    · exact (modStation_same _ _ _).trans (raise_same _ _)
    · exact modStation_same _ _ _
  · exact endPoll_same _ _

/-! ## Queues and transmitters -/

theorem released_atOnce (s : State) (p : Port) (gone rest : List Descriptor) : AtOnce s (s.released p gone rest) := by
  constructor <;> rfl

theorem setServed_atOnce (p : Port) (k : Claimant) (s : State) : AtOnce s (setServed p k s) := by
  unfold setServed
  split
  · exact .refl s
  · exact (modBranch_same _ _ _).atOnce

theorem serveQueue_atOnce (p : Port) (s : State) : AtOnce s (serveQueue p s) := by
  unfold serveQueue
  rw [releaseAll_eq]
  dsimp only
  split
  · exact (released_atOnce _ _ _ _).trans (setQueue_same _ _ _).atOnce
  · exact ((released_atOnce _ _ _ _).trans ((setQueue_same _ _ _).trans (modPort_same _ _ _)).atOnce).trans
      (setServed_atOnce _ _ _)

theorem servePoll_same (b : Branch) (s : State) : LineSame s (servePoll b s) := by
  unfold servePoll
  split
  · exact .refl s
  · split
    · exact ((handOver_same _ _ _).trans (modBranch_same _ _ _)).trans (modPort_same _ _ _)
    · exact ((handOver_same _ _ _).trans (modBranch_same _ _ _)).trans (pollSent_same _ _)

theorem arbitrate_atOnce (b : Branch) (s : State) : AtOnce s (arbitrate b s) := by
  unfold arbitrate
  split
  · split
    · exact (servePoll_same _ _).atOnce
    · split
      · exact (serveQueue_atOnce _ _).trans (servePoll_same _ _).atOnce
      · exact serveQueue_atOnce _ _
  · exact serveQueue_atOnce _ _
  · exact (servePoll_same _ _).atOnce
  · exact .refl s

theorem takeFrom_atOnce (p : Port) (s : State) : AtOnce s (takeFrom p s) := by
  unfold takeFrom
  split
  · exact serveQueue_atOnce _ _
  · exact arbitrate_atOnce _ _

theorem reportSent_same (p : Port) (d : Descriptor) (s : State) : LineSame s (reportSent p d s) := by
  unfold reportSent
  split
  · exact pollSent_same _ _
  · exact .refl s

theorem finishSending_atOnce (p : Port) (d : Descriptor) (s : State) : AtOnce s (finishSending p d s) :=
  ((((countPort_same _ _ _).trans (dropRef_same _ _)).trans (modPort_same _ _ _)).trans
    (reportSent_same _ _ _)).atOnce.trans (settleRestart_atOnce _)

theorem configured_atOnce (s : State) (p : Port) (c : PortConfig) : AtOnce s (s.configured p c) := by
  unfold State.configured
  dsimp only
  split
  · constructor <;> rfl
  · constructor <;> rfl

/-! ## Served commands -/

theorem refresh_atOnce (c : Cmd) (s : State) : AtOnce s (refresh c s) := by
  rw [refresh_eq]
  constructor <;> rfl

theorem record_atOnce (c : Cmd) (k : Command) (x : Cached) (s : State) : AtOnce s (record c k x s) := by
  constructor <;> rfl

theorem answer_atOnce (c : Cmd) (k : Command) (r : Reply) (s : State) : AtOnce s (answer c k r s) :=
  (sendReply_same _ _ _ _ _ _).atOnce

theorem endSession_atOnce (s : State) : AtOnce s (endSession s) := by constructor <;> rfl

theorem discardCommand_atOnce (s : State) : AtOnce s (discardCommand s) := (countRelay_same _ _).atOnce

theorem manage_atOnce {serve : Cmd → State → State} {c : Cmd} {s : State} (h : AtOnce s (serve c s)) :
    AtOnce s (manage serve c s) := .ite (.refl s) (.ite h (countRelay_same _ _).atOnce)

theorem serveRead_atOnce (k : Command) (f : List Byte → State → Reply) (c : Cmd) (s : State) :
    AtOnce s (serveRead k f c s) :=
  .ite (discardCommand_atOnce s) ((refresh_atOnce c s).trans (answer_atOnce _ _ _ _))

theorem serveSequenced_atOnce {exe : Cmd → State → State} (h : ∀ c s, AtOnce s (exe c s)) (k : Command) (c : Cmd)
    (s : State) : AtOnce s (serveSequenced k exe c s) := by
  unfold serveSequenced
  dsimp only
  refine .ite (discardCommand_atOnce s) ((refresh_atOnce c s).trans ?_)
  split
  · exact answer_atOnce _ _ _ _
  · exact .ite (answer_atOnce _ _ _ _) (.ite (h _ _) (answer_atOnce _ _ _ _))

theorem runBody_atOnce {body : List Byte → State → State × Reply} (h : ∀ args s, AtOnce s (body args s).1)
    (k : Command) (c : Cmd) (s : State) : AtOnce s (runBody k body c s) :=
  ((h _ _).trans (record_atOnce _ _ _ _)).trans (answer_atOnce _ _ _ _)

/-! ## The session's commands -/

theorem serveOpen_atOnce (c : Cmd) (s : State) : AtOnce s (serveOpen c s) := by
  have hopen : ∀ u : State, AtOnce u (openSession c u) := fun u => by constructor <;> rfl
  unfold serveOpen
  dsimp only
  refine .ite (discardCommand_atOnce s) ((refresh_atOnce c s).trans (.ite (answer_atOnce _ _ _ _) ?_))
  split
  · exact (hopen _).trans (answer_atOnce _ _ _ _)
  · exact .ite ((hopen _).trans (answer_atOnce _ _ _ _)) (answer_atOnce _ _ _ _)

theorem runClose_atOnce (c : Cmd) (s : State) : AtOnce s (runClose c s) :=
  .ite ((record_atOnce _ _ _ _).trans (answer_atOnce _ _ _ _)) ((endSession_atOnce _).trans (answer_atOnce _ _ _ _))

theorem runCommit_atOnce (c : Cmd) (s : State) : AtOnce s (runCommit c s) := by
  unfold runCommit
  split
  · exact (record_atOnce _ _ _ _).trans (answer_atOnce _ _ _ _)
  · constructor <;> rfl

theorem runRestart_atOnce (c : Cmd) (s : State) : AtOnce s (runRestart c s) := by
  have hreply := (record_atOnce c .restart (.reply (.ok [])) s).trans
    (sendReply_same c.src c.port c.seq Command.restart.code (.ok []) _).atOnce
  unfold runRestart
  dsimp only
  split
  · exact hreply.trans (by constructor <;> rfl)
  · exact hreply.trans (by constructor <;> rfl)

theorem expireSession_atOnce (s : State) : AtOnce s (expireSession s) :=
  (endSession_atOnce s).trans (countRelay_same _ _).atOnce

theorem finishValidation_atOnce (s : State) : AtOnce s (finishValidation s).1 := by
  unfold finishValidation
  split
  · constructor <;> rfl
  · constructor <;> rfl

theorem sendDeferred_atOnce (r : Reply) (s : State) : AtOnce s (sendDeferred r s) := by
  unfold sendDeferred
  split
  · exact .refl s
  · refine AtOnce.trans ?_ (sendReply_same _ _ _ _ _ _).atOnce
    constructor <;> rfl

theorem completeCommit_atOnce (s : State) : AtOnce s (completeCommit s) := by
  have hsent := (finishValidation_atOnce s).trans (sendDeferred_atOnce (finishValidation s).2 _)
  exact .ite (hsent.trans (expireSession_atOnce _)) hsent

/-! ## The bodies of the write class -/

theorem writeRecordBody_atOnce (args : List Byte) (s : State) : AtOnce s (writeRecordBody args s).1 := by
  unfold writeRecordBody
  repeat' split
  all_goals constructor <;> rfl

theorem clearRecordBody_atOnce (args : List Byte) (s : State) : AtOnce s (clearRecordBody args s).1 := by
  unfold clearRecordBody
  repeat' split
  all_goals constructor <;> rfl

theorem discardStagingBody_atOnce (args : List Byte) (s : State) : AtOnce s (discardStagingBody args s).1 := by
  unfold discardStagingBody
  split
  all_goals constructor <;> rfl

theorem setPortBody_atOnce (args : List Byte) (s : State) : AtOnce s (setPortBody args s).1 := by
  unfold setPortBody
  repeat' split
  case isTrue =>
    rw [applyConfig_eq]
    exact configured_atOnce _ _ _
  all_goals constructor <;> rfl

theorem setRelayBody_atOnce (args : List Byte) (s : State) : AtOnce s (setRelayBody args s).1 := by
  unfold setRelayBody
  repeat' split
  all_goals constructor <;> rfl

theorem writePollEntryBody_atOnce (args : List Byte) (s : State) : AtOnce s (writePollEntryBody args s).1 := by
  unfold writePollEntryBody
  repeat' split
  all_goals constructor <;> rfl

theorem clearPollEntryBody_atOnce (args : List Byte) (s : State) : AtOnce s (clearPollEntryBody args s).1 := by
  unfold clearPollEntryBody
  repeat' split
  all_goals constructor <;> rfl

theorem startBody_atOnce (b : Branch) (timeout : Byte) (interval : Word16) (s : State) :
    AtOnce s (startBody b timeout interval s).1 := by
  unfold startBody
  split
  · exact .refl s
  · split
    · exact .refl s
    · exact ((modSched_same _ _ _).trans (enterReady_same _ _ _)).atOnce

theorem stopPolling_atOnce (b : Branch) (s : State) : AtOnce s (stopPolling b s) := by
  unfold stopPolling dropPoll
  repeat' split
  all_goals constructor <;> rfl

theorem pollControlBody_atOnce (args : List Byte) (s : State) : AtOnce s (pollControlBody args s).1 := by
  unfold pollControlBody
  split
  · split
    · exact .refl s
    · split
      · split
        · exact .refl s
        · exact startBody_atOnce _ _ _ _
      · split
        · exact stopPolling_atOnce _ _
        · exact .refl s
  · exact .refl s

theorem ackAlarmBody_atOnce (args : List Byte) (s : State) : AtOnce s (ackAlarmBody args s).1 := by
  unfold ackAlarmBody
  repeat' split
  all_goals constructor <;> rfl

theorem readCountersClearBody_atOnce (args : List Byte) (s : State) : AtOnce s (readCountersClearBody args s).1 := by
  unfold readCountersClearBody clearPart
  repeat' split
  all_goals constructor <;> rfl

theorem serveReadCountersClear_atOnce (c : Cmd) (s : State) : AtOnce s (serveReadCountersClear c s) :=
  serveSequenced_atOnce (runBody_atOnce readCountersClearBody_atOnce _) _ c s

/-- R128: every command that is served. -/
theorem serveCommand_atOnce (k : Command) (c : Cmd) (s : State) : AtOnce s (serveCommand k c s) := by
  cases k with
  | readStatus => exact serveRead_atOnce _ _ c s
  | readRelay => exact serveRead_atOnce _ _ c s
  | readPort => exact serveRead_atOnce _ _ c s
  | readCounters => exact .ite (serveReadCountersClear_atOnce c s) (serveRead_atOnce _ _ c s)
  | readRecord => exact serveRead_atOnce _ _ c s
  | readPollEntry => exact serveRead_atOnce _ _ c s
  | readStation => exact serveRead_atOnce _ _ c s
  | readAlarms => exact serveRead_atOnce _ _ c s
  | openSession => exact serveOpen_atOnce c s
  | closeSession => exact serveSequenced_atOnce runClose_atOnce _ c s
  | writeRecord => exact serveSequenced_atOnce (runBody_atOnce writeRecordBody_atOnce _) _ c s
  | clearRecord => exact serveSequenced_atOnce (runBody_atOnce clearRecordBody_atOnce _) _ c s
  | discardStaging => exact serveSequenced_atOnce (runBody_atOnce discardStagingBody_atOnce _) _ c s
  | commit => exact serveSequenced_atOnce runCommit_atOnce _ c s
  | setPort => exact serveSequenced_atOnce (runBody_atOnce setPortBody_atOnce _) _ c s
  | setRelay => exact serveSequenced_atOnce (runBody_atOnce setRelayBody_atOnce _) _ c s
  | writePollEntry => exact serveSequenced_atOnce (runBody_atOnce writePollEntryBody_atOnce _) _ c s
  | clearPollEntry => exact serveSequenced_atOnce (runBody_atOnce clearPollEntryBody_atOnce _) _ c s
  | pollControl => exact serveSequenced_atOnce (runBody_atOnce pollControlBody_atOnce _) _ c s
  | ackAlarm => exact serveSequenced_atOnce (runBody_atOnce ackAlarmBody_atOnce _) _ c s
  | restart => exact serveSequenced_atOnce runRestart_atOnce _ c s

/-! ## Dispositions -/

theorem handCommand_atOnce (src : Byte) (p : Port) (payload : List Byte) (s : State) :
    AtOnce s (handCommand src p payload s) := by
  unfold handCommand
  split
  · split
    · exact serveCommand_atOnce _ _ _
    · exact .ite (discardCommand_atOnce s) ((refresh_atOnce _ s).trans (sendReply_same _ _ _ _ _ _).atOnce)
  · exact discardCommand_atOnce s

theorem deliverLocal_atOnce (p : Port) (f : List Byte) (s : State) : AtOnce s (deliverLocal p f s) :=
  .ite (.ite (handCommand_atOnce _ _ _ _) (countRelay_same _ _).atOnce)
    (.ite (handReply_same _ _ _ _).atOnce (countRelay_same _ _).atOnce)

theorem placeCopies_same (b : BufId) (rewrite : Option Byte) (ps : List Port) (s : State) :
    LineSame s (placeCopies b rewrite ps s).2 := by
  induction ps generalizing s with
  | nil => exact .refl s
  | cons p ps ih =>
    rw [placeCopies_snd]
    refine LineSame.trans ?_ (ih _)
    split
    · exact enqueue_same _ _ _
    · exact (countPort_same _ _ _).trans (raise_same _ _)

theorem copyFrame_same (b : BufId) (p : Port) (egress : PortSet) (rewrite : Option Byte) (s : State) :
    LineSame s (copyFrame b p egress rewrite s) := by
  have hplaced := (placeCopies_same b rewrite (s.copySet p egress) s).trans (handOver_same b
    (placeCopies b rewrite (s.copySet p egress) s).1 _)
  unfold copyFrame
  dsimp only
  split
  · exact hplaced.trans (countRelay_same _ _)
  · exact hplaced

theorem lookUp_atOnce (dest src : Byte) (p : Port) (s : State) : AtOnce s (lookUp dest src p s).2 := by
  unfold lookUp
  split
  all_goals constructor <;> rfl

theorem forwardFrame_atOnce (b : BufId) (p : Port) (f : List Byte) (s : State) : AtOnce s (forwardFrame b p f s) := by
  have hlook := lookUp_atOnce (frameDest f) (frameSrc f) p s
  unfold forwardFrame
  split
  · rename_i h
    rw [h] at hlook
    exact hlook.trans (freeBuf_same _ _).atOnce
  · rename_i h
    rw [h] at hlook
    exact hlook.trans (copyFrame_same _ _ _ _ _).atOnce

theorem dispose_atOnce (e : Inbound) (s : State) : AtOnce s (dispose e s) := by
  have hfreed := (freeBuf_same e.buf s).atOnce
  exact .ite (hfreed.trans (countRelay_same _ _).atOnce)
    (.ite (hfreed.trans (deliverLocal_atOnce _ _ _)) (forwardFrame_atOnce _ _ _ _))

/-! ## The rows -/

theorem exec_characterDelivered_atOnce (p : Port) (s : State) :
    ∃ t, exec (.characterDelivered p) s = .next t ∧ AtOnce s t := by
  cases hdue : (s.port p).dueCharacter with
  | none => exact ⟨s, by show execCharacterDelivered p s = _; rw [execCharacterDelivered, hdue], .refl s⟩
  | some ch =>
    exact ⟨_, exec_characterDelivered hdue, (received_atOnce p ch s).trans (assemble_assembled _ _ _).atOnce⟩

theorem exec_disposition_atOnce (s : State) : ∃ t, exec .disposition s = .next t ∧ AtOnce s t := by
  refine ⟨_, rfl, ?_⟩
  split
  · exact .refl s
  · refine AtOnce.trans ?_ (dispose_atOnce _ _)
    constructor <;> rfl

theorem exec_transmitStart_atOnce (p : Port) (s : State) : ∃ t, exec (.transmitStart p) s = .next t ∧ AtOnce s t := by
  refine ⟨_, rfl, ?_⟩
  split
  · exact .guarded (modPort_same _ _ _).atOnce
  · exact .refl s
  · exact .refl s

theorem exec_endOfSending_atOnce (p : Port) (s : State) : ∃ t, exec (.endOfSending p) s = .next t ∧ AtOnce s t := by
  refine ⟨_, rfl, ?_⟩
  split
  · exact .guarded (finishSending_atOnce _ _ _)
  · exact .refl s
  · exact .refl s

theorem exec_applyPendingConfig_atOnce (p : Port) (s : State) :
    ∃ t, exec (.applyPendingConfig p) s = .next t ∧ AtOnce s t := by
  refine ⟨_, rfl, ?_⟩
  split
  · exact .refl s
  · rw [applyConfig_eq]
    exact .guarded ((configured_atOnce _ _ _).trans (settleRestart_atOnce _))

theorem exec_newCycle_atOnce (b : Branch) (s : State) : ∃ t, exec (.newCycle b) s = .next t ∧ AtOnce s t := by
  refine ⟨_, rfl, .guarded ?_⟩
  split
  · exact .refl s
  · exact (beginCycle_same _ _ _).atOnce

theorem exec_managed_atOnce {serve : Cmd → State → State} {c : Cmd} {i : Instr} {s : State}
    (hrow : exec i s = .next (manage serve c s)) (h : AtOnce s (serve c s)) : ∃ t, exec i s = .next t ∧ AtOnce s t :=
  ⟨_, hrow, manage_atOnce h⟩

/-- Every command but a cold reset answers a next state, at the same instant and with the same commands and inputs to
come. -/
theorem exec_atOnce {i : Instr} (h : ∀ r x, i ≠ .coldReset r x) (s : State) :
    ∃ t, exec i s = .next t ∧ AtOnce s t := by
  cases i with
  | coldReset r x => exact absurd rfl (h r x)
  | warmRestart => exact ⟨_, rfl, settleRestart_atOnce s⟩
  | characterDelivered p => exact exec_characterDelivered_atOnce p s
  | falseStart p => exact ⟨_, rfl, .guarded (modPort_same _ _ _).atOnce⟩
  | breakEntry p =>
    exact ⟨_, rfl, .guarded ((((countPort_same _ _ _).trans (modPort_same _ _ _)).trans (raise_same _ _)).atOnce.trans
      (breakAssembler_atOnce _ _))⟩
  | breakExit p => exact ⟨_, rfl, .guarded (modPort_same _ _ _).atOnce⟩
  | gapExpiry p => exact ⟨_, rfl, .guarded (expireGap_atOnce _ _)⟩
  | duplicateMemoryExpiry => exact ⟨_, rfl, .guarded (by constructor <;> rfl)⟩
  | disposition => exact exec_disposition_atOnce s
  | take p => exact ⟨_, rfl, .guarded ((takeFrom_atOnce _ _).trans (settleRestart_atOnce _))⟩
  | transmitStart p => exact exec_transmitStart_atOnce p s
  | endOfSending p => exact exec_endOfSending_atOnce p s
  | applyPendingConfig p => exact exec_applyPendingConfig_atOnce p s
  | pollBufferRetry b => exact ⟨_, rfl, .guarded (askPollBuffer_same _ _).atOnce⟩
  | replyTimeout b => exact ⟨_, rfl, .guarded (missPoll_same _ _).atOnce⟩
  | newCycle b => exact exec_newCycle_atOnce b s
  | validationComplete => exact ⟨_, rfl, .guarded (completeCommit_atOnce _)⟩
  | sessionExpiry => exact ⟨_, rfl, .guarded (expireSession_atOnce _)⟩
  | readStatus c => exact exec_managed_atOnce rfl (serveCommand_atOnce .readStatus c s)
  | readRelay c => exact exec_managed_atOnce rfl (serveCommand_atOnce .readRelay c s)
  | readPort c => exact exec_managed_atOnce rfl (serveCommand_atOnce .readPort c s)
  | readCounters c => exact exec_managed_atOnce rfl (serveRead_atOnce .readCounters readCountersReply c s)
  | readCountersClear c => exact exec_managed_atOnce rfl (serveReadCountersClear_atOnce c s)
  | readRecord c => exact exec_managed_atOnce rfl (serveCommand_atOnce .readRecord c s)
  | readPollEntry c => exact exec_managed_atOnce rfl (serveCommand_atOnce .readPollEntry c s)
  | readStation c => exact exec_managed_atOnce rfl (serveCommand_atOnce .readStation c s)
  | readAlarms c => exact exec_managed_atOnce rfl (serveCommand_atOnce .readAlarms c s)
  | openSession c => exact exec_managed_atOnce rfl (serveCommand_atOnce .openSession c s)
  | closeSession c => exact exec_managed_atOnce rfl (serveCommand_atOnce .closeSession c s)
  | writeRecord c => exact exec_managed_atOnce rfl (serveCommand_atOnce .writeRecord c s)
  | clearRecord c => exact exec_managed_atOnce rfl (serveCommand_atOnce .clearRecord c s)
  | discardStaging c => exact exec_managed_atOnce rfl (serveCommand_atOnce .discardStaging c s)
  | commit c => exact exec_managed_atOnce rfl (serveCommand_atOnce .commit c s)
  | setPort c => exact exec_managed_atOnce rfl (serveCommand_atOnce .setPort c s)
  | setRelay c => exact exec_managed_atOnce rfl (serveCommand_atOnce .setRelay c s)
  | writePollEntry c => exact exec_managed_atOnce rfl (serveCommand_atOnce .writePollEntry c s)
  | clearPollEntry c => exact exec_managed_atOnce rfl (serveCommand_atOnce .clearPollEntry c s)
  | pollControlStart c => exact exec_managed_atOnce rfl (serveCommand_atOnce .pollControl c s)
  | pollControlStop c => exact exec_managed_atOnce rfl (serveCommand_atOnce .pollControl c s)
  | ackAlarm c => exact exec_managed_atOnce rfl (serveCommand_atOnce .ackAlarm c s)
  | restart c => exact exec_managed_atOnce rfl (serveCommand_atOnce .restart c s)
  | startEdge p => exact ⟨_, rfl, .guarded (modPort_same _ _ _).atOnce⟩
  | returnToMark p => exact ⟨_, rfl, .guarded (modPort_same _ _ _).atOnce⟩
  | returnToSpaceInBreak p => exact ⟨_, rfl, .guarded (modPort_same _ _ _).atOnce⟩

end Sys2Proof.Machine
end

section
/-! Proof of the claim about an empty queue (log 2): a step that is due or open, a line input, or one cycle. -/

namespace Sys2Proof.Machine

/-! ## A sampling period (R4, R5) -/

/-- R4, R5: an instant is the end of a sampling period in which a sample is taken. -/
theorem samplePeriod_iff {now e d : Nat} :
    ((now - e) % d = 0 ∧ e < now ∧ isSamplePeriod ((now - e) / d) = true) ↔
      0 < d ∧ ∃ n j, 7 ≤ j ∧ j ≤ 9 ∧ now = e + (16 * n + j) * d := by
  simp only [isSamplePeriod, decide_eq_true_eq]
  constructor
  · rintro ⟨hmod, hlt, hj⟩
    have hmul : (now - e) / d * d = now - e := Nat.div_mul_cancel (Nat.dvd_of_mod_eq_zero hmod)
    refine ⟨Nat.pos_of_ne_zero ?_, (now - e) / d / 16, (now - e) / d % 16, hj.1, hj.2, ?_⟩
    · rintro rfl
      omega
    · rw [Nat.div_add_mod, hmul]
      omega
  · rintro ⟨hd, n, j, h7, h9, rfl⟩
    have hpos : 0 < (16 * n + j) * d := Nat.mul_pos (by omega) hd
    rw [Nat.add_sub_cancel_left, Nat.mul_div_cancel _ hd, Nat.mul_mod_left]
    omega

/-- R4, R5: a centre sample of a bit is taken. -/
theorem sample_taken {now e n j : Nat} {q : PortState} (hedge : q.rx.edge = some e) (h7 : 7 ≤ j) (h9 : j ≤ 9)
    (hnow : now = e + (16 * n + j) * q.applied.divisor.toNat) (hd : 0 < q.applied.divisor.toNat)
    (hroom : q.rx.samples.length < 33) : (q.sample now).rx.samples = q.rx.samples ++ [q.rxd] := by
  obtain ⟨hmod, hlt, hcentre⟩ := samplePeriod_iff.2 ⟨hd, n, j, h7, h9, hnow⟩
  unfold PortState.sample
  rw [hedge]
  dsimp only
  rw [if_pos ⟨hmod, hlt, hcentre, hroom⟩]

/-- R4, R5: at another instant no sample is taken. -/
theorem sample_not_taken {now e : Nat} {q : PortState} (hedge : q.rx.edge = some e)
    (h : ∀ n j, 7 ≤ j → j ≤ 9 → now ≠ e + (16 * n + j) * q.applied.divisor.toNat) :
    (q.sample now).rx.samples = q.rx.samples := by
  unfold PortState.sample
  rw [hedge]
  dsimp only
  rw [if_neg]
  rintro ⟨hmod, hlt, hcentre, -⟩
  obtain ⟨-, n, j, h7, h9, hnow⟩ := samplePeriod_iff.1 ⟨hmod, hlt, hcentre⟩
  exact h n j h7 h9 hnow

/-- Without an edge no sample is taken. -/
theorem sample_no_edge {now : Nat} {q : PortState} (h : q.rx.edge = none) : q.sample now = q := by
  unfold PortState.sample
  rw [h]

/-! ## One cycle -/

/-- A port when a cycle has passed, before its sample: an edge remembered, a character's end reached. -/
def State.unsampled (s : State) (p : Port) : PortState := (s.holdEdge p).passEnd (s.now + 1)

theorem advance_port (s : State) (p : Port) : (advance s).port p = (s.unsampled p).sample (s.now + 1) := by
  rw [State.port, advance, PerPort.get_of, State.unsampled]

theorem unsampled_eq (s : State) (p : Port) : s.unsampled p = { s.port p with
    edgeFirst := (s.holdEdge p).edgeFirst
    charEnd := (s.unsampled p).charEnd
    lastActivity := (s.unsampled p).lastActivity } :=
  calc s.unsampled p
    _ = { s.holdEdge p with
          lastActivity := (s.unsampled p).lastActivity
          charEnd := (s.unsampled p).charEnd } := PortState.passEnd_eq _ _
    _ = _ := by rw [holdEdge_eq]

/-- Before its sample a port has its receiver, its record and its line as they were. -/
theorem unsampled_keeps (s : State) (p : Port) : (s.unsampled p).rx = (s.port p).rx
    ∧ (s.unsampled p).applied = (s.port p).applied ∧ (s.unsampled p).rxd = (s.port p).rxd := by
  rw [unsampled_eq]
  exact ⟨rfl, rfl, rfl⟩

/-- R9, R11: a character's end that the cycle reaches. -/
theorem unsampled_reached {s : State} {p : Port} {e : Nat} (h : (s.port p).charEnd = some e) (he : e ≤ s.now + 1) :
    (s.unsampled p).charEnd = none
      ∧ (s.unsampled p).lastActivity = if (s.port p).rxd = .mark then e else (s.port p).lastActivity := by
  rw [State.unsampled, holdEdge_eq]
  exact PortState.passEnd_reached h he

/-- An end that still lies ahead is awaited on. -/
theorem unsampled_ahead {s : State} {p : Port} (h : ∀ e, (s.port p).charEnd = some e → s.now + 1 < e) :
    (s.unsampled p).charEnd = (s.port p).charEnd ∧ (s.unsampled p).lastActivity = (s.port p).lastActivity := by
  have hahead : s.unsampled p = s.holdEdge p := PortState.passEnd_ahead (by rw [holdEdge_eq]; exact h)
  rw [hahead, holdEdge_eq]
  exact ⟨rfl, rfl⟩

/-- A cycle changes of a port its samples, and what stands before them. -/
theorem advance_port_eq (s : State) (p : Port) : (advance s).port p = { s.port p with
    edgeFirst := (s.holdEdge p).edgeFirst
    charEnd := (s.unsampled p).charEnd
    lastActivity := (s.unsampled p).lastActivity
    rx := { (s.port p).rx with samples := ((advance s).port p).rx.samples } } :=
  calc (advance s).port p
    _ = { s.unsampled p with
          rx := { (s.unsampled p).rx with samples := ((advance s).port p).rx.samples } } := by
      rw [advance_port]
      exact PortState.sample_eq _ _
    _ = _ := by rw [unsampled_eq]

section
variable {s : State} {p : Port}

theorem advance_sample_taken {e n j : Nat} (hedge : (s.port p).rx.edge = some e) (h7 : 7 ≤ j) (h9 : j ≤ 9)
    (hnow : s.now + 1 = e + (16 * n + j) * (s.port p).applied.divisor.toNat)
    (hd : 0 < (s.port p).applied.divisor.toNat) (hroom : (s.port p).rx.samples.length < 33) :
    ((advance s).port p).rx.samples = (s.port p).rx.samples ++ [(s.port p).rxd] := by
  obtain ⟨hrx, happlied, hrxd⟩ := unsampled_keeps s p
  rw [← happlied] at hnow hd
  rw [← hrx] at hedge hroom
  rw [advance_port, ← hrx, ← hrxd]
  exact sample_taken hedge h7 h9 hnow hd hroom

theorem advance_sample_not_taken {e : Nat} (hedge : (s.port p).rx.edge = some e)
    (h : ∀ n j, 7 ≤ j → j ≤ 9 → s.now + 1 ≠ e + (16 * n + j) * (s.port p).applied.divisor.toNat) :
    ((advance s).port p).rx.samples = (s.port p).rx.samples := by
  obtain ⟨hrx, happlied, -⟩ := unsampled_keeps s p
  rw [← happlied] at h
  rw [← hrx] at hedge
  rw [advance_port, ← hrx]
  exact sample_not_taken hedge h

theorem advance_sample_no_edge (hedge : (s.port p).rx.edge = none) :
    ((advance s).port p).rx.samples = (s.port p).rx.samples := by
  obtain ⟨hrx, -, -⟩ := unsampled_keeps s p
  rw [← hrx] at hedge
  rw [advance_port, ← hrx, sample_no_edge hedge]

end

/-! ## The step on an empty queue -/

/-- Nothing is due: no step, and no line input. -/
theorem idle_iff (s : State) : s.dueSteps = [] ∧ s.inputDue = false ↔
    (∀ i, ¬ s.Due i) ∧ ∀ i rest, s.lineInput = i :: rest → s.now < i.instant := by
  rw [inputDue_false_iff, List.eq_nil_iff_forall_not_mem]
  simp only [dueSteps_iff]

theorem step_empty {s : State} (h : s.pending = []) : step s = idleStep s := by rw [step, h]

theorem step_run {s : State} {i : Instr} (h : s.pending = []) (hi : s.idleChoice = .run i) :
    step s = exec i { s with choices := s.choices + 1 } := by rw [step_empty h, idleStep, hi]

theorem step_input {s : State} (h : s.pending = []) (hi : s.idleChoice = .input) :
    step s = .next (takeInput { s with choices := s.choices + 1 }) := by rw [step_empty h, idleStep, hi]

theorem step_advance {s : State} (h : s.pending = []) (hi : s.idleChoice = .advance) :
    step s = .next (advance { s with choices := s.choices + 1 }) := by rw [step_empty h, idleStep, hi]

/-- A cold reset comes from outside only: it is never due and never open. -/
theorem not_coldReset_of_due_or_open {s : State} {i : Instr} (h : s.Due i ∨ s.Open i) :
    ∀ r x, i ≠ .coldReset r x := by
  rintro r x rfl
  obtain h | h := h <;> exact h

/-- A line input that is due stands at the front. -/
theorem inputDue_front {s : State} (h : s.inputDue = true) :
    ∃ i rest, s.lineInput = i :: rest ∧ i.instant ≤ s.now := by
  unfold State.inputDue at h
  split at h
  · cases h
  · rename_i i rest hfront
    exact ⟨i, rest, hfront, of_decide_eq_true h⟩

/-- R4, R8, R9: the front input moves its port's line, and nothing else. -/
theorem takeInput_front {s : State} {i : LineInput} {rest : List LineInput} (h : s.lineInput = i :: rest) :
    takeInput s = { s with
      lineInput := rest
      ports := s.ports.set i.port ((s.port i.port).lineTo (s.listening i.port) s.now i.level) } := by
  rw [takeInput, h]
  rfl

end Sys2Proof.Machine

namespace Sys2Proof.LinePorts

open Sys2Proof.Machine

/-- Settles O3, by the three kinds of choice; every command answers at the same instant, and a cycle by one field of a
port after the other. -/
theorem idleStep : Obligations.IdleStep := by
  unfold Obligations.IdleStep
  intro s hpending idle
  obtain ⟨i, hi, hchoice⟩ | ⟨hinput, hchoice⟩ | ⟨hinput, hdue, hchoice⟩ := idleChoice_cases s
  · rw [step_run hpending hchoice]
    rw [dueSteps_iff, openSteps_iff] at hi
    obtain ⟨t, ht, hsame⟩ := exec_atOnce (not_coldReset_of_due_or_open hi) { s with choices := s.choices + 1 }
    exact ⟨⟨t, ht, .inl hsame.now⟩, .inl ⟨i, hi, rfl⟩⟩
  · rw [step_input hpending hchoice]
    obtain ⟨i, rest, hfront, hinstant⟩ := inputDue_front hinput
    rw [takeInput_front (s := { s with choices := s.choices + 1 }) hfront]
    exact ⟨⟨_, rfl, .inl rfl⟩, .inr (.inl ⟨i, rest, _, hfront, hinstant, PortState.lineTo_moved _ _ _ _, rfl⟩)⟩
  · rw [step_advance hpending hchoice]
    have hidle : idle := (idle_iff s).1 ⟨hdue, hinput⟩
    refine ⟨⟨_, rfl, .inr ⟨rfl, hidle⟩⟩, .inr (.inr ⟨hidle, _, rfl, rfl, fun p => ?_⟩)⟩
    have hport := advance_port_eq { s with choices := s.choices + 1 } p
    refine ⟨by rw [hport], fun e n j => advance_sample_taken, fun e => advance_sample_not_taken, advance_sample_no_edge,
      ?_, fun e hend he => ?_, fun hend => ?_⟩
    · rw [hport]
      exact holdEdge_edgeFirst { s with choices := s.choices + 1 } p
    · rw [hport]
      exact unsampled_reached (s := { s with choices := s.choices + 1 }) hend he
    · rw [hport]
      exact unsampled_ahead (s := { s with choices := s.choices + 1 }) hend

end Sys2Proof.LinePorts
end

section
/-! Proofs of the frame assemblers' claims (R22 to R37, R45 to R48): what a character does in each state of an
assembler, and the expiries. -/

namespace Sys2Proof.Machine

/-! ## A delivered character reaches the assembler (R5) -/

/-- R5: what CHARACTER_DELIVERED does is what the assembler makes of the character after the receiver's part. -/
theorem exec_characterDelivered_next {p : Port} {s t : State} {ch : Character}
    (hdue : (s.port p).dueCharacter = some ch) (h : assemble p ch (s.received p ch) = t) :
    exec (.characterDelivered p) s = .next t :=
  (exec_characterDelivered hdue).trans (congrArg _ h)

theorem received_tickAt (p : Port) (s : State) (ch : Character) (t : Nat) :
    (s.received p ch).tickAt t = s.tickAt t := by
  rw [received_eq]
  rfl

/-- The receiver's part leaves what the judgement of a duplicate reads as it was. -/
theorem received_isDuplicate (p : Port) (s : State) (ch : Character) :
    (s.received p ch).isDuplicate = s.isDuplicate := by
  rw [received_eq]
  rfl

/-- R45, R48: the record of a frame, taken after the receiver's part of its last character. -/
theorem recordGood_received (p : Port) (s : State) (ch : Character) (k : Trunk) (f : List Byte) (check : Word16) :
    recordGood k f check (s.received p ch) = { s.received p ch with
      dup := if s.relay.mirrorWindow = 0 then none
             else some ⟨k, frameDest f, frameSrc f, frameByte f 3, check, s.tick⟩ } := by
  rw [received_eq]
  rfl

theorem Character.isAddress_of_unerrored {ch : Character} (h : ch.errored = false) : ch.isAddress = ch.markBit := by
  simp [Character.isAddress, h]

/-- R28, R37: the position is the frame's last, 6 + LEN. -/
theorem last_position_iff (len : Option Nat) (pos : Nat) :
    (len = some (pos - 6) ∧ 6 ≤ pos) ↔ ∃ l, len = some l ∧ pos = 6 + l := by
  constructor
  · rintro ⟨hlen, hpos⟩
    exact ⟨pos - 6, hlen, by omega⟩
  · rintro ⟨l, hlen, rfl⟩
    exact ⟨by rw [hlen, Nat.add_sub_cancel_left], Nat.le_add_right 6 l⟩

/-! ## Characters that store nothing (R25, R36, R37) -/

section StoresNothing
variable {p : Port} {ch : Character} {s : State}

theorem assemble_hunt_stray (hasm : (s.port p).asm = .hunt) (ha : ch.isAddress = false) :
    assemble p ch s = countPort p .strayChars s := by
  unfold assemble
  simp [hasm, ha]

theorem assemble_skip_passed {g : Gap} (hasm : (s.port p).asm = .skip g) (ha : ch.isAddress = false) :
    assemble p ch s = setAsm p (.skip { g with ref := ch.stop }) s := by
  unfold assemble
  simp [hasm, ha]

/-- R37: an errored character ends a copy; another one that is no address character is followed. -/
theorem assemble_shadow {w : Shadow} (hasm : (s.port p).asm = .shadow w) (ha : ch.isAddress = false) :
    assemble p ch s = if ch.errored = true then setAsm p .hunt (countPort p .shadowed s)
      else followCharacter p w ch s := by
  unfold assemble
  rw [hasm]
  dsimp only
  split
  · rfl
  · next herrored =>
    rw [if_neg]
    rw [← Character.isAddress_of_unerrored (by simpa using herrored), ha]
    exact Bool.false_ne_true

end StoresNothing

/-- R37: what an unerrored character of a followed copy does. -/
theorem followCharacter_eq (p : Port) (w : Shadow) (ch : Character) (s : State) :
    let len := if w.pos + 1 = 4 then some ch.data.toNat else w.len
    followCharacter p w ch s =
      if (w.pos + 1 = 4 ∧ 60 < ch.data.toNat) ∨ ∃ l, len = some l ∧ w.pos + 1 = 6 + l then
        setAsm p .hunt (countPort p .shadowed s)
      else setAsm p (.shadow ⟨⟨ch.stop, w.gap.limit⟩, w.pos + 1, len⟩) s := by
  simp only [followCharacter, last_position_iff, gt_iff_lt]

/-! ## The beginning of a frame (R26, R27) -/

/-- R26: a refused request is NO_BUFFER, with its alarm; a grant is given back. -/
theorem takeBuffer_refused {p : Port} {ch : Character} {s : State} (h : s.freeCount ≤ 2) :
    takeBuffer p ch s = setAsm p (.skip ⟨ch.stop, (s.port p).applied.gapLimit⟩)
      (releaseGrant p (raise .poolEmpty (countPort p .noBuffer s))) := by
  have hnone : requestBuffer (.assembler p) s = none := if_neg (Nat.not_lt.2 h)
  rw [takeBuffer, hnone]
  rfl

theorem branch_port_trunk? (b : Branch) : b.port.trunk? = none := by cases b <;> rfl

/-- R40: only trunks ask the arbiter. -/
theorem beginReception_branch (b : Branch) (ch : Character) (s : State) :
    beginReception b.port ch s = takeBuffer b.port ch s := by
  rw [beginReception, branch_port_trunk?]

/-- R43: a branch holds no grant. -/
theorem releaseGrant_branch (b : Branch) (s : State) : releaseGrant b.port s = s := by
  rw [releaseGrant, branch_port_trunk?]

/-- R31: a frame INTERRUPTED and the new one begun in its buffer, in closed form. -/
theorem beginFrame_interrupted (p : Port) (ch : Character) (b : BufId) (s : State) :
    beginFrame p ch b (countPort p .interrupted s) = { s with
      ports := s.ports.set p { s.port p with
        asm := .collect ⟨⟨ch.stop, (s.port p).applied.gapLimit⟩, 1, none, b, crc [ch.data], s.tickAt ch.start⟩
        counters := (s.port p).counters.bump .interrupted }
      pool := s.pool.set b.val { s.pool.get b with bytes := [ch.data] } b.isLt } := by
  simp [beginFrame, setAsm, State.modPort, State.port, countPort, fillBuf, setBuf, Collect.begin, Character.gap, crc,
    State.tickAt]

/-! ## A character of a frame in COLLECT (R28 to R31) -/

section InCollect
variable {p : Port} {ch : Character} {c : Collect} {s : State}

/-- R30: an errored character. -/
theorem assemble_collect_errored (hasm : (s.port p).asm = .collect c) (herrored : ch.errored = true) :
    assemble p ch s = s.failed p c .charError := by
  unfold assemble
  simp only [hasm, herrored, if_true, failFrame_eq]

/-- R31: an address character interrupts the frame. -/
theorem assemble_collect_address (hasm : (s.port p).asm = .collect c) (herrored : ch.errored = false)
    (hmark : ch.markBit = true) : assemble p ch s = beginFrame p ch c.buf (countPort p .interrupted s) := by
  unfold assemble
  simp [hasm, herrored, hmark]

theorem assemble_collect_data (hasm : (s.port p).asm = .collect c) (herrored : ch.errored = false)
    (hmark : ch.markBit = false) : assemble p ch s = storeCharacter p c ch s := by
  unfold assemble
  simp [hasm, herrored, hmark]

end InCollect

/-- R28: the reception once a character has been stored at its position. -/
def Collect.stored (c : Collect) (ch : Character) : Collect where
  gap := ⟨ch.stop, c.gap.limit⟩
  pos := c.pos + 1
  len := if c.pos + 1 = 4 then some ch.data.toNat else c.len
  buf := c.buf
  check := if c.len.all (fun l => decide (c.pos + 1 ≤ 4 + l)) then crcByte c.check ch.data else c.check
  startTick := c.startTick

/-- R28: a character is stored unless it gives a length above 60; the one at position 6 + LEN completes the frame. -/
theorem storeCharacter_eq (p : Port) (c : Collect) (ch : Character) (s : State) : storeCharacter p c ch s =
    if c.pos + 1 = 4 ∧ 60 < ch.data.toNat then s.failed p c .badLength
    else if ∃ l, (c.stored ch).len = some l ∧ c.pos + 1 = 6 + l then
      completeFrame p (c.stored ch) (fillBuf c.buf ((s.pool.get c.buf).bytes ++ [ch.data]) s)
    else setAsm p (.collect (c.stored ch)) (fillBuf c.buf ((s.pool.get c.buf).bytes ++ [ch.data]) s) := by
  simp only [storeCharacter, last_position_iff, gt_iff_lt, failFrame_eq]
  cases hlen : c.len <;> simp [Collect.stored, hlen]

@[simp] theorem fillBuf_bytes (b : BufId) (f : List Byte) (s : State) : ((fillBuf b f s).pool.get b).bytes = f := by
  simp [fillBuf]

/-! ## A completed frame (R29, R35, R46) -/

section Completed
variable {p : Port} {c : Collect} {s : State} {f : List Byte}

/-- R29: the check received disagrees with the running one. -/
theorem completeFrame_disagrees (hbytes : (s.pool.get c.buf).bytes = f)
    (hcheck : word16 (frameByte f (4 + frameLen f)) (frameByte f (5 + frameLen f)) ≠ c.check) :
    completeFrame p c s = s.failed p c .checkError := by
  subst hbytes
  rw [← failFrame_eq]
  exact if_pos hcheck

variable (hbytes : (s.pool.get c.buf).bytes = f)
  (hcheck : word16 (frameByte f (4 + frameLen f)) (frameByte f (5 + frameLen f)) = c.check)
include hbytes hcheck

/-- R35: on a branch the frame ends GOOD. -/
theorem completeFrame_branch (htrunk : p.trunk? = none) : completeFrame p c s = s.good p c f := by
  rw [← goodFrame_eq p c f s hbytes]
  simp [completeFrame, hbytes, hcheck, htrunk]

/-- R46: a duplicate on a trunk, whose record is used up. -/
theorem completeFrame_duplicate {k : Trunk} (htrunk : p.trunk? = some k)
    (hdup : s.isDuplicate k f c.check c.startTick = true) :
    completeFrame p c s = { s with dup := none }.failed p c .duplicates := by
  rw [← failFrame_eq]
  simp [completeFrame, hbytes, hcheck, htrunk, hdup]

/-- R45, R48: any other frame on a trunk ends GOOD and is recorded. -/
theorem completeFrame_recorded {k : Trunk} (htrunk : p.trunk? = some k)
    (hdup : s.isDuplicate k f c.check c.startTick = false) :
    completeFrame p c s = (recordGood k f c.check s).good p c f := by
  rw [← goodFrame_eq p c f (recordGood k f c.check s) hbytes]
  simp [completeFrame, hbytes, hcheck, htrunk, hdup]

end Completed

/-! ## The last character of a frame (R29) -/

section LastCharacter
variable {p : Port} {ch : Character} {c : Collect} {s : State} {l : Nat}

/-- R29: the check characters are not taken into the running check. -/
theorem stored_check_last (hlen : c.len = some l) (hpos : c.pos + 1 = 6 + l) : (c.stored ch).check = c.check := by
  simp [Collect.stored, hlen, hpos]

theorem storeCharacter_last (hlen : c.len = some l) (hpos : c.pos + 1 = 6 + l) : storeCharacter p c ch s
    = completeFrame p (c.stored ch) (fillBuf c.buf ((s.pool.get c.buf).bytes ++ [ch.data]) s) := by
  have hfar : c.pos + 1 ≠ 4 := by omega
  rw [storeCharacter_eq, if_neg fun h => hfar h.1, if_pos ⟨l, (if_neg hfar).trans hlen, hpos⟩]

/-- R28, R29: the character at position 6 + LEN is stored and completes the frame. -/
theorem exec_characterDelivered_last (hdue : (s.port p).dueCharacter = some ch)
    (hasm : (s.port p).asm = .collect c) (herrored : ch.errored = false) (hmark : ch.markBit = false)
    (hlen : c.len = some l) (hpos : c.pos + 1 = 6 + l) : exec (.characterDelivered p) s
      = .next (completeFrame p (c.stored ch)
          (fillBuf c.buf ((s.pool.get c.buf).bytes ++ [ch.data]) (s.received p ch))) := by
  refine exec_characterDelivered_next hdue ?_
  rw [assemble_collect_data (received_asm.trans hasm) herrored hmark, storeCharacter_last hlen hpos, received_pool]

end LastCharacter

/-! ## The duplicate memory (R46) -/

/-- Of the two trunks, the other one is the one that is not this. -/
theorem trunk_eq_other_iff (t k : Trunk) : t = k.other ↔ t ≠ k := by cases t <;> cases k <;> decide

/-- R46: a frame is judged a duplicate of the record that the memory holds. -/
theorem isDuplicate_iff (s : State) (k : Trunk) (f : List Byte) (check : Word16) (start : Nat) :
    s.isDuplicate k f check start = true ↔
      s.relay.mirrorWindow ≠ 0 ∧ ∃ r, s.dup = some r ∧ r.trunk ≠ k
        ∧ start ≤ r.endTick + s.relay.mirrorWindow.toNat
        ∧ frameDest f = r.dest ∧ frameSrc f = r.src ∧ frameByte f 3 = r.len ∧ check = r.check := by
  unfold State.isDuplicate
  cases s.dup with
  | none => simp
  | some r =>
    simp only [Bool.and_eq_true, decide_eq_true_eq, trunk_eq_other_iff, and_assoc, Option.some.injEq,
      exists_eq_left']

/-! ## Expiries (R24, R32, R47) -/

theorem exec_gapExpiry (p : Port) (s : State) :
    exec (.gapExpiry p) s = .next (if s.gapExpired p then expireGap p s else s) := rfl

theorem exec_duplicateMemoryExpiry (s : State) :
    exec .duplicateMemoryExpiry s = .next (if s.dupExpired then { s with dup := none } else s) := rfl

section ExpireGap
variable {p : Port} {s : State}

/-- R32: RUNT. -/
theorem expireGap_collect {c : Collect} (hasm : (s.port p).asm = .collect c) :
    expireGap p s = s.failed p c .runt := by
  unfold expireGap
  rw [hasm, ← failFrame_eq]

/-- R37. -/
theorem expireGap_shadow {w : Shadow} (hasm : (s.port p).asm = .shadow w) :
    expireGap p s = setAsm p .hunt (countPort p .shadowed s) := by
  unfold expireGap
  rw [hasm]

/-- R36. -/
theorem expireGap_skip {g : Gap} (hasm : (s.port p).asm = .skip g) : expireGap p s = setAsm p .hunt s := by
  unfold expireGap
  rw [hasm]

end ExpireGap

end Sys2Proof.Machine

namespace Sys2Proof.FrameAssembly

open Sys2Proof.Machine

/-- Settles O19: the assembler's state decides what it makes of a character that is no address character. -/
theorem characterStoredNowhere : Obligations.CharacterStoredNowhere := by
  unfold Obligations.CharacterStoredNowhere
  intro p s ch hdue ha
  have hsame := received_asm (p := p) (s := s) (ch := ch)
  refine ⟨fun hasm => exec_characterDelivered_next hdue (assemble_hunt_stray (hsame.trans hasm) ha),
    fun g hasm => exec_characterDelivered_next hdue (assemble_skip_passed (hsame.trans hasm) ha),
    fun w hasm => ⟨fun hends => ?_, fun hends => ?_⟩⟩ <;>
    refine exec_characterDelivered_next hdue ((assemble_shadow (hsame.trans hasm) ha).trans ?_)
  · split
    · rfl
    · next herrored => rw [followCharacter_eq, if_pos (hends.resolve_left herrored)]
  · rw [not_or] at hends
    rw [if_neg hends.1, followCharacter_eq, if_neg hends.2]

/-- Settles O20: a branch asks the pool at once, and the FREE count decides. -/
theorem frameBeginsOnBranch : Obligations.FrameBeginsOnBranch := by
  unfold Obligations.FrameBeginsOnBranch
  intro b s ch hdue ha hasm u gap
  have hbegins : assemble b.port ch u = takeBuffer b.port ch u := by
    rw [assemble_address (by rwa [received_asm]) ha, beginReception_branch]
  refine ⟨fun hfree => ?_, fun hfree => exec_characterDelivered_next hdue (hbegins.trans ?_)⟩
  · obtain ⟨buf, huse, htaken⟩ := takeBuffer_given (p := b.port) (ch := ch) (s := u) (by rwa [received_freeCount])
    refine ⟨buf, by rwa [received_pool] at huse, exec_characterDelivered_next hdue (hbegins.trans ?_)⟩
    rw [htaken, received_applied, received_tickAt]
  · rw [takeBuffer_refused (by rwa [received_freeCount]), releaseGrant_branch, received_applied]

/-- Settles O22: the character neither gives a length above 60 nor stands at position 6 + LEN. -/
theorem characterStored : Obligations.CharacterStored := by
  unfold Obligations.CharacterStored
  intro p s ch c hdue hasm herrored hmark u len hlength hlast
  refine exec_characterDelivered_next hdue ((assemble_collect_data (received_asm.trans hasm) herrored hmark).trans ?_)
  rw [storeCharacter_eq, if_neg hlength, if_neg fun ⟨l, hlen, hpos⟩ => hlast l hlen hpos]
  rfl

/-- Settles O23: the four ends, in the order in which a character is judged. -/
theorem failedReceptions : Obligations.FailedReceptions := by
  unfold Obligations.FailedReceptions
  intro p s ch c hdue hasm u f
  have hcollect : (u.port p).asm = .collect c := received_asm.trans hasm
  refine ⟨fun herrored => ?_, fun herrored hmark => ?_, fun herrored hmark hpos hlength => ?_,
    fun l herrored hmark hlen hpos hcheck => ?_⟩
  · exact exec_characterDelivered_next hdue (assemble_collect_errored hcollect herrored)
  · refine exec_characterDelivered_next hdue ((assemble_collect_address hcollect herrored hmark).trans ?_)
    rw [beginFrame_interrupted, received_applied, received_tickAt]
  · refine exec_characterDelivered_next hdue ((assemble_collect_data hcollect herrored hmark).trans ?_)
    rw [storeCharacter_eq, if_pos ⟨hpos, hlength⟩]
  · rw [exec_characterDelivered_last hdue hasm herrored hmark hlen hpos]
    have hdisagrees : word16 (frameByte f (4 + frameLen f)) (frameByte f (5 + frameLen f)) ≠ (c.stored ch).check := by
      rwa [stored_check_last hlen hpos]
    exact congrArg _ ((completeFrame_disagrees (fillBuf_bytes _ _ _) hdisagrees).trans (failed_pool _ _ _ _ _ _ rfl))

/-- Settles O24: the last character is stored, and the frame ends by the judgement of R46. -/
theorem completedFrame : Obligations.CompletedFrame := by
  unfold Obligations.CompletedFrame
  refine ⟨fun p s ch c l hdue hasm herrored hmark hlen hpos => ?_, isDuplicate_iff⟩
  intro u f hcheck
  have hkept := stored_check_last (ch := ch) hlen hpos
  have hbytes : ((fillBuf c.buf f u).pool.get (c.stored ch).buf).bytes = f := fillBuf_bytes _ _ _
  have hagrees : word16 (frameByte f (4 + frameLen f)) (frameByte f (5 + frameLen f)) = (c.stored ch).check :=
    hcheck.trans hkept.symm
  have hjudged : ∀ k, (fillBuf c.buf f u).isDuplicate k f (c.stored ch).check (c.stored ch).startTick
      = s.isDuplicate k f c.check c.startTick := fun k => by
    rw [hkept, ← received_isDuplicate p s ch]
    rfl
  rw [exec_characterDelivered_last hdue hasm herrored hmark hlen hpos]
  refine ⟨fun htrunk => ?_, fun k htrunk hdup => ?_, fun k htrunk hdup => ?_⟩ <;> refine congrArg _ ?_
  · exact (completeFrame_branch hbytes hagrees htrunk).trans (good_pool _ _ _ _ _ _ rfl)
  · exact (completeFrame_duplicate hbytes hagrees htrunk ((hjudged k).trans hdup)).trans
      (failed_pool { u with dup := none } _ _ _ _ _ rfl)
  · rw [completeFrame_recorded hbytes hagrees htrunk ((hjudged k).trans hdup), hkept]
    have hrecord : recordGood k f c.check u = { u with
        dup := if s.relay.mirrorWindow = 0 then none
               else some ⟨k, frameDest f, frameSrc f, frameByte f 3, c.check, s.tick⟩ } :=
      recordGood_received _ _ _ _ _ _
    rw [← hrecord]
    exact good_pool (recordGood k f c.check u) _ _ _ _ _ rfl

/-- Settles O25: each row acts exactly under its condition. -/
theorem expiries : Obligations.Expiries := by
  unfold Obligations.Expiries
  refine ⟨fun p s g hgap => ?_, fun s r hdup => ?_⟩
  · intro expiry
    have hexpired : s.gapExpired p = true ↔ expiry ≤ s.now ∧ ∀ e, (s.port p).rx.edge = some e → expiry ≤ e := by
      rw [gapExpired_iff, hgap]
      simp only [Option.some.injEq, exists_eq_left', expiry]
    rw [exec_gapExpiry]
    refine ⟨fun hnot => ?_, fun hnow hedge => ?_⟩
    · rw [if_neg]
      rw [hexpired]
      rintro ⟨hnow, hedge⟩
      obtain hbefore | ⟨e, he, hbefore⟩ := hnot
      · exact absurd hnow (Nat.not_le.2 hbefore)
      · exact absurd (hedge e he) (Nat.not_le.2 hbefore)
    · rw [if_pos (hexpired.2 ⟨hnow, hedge⟩)]
      exact ⟨fun c hasm => congrArg _ (expireGap_collect hasm), fun w hasm => congrArg _ (expireGap_shadow hasm),
        fun h hasm => congrArg _ (expireGap_skip hasm)⟩
  · intro limit
    have hexpired : s.dupExpired = true ↔
        limit < s.tick ∧ ∀ c, (s.port r.trunk.other.port).asm = .collect c → limit < c.startTick := by
      rw [dupExpired_iff, hdup]
      simp only [Option.some.injEq, exists_eq_left', limit]
    rw [exec_duplicateMemoryExpiry]
    refine ⟨fun hpast hcollects => by rw [if_pos (hexpired.2 ⟨hpast, hcollects⟩)], fun hnot => ?_⟩
    rw [if_neg]
    rw [hexpired]
    rintro ⟨hpast, hcollects⟩
    obtain hwithin | ⟨c, hasm, hwithin⟩ := hnot
    · exact absurd hpast (Nat.not_lt.2 hwithin)
    · exact absurd (hcollects c hasm) (Nat.not_lt.2 hwithin)

end Sys2Proof.FrameAssembly
end

section
/-! Proof of the claim about the trunk grant (R39, R42, R43): a trunk holds the grant exactly while its assembler is in
COLLECT. Only the ends and beginnings of receptions and the resets touch what the claim reads; one lemma per other
operation says that it does not. -/

namespace Sys2Proof.Machine

/-! ## What R39 reads of a state -/

theorem Assembler.requests_eq_false_iff (a : Assembler) : a.requests = false ↔ ∃ c, a = .collect c := by
  cases a <;> simp [Assembler.requests]

/-- The grant, and which trunks' assemblers are outside COLLECT. -/
def State.grantView (s : State) : Option Trunk × (Trunk → Bool) :=
  (s.grant, fun k => (s.port k.port).asm.requests)

/-- R39 for one trunk. -/
def State.GrantFits (s : State) (k : Trunk) : Prop := s.grantView.1 = some k ↔ s.grantView.2 k = false

theorem grantHeld_iff (s : State) : s.GrantHeld ↔ ∀ k, s.GrantFits k :=
  forall_congr' fun _ => iff_congr Iff.rfl (Assembler.requests_eq_false_iff _).symm

theorem State.GrantHeld.of_view {s t : State} (h : s.GrantHeld) (hview : t.grantView = s.grantView) : t.GrantHeld := by
  rw [grantHeld_iff] at h ⊢
  simpa only [State.GrantFits, hview] using h

theorem State.GrantHeld.ite {c : Prop} [Decidable c] {s t : State} (h : s.GrantHeld) (g : t.GrantHeld) :
    (if c then s else t).GrantHeld := by
  split
  · exact h
  · exact g

/-- With every trunk's assembler in HUNT and the grant FREE, R39 holds. -/
theorem grantHeld_of_idle {s : State} (hfree : s.grant = none) (hhunt : ∀ p, (s.port p).asm = .hunt) :
    s.GrantHeld := by
  intro k
  simp [hfree, hhunt]

/-! ## The small updates -/

section Updates
variable (s : State)

/-- A change of a port that leaves its assembler in COLLECT or outside it, as it was. -/
@[simp] theorem modPort_grantView (p : Port) (f : PortState → PortState)
    (h : (f (s.port p)).asm.requests = (s.port p).asm.requests) : (s.modPort p f).grantView = s.grantView := by
  have hport : ∀ k : Trunk, ((s.modPort p f).port k.port).asm.requests = (s.port k.port).asm.requests := by
    intro k
    rw [State.port, State.modPort_get]
    split
    · next hk => rw [h, hk]
    · rfl
  exact Prod.ext rfl (funext hport)

theorem setAsm_grantView {p : Port} {a : Assembler} (h : a.requests = (s.port p).asm.requests) :
    (setAsm p a s).grantView = s.grantView := modPort_grantView s p _ h

@[simp] theorem countPort_grantView (p : Port) (c : PortCtr) : (countPort p c s).grantView = s.grantView :=
  modPort_grantView s p _ rfl
@[simp] theorem enqueue_grantView (p : Port) (d : Descriptor) : (enqueue p d s).grantView = s.grantView :=
  modPort_grantView s p _ rfl
@[simp] theorem setQueue_grantView (p : Port) (ds : List Descriptor) : (setQueue p ds s).grantView = s.grantView :=
  modPort_grantView s p _ rfl
@[simp] theorem modBranch_grantView (b : Branch) (f : BranchState → BranchState) :
    (s.modBranch b f).grantView = s.grantView := rfl
@[simp] theorem modSched_grantView (b : Branch) (f : Scheduler → Scheduler) :
    (modSched b f s).grantView = s.grantView := rfl
@[simp] theorem modStation_grantView (i : Fin 32) (f : StationRecord → StationRecord) :
    (modStation i f s).grantView = s.grantView := rfl
@[simp] theorem countRelay_grantView (c : RelayCtr) : (countRelay c s).grantView = s.grantView := rfl
@[simp] theorem setBuf_grantView (b : BufId) (x : Buffer) : (setBuf b x s).grantView = s.grantView := rfl
@[simp] theorem freeBuf_grantView (b : BufId) : (freeBuf b s).grantView = s.grantView := rfl
@[simp] theorem fillBuf_grantView (b : BufId) (f : List Byte) : (fillBuf b f s).grantView = s.grantView := rfl
@[simp] theorem record_grantView (c : Cmd) (k : Command) (x : Cached) : (record c k x s).grantView = s.grantView := rfl
@[simp] theorem setStaging_grantView (i : Fin 96) (r : Option RouteRecord) :
    (setStaging i r s).grantView = s.grantView := rfl
@[simp] theorem setEntry_grantView (i : Fin 32) (e : Option PollEntry) :
    (setEntry i e s).grantView = s.grantView := rfl
@[simp] theorem openSession_grantView (c : Cmd) : (openSession c s).grantView = s.grantView := rfl
@[simp] theorem endSession_grantView : (endSession s).grantView = s.grantView := rfl
@[simp] theorem appendInbound_grantView (p : Port) (b : BufId) : (appendInbound p b s).grantView = s.grantView := rfl
@[simp] theorem recordGood_grantView (k : Trunk) (f : List Byte) (check : Word16) :
    (recordGood k f check s).grantView = s.grantView := rfl

@[simp] theorem refresh_grantView (c : Cmd) : (refresh c s).grantView = s.grantView := by
  rw [refresh_eq]
  rfl

@[simp] theorem handOver_grantView (b : BufId) (n : Nat) : (handOver b n s).grantView = s.grantView := by
  obtain ⟨x, h⟩ := handOver_pool b n s
  rw [h, setBuf_grantView]

@[simp] theorem dropRef_grantView (b : BufId) : (dropRef b s).grantView = s.grantView := by
  rw [dropRef_pool]
  rfl

@[simp] theorem received_grantView (p : Port) (ch : Character) : (s.received p ch).grantView = s.grantView := by
  unfold State.received countCharacter
  rw [modPort_grantView _ _ _ rfl]
  split <;> split <;> simp

end Updates

theorem requestBuffer_grantView {f : Filler} {s t : State} {b : BufId} (h : requestBuffer f s = some (b, t)) :
    t.grantView = s.grantView := by
  obtain ⟨-, rfl⟩ := requestBuffer_some h
  exact setBuf_grantView s _ _

theorem RepliedOn.grantView {p : Port} {s t : State} (h : RepliedOn p s t) : t.grantView = s.grantView := by
  have hport : ∀ q, (t.port q).asm = (s.port q).asm := fun q => by
    by_cases hq : q = p
    · rw [hq, h.this]
    · rw [h.other q hq]
  have hgrant : t.grant = s.grant := by rw [h.rest]
  simp only [State.grantView, hgrant, hport]

theorem RaisedFrom.grantView {s t : State} (h : RaisedFrom s t) : t.grantView = s.grantView := by
  have hport : ∀ q, (t.port q).asm = (s.port q).asm := fun q => by rw [h.ports q]
  have hgrant : t.grant = s.grant := by rw [h.rest]
  simp only [State.grantView, hgrant, hport]

@[simp] theorem raise_grantView (key : AlarmKey) (s : State) : (raise key s).grantView = s.grantView :=
  (raise_raisedFrom key s).grantView

@[simp] theorem sendReply_grantView (dest : Byte) (p : Port) (seq code : Byte) (r : Reply) (s : State) :
    (sendReply dest p seq code r s).2.grantView = s.grantView := (sendReply_repliedOn dest p seq code r s).grantView

@[simp] theorem answer_grantView (c : Cmd) (k : Command) (r : Reply) (s : State) :
    (answer c k r s).grantView = s.grantView := sendReply_grantView _ _ _ _ _ _

/-! ## The ends of receptions, and the grant given (R39, R42, R43) -/

theorem Port.eq_of_trunk? {p : Port} {k : Trunk} (h : p.trunk? = some k) : p = k.port := by
  cases p <;> cases k <;> simp_all [Port.trunk?, Trunk.port]

/-- A change of one port's assembler is nothing to a trunk at another port. -/
theorem setAsm_grantFits_other {p : Port} {a : Assembler} {s : State} {k : Trunk} (hk : k.port ≠ p)
    (h : s.GrantFits k) : (setAsm p a s).GrantFits k := by
  have hport : (setAsm p a s).port k.port = s.port k.port := State.modPort_get_ne s p k.port _ hk
  simpa only [State.GrantFits, State.grantView, hport, setAsm_grant] using h

/-- R43: a port gives back its own trunk's grant only. -/
theorem releaseGrant_grantFits_other {p : Port} {s : State} {k : Trunk} (hk : k.port ≠ p) (h : s.GrantFits k) :
    (releaseGrant p s).GrantFits k := by
  rw [releaseGrant_eq]
  have hgrant : (if p.trunk? = s.grant then none else s.grant) = some k ↔ s.grant = some k := by
    split
    · next hp => exact ⟨nofun, fun h => absurd (Port.eq_of_trunk? (hp.trans h)).symm hk⟩
    · exact Iff.rfl
  exact hgrant.trans h

theorem releaseGrant_not_held (k : Trunk) (s : State) : (releaseGrant k.port s).grant ≠ some k := by
  rw [releaseGrant_eq, Trunk.port_trunk?]
  dsimp only
  split
  · exact nofun
  · next h => exact Ne.symm h

/-- R43: a port leaves COLLECT, or did not enter it, and gives the grant back. -/
theorem leave_grantHeld {p : Port} {a : Assembler} {s : State} (ha : a.requests = true)
    (hothers : ∀ k : Trunk, k.port ≠ p → s.GrantFits k) : (setAsm p a (releaseGrant p s)).GrantHeld := by
  rw [grantHeld_iff]
  intro k
  by_cases hk : k.port = p
  · subst hk
    have hasm : ((setAsm k.port a (releaseGrant k.port s)).port k.port).asm = a := by simp [setAsm, State.port]
    simp [State.GrantFits, State.grantView, hasm, ha, releaseGrant_not_held]
  · exact setAsm_grantFits_other hk (releaseGrant_grantFits_other hk (hothers k hk))

/-- R42: a port enters COLLECT, a trunk with the grant given to it. -/
theorem enter_grantHeld {p : Port} {a : Assembler} {s : State} (ha : a.requests = false)
    (hothers : ∀ k : Trunk, k.port ≠ p → s.GrantFits k) (hgiven : ∀ k, p.trunk? = some k → s.grant = some k) :
    (setAsm p a s).GrantHeld := by
  rw [grantHeld_iff]
  intro k
  by_cases hk : k.port = p
  · subst hk
    have hasm : ((setAsm k.port a s).port k.port).asm = a := by simp [setAsm, State.port]
    simp [State.GrantFits, State.grantView, hasm, ha, hgiven k (Trunk.port_trunk? k)]
  · exact setAsm_grantFits_other hk (hothers k hk)

theorem releaseGrant_setAsm (p : Port) (a : Assembler) (s : State) :
    releaseGrant p (setAsm p a s) = setAsm p a (releaseGrant p s) := by
  rw [releaseGrant_eq, releaseGrant_eq]
  rfl

/-- R43: a reception ends. -/
theorem end_grantHeld {p : Port} {s t : State} (h : s.GrantHeld) (hview : t.grantView = s.grantView) :
    (releaseGrant p (setAsm p .hunt t)).GrantHeld := by
  rw [releaseGrant_setAsm]
  exact leave_grantHeld rfl fun k _ => (grantHeld_iff t).1 (h.of_view hview) k

/-! ## The assemblers -/

section Assemblers
variable {p : Port} {ch : Character} {s : State}

theorem failFrame_grantHeld (c : Collect) (k : PortCtr) (h : s.GrantHeld) : (failFrame p c k s).GrantHeld :=
  end_grantHeld h (by simp)

theorem goodFrame_grantHeld (c : Collect) (h : s.GrantHeld) : (goodFrame p c s).GrantHeld :=
  end_grantHeld h (by simp)

theorem completeFrame_grantHeld (c : Collect) (h : s.GrantHeld) : (completeFrame p c s).GrantHeld := by
  unfold completeFrame
  dsimp only
  refine .ite (failFrame_grantHeld _ _ h) ?_
  split
  · exact goodFrame_grantHeld _ h
  · exact .ite (failFrame_grantHeld _ _ (h.of_view rfl)) (goodFrame_grantHeld _ (h.of_view rfl))

/-- R26, R42, R43: with the grant given to the asking trunk, it enters COLLECT with it or gives it back. -/
theorem takeBuffer_grantHeld (hothers : ∀ k : Trunk, k.port ≠ p → s.GrantFits k)
    (hgiven : ∀ k, p.trunk? = some k → s.grant = some k) : (takeBuffer p ch s).GrantHeld := by
  unfold takeBuffer
  split
  · next b t ht =>
    have hview : (fillBuf b [ch.data] t).grantView = s.grantView :=
      (fillBuf_grantView t b _).trans (requestBuffer_grantView ht)
    refine enter_grantHeld rfl (fun k hk => ?_) fun k hk => ?_
    · simpa only [State.GrantFits, hview] using hothers k hk
    · exact (congrArg Prod.fst hview).trans (hgiven k hk)
  · refine leave_grantHeld rfl fun k hk => ?_
    simpa only [State.GrantFits, raise_grantView, countPort_grantView] using hothers k hk

/-- R41: while the grant is FREE no other trunk collects, so giving it leaves the others right. -/
theorem giveGrant_grantFits_other {j k : Trunk} (h : s.GrantHeld) (hfree : s.grant = none) (hk : k ≠ j) :
    (giveGrant j s).GrantFits k := by
  have hcollects : s.grantView.2 k ≠ false := fun hc => by
    have hheld : s.grant = some k := ((grantHeld_iff s).1 h k).2 hc
    rw [hfree] at hheld
    cases hheld
  exact ⟨fun hj => absurd (Option.some.inj hj).symm hk, fun hc => absurd hc hcollects⟩

theorem beginReception_grantHeld (h : s.GrantHeld) (hout : (s.port p).asm.requests = true) :
    (beginReception p ch s).GrantHeld := by
  unfold beginReception
  split
  · next hp => exact takeBuffer_grantHeld (fun k _ => (grantHeld_iff s).1 h k) (by simp [hp])
  · next j hp =>
    split
    · next hgrants =>
      have hfree : s.grant = none := by
        simp only [State.grants, Bool.and_eq_true, Option.isNone_iff_eq_none] at hgrants
        exact hgrants.1
      refine takeBuffer_grantHeld (fun k hk => giveGrant_grantFits_other h hfree ?_) fun k hk => hp.symm.trans hk
      rintro rfl
      exact hk (Port.eq_of_trunk? hp).symm
    · exact h.of_view (setAsm_grantView s hout.symm)

theorem storeCharacter_grantHeld {c : Collect} (h : s.GrantHeld) (hasm : (s.port p).asm = .collect c) :
    (storeCharacter p c ch s).GrantHeld := by
  rw [storeCharacter_eq, ← failFrame_eq]
  refine .ite (failFrame_grantHeld _ _ h) (.ite (completeFrame_grantHeld _ (h.of_view rfl)) ?_)
  refine h.of_view (setAsm_grantView _ ?_)
  show false = (s.port p).asm.requests
  rw [hasm]
  rfl

/-- R37: a shadowed copy ends, or goes on. -/
theorem endShadow_grantView {w : Shadow} (hasm : (s.port p).asm = .shadow w) :
    (setAsm p .hunt (countPort p .shadowed s)).grantView = s.grantView := by
  refine (setAsm_grantView _ ?_).trans (countPort_grantView s p .shadowed)
  simp [countPort, State.port, Assembler.requests, show (s.ports.get p).asm = _ from hasm]

theorem followCharacter_grantView {w : Shadow} (hasm : (s.port p).asm = .shadow w) :
    (followCharacter p w ch s).grantView = s.grantView := by
  rw [followCharacter_eq, apply_ite State.grantView, endShadow_grantView hasm,
    setAsm_grantView s (by rw [hasm]; rfl), ite_self]

/-- A delivered character, by the state of its assembler. -/
theorem assemble_grantHeld (p : Port) (ch : Character) (h : s.GrantHeld) : (assemble p ch s).GrantHeld := by
  unfold assemble
  split
  · next hasm => exact .ite (beginReception_grantHeld h (by rw [hasm]; rfl)) (h.of_view (countPort_grantView _ _ _))
  · next g hasm =>
    exact .ite (beginReception_grantHeld h (by rw [hasm]; rfl)) (h.of_view (setAsm_grantView s (by rw [hasm]; rfl)))
  · next w hasm =>
    refine .ite (h.of_view (endShadow_grantView hasm)) (.ite ?_ (h.of_view (followCharacter_grantView hasm)))
    refine beginReception_grantHeld (h.of_view (countPort_grantView _ _ _)) ?_
    simp [countPort, State.port, Assembler.requests, show (s.ports.get p).asm = _ from hasm]
  · next c hasm =>
    refine .ite (failFrame_grantHeld _ _ h) (.ite ?_ (storeCharacter_grantHeld h hasm))
    refine h.of_view ((setAsm_grantView _ ?_).trans (countPort_grantView s p .interrupted))
    simp [countPort, State.port, Assembler.requests, fillBuf, setBuf, show (s.ports.get p).asm = _ from hasm]

theorem breakAssembler_grantHeld (p : Port) (h : s.GrantHeld) : (breakAssembler p s).GrantHeld := by
  unfold breakAssembler
  split
  · exact h
  · next g hasm => exact h.of_view (setAsm_grantView s (by rw [hasm]; rfl))
  · next w hasm => exact h.of_view (endShadow_grantView hasm)
  · exact failFrame_grantHeld _ _ h

theorem expireGap_grantHeld (p : Port) (h : s.GrantHeld) : (expireGap p s).GrantHeld := by
  unfold expireGap
  split
  · exact h
  · next g hasm => exact h.of_view (setAsm_grantView s (by rw [hasm]; rfl))
  · next w hasm => exact h.of_view (endShadow_grantView hasm)
  · exact failFrame_grantHeld _ _ h

end Assemblers

/-! ## The resets -/

theorem warmRestart_grantHeld (s : State) : (warmRestart s).GrantHeld :=
  grantHeld_of_idle rfl fun p => by simp [warmRestart, State.port, PortState.restarted]

theorem coldReset_grantHeld (addr : BitVec 4) (transparent : Bool) (s : State) :
    (coldReset addr transparent s).GrantHeld :=
  grantHeld_of_idle rfl fun p => by simp [coldReset, State.afterReset, State.port, PortState.cold]

theorem enterReset_grantHeld (s : State) : (enterReset s).GrantHeld :=
  (coldReset_grantHeld s.addrStrap s.transparentStrap s).of_view rfl

/-- R140. -/
theorem settleRestart_grantHeld {s : State} (h : s.GrantHeld) : (settleRestart s).GrantHeld := by
  obtain hsame | hrestarted := settleRestart_cases s
  · rwa [hsame]
  · rw [hrestarted]
    exact warmRestart_grantHeld s

/-! ## Schedulers -/

section Schedulers
variable (b : Branch) (s : State)

@[simp] theorem askPollBuffer_grantView : (askPollBuffer b s).grantView = s.grantView := by
  unfold askPollBuffer
  split
  · rfl
  · split
    · rfl
    · next t ht =>
      rw [modSched_grantView, fillBuf_grantView]
      exact requestBuffer_grantView ht

@[simp] theorem enterReady_grantView (i : Fin 32) : (enterReady b i s).grantView = s.grantView := by
  simp [enterReady]

@[simp] theorem beginCycle_grantView (i : Fin 32) : (beginCycle b i s).grantView = s.grantView := by
  simp [beginCycle]

@[simp] theorem completeCycle_grantView : (completeCycle b s).grantView = s.grantView := by
  unfold completeCycle
  split
  · rfl
  · dsimp only
    split <;> simp

@[simp] theorem advanceCursor_grantView : (advanceCursor b s).grantView = s.grantView := by
  unfold advanceCursor
  split
  · rfl
  · split <;> simp

@[simp] theorem endPoll_grantView : (endPoll b s).grantView = s.grantView := by
  unfold endPoll
  dsimp only
  split <;> simp

@[simp] theorem pollSent_grantView : (pollSent b s).grantView = s.grantView := by
  unfold pollSent
  dsimp only
  split <;> simp

@[simp] theorem acceptReply_grantView (payload : List Byte) : (acceptReply b payload s).grantView = s.grantView := by
  unfold acceptReply
  rw [endPoll_grantView]
  cases (s.sched b).cursor <;> dsimp only <;> split <;> simp

@[simp] theorem missPoll_grantView : (missPoll b s).grantView = s.grantView := by
  unfold missPoll
  split
  · dsimp only
    rw [endPoll_grantView]
    split <;> simp
  · simp

end Schedulers

@[simp] theorem handReply_grantView (p : Port) (src : Byte) (payload : List Byte) (s : State) :
    (handReply p src payload s).grantView = s.grantView := by
  unfold handReply
  split
  · simp
  · split <;> simp

/-! ## Queues and transmitters -/

section Egress
variable (p : Port) (s : State)

@[simp] theorem released_grantView (gone rest : List Descriptor) :
    (s.released p gone rest).grantView = s.grantView :=
  modPort_grantView s p (fun q => { q with
    queue := rest
    counters := { q.counters with staleDiscards := satInc^[gone.length] q.counters.staleDiscards } }) rfl

@[simp] theorem setServed_grantView (k : Claimant) : (setServed p k s).grantView = s.grantView := by
  unfold setServed
  split <;> simp

@[simp] theorem serveQueue_grantView : (serveQueue p s).grantView = s.grantView := by
  unfold serveQueue
  rw [releaseAll_eq]
  dsimp only
  split <;> simp

@[simp] theorem servePoll_grantView (b : Branch) : (servePoll b s).grantView = s.grantView := by
  unfold servePoll
  split
  · rfl
  · split <;> simp [markTaken]

@[simp] theorem takeFrom_grantView : (takeFrom p s).grantView = s.grantView := by
  unfold takeFrom
  split
  · simp
  · unfold arbitrate
    split
    · split
      · simp
      · split <;> simp
    · simp
    · simp
    · rfl

@[simp] theorem reportSent_grantView (d : Descriptor) : (reportSent p d s).grantView = s.grantView := by
  unfold reportSent
  split <;> simp

@[simp] theorem configured_grantView (c : PortConfig) : (s.configured p c).grantView = s.grantView := by
  have happlied : (s.modPort p (PortState.apply c s.now)).grantView = s.grantView :=
    modPort_grantView s p _ (by rw [PortState.apply_eq])
  rw [← applyConfig_eq]
  unfold applyConfig
  dsimp only
  split
  · rw [flushQueue_eq, released_grantView, happlied]
  · exact happlied

end Egress

theorem PortState.endSending_asm (now : Nat) (q : PortState) : (q.endSending now).asm = q.asm := by
  unfold PortState.endSending PortState.beginListen
  dsimp only
  split
  · split <;> rfl
  · rfl

theorem rejectEdge_asm (q : PortState) : q.rejectEdge.asm = q.asm := by
  unfold PortState.rejectEdge
  dsimp only
  split <;> rfl

theorem lineTo_asm (hears : Bool) (now : Nat) (l : Level) (q : PortState) : (q.lineTo hears now l).asm = q.asm := by
  unfold PortState.lineTo
  repeat' split
  all_goals rfl

theorem finishSending_grantHeld {s : State} (p : Port) (d : Descriptor) (h : s.GrantHeld) :
    (finishSending p d s).GrantHeld := by
  refine settleRestart_grantHeld (h.of_view ?_)
  rw [reportSent_grantView, modPort_grantView _ _ _ (by rw [PortState.endSending_asm]), dropRef_grantView,
    countPort_grantView]

/-! ## Served commands -/

theorem discardCommand_grantView (s : State) : (discardCommand s).grantView = s.grantView := rfl

theorem serveRead_grantView (k : Command) (f : List Byte → State → Reply) (c : Cmd) (s : State) :
    (serveRead k f c s).grantView = s.grantView := by
  unfold serveRead
  split
  · rfl
  · simp

theorem serveOpen_grantView (c : Cmd) (s : State) : (serveOpen c s).grantView = s.grantView := by
  unfold serveOpen
  dsimp only
  split
  · rfl
  · split
    · simp
    · split
      · simp
      · split <;> simp

theorem serveSequenced_grantHeld {exe : Cmd → State → State} (hexe : ∀ c s, s.GrantHeld → (exe c s).GrantHeld)
    (k : Command) (c : Cmd) {s : State} (h : s.GrantHeld) : (serveSequenced k exe c s).GrantHeld := by
  unfold serveSequenced
  dsimp only
  have hanswer : ∀ r, (answer c k r (refresh c s)).GrantHeld := fun r => h.of_view (by simp)
  refine .ite (h.of_view (discardCommand_grantView s)) ?_
  split
  · exact hanswer _
  · exact .ite (hanswer _) (.ite (hexe _ _ (h.of_view (refresh_grantView s c))) (hanswer _))

theorem runClose_grantView (c : Cmd) (s : State) : (runClose c s).grantView = s.grantView := by
  unfold runClose
  split <;> simp

theorem runCommit_grantView (c : Cmd) (s : State) : (runCommit c s).grantView = s.grantView := by
  unfold runCommit
  split
  · simp
  · rfl

/-- R140: the restart is pending, or takes place. -/
theorem runRestart_grantHeld (c : Cmd) (s : State) (h : s.GrantHeld) : (runRestart c s).GrantHeld := by
  unfold runRestart
  dsimp only
  split
  · exact h.of_view (sendReply_grantView _ _ _ _ _ (record c .restart (.reply (.ok [])) s))
  · exact warmRestart_grantHeld _

/-- A write-class command does to R39 what its body does. -/
theorem serveBody_grantHeld {body : List Byte → State → State × Reply}
    (hbody : ∀ args s, (body args s).1.grantView = s.grantView) (k : Command) (c : Cmd) {s : State}
    (h : s.GrantHeld) : (serveSequenced k (runBody k body) c s).GrantHeld :=
  serveSequenced_grantHeld (fun c _ h => h.of_view (by simp [runBody, hbody])) k c h

/-! ## The bodies of the write class -/

section Bodies
variable (args : List Byte) (s : State)

theorem writeRecordBody_grantView : (writeRecordBody args s).1.grantView = s.grantView := by
  unfold writeRecordBody
  repeat' split
  all_goals rfl

theorem clearRecordBody_grantView : (clearRecordBody args s).1.grantView = s.grantView := by
  unfold clearRecordBody
  repeat' split
  all_goals rfl

theorem discardStagingBody_grantView : (discardStagingBody args s).1.grantView = s.grantView := by
  unfold discardStagingBody
  split <;> rfl

theorem setPortBody_grantView : (setPortBody args s).1.grantView = s.grantView := by
  unfold setPortBody
  repeat' split
  all_goals simp [applyConfig_eq]

theorem setRelayBody_grantView : (setRelayBody args s).1.grantView = s.grantView := by
  unfold setRelayBody
  repeat' split
  all_goals rfl

theorem writePollEntryBody_grantView : (writePollEntryBody args s).1.grantView = s.grantView := by
  unfold writePollEntryBody
  repeat' split
  all_goals rfl

theorem clearPollEntryBody_grantView : (clearPollEntryBody args s).1.grantView = s.grantView := by
  unfold clearPollEntryBody
  repeat' split
  all_goals rfl

theorem startBody_grantView (b : Branch) (timeout : Byte) (interval : Word16) :
    (startBody b timeout interval s).1.grantView = s.grantView := by
  unfold startBody
  split
  · rfl
  · split
    · rfl
    · simp [startPolling]

theorem stopPolling_grantView (b : Branch) : (stopPolling b s).grantView = s.grantView := by
  unfold stopPolling dropPoll
  repeat' split
  all_goals rfl

theorem pollControlBody_grantView : (pollControlBody args s).1.grantView = s.grantView := by
  unfold pollControlBody
  split
  · split
    · rfl
    · split
      · split
        · rfl
        · exact startBody_grantView _ _ _ _
      · split
        · exact stopPolling_grantView _ _
        · rfl
  · rfl

theorem ackAlarmBody_grantView : (ackAlarmBody args s).1.grantView = s.grantView := by
  unfold ackAlarmBody
  repeat' split
  all_goals rfl

theorem clearPart_grantView (set part : Byte) : (clearPart set part s).grantView = s.grantView := by
  unfold clearPart
  split
  · exact modPort_grantView s _ _ rfl
  · rfl

theorem readCountersClearBody_grantView : (readCountersClearBody args s).1.grantView = s.grantView := by
  unfold readCountersClearBody
  repeat' split
  case h_2 => exact clearPart_grantView _ _ _
  all_goals rfl

end Bodies

/-- R128: every command that is served. -/
theorem serveCommand_grantHeld (k : Command) (c : Cmd) {s : State} (h : s.GrantHeld) :
    (serveCommand k c s).GrantHeld := by
  have hread : ∀ k f, (serveRead k f c s).GrantHeld := fun k f => h.of_view (serveRead_grantView k f c s)
  cases k with
  | readStatus => exact hread _ _
  | readRelay => exact hread _ _
  | readPort => exact hread _ _
  | readCounters => exact .ite (serveBody_grantHeld readCountersClearBody_grantView _ c h) (hread _ _)
  | readRecord => exact hread _ _
  | readPollEntry => exact hread _ _
  | readStation => exact hread _ _
  | readAlarms => exact hread _ _
  | openSession => exact h.of_view (serveOpen_grantView c s)
  | closeSession => exact serveSequenced_grantHeld (fun c s h => h.of_view (runClose_grantView c s)) _ c h
  | writeRecord => exact serveBody_grantHeld writeRecordBody_grantView _ c h
  | clearRecord => exact serveBody_grantHeld clearRecordBody_grantView _ c h
  | discardStaging => exact serveBody_grantHeld discardStagingBody_grantView _ c h
  | commit => exact serveSequenced_grantHeld (fun c s h => h.of_view (runCommit_grantView c s)) _ c h
  | setPort => exact serveBody_grantHeld setPortBody_grantView _ c h
  | setRelay => exact serveBody_grantHeld setRelayBody_grantView _ c h
  | writePollEntry => exact serveBody_grantHeld writePollEntryBody_grantView _ c h
  | clearPollEntry => exact serveBody_grantHeld clearPollEntryBody_grantView _ c h
  | pollControl => exact serveBody_grantHeld pollControlBody_grantView _ c h
  | ackAlarm => exact serveBody_grantHeld ackAlarmBody_grantView _ c h
  | restart => exact serveSequenced_grantHeld runRestart_grantHeld _ c h

/-! ## Dispositions and the end of a commit -/

theorem handCommand_grantHeld (src : Byte) (p : Port) (payload : List Byte) {s : State} (h : s.GrantHeld) :
    (handCommand src p payload s).GrantHeld := by
  unfold handCommand serveUnknown
  split
  · split
    · exact serveCommand_grantHeld _ _ h
    · exact .ite (h.of_view (discardCommand_grantView s)) (h.of_view (by simp))
  · exact h.of_view (discardCommand_grantView s)

theorem deliverLocal_grantHeld (p : Port) (f : List Byte) {s : State} (h : s.GrantHeld) :
    (deliverLocal p f s).GrantHeld :=
  .ite (.ite (handCommand_grantHeld _ _ _ h) (h.of_view rfl)) (.ite (h.of_view (by simp)) (h.of_view rfl))

theorem placeCopies_grantView (b : BufId) (rewrite : Option Byte) (ps : List Port) (s : State) :
    (placeCopies b rewrite ps s).2.grantView = s.grantView := by
  induction ps generalizing s with
  | nil => rfl
  | cons p ps ih =>
    rw [placeCopies_snd, ih]
    split <;> simp

theorem forwardFrame_grantView (b : BufId) (p : Port) (f : List Byte) (s : State) :
    (forwardFrame b p f s).grantView = s.grantView := by
  have hlook : (lookUp (frameDest f) (frameSrc f) p s).2.grantView = s.grantView := by
    unfold lookUp
    split <;> rfl
  unfold forwardFrame
  split
  · next h => rwa [h] at hlook
  · next h =>
    rw [h] at hlook
    unfold copyFrame
    dsimp only
    split <;> simpa [placeCopies_grantView] using hlook

theorem dispose_grantHeld (e : Inbound) {s : State} (h : s.GrantHeld) : (dispose e s).GrantHeld :=
  .ite (h.of_view rfl) (.ite (deliverLocal_grantHeld _ _ (h.of_view rfl)) (h.of_view (forwardFrame_grantView _ _ _ _)))

theorem sendDeferred_grantView (r : Reply) (s : State) : (sendDeferred r s).grantView = s.grantView := by
  unfold sendDeferred
  split
  · rfl
  · rw [sendReply_grantView]
    rfl

theorem completeCommit_grantView (s : State) : (completeCommit s).grantView = s.grantView := by
  have hfinished : (finishValidation s).1.grantView = s.grantView := by
    unfold finishValidation
    split <;> rfl
  unfold completeCommit
  dsimp only
  split
  · rw [expireSession, countRelay_grantView, endSession_grantView, sendDeferred_grantView, hfinished]
  · rw [sendDeferred_grantView, hfinished]

/-! ## The rows -/

theorem manage_grantHeld {serve : Cmd → State → State} {c : Cmd} {s : State} (h : s.GrantHeld)
    (hserve : (serve c s).GrantHeld) : (manage serve c s).GrantHeld := .ite h (.ite hserve (h.of_view rfl))

/-- Every command answers a state in which a trunk still holds the grant exactly while it collects. -/
theorem exec_grantHeld {i : Instr} {s : State} (h : s.GrantHeld) : ∃ t, exec i s = .next t ∧ t.GrantHeld := by
  have hguarded : ∀ {c : Prop} [Decidable c] {t : State}, t.GrantHeld → (if c then t else s).GrantHeld :=
    fun ht => .ite ht h
  have hport : ∀ (p : Port) (f : PortState → PortState), (f (s.port p)).asm = (s.port p).asm →
      (s.modPort p f).GrantHeld := fun p f hf => h.of_view (modPort_grantView s p f (by rw [hf]))
  have hmanage : ∀ k c, (manage (serveCommand k) c s).GrantHeld :=
    fun k c => manage_grantHeld h (serveCommand_grantHeld k c h)
  cases i with
  | coldReset r x =>
    refine ⟨_, rfl, ?_⟩
    cases r with
    | low => exact enterReset_grantHeld s
    | high => exact hguarded (coldReset_grantHeld _ _ s)
  | warmRestart => exact ⟨_, rfl, settleRestart_grantHeld h⟩
  | characterDelivered p =>
    cases hdue : (s.port p).dueCharacter with
    | none => exact ⟨s, by show execCharacterDelivered p s = _; rw [execCharacterDelivered, hdue], h⟩
    | some ch =>
      exact ⟨_, exec_characterDelivered hdue, assemble_grantHeld p ch (h.of_view (received_grantView s p ch))⟩
  | falseStart p => exact ⟨_, rfl, hguarded (hport _ _ (rejectEdge_asm _))⟩
  | breakEntry p =>
    refine ⟨_, rfl, hguarded (breakAssembler_grantHeld p (h.of_view ?_))⟩
    rw [raise_grantView, modPort_grantView _ _ _ rfl, countPort_grantView]
  | breakExit p => exact ⟨_, rfl, hguarded (hport _ _ rfl)⟩
  | gapExpiry p => exact ⟨_, rfl, hguarded (expireGap_grantHeld p h)⟩
  | duplicateMemoryExpiry => exact ⟨_, rfl, hguarded (h.of_view rfl)⟩
  | disposition =>
    refine ⟨_, rfl, ?_⟩
    split
    · exact h
    · exact dispose_grantHeld _ (h.of_view rfl)
  | take p => exact ⟨_, rfl, hguarded (settleRestart_grantHeld (h.of_view (takeFrom_grantView p s)))⟩
  | transmitStart p =>
    refine ⟨_, rfl, ?_⟩
    split
    · exact hguarded (hport _ _ rfl)
    · exact h
    · exact h
  | endOfSending p =>
    refine ⟨_, rfl, ?_⟩
    split
    · exact hguarded (finishSending_grantHeld _ _ h)
    · exact h
    · exact h
  | applyPendingConfig p =>
    refine ⟨_, rfl, ?_⟩
    split
    · exact h
    · rw [applyConfig_eq]
      exact hguarded (settleRestart_grantHeld (h.of_view (configured_grantView p s _)))
  | pollBufferRetry b => exact ⟨_, rfl, hguarded (h.of_view (askPollBuffer_grantView b s))⟩
  | replyTimeout b => exact ⟨_, rfl, hguarded (h.of_view (missPoll_grantView b s))⟩
  | newCycle b =>
    refine ⟨_, rfl, hguarded ?_⟩
    split
    · exact h
    · exact h.of_view (beginCycle_grantView b s _)
  | validationComplete => exact ⟨_, rfl, hguarded (h.of_view (completeCommit_grantView s))⟩
  | sessionExpiry => exact ⟨_, rfl, hguarded (h.of_view rfl)⟩
  | readStatus c => exact ⟨_, rfl, hmanage .readStatus c⟩
  | readRelay c => exact ⟨_, rfl, hmanage .readRelay c⟩
  | readPort c => exact ⟨_, rfl, hmanage .readPort c⟩
  | readCounters c => exact ⟨_, rfl, manage_grantHeld h (h.of_view (serveRead_grantView _ _ c s))⟩
  | readCountersClear c =>
    exact ⟨_, rfl, manage_grantHeld h (serveBody_grantHeld readCountersClearBody_grantView _ c h)⟩
  | readRecord c => exact ⟨_, rfl, hmanage .readRecord c⟩
  | readPollEntry c => exact ⟨_, rfl, hmanage .readPollEntry c⟩
  | readStation c => exact ⟨_, rfl, hmanage .readStation c⟩
  | readAlarms c => exact ⟨_, rfl, hmanage .readAlarms c⟩
  | openSession c => exact ⟨_, rfl, hmanage .openSession c⟩
  | closeSession c => exact ⟨_, rfl, hmanage .closeSession c⟩
  | writeRecord c => exact ⟨_, rfl, hmanage .writeRecord c⟩
  | clearRecord c => exact ⟨_, rfl, hmanage .clearRecord c⟩
  | discardStaging c => exact ⟨_, rfl, hmanage .discardStaging c⟩
  | commit c => exact ⟨_, rfl, hmanage .commit c⟩
  | setPort c => exact ⟨_, rfl, hmanage .setPort c⟩
  | setRelay c => exact ⟨_, rfl, hmanage .setRelay c⟩
  | writePollEntry c => exact ⟨_, rfl, hmanage .writePollEntry c⟩
  | clearPollEntry c => exact ⟨_, rfl, hmanage .clearPollEntry c⟩
  | pollControlStart c => exact ⟨_, rfl, hmanage .pollControl c⟩
  | pollControlStop c => exact ⟨_, rfl, hmanage .pollControl c⟩
  | ackAlarm c => exact ⟨_, rfl, hmanage .ackAlarm c⟩
  | restart c => exact ⟨_, rfl, hmanage .restart c⟩
  | startEdge p => exact ⟨_, rfl, hguarded (hport _ _ rfl)⟩
  | returnToMark p => exact ⟨_, rfl, hguarded (hport _ _ rfl)⟩
  | returnToSpaceInBreak p => exact ⟨_, rfl, hguarded (hport _ _ rfl)⟩

/-! ## The step on an empty queue -/

theorem takeInput_grantView (s : State) : (takeInput s).grantView = s.grantView := by
  unfold takeInput
  split
  · rfl
  · exact modPort_grantView _ _ _ (by rw [lineTo_asm])

theorem advance_grantView (s : State) : (advance s).grantView = s.grantView := by
  have hport : ∀ p, ((advance s).port p).asm = (s.port p).asm := fun p => by rw [advance_port_eq]
  exact Prod.ext rfl (funext fun k => congrArg Assembler.requests (hport k.port))

theorem step_grantHeld {s : State} (h : s.GrantHeld) : ∃ t, step s = .next t ∧ t.GrantHeld := by
  cases hpending : s.pending with
  | cons c rest =>
    rw [step, hpending]
    exact exec_grantHeld (h.of_view rfl)
  | nil =>
    have hchosen : ({ s with choices := s.choices + 1 } : State).GrantHeld := h.of_view rfl
    cases hidle : s.idleChoice with
    | run i => rw [step_run hpending hidle]; exact exec_grantHeld hchosen
    | input => exact ⟨_, step_input hpending hidle, hchosen.of_view (takeInput_grantView _)⟩
    | advance => exact ⟨_, step_advance hpending hidle, hchosen.of_view (advance_grantView _)⟩

end Sys2Proof.Machine

namespace Sys2Proof.TrunkPair

open Sys2Proof.Machine

/-- Settles O9: only receptions and resets touch the grant or an assembler, and each keeps them together. -/
theorem everyStepKeepsGrantHeld : Obligations.EveryStepKeepsGrantHeld := by
  unfold Obligations.EveryStepKeepsGrantHeld
  intro s t h hstep
  obtain ⟨u, hu, hheld⟩ := step_grantHeld h
  rw [hstep] at hu
  cases hu
  exact hheld

end Sys2Proof.TrunkPair
end

section
/-! Proofs of the claims about an address character on a trunk (R40 to R42, R44), SET-RELAY (R144 to R146), and the
state after reset. -/

namespace Sys2Proof.Machine

/-! ## An address character at the arbiter (R40, R41) -/

/-- R40: a trunk's own request is due: an address character is to be delivered to its assembler outside COLLECT. -/
def State.RequestDue (s : State) (k : Trunk) : Prop :=
  ((s.port k.port).asm = .hunt ∨ (∃ g, (s.port k.port).asm = .skip g) ∨ (∃ w, (s.port k.port).asm = .shadow w))
    ∧ ∃ x, (s.port k.port).dueCharacter = some x ∧ x.isAddress = true

theorem Assembler.requests_iff (a : Assembler) :
    a.requests = true ↔ a = .hunt ∨ (∃ g, a = .skip g) ∨ (∃ w, a = .shadow w) := by
  cases a <;> simp [Assembler.requests]

/-- R41: a tie is lost to the preferred trunk's request, given at this instant or due at it. -/
theorem tieLost_iff (s : State) (k : Trunk) : s.tieLost k = true ↔ k ≠ s.relay.preferred
    ∧ (s.RequestDue s.relay.preferred ∨ s.given = some (s.relay.preferred, s.now)) := by
  simp only [State.tieLost, State.RequestDue, Bool.and_eq_true, Bool.or_eq_true, decide_eq_true_eq,
    Assembler.requests_iff, Option.any_eq_true, or_comm]

/-- What the arbiter finds when an address character reaches it: the trunk's port counted and its receiver back in
IDLE, all else as it was. -/
structure ReachesArbiter (p : Port) (s u : State) : Prop where
  rest : u = { s with ports := u.ports }
  other : ∀ q, q ≠ p → u.port q = s.port q
  applied : (u.port p).applied = (s.port p).applied

theorem received_reachesArbiter (p : Port) (ch : Character) (s : State) : ReachesArbiter p s (s.received p ch) :=
  ⟨received_eq p s ch, fun _ => received_other, received_applied⟩

theorem ReachesArbiter.counted {p : Port} {s u : State} (h : ReachesArbiter p s u) (k : PortCtr) :
    ReachesArbiter p s (countPort p k u) := by
  refine ⟨?_, fun q hq => (State.modPort_get_ne u p q _ hq).trans (h.other q hq), ?_⟩
  · rw [h.rest]
    rfl
  · rw [← h.applied]
    simp [countPort, State.port]

/-- R41: the receiver's part at one trunk is nothing to the other's request. -/
theorem ReachesArbiter.requestDue {j k : Trunk} {s u : State} (h : ReachesArbiter k.port s u) (hne : k ≠ j) :
    u.RequestDue j ↔ s.RequestDue j := by
  rw [State.RequestDue, h.other j.port (Trunk.port_ne hne)]
  rfl

theorem ReachesArbiter.tieLost_iff {k : Trunk} {s u : State} (h : ReachesArbiter k.port s u) :
    u.tieLost k = true ↔ k ≠ s.relay.preferred
      ∧ (s.RequestDue s.relay.preferred ∨ s.given = some (s.relay.preferred, s.now)) := by
  have hrelay : u.relay = s.relay := by rw [h.rest]
  have hgiven : u.given = s.given := by rw [h.rest]
  have hnow : u.now = s.now := by rw [h.rest]
  rw [Machine.tieLost_iff, hrelay, hgiven, hnow]
  exact and_congr_right fun hne => or_congr_left (h.requestDue hne)

/-- R37: an address character in SHADOW ends the copy and begins a reception. -/
theorem assemble_shadow_address {p : Port} {ch : Character} {s : State} {w : Shadow}
    (hasm : (s.port p).asm = .shadow w) (ha : ch.isAddress = true) :
    assemble p ch s = beginReception p ch (countPort p .shadowed s) := by
  obtain ⟨hmark, herrored⟩ := Character.isAddress_parts ha
  unfold assemble
  simp [hasm, hmark, herrored]

/-- R40: a trunk asks the arbiter first. -/
theorem beginReception_trunk (k : Trunk) (ch : Character) (s : State) : beginReception k.port ch s =
    if s.grants k then takeBuffer k.port ch (giveGrant k s)
    else setAsm k.port (.shadow ⟨⟨ch.stop, (s.port k.port).applied.gapLimit⟩, 1, none⟩) s := by
  rw [beginReception, Trunk.port_trunk?]
  rfl

/-- R158: a raise leaves the grant as it was. -/
theorem raise_grant (key : AlarmKey) (s : State) : (raise key s).grant = s.grant := by
  rw [(raise_raisedFrom key s).rest]

/-- R43: the holder gives the grant back. -/
theorem releaseGrant_held {k : Trunk} {s : State} (h : s.grant = some k) :
    releaseGrant k.port s = { s with grant := none } := by
  rw [releaseGrant_eq, Trunk.port_trunk?, if_pos h.symm]

section AtArbiter
variable {k : Trunk} {ch : Character} {s u : State} (h : ReachesArbiter k.port s u)
include h

/-- R41: a request is given exactly while the grant is FREE and no tie is lost. -/
theorem ReachesArbiter.grants_iff : u.grants k = true ↔ s.grant = none ∧ ¬ (k ≠ s.relay.preferred
    ∧ (s.RequestDue s.relay.preferred ∨ s.given = some (s.relay.preferred, s.now))) := by
  have hgrant : u.grant = s.grant := by rw [h.rest]
  rw [State.grants, Bool.and_eq_true, Option.isNone_iff_eq_none, hgrant, Bool.not_eq_true', ← Bool.not_eq_true,
    h.tieLost_iff]

/-- R37, R40: a refused request is shadowed. -/
theorem ReachesArbiter.begins_shadow (hrefused : ¬ u.grants k = true) : beginReception k.port ch u
    = setAsm k.port (.shadow ⟨⟨ch.stop, (s.port k.port).applied.gapLimit⟩, 1, none⟩) u := by
  rw [beginReception_trunk, if_neg hrefused, h.applied]

theorem ReachesArbiter.giveGrant_freeCount : (giveGrant k u).freeCount = s.freeCount :=
  freeCount_congr (by rw [h.rest]; rfl)

theorem ReachesArbiter.giveGrant_eq : giveGrant k u = { u with grant := some k, given := some (k, s.now) } := by
  have hnow : u.now = s.now := by rw [h.rest]
  rw [giveGrant, hnow]

/-- R26, R27, R42: a given request that the pool answers enters COLLECT. -/
theorem ReachesArbiter.begins_collect (hgiven : u.grants k = true) (hroom : 2 < s.freeCount) :
    ∃ buf : BufId, (s.pool.get buf).use = .free ∧ beginReception k.port ch u = { u with
      grant := some k
      given := some (k, s.now)
      ports := u.ports.set k.port { u.port k.port with
        asm := .collect
          ⟨⟨ch.stop, (s.port k.port).applied.gapLimit⟩, 1, none, buf, crc [ch.data], s.tickAt ch.start⟩ }
      pool := u.pool.set buf.val ⟨.filling (.assembler k.port), [ch.data]⟩ buf.isLt } := by
  obtain ⟨buf, huse, htaken⟩ := takeBuffer_given (p := k.port) (ch := ch) (s := giveGrant k u)
    (by rwa [h.giveGrant_freeCount])
  have hpool : (giveGrant k u).pool = s.pool := by rw [h.rest]; rfl
  have happlied : ((giveGrant k u).port k.port).applied = (s.port k.port).applied := h.applied
  have hstart : (giveGrant k u).tickAt ch.start = s.tickAt ch.start := by rw [h.rest]; rfl
  refine ⟨buf, by rwa [hpool] at huse, ?_⟩
  rw [beginReception_trunk, if_pos hgiven, htaken, happlied, hstart, h.giveGrant_eq]

/-- R26, R44: a given request that the pool refuses is NO_BUFFER, and the grant is FREE again. -/
theorem ReachesArbiter.begins_skip (hgiven : u.grants k = true) (hshort : s.freeCount ≤ 2) :
    beginReception k.port ch u = setAsm k.port (.skip ⟨ch.stop, (s.port k.port).applied.gapLimit⟩)
      { raise .poolEmpty (countPort k.port .noBuffer { u with grant := some k, given := some (k, s.now) }) with
        grant := none } := by
  have happlied : ((giveGrant k u).port k.port).applied = (s.port k.port).applied := h.applied
  rw [beginReception_trunk, if_pos hgiven, takeBuffer_refused (by rwa [h.giveGrant_freeCount]), happlied,
    releaseGrant_held (raise_grant _ _), h.giveGrant_eq]

end AtArbiter

/-! ## SET-RELAY (R144 to R146, R166) -/

/-- R145: SET-RELAY is not refused. -/
def RelayFits (own da pt rl st np na nps : Byte) : Prop :=
  (da = 0x01 ∨ da = 0x02) ∧ (pt = 0x00 ∨ pt = 0x01) ∧ rl ≠ 0 ∧ st ≠ 0 ∧ (np = 0x00 ∨ np = 0x01)
    ∧ (np = 0x01 → na ≠ 0x00 ∧ na ≠ 0xFF ∧ na ≠ own) ∧ nps.toNat < 4

/-- R144: the record that the eight bytes of SET-RELAY give. -/
def relayRecord (da pt mw rl st np na nps : Byte) : RelayConfig where
  defaultAction := if da = 0x02 then .flood else .drop
  preferred := if pt = 0x01 then .t1 else .t0
  mirrorWindow := mw
  residence := rl
  sessionTimeout := st
  notifyAddr := if np = 0x01 then some na else none
  notifyT0 := nps.getLsbD 0
  notifyT1 := nps.getLsbD 1

section RelayBytes
variable {own da pt mw rl st np na nps : Byte}

/-- R166: a byte with two codes, one value for each. -/
theorem two_codes {α : Type} {x a b : Byte} (hab : a ≠ b) (u v : α) :
    (if x = a then some u else if x = b then some v else none)
      = if x = a ∨ x = b then some (if x = b then v else u) else none := by
  by_cases h : x = a
  · simp [h, hab]
  · simp only [h, if_false, false_or]
    split <;> rfl

theorem defaultAction_ofCode (da : Byte) : DefaultAction.ofCode da =
    if da = 0x01 ∨ da = 0x02 then some (if da = 0x02 then .flood else .drop) else none := two_codes (by decide) _ _

theorem trunk_ofCode (pt : Byte) : Trunk.ofCode pt =
    if pt = 0x00 ∨ pt = 0x01 then some (if pt = 0x01 then .t1 else .t0) else none := two_codes (by decide) _ _

theorem optional_eq {α : Type} (np : Byte) (x : α) : optional np x =
    if np = 0x00 ∨ np = 0x01 then some (if np = 0x01 then some x else none) else none := two_codes (by decide) _ _

theorem validStation_iff (own x : Byte) : validStation own x = true ↔ x ≠ 0x00 ∧ x ≠ 0xFF ∧ x ≠ own := by
  simp [validStation, and_assoc]

/-- R145: the record, where none of the values is out of its range. -/
theorem RelayConfig.ofBytes_some (h : RelayFits own da pt rl st np na nps) :
    RelayConfig.ofBytes own da pt mw rl st np na nps = some (relayRecord da pt mw rl st np na nps) := by
  obtain ⟨hda, hpt, hrl, hst, hnp, hna, hnps⟩ := h
  have haddr : ¬ ((if np = 0x01 then some na else none).any fun a => !validStation own a) = true := by
    split
    · next h1 => simp [(validStation_iff own na).2 (hna h1)]
    · simp
  rw [RelayConfig.ofBytes, defaultAction_ofCode, if_pos hda, trunk_ofCode, if_pos hpt, optional_eq, if_pos hnp]
  show (if _ then none else some _) = _
  rw [if_neg (by tauto)]
  rfl

/-- R145: one value out of its range refuses the record. -/
theorem RelayConfig.ofBytes_none (h : ¬ RelayFits own da pt rl st np na nps) :
    RelayConfig.ofBytes own da pt mw rl st np na nps = none := by
  rw [RelayConfig.ofBytes, defaultAction_ofCode, trunk_ofCode, optional_eq]
  by_cases hda : da = 0x01 ∨ da = 0x02
  case neg => rw [if_neg hda]; rfl
  by_cases hpt : pt = 0x00 ∨ pt = 0x01
  case neg => rw [if_pos hda, if_neg hpt]; rfl
  by_cases hnp : np = 0x00 ∨ np = 0x01
  case neg => rw [if_pos hda, if_pos hpt, if_neg hnp]; rfl
  rw [if_pos hda, if_pos hpt, if_pos hnp]
  show (if _ then none else some _) = none
  rw [if_pos]
  by_contra hkept
  simp only [not_or, not_not] at hkept
  obtain ⟨hrl, hst, haddr, hnps⟩ := hkept
  refine h ⟨hda, hpt, hrl, hst, hnp, fun h1 => ?_, hnps⟩
  rw [if_pos h1] at haddr
  exact (validStation_iff own na).1 (by simpa using haddr)

end RelayBytes

theorem exec_setRelay_of {c : Cmd} {s t : State} {r : Reply} (h : Accepts c s)
    (hbody : setRelayBody c.args (s.heard c) = (t, r)) :
    exec (.setRelay c) s = .next (answer c .setRelay r (record c .setRelay (.reply r) t)) :=
  congrArg Host.Outcome.next (manage_runBody_of h hbody)

/-- R145: a command whose body is refused changes no field. -/
theorem exec_setRelay_badArg {c : Cmd} {s : State} (h : Accepts c s)
    (hbody : setRelayBody c.args (s.heard c) = (s.heard c, .badArg)) : exec (.setRelay c) s
      = .next (answer c .setRelay ⟨.badArg, []⟩ (s.executed c .setRelay ⟨.badArg, []⟩)) := by
  rw [exec_setRelay_of h hbody, record_heard_of_accepts h]
  rfl

theorem setRelayBody_short {args : List Byte} {s : State} (h : args.length < 8) :
    setRelayBody args s = (s, .badArg) := by
  unfold setRelayBody
  split
  · simp only [List.length_cons] at h
    omega
  · rfl

section RelayBody
variable {da pt mw rl st np na nps : Byte} {rest : List Byte} {s : State}

theorem setRelayBody_refused (h : ¬ RelayFits s.ownAddr da pt rl st np na nps) :
    setRelayBody (da :: pt :: mw :: rl :: st :: np :: na :: nps :: rest) s = (s, .badArg) := by
  rw [setRelayBody, RelayConfig.ofBytes_none h]

/-- R48, R145. -/
theorem setRelayBody_record (h : RelayFits s.ownAddr da pt rl st np na nps) :
    setRelayBody (da :: pt :: mw :: rl :: st :: np :: na :: nps :: rest) s
      = ({ s with relay := relayRecord da pt mw rl st np na nps, dup := if mw = 0 then none else s.dup }, .ok []) := by
  rw [setRelayBody, RelayConfig.ofBytes_some h]
  rfl

end RelayBody

/-! ## The state after reset (R169) -/

theorem reset_port (p : Port) : State.reset.port p = PortState.cold p .mark 0 := PerPort.get_of _ p

theorem reset_branch (b : Branch) : State.reset.branch b = BranchState.cold := PerBranch.get_of _ b

theorem reset_pool (b : BufId) : State.reset.pool.get b = Buffer.empty := replicate_get 40 _ b

theorem reset_refs (b : BufId) : State.reset.refs b = 0 := by
  have hnone : ∀ p, (State.reset.port p).descriptors = [] := fun p => by rw [reset_port]; rfl
  simp [State.refs, hnone]

theorem reset_active (i : Fin 96) : State.reset.route.active.get i = none := replicate_get 96 _ i

theorem reset_staging (i : Fin 96) : State.reset.route.staging.get i = none := replicate_get 96 _ i

theorem reset_bounded : State.reset.Bounded := by
  refine ⟨fun p => ?_, Nat.zero_le _, List.nodup_nil⟩
  rw [reset_port]
  exact Nat.zero_le _

theorem reset_tableValid : State.reset.TableValid := by
  intro i a ha
  rw [reset_active] at ha
  cases ha

theorem reset_stagingFollows : State.reset.StagingFollows := by
  refine fun _ => ⟨rfl, fun i => ?_⟩
  rw [reset_staging, reset_active]
  rfl

theorem reset_grantHeld : State.reset.GrantHeld :=
  grantHeld_of_idle rfl fun p => by rw [reset_port]; rfl

theorem reset_pollSound (x : Branch) : State.reset.PollSound x := by
  have hstopped := reset_branch x
  refine ⟨fun d hd _ => ?_, fun hsent => ?_, fun hout => ?_⟩
  · rw [reset_port] at hd
    cases hd
  · rw [hstopped] at hsent
    exact absurd rfl hsent
  · rw [hstopped] at hout
    cases hout

theorem reset_poolSound : State.reset.PoolSound where
  buffers b := by
    rw [State.BufferSound, reset_pool]
    exact reset_refs b
  collecting p c hc := by
    rw [reset_port] at hc
    cases hc
  built x b hb := by
    rw [reset_branch] at hb
    cases hb
  listed e he := by cases he
  queued p d hd := by
    rw [reset_port] at hd
    cases hd
  polls := reset_pollSound

end Sys2Proof.Machine

namespace Sys2Proof.TrunkPair

open Sys2Proof.Machine

/-- Settles O5: nothing is in progress after reset. -/
theorem resetIsSound : Obligations.ResetIsSound := by
  unfold Obligations.ResetIsSound
  exact ⟨reset_bounded, reset_tableValid, reset_stagingFollows, reset_grantHeld, reset_poolSound⟩

/-- Settles O53: the bytes are refused or give the record, and each result is answered and cached. -/
theorem setRelay : Obligations.SetRelay := by
  unfold Obligations.SetRelay
  refine fun c s h => ⟨fun hshort => exec_setRelay_badArg h (setRelayBody_short hshort),
    fun da pt mw rl st np na nps rest hargs => ⟨fun hrefused => exec_setRelay_badArg h ?_, fun hfits => ?_⟩⟩
  · rw [hargs]
    exact setRelayBody_refused hrefused
  · have hbody := setRelayBody_record (mw := mw) (rest := rest) (s := s.heard c) hfits
    rw [← hargs] at hbody
    rw [exec_setRelay_of h hbody, ← record_heard_of_accepts h]
    rfl

/-- Settles O21: the grant and the tie decide whether the character is shadowed, the FREE count what a given request
does. -/
theorem frameBeginsOnTrunk : Obligations.FrameBeginsOnTrunk := by
  unfold Obligations.FrameBeginsOnTrunk
  intro k s u ch hdue ha hu f gap shadow requests
  obtain ⟨harrives, hbegins⟩ : ReachesArbiter k.port s u ∧
      assemble k.port ch (s.received k.port ch) = beginReception k.port ch u := by
    have hreceived := received_reachesArbiter k.port ch s
    obtain ⟨hasm, rfl⟩ | ⟨⟨w, hasm⟩, rfl⟩ := hu
    · exact ⟨hreceived, assemble_address (by rwa [received_asm]) ha⟩
    · exact ⟨hreceived.counted .shadowed, assemble_shadow_address (received_asm.trans hasm) ha⟩
  have hdelivered : ∀ {t}, beginReception k.port ch u = t → exec (.characterDelivered k.port) s = .next t :=
    fun ht => exec_characterDelivered_next hdue (hbegins.trans ht)
  have hgrants : u.grants k = true ↔ s.grant = none ∧ ¬ (k ≠ f ∧ (requests ∨ s.given = some (f, s.now))) :=
    harrives.grants_iff
  refine ⟨fun hheld => hdelivered (harrives.begins_shadow fun hg => hheld (hgrants.1 hg).1),
    fun _ hne hlost => hdelivered (harrives.begins_shadow fun hg => (hgrants.1 hg).2 ⟨hne, hlost⟩),
    fun hfree hwins => ?_⟩
  have hgiven : u.grants k = true := by
    refine hgrants.2 ⟨hfree, fun ⟨hne, hlost⟩ => ?_⟩
    obtain hpreferred | ⟨hnone, hnot⟩ := hwins
    · exact hne hpreferred
    · exact hlost.elim hnone hnot
  refine ⟨fun hroom => ?_, fun hshort => hdelivered (harrives.begins_skip hgiven hshort)⟩
  obtain ⟨buf, huse, htaken⟩ := harrives.begins_collect (ch := ch) hgiven hroom
  exact ⟨buf, huse, hdelivered htaken⟩

end Sys2Proof.TrunkPair
end

section
/-! Proofs of the Route Table's claims about its records (R54 to R56, R65): the lookup of a frame, and validation. -/

namespace Sys2Proof.Machine

/-! ## The lookup (R55, R56) -/

/-- R55: the three conditions of a record. -/
theorem fits_iff (dest src : Byte) (p : Port) (r : RouteRecord) : r.fits dest src p = true ↔ r.Fits dest src p := by
  unfold RouteRecord.fits RouteRecord.Fits
  rw [Bool.and_eq_true, Bool.and_eq_true, decide_eq_true_eq, and_assoc]
  rcases r.source with _ | ⟨l, h⟩
  · simp
  · simp

/-- What one position of the active bank gives to a lookup. -/
def RouteTable.candidate (dest src : Byte) (p : Port) (t : RouteTable) (i : Fin 96) : Option (Fin 96 × ActiveRecord) :=
  (t.active.get i).bind fun a => if a.record.fits dest src p then some (i, a) else none

section Lookup
variable {dest src : Byte} {p : Port} {t : RouteTable} {i : Fin 96} {a : ActiveRecord}

theorem lookup_eq : t.lookup dest src p = (List.finRange 96).findSome? (t.candidate dest src p) := rfl

theorem candidate_none_iff :
    t.candidate dest src p i = none ↔ ∀ x, t.active.get i = some x → ¬ x.record.Fits dest src p := by
  unfold RouteTable.candidate
  cases t.active.get i <;> simp [fits_iff]

theorem candidate_some_iff {j : Fin 96} :
    t.candidate dest src p j = some (i, a) ↔ j = i ∧ t.active.get i = some a ∧ a.record.Fits dest src p := by
  constructor
  · intro h
    obtain ⟨x, hat, hcandidate⟩ := Option.bind_eq_some_iff.1 h
    split at hcandidate
    · next hfits =>
      cases hcandidate
      exact ⟨rfl, hat, (fits_iff _ _ _ _).1 hfits⟩
    · cases hcandidate
  · rintro ⟨rfl, hat, hfits⟩
    simp [RouteTable.candidate, hat, (fits_iff _ _ _ _).2 hfits]

/-- R55: the first record of the active bank that fits. -/
theorem lookup_some_iff : t.lookup dest src p = some (i, a) ↔
    t.active.get i = some a ∧ a.record.Fits dest src p
      ∧ ∀ j, j < i → ∀ x, t.active.get j = some x → ¬ x.record.Fits dest src p := by
  rw [lookup_eq, findSome_first]
  simp only [candidate_none_iff, candidate_some_iff]
  constructor
  · rintro ⟨j, ⟨rfl, hat, hfits⟩, hbefore⟩
    exact ⟨hat, hfits, hbefore⟩
  · rintro ⟨hat, hfits, hbefore⟩
    exact ⟨i, ⟨rfl, hat, hfits⟩, hbefore⟩

theorem lookup_none_iff :
    t.lookup dest src p = none ↔ ∀ i a, t.active.get i = some a → ¬ a.record.Fits dest src p := by
  rw [lookup_eq, List.findSome?_eq_none_iff]
  simp only [candidate_none_iff, List.mem_finRange, true_implies]

end Lookup

theorem lookUp_match {dest src : Byte} {p : Port} {s : State} {i : Fin 96} {a : ActiveRecord}
    (h : s.route.lookup dest src p = some (i, a)) :
    lookUp dest src p s = (a.record.verdict, { s with route := s.route.hit i a }) := by
  rw [lookUp, h]

theorem lookUp_no_match {dest src : Byte} {p : Port} {s : State} (h : s.route.lookup dest src p = none) :
    lookUp dest src p s = (s.relay.defaultAction.verdict, countRelay .defaultHits s) := by
  rw [lookUp, h]

/-! ## Validity (R54, R65) -/

theorem rangeOk_iff (r : RouteRecord) : r.rangeOk = true ↔ 1 ≤ r.low.toNat ∧ r.low.toNat ≤ r.high.toNat :=
  decide_eq_true_iff

theorem egressOk_iff (r : RouteRecord) :
    r.egressOk = true ↔ (r.action = .forward → r.egress ≠ 0) ∧ (r.action = .drop → r.egress = 0) := by
  unfold RouteRecord.egressOk
  cases r.action <;> simp

/-- R54, R106: a station address, as numbers. -/
theorem validStation_range (own a : Byte) : validStation own a = true ↔ 1 ≤ a.toNat ∧ a.toNat ≤ 254 ∧ a ≠ own := by
  have hlow : a ≠ 0x00 ↔ 1 ≤ a.toNat := by bv_omega
  have hhigh : a ≠ 0xFF ↔ a.toNat ≤ 254 := by bv_omega
  rw [validStation_iff, hlow, hhigh]

theorem rewriteOk_iff (own : Byte) (r : RouteRecord) : r.rewriteOk own = true ↔
    ∀ a, r.rewrite = some a → r.action = .forward ∧ 1 ≤ a.toNat ∧ a.toNat ≤ 254 ∧ a ≠ own := by
  unfold RouteRecord.rewriteOk
  cases r.rewrite <;> simp [validStation_range]

theorem sourceOk_iff (r : RouteRecord) : r.sourceOk = true ↔
    ∀ l h, r.source = some (l, h) → 1 ≤ l.toNat ∧ h.toNat ≤ 254 ∧ l.toNat ≤ h.toNat := by
  unfold RouteRecord.sourceOk
  rcases r.source with _ | ⟨l, h⟩
  · simp
  · simp

/-- R54: the conditions of a valid record, as the model tests them. -/
theorem valid_iff (own : Byte) (r : RouteRecord) : r.Valid own ↔
    r.rangeOk = true ∧ r.ingress ≠ 0 ∧ r.egressOk = true ∧ r.rewriteOk own = true ∧ r.sourceOk = true := by
  rw [rangeOk_iff, egressOk_iff, rewriteOk_iff, sourceOk_iff]
  rfl

/-- R54: a reason is that of the first condition that fails, those before it holding. -/
theorem fault_some_iff {own : Byte} {r : RouteRecord} {why : Reason} : r.fault own = some why ↔
    (¬ r.rangeOk = true ∧ why = .range)
      ∨ (r.rangeOk = true ∧ ¬ r.ingress ≠ 0 ∧ why = .noIngress)
      ∨ (r.rangeOk = true ∧ r.ingress ≠ 0 ∧ ¬ r.egressOk = true ∧ why = .egress)
      ∨ (r.rangeOk = true ∧ r.ingress ≠ 0 ∧ r.egressOk = true ∧ ¬ r.rewriteOk own = true ∧ why = .rewrite)
      ∨ (r.rangeOk = true ∧ r.ingress ≠ 0 ∧ r.egressOk = true ∧ r.rewriteOk own = true ∧ ¬ r.sourceOk = true
          ∧ why = .source) := by
  unfold RouteRecord.fault
  by_cases hrange : r.rangeOk = true
  case neg => simp [hrange, eq_comm (α := Reason)]
  by_cases hingress : r.ingress = 0#6
  case pos => simp [hrange, hingress, eq_comm (α := Reason)]
  by_cases hegress : r.egressOk = true
  case neg => simp [hrange, hingress, hegress, eq_comm (α := Reason)]
  by_cases hrewrite : r.rewriteOk own = true
  case neg => simp [hrange, hingress, hegress, hrewrite, eq_comm (α := Reason)]
  by_cases hsource : r.sourceOk = true
  case neg => simp [hrange, hingress, hegress, hrewrite, hsource, eq_comm (α := Reason)]
  simp [hrange, hingress, hegress, hrewrite, hsource]

theorem fault_none_iff {own : Byte} {r : RouteRecord} : r.fault own = none ↔ r.Valid own := by
  rw [valid_iff]
  unfold RouteRecord.fault
  repeat' split
  all_goals simp_all

/-- What validation finds at one position of the staging bank. -/
def RouteTable.faultAt (own : Byte) (t : RouteTable) (i : Fin 96) : Option (Fin 96 × Reason) :=
  ((t.staging.get i).bind (RouteRecord.fault own)).map fun why => (i, why)

section Validation
variable {own : Byte} {t : RouteTable} {i : Fin 96} {why : Reason}

theorem firstInvalid_eq : t.firstInvalid own = (List.finRange 96).findSome? (t.faultAt own) := rfl

theorem faultAt_none_iff : t.faultAt own i = none ↔ ∀ r, t.staging.get i = some r → r.Valid own := by
  unfold RouteTable.faultAt
  simp [← fault_none_iff]

theorem faultAt_some_iff {j : Fin 96} :
    t.faultAt own j = some (i, why) ↔ j = i ∧ ∃ r, t.staging.get i = some r ∧ r.fault own = some why := by
  constructor
  · intro h
    obtain ⟨x, hfault, hx⟩ := Option.map_eq_some_iff.1 h
    cases hx
    exact ⟨rfl, Option.bind_eq_some_iff.1 hfault⟩
  · rintro ⟨rfl, r, hat, hfault⟩
    simp [RouteTable.faultAt, hat, hfault]

/-- R65: validation passes a bank that holds valid records only. -/
theorem firstInvalid_none_iff : t.firstInvalid own = none ↔ ∀ i r, t.staging.get i = some r → r.Valid own := by
  rw [firstInvalid_eq, List.findSome?_eq_none_iff]
  simp only [faultAt_none_iff, List.mem_finRange, true_implies]

/-- R65: what validation finds is an invalid record with its reason, and no position before it holds one. -/
theorem firstInvalid_some (h : t.firstInvalid own = some (i, why)) :
    (∃ r, t.staging.get i = some r ∧ r.fault own = some why)
      ∧ ∀ j, j < i → ∀ r, t.staging.get j = some r → r.Valid own := by
  rw [firstInvalid_eq, findSome_first] at h
  simp only [faultAt_none_iff, faultAt_some_iff] at h
  obtain ⟨j, ⟨rfl, hfault⟩, hbefore⟩ := h
  exact ⟨hfault, hbefore⟩

end Validation

end Sys2Proof.Machine

namespace Sys2Proof.TableRules

open Sys2Proof.Machine

/-- Settles O27: the first position that fits, and what a lookup does with and without one. -/
theorem lookup : Obligations.Lookup := by
  unfold Obligations.Lookup
  refine ⟨fun dest src p t => ⟨fun i a => lookup_some_iff, lookup_none_iff⟩,
    fun dest src p s => ⟨fun i a hmatch => ?_, fun hnone => ?_⟩⟩
  · rw [lookUp_match hmatch]
    rfl
  · rw [lookUp_no_match hnone]
    cases hdefault : s.relay.defaultAction <;> rfl

/-- Settles O28: the first position with an invalid record, and the first condition that record fails. -/
theorem validationFindsFirstInvalid : Obligations.ValidationFindsFirstInvalid := by
  unfold Obligations.ValidationFindsFirstInvalid
  refine fun own t => ⟨firstInvalid_none_iff, fun i why hfound => ?_⟩
  obtain ⟨⟨r, hat, hfault⟩, hbefore⟩ := firstInvalid_some hfound
  have hinvalid : ¬ r.Valid own := fun hvalid => by
    rw [fault_none_iff.2 hvalid] at hfault
    cases hfault
  refine ⟨⟨r, hat, hinvalid, ?_⟩, hbefore⟩
  dsimp only
  rw [← rangeOk_iff, ← egressOk_iff, ← rewriteOk_iff, ← sourceOk_iff]
  exact fault_some_iff.1 hfault

end Sys2Proof.TableRules
end

section
/-! Proofs of the claims about what each step leaves of the Route Table (R59, R67, R72, R73). Every operation but a
served command, a lookup, a session's end, a validation's and a reset leaves the table, the session's owner and the own
address alone; of those that do not, one lemma each says what of the table they keep. -/

namespace Sys2Proof.Machine

/-! ## What the table's rules read of a state -/

/-- What R67, R72 and R73 read of a state is as it was. -/
structure TableSame (s t : State) : Prop where
  route : t.route = s.route
  owner : t.session.owner = s.session.owner
  ownAddr : t.ownAddr = s.ownAddr

/-- R59, R72, R73: the epoch and the records of the active bank are as they were, and the staging bank follows them
while no session is open, if it did before. -/
structure TableKept (s t : State) : Prop where
  ownAddr : t.ownAddr = s.ownAddr
  epoch : t.route.epoch = s.route.epoch
  records : ∀ i, (t.route.active.get i).map (·.record) = (s.route.active.get i).map (·.record)
  follows : s.StagingFollows → t.StagingFollows

/-- R67: a validation that found no invalid record has switched the banks. -/
structure TableSwitched (s t : State) : Prop where
  ownAddr : t.ownAddr = s.ownAddr
  validating : s.route.commit ≠ .idle
  passed : s.route.firstInvalid s.ownAddr = none
  epoch : t.route.epoch = s.route.epoch + 1
  active : ∀ i, t.route.active.get i = (s.route.staging.get i).map fun r => ⟨r, 0⟩
  follows : s.StagingFollows → t.StagingFollows

theorem State.StagingFollows.of_same {s t : State} (h : s.StagingFollows) (hsame : TableSame s t) :
    t.StagingFollows := by
  unfold State.StagingFollows at h ⊢
  rwa [hsame.route, hsame.owner]

theorem State.StagingFollows.of_open {s : State} (h : s.session.owner ≠ none) : s.StagingFollows :=
  fun hnone => absurd hnone h

namespace TableSame

variable {s t u : State}

theorem refl (s : State) : TableSame s s := ⟨rfl, rfl, rfl⟩

theorem trans (h : TableSame s t) (g : TableSame t u) : TableSame s u :=
  ⟨g.route.trans h.route, g.owner.trans h.owner, g.ownAddr.trans h.ownAddr⟩

theorem kept (h : TableSame s t) : TableKept s t where
  ownAddr := h.ownAddr
  epoch := by rw [h.route]
  records i := by rw [h.route]
  follows hs := hs.of_same h

end TableSame

theorem LineSame.tableSame {s t : State} (h : LineSame s t) : TableSame s t :=
  ⟨h.route, congrArg Session.owner h.session, h.ownAddr⟩

theorem LineSame.tableKept {s t : State} (h : LineSame s t) : TableKept s t := h.tableSame.kept

namespace TableKept

variable {s t u : State}

theorem refl (s : State) : TableKept s s := (TableSame.refl s).kept

theorem trans (h : TableKept s t) (g : TableKept t u) : TableKept s u where
  ownAddr := g.ownAddr.trans h.ownAddr
  epoch := g.epoch.trans h.epoch
  records i := (g.records i).trans (h.records i)
  follows hs := g.follows (h.follows hs)

theorem ite {c : Prop} [Decidable c] (h : TableKept s t) (g : TableKept s u) : TableKept s (if c then t else u) := by
  split
  · exact h
  · exact g

/-- The row of an event acts under its condition only. -/
theorem guarded {c : Prop} [Decidable c] (h : TableKept s t) : TableKept s (if c then t else s) := ite h (refl s)

/-- R54: the records of the active bank are as valid as they were. -/
theorem valid (h : TableKept s t) (hs : s.TableValid) : t.TableValid := by
  intro i a ha
  have hrecord := h.records i
  rw [ha, Option.map_some] at hrecord
  obtain ⟨x, hx, hsame⟩ := Option.map_eq_some_iff.1 hrecord.symm
  rw [← hsame, h.ownAddr]
  exact hs i x hx

end TableKept

/-- R65, R67: what validation has passed is valid. -/
theorem TableSwitched.valid {s t : State} (h : TableSwitched s t) : t.TableValid := by
  intro i a ha
  rw [h.active] at ha
  obtain ⟨r, hr, rfl⟩ := Option.map_eq_some_iff.1 ha
  rw [h.ownAddr]
  exact firstInvalid_none_iff.1 h.passed i r hr

/-! ## Lines, assemblers, queues and transmitters -/

section Lines
variable (p : Port) (s : State)

theorem Assembled.same {p : Port} {s t : State} (h : Assembled p s t) : LineSame s t := by
  rw [h.rest]
  constructor <;> rfl

theorem received_same (ch : Character) : LineSame s (s.received p ch) := by
  rw [received_eq]
  constructor <;> rfl

theorem breakAssembler_same : LineSame s (breakAssembler p s) := by
  unfold breakAssembler
  split
  · exact .refl s
  · exact setAsm_same _ _ _
  · exact (countPort_same _ _ _).trans (setAsm_same _ _ _)
  · exact (failFrame_assembled _ _ _ _ (by simp)).same

theorem expireGap_same : LineSame s (expireGap p s) := by
  unfold expireGap
  split
  · exact .refl s
  · exact setAsm_same _ _ _
  · exact (countPort_same _ _ _).trans (setAsm_same _ _ _)
  · exact (failFrame_assembled _ _ _ _ (by simp)).same

theorem released_same (gone rest : List Descriptor) : LineSame s (s.released p gone rest) := by constructor <;> rfl

theorem setServed_same (k : Claimant) : LineSame s (setServed p k s) := by
  unfold setServed
  split
  · exact .refl s
  · exact modBranch_same _ _ _

theorem serveQueue_same : LineSame s (serveQueue p s) := by
  unfold serveQueue
  rw [releaseAll_eq]
  dsimp only
  split
  · exact (released_same _ _ _ _).trans (setQueue_same _ _ _)
  · exact ((released_same _ _ _ _).trans ((setQueue_same _ _ _).trans (modPort_same _ _ _))).trans
      (setServed_same _ _ _)

theorem arbitrate_same (b : Branch) : LineSame s (arbitrate b s) := by
  unfold arbitrate
  split
  · split
    · exact servePoll_same _ _
    · split
      · exact (serveQueue_same _ _).trans (servePoll_same _ _)
      · exact serveQueue_same _ _
  · exact serveQueue_same _ _
  · exact servePoll_same _ _
  · exact .refl s

theorem takeFrom_same : LineSame s (takeFrom p s) := by
  unfold takeFrom
  split
  · exact serveQueue_same _ _
  · exact arbitrate_same _ _

theorem configured_same (c : PortConfig) : LineSame s (s.configured p c) := by
  unfold State.configured
  dsimp only
  split
  · constructor <;> rfl
  · constructor <;> rfl

end Lines

/-! ## The end of a session, the restart, the lookup -/

/-- R73: a session that ends while no commit validates leaves the staging bank equal to the active bank. -/
theorem endSession_follows {s : State} (h : s.route.commit = .idle) : (endSession s).StagingFollows :=
  fun _ => ⟨h, revert_staging s.route⟩

theorem endSession_kept {s : State} (h : s.route.commit = .idle) : TableKept s (endSession s) :=
  ⟨rfl, rfl, fun _ => rfl, fun _ => endSession_follows h⟩

theorem expireSession_kept {s : State} (h : s.route.commit = .idle) : TableKept s (expireSession s) :=
  (endSession_kept h).trans (countRelay_same _ _).tableKept

theorem warmRestart_kept (s : State) : TableKept s (warmRestart s) :=
  ⟨rfl, rfl, fun _ => rfl, fun _ _ => ⟨rfl, revert_staging s.route⟩⟩

theorem settleRestart_kept (s : State) : TableKept s (settleRestart s) := by
  obtain h | h := settleRestart_cases s
  · rw [h]; exact .refl s
  · rw [h]; exact warmRestart_kept s

theorem finishSending_kept (p : Port) (d : Descriptor) (s : State) : TableKept s (finishSending p d s) :=
  ((((countPort_same _ _ _).trans (dropRef_same _ _)).trans (modPort_same _ _ _)).trans
    (reportSent_same _ _ _)).tableKept.trans (settleRestart_kept _)

/-- R58: a hit counts on a record and leaves it as it was. -/
theorem hit_records {t : RouteTable} {i : Fin 96} {a : ActiveRecord} (h : t.active.get i = some a) (j : Fin 96) :
    ((t.hit i a).active.get j).map (·.record) = (t.active.get j).map (·.record) := by
  unfold RouteTable.hit
  rw [get_set_at]
  split
  · next hj => rw [hj, h]; rfl
  · rfl

theorem hit_kept {s : State} {i : Fin 96} {a : ActiveRecord} (h : s.route.active.get i = some a) :
    TableKept s { s with route := s.route.hit i a } where
  ownAddr := rfl
  epoch := rfl
  records := hit_records h
  follows hs hnone := by
    obtain ⟨hidle, hstaging⟩ := hs hnone
    exact ⟨hidle, fun j => (hstaging j).trans (hit_records h j).symm⟩

theorem lookUp_kept (dest src : Byte) (p : Port) (s : State) : TableKept s (lookUp dest src p s).2 := by
  cases hfound : s.route.lookup dest src p with
  | none =>
    rw [lookUp_no_match hfound]
    exact (countRelay_same _ _).tableKept
  | some x =>
    obtain ⟨hat, -⟩ := lookup_some_iff.1 hfound
    rw [lookUp_match hfound]
    exact hit_kept hat

/-! ## Served commands -/

section Serving
variable (c : Cmd) (s : State)

theorem refresh_tableSame : TableSame s (refresh c s) := by
  rw [refresh_eq]
  exact ⟨rfl, rfl, rfl⟩

theorem record_tableSame (k : Command) (x : Cached) : TableSame s (record c k x s) := ⟨rfl, rfl, rfl⟩

theorem answer_tableSame (k : Command) (r : Reply) : TableSame s (answer c k r s) :=
  (sendReply_same _ _ _ _ _ _).tableSame

theorem discardCommand_tableSame : TableSame s (discardCommand s) := (countRelay_same _ _).tableSame

theorem serveRead_kept (k : Command) (f : List Byte → State → Reply) : TableKept s (serveRead k f c s) :=
  .ite (discardCommand_tableSame s).kept ((refresh_tableSame c s).trans (answer_tableSame _ _ _ _)).kept

/-- R130: an opened session has an owner. -/
theorem openSession_kept : TableKept s (openSession c s) :=
  ⟨rfl, rfl, fun _ => rfl, fun _ => .of_open nofun⟩

theorem serveOpen_kept : TableKept s (serveOpen c s) := by
  have hanswer : ∀ (r : Reply) (u : State), TableKept u (answer c .openSession r u) :=
    fun r u => (answer_tableSame c u _ r).kept
  unfold serveOpen
  dsimp only
  refine .ite (discardCommand_tableSame s).kept ((refresh_tableSame c s).kept.trans (.ite (hanswer _ _) ?_))
  split
  · exact (openSession_kept c _).trans (hanswer _ _)
  · exact .ite ((openSession_kept c _).trans (hanswer _ _)) (hanswer _ _)

end Serving

/-- R134: a sequenced command is executed only while a session is open. -/
theorem serveSequenced_kept {exe : Cmd → State → State}
    (hexe : ∀ c s, s.session.owner ≠ none → TableKept s (exe c s)) (k : Command) (c : Cmd) (s : State) :
    TableKept s (serveSequenced k exe c s) := by
  have hanswer : ∀ r, TableKept (refresh c s) (answer c k r (refresh c s)) :=
    fun r => (answer_tableSame c _ k r).kept
  unfold serveSequenced
  dsimp only
  refine .ite (discardCommand_tableSame s).kept ((refresh_tableSame c s).kept.trans ?_)
  split
  · exact hanswer _
  · next howner => exact .ite (hanswer _) (.ite (hexe _ _ (by rw [howner]; nofun)) (hanswer _))

/-- What the body of a write-class command leaves as it was: all of the table but the staging bank, the commit state
and the session. -/
structure BodyKept (s t : State) : Prop where
  ownAddr : t.ownAddr = s.ownAddr
  epoch : t.route.epoch = s.route.epoch
  active : t.route.active = s.route.active
  session : t.session = s.session

theorem LineSame.bodyKept {s t : State} (h : LineSame s t) : BodyKept s t :=
  ⟨h.ownAddr, congrArg RouteTable.epoch h.route, congrArg RouteTable.active h.route, h.session⟩

/-- While a session is open the staging bank is free of the active bank (R73). -/
theorem BodyKept.kept {s t : State} (h : BodyKept s t) (hopen : s.session.owner ≠ none) : TableKept s t :=
  ⟨h.ownAddr, h.epoch, fun i => by rw [h.active], fun _ => .of_open (by rwa [h.session])⟩

theorem serveBody_kept {body : List Byte → State → State × Reply} (hbody : ∀ args s, BodyKept s (body args s).1)
    (k : Command) (c : Cmd) (s : State) : TableKept s (serveSequenced k (runBody k body) c s) :=
  serveSequenced_kept (fun c s hopen => ((hbody c.args s).kept hopen).trans
    ((record_tableSame c _ k _).trans (answer_tableSame c _ k _)).kept) k c s

theorem runClose_kept (c : Cmd) (s : State) : TableKept s (runClose c s) := by
  unfold runClose
  split
  · exact ((record_tableSame c s _ _).trans (answer_tableSame c _ _ _)).kept
  · next h => exact (endSession_kept (by simpa [State.validating] using h)).trans (answer_tableSame c _ _ _).kept

/-- R64: only a session's owner begins a commit. -/
theorem runCommit_kept (c : Cmd) (s : State) (hopen : s.session.owner ≠ none) : TableKept s (runCommit c s) := by
  unfold runCommit
  split
  · exact ((record_tableSame c s _ _).trans (answer_tableSame c _ _ _)).kept
  · exact ⟨rfl, rfl, fun _ => rfl, fun _ => .of_open hopen⟩

theorem runRestart_kept (c : Cmd) (s : State) : TableKept s (runRestart c s) := by
  have hreply := (record_tableSame c s .restart (.reply (.ok []))).trans
    (sendReply_same c.src c.port c.seq Command.restart.code (.ok []) _).tableSame
  unfold runRestart
  dsimp only
  split
  · exact hreply.kept.trans (TableSame.kept ⟨rfl, rfl, rfl⟩)
  · exact hreply.kept.trans (warmRestart_kept _)

/-! ## The bodies of the write class -/

section Bodies
variable (args : List Byte) (s : State)

theorem writeRecordBody_kept : BodyKept s (writeRecordBody args s).1 := by
  unfold writeRecordBody
  repeat' split
  all_goals constructor <;> rfl

theorem clearRecordBody_kept : BodyKept s (clearRecordBody args s).1 := by
  unfold clearRecordBody
  repeat' split
  all_goals constructor <;> rfl

theorem discardStagingBody_kept : BodyKept s (discardStagingBody args s).1 := by
  unfold discardStagingBody
  split
  all_goals constructor <;> rfl

theorem setPortBody_kept : BodyKept s (setPortBody args s).1 := by
  unfold setPortBody
  repeat' split
  case isTrue =>
    rw [applyConfig_eq]
    exact (configured_same _ _ _).bodyKept
  all_goals constructor <;> rfl

theorem setRelayBody_kept : BodyKept s (setRelayBody args s).1 := by
  unfold setRelayBody
  repeat' split
  all_goals constructor <;> rfl

theorem writePollEntryBody_kept : BodyKept s (writePollEntryBody args s).1 := by
  unfold writePollEntryBody
  repeat' split
  all_goals constructor <;> rfl

theorem clearPollEntryBody_kept : BodyKept s (clearPollEntryBody args s).1 := by
  unfold clearPollEntryBody
  repeat' split
  all_goals constructor <;> rfl

theorem startBody_same (b : Branch) (timeout : Byte) (interval : Word16) :
    LineSame s (startBody b timeout interval s).1 := by
  unfold startBody
  split
  · exact .refl s
  · split
    · exact .refl s
    · exact (modSched_same _ _ _).trans (enterReady_same _ _ _)

theorem stopPolling_same (b : Branch) : LineSame s (stopPolling b s) := by
  unfold stopPolling dropPoll
  repeat' split
  all_goals constructor <;> rfl

theorem pollControlBody_same : LineSame s (pollControlBody args s).1 := by
  unfold pollControlBody
  split
  · split
    · exact .refl s
    · split
      · split
        · exact .refl s
        · exact startBody_same _ _ _ _
      · split
        · exact stopPolling_same _ _
        · exact .refl s
  · exact .refl s

theorem ackAlarmBody_kept : BodyKept s (ackAlarmBody args s).1 := by
  unfold ackAlarmBody
  repeat' split
  all_goals constructor <;> rfl

theorem readCountersClearBody_kept : BodyKept s (readCountersClearBody args s).1 := by
  unfold readCountersClearBody clearPart
  repeat' split
  all_goals constructor <;> rfl

end Bodies

/-- R128: every command that is served. -/
theorem serveCommand_kept (k : Command) (c : Cmd) (s : State) : TableKept s (serveCommand k c s) := by
  cases k with
  | readStatus => exact serveRead_kept c s _ _
  | readRelay => exact serveRead_kept c s _ _
  | readPort => exact serveRead_kept c s _ _
  | readCounters => exact .ite (serveBody_kept readCountersClearBody_kept _ c s) (serveRead_kept c s _ _)
  | readRecord => exact serveRead_kept c s _ _
  | readPollEntry => exact serveRead_kept c s _ _
  | readStation => exact serveRead_kept c s _ _
  | readAlarms => exact serveRead_kept c s _ _
  | openSession => exact serveOpen_kept c s
  | closeSession => exact serveSequenced_kept (fun c s _ => runClose_kept c s) _ c s
  | writeRecord => exact serveBody_kept writeRecordBody_kept _ c s
  | clearRecord => exact serveBody_kept clearRecordBody_kept _ c s
  | discardStaging => exact serveBody_kept discardStagingBody_kept _ c s
  | commit => exact serveSequenced_kept runCommit_kept _ c s
  | setPort => exact serveBody_kept setPortBody_kept _ c s
  | setRelay => exact serveBody_kept setRelayBody_kept _ c s
  | writePollEntry => exact serveBody_kept writePollEntryBody_kept _ c s
  | clearPollEntry => exact serveBody_kept clearPollEntryBody_kept _ c s
  | pollControl => exact serveBody_kept (fun args s => (pollControlBody_same args s).bodyKept) _ c s
  | ackAlarm => exact serveBody_kept ackAlarmBody_kept _ c s
  | restart => exact serveSequenced_kept (fun c s _ => runRestart_kept c s) _ c s

/-! ## Dispositions -/

theorem handCommand_kept (src : Byte) (p : Port) (payload : List Byte) (s : State) :
    TableKept s (handCommand src p payload s) := by
  unfold handCommand
  split
  · split
    · exact serveCommand_kept _ _ _
    · exact .ite (discardCommand_tableSame s).kept
        ((refresh_tableSame _ s).trans (sendReply_same _ _ _ _ _ _).tableSame).kept
  · exact (discardCommand_tableSame s).kept

theorem deliverLocal_kept (p : Port) (f : List Byte) (s : State) : TableKept s (deliverLocal p f s) :=
  .ite (.ite (handCommand_kept _ _ _ _) (countRelay_same _ _).tableKept)
    (.ite (handReply_same _ _ _ _).tableKept (countRelay_same _ _).tableKept)

theorem forwardFrame_kept (b : BufId) (p : Port) (f : List Byte) (s : State) : TableKept s (forwardFrame b p f s) := by
  have hlook := lookUp_kept (frameDest f) (frameSrc f) p s
  unfold forwardFrame
  split
  · next h =>
    rw [h] at hlook
    exact hlook.trans (freeBuf_same _ _).tableKept
  · next h =>
    rw [h] at hlook
    exact hlook.trans (copyFrame_same _ _ _ _ _).tableKept

theorem dispose_kept (e : Inbound) (s : State) : TableKept s (dispose e s) := by
  have hfreed := (freeBuf_same e.buf s).tableKept
  exact .ite (hfreed.trans (countRelay_same _ _).tableKept)
    (.ite (hfreed.trans (deliverLocal_kept _ _ _)) (forwardFrame_kept _ _ _ _))

/-! ## The end of a validation (R66, R67) -/

/-- R66: with an invalid record the table is as it was, and the commit is over. -/
theorem finishValidation_invalid {s : State} {i : Fin 96} {why : Reason}
    (h : s.route.firstInvalid s.ownAddr = some (i, why)) : finishValidation s =
      ({ s with route := { s.route with commit := .idle } },
        ⟨.invalidTable, [BitVec.ofNat 8 i.val, why.code, s.route.epoch]⟩) := by
  rw [finishValidation, h]

/-- R67: with none the banks switch. -/
theorem finishValidation_valid {s : State} (h : s.route.firstInvalid s.ownAddr = none) :
    finishValidation s = ({ s with route := s.route.switch }, .ok [s.route.epoch + 1]) := by
  rw [finishValidation, h]

theorem finishValidation_idle (s : State) : (finishValidation s).1.route.commit = .idle := by
  unfold finishValidation
  split
  · rfl
  · rfl

theorem settleMark_owner (d : Deferred) (r : Reply) (x : Session) : (x.settleMark d r).owner = x.owner := by
  rw [Session.settleMark_eq]

theorem sendDeferred_tableSame (r : Reply) (s : State) : TableSame s (sendDeferred r s) := by
  unfold sendDeferred
  split
  · exact .refl s
  · refine TableSame.trans ?_ (sendReply_same _ _ _ _ _ _).tableSame
    exact ⟨rfl, settleMark_owner _ _ _, rfl⟩

/-- R133: a session that is idle too long is one while no commit validates. -/
theorem idle_of_sessionIdle {s : State} (h : s.sessionIdle = true) : s.route.commit = .idle := by
  obtain ⟨-, hidle, -⟩ := (sessionIdle_iff s).1 h
  exact hidle

/-- What follows a validation's result leaves the table to it: the deferred reply, and the session's end. -/
theorem completeCommit_of_finished (s : State) : TableKept (finishValidation s).1 (completeCommit s)
    ∧ (completeCommit s).route.active = (finishValidation s).1.route.active := by
  have hsent := sendDeferred_tableSame (finishValidation s).2 (finishValidation s).1
  have hactive := congrArg RouteTable.active hsent.route
  unfold completeCommit
  dsimp only
  split
  · next hidle => exact ⟨hsent.kept.trans (expireSession_kept (idle_of_sessionIdle hidle)), hactive⟩
  · exact ⟨hsent.kept, hactive⟩

/-- R73: a commit validates only while a session is open. -/
theorem State.StagingFollows.open_of_validating {s : State} (h : s.StagingFollows) (hv : s.route.commit ≠ .idle) :
    s.session.owner ≠ none := fun hnone => by
  obtain ⟨hidle, -⟩ := h hnone
  exact hv hidle

theorem finishValidation_invalid_kept {s : State} (hv : s.route.commit ≠ .idle) {i : Fin 96} {why : Reason}
    (h : s.route.firstInvalid s.ownAddr = some (i, why)) : TableKept s (finishValidation s).1 := by
  rw [finishValidation_invalid h]
  exact ⟨rfl, rfl, fun _ => rfl, fun hs => .of_open (hs.open_of_validating hv)⟩

theorem finishValidation_valid_switched {s : State} (hv : s.route.commit ≠ .idle)
    (h : s.route.firstInvalid s.ownAddr = none) : TableSwitched s (finishValidation s).1 := by
  rw [finishValidation_valid h]
  exact ⟨rfl, hv, h, rfl, countedRecords_get _, fun hs => .of_open (hs.open_of_validating hv)⟩

/-- R66, R67: a completed validation keeps the table or switches its banks. -/
theorem completeCommit_table {s : State} (hv : s.route.commit ≠ .idle) :
    TableKept s (completeCommit s) ∨ TableSwitched s (completeCommit s) := by
  obtain ⟨hafter, hactive⟩ := completeCommit_of_finished s
  cases hfound : s.route.firstInvalid s.ownAddr with
  | some x => exact .inl ((finishValidation_invalid_kept hv hfound).trans hafter)
  | none =>
    have hswitched := finishValidation_valid_switched hv hfound
    exact .inr ⟨hafter.ownAddr.trans hswitched.ownAddr, hv, hfound, hafter.epoch.trans hswitched.epoch,
      fun i => by rw [hactive, hswitched.active], fun hs => hafter.follows (hswitched.follows hs)⟩

/-! ## The rows -/

theorem exec_managed_kept {serve : Cmd → State → State} {c : Cmd} {i : Instr} {s : State}
    (hrow : exec i s = .next (manage serve c s)) (h : TableKept s (serve c s)) :
    ∃ t, exec i s = .next t ∧ TableKept s t :=
  ⟨_, hrow, .ite (.refl s) (.ite h (countRelay_same _ _).tableKept)⟩

/-- Every command but a cold reset and the completion of a validation keeps the table. -/
theorem exec_kept {i : Instr} (hreset : ∀ r x, i ≠ .coldReset r x) (hcomplete : i ≠ .validationComplete) (s : State) :
    ∃ t, exec i s = .next t ∧ TableKept s t := by
  have hmanage : ∀ {k c}, exec i s = .next (manage (serveCommand k) c s) → ∃ t, exec i s = .next t ∧ TableKept s t :=
    fun hrow => exec_managed_kept hrow (serveCommand_kept _ _ s)
  have hport : ∀ (p : Port) (f : PortState → PortState), TableKept s (s.modPort p f) :=
    fun p f => (modPort_same s p f).tableKept
  cases i with
  | coldReset r x => exact absurd rfl (hreset r x)
  | validationComplete => exact absurd rfl hcomplete
  | warmRestart => exact ⟨_, rfl, settleRestart_kept s⟩
  | characterDelivered p =>
    cases hdue : (s.port p).dueCharacter with
    | none => exact ⟨s, by show execCharacterDelivered p s = _; rw [execCharacterDelivered, hdue], .refl s⟩
    | some ch =>
      exact ⟨_, exec_characterDelivered hdue,
        ((received_same p s ch).trans (assemble_assembled _ _ _).same).tableKept⟩
  | falseStart p => exact ⟨_, rfl, .guarded (hport _ _)⟩
  | breakEntry p =>
    exact ⟨_, rfl, .guarded ((((countPort_same _ _ _).trans (modPort_same _ _ _)).trans (raise_same _ _)).trans
      (breakAssembler_same _ _)).tableKept⟩
  | breakExit p => exact ⟨_, rfl, .guarded (hport _ _)⟩
  | gapExpiry p => exact ⟨_, rfl, .guarded (expireGap_same _ _).tableKept⟩
  | duplicateMemoryExpiry => exact ⟨_, rfl, .guarded (TableSame.kept ⟨rfl, rfl, rfl⟩)⟩
  | disposition =>
    refine ⟨_, rfl, ?_⟩
    split
    · exact .refl s
    · refine TableKept.trans ?_ (dispose_kept _ _)
      exact TableSame.kept ⟨rfl, rfl, rfl⟩
  | take p => exact ⟨_, rfl, .guarded ((takeFrom_same _ _).tableKept.trans (settleRestart_kept _))⟩
  | transmitStart p =>
    refine ⟨_, rfl, ?_⟩
    split
    · exact .guarded (hport _ _)
    · exact .refl s
    · exact .refl s
  | endOfSending p =>
    refine ⟨_, rfl, ?_⟩
    split
    · exact .guarded (finishSending_kept _ _ _)
    · exact .refl s
    · exact .refl s
  | applyPendingConfig p =>
    refine ⟨_, rfl, ?_⟩
    split
    · exact .refl s
    · rw [applyConfig_eq]
      exact .guarded ((configured_same _ _ _).tableKept.trans (settleRestart_kept _))
  | pollBufferRetry b => exact ⟨_, rfl, .guarded (askPollBuffer_same _ _).tableKept⟩
  | replyTimeout b => exact ⟨_, rfl, .guarded (missPoll_same _ _).tableKept⟩
  | newCycle b =>
    refine ⟨_, rfl, .guarded ?_⟩
    split
    · exact .refl s
    · exact (beginCycle_same _ _ _).tableKept
  | sessionExpiry =>
    refine ⟨_, rfl, ?_⟩
    split
    · next hidle => exact expireSession_kept (idle_of_sessionIdle hidle)
    · exact .refl s
  | readStatus c => exact hmanage (k := .readStatus) rfl
  | readRelay c => exact hmanage (k := .readRelay) rfl
  | readPort c => exact hmanage (k := .readPort) rfl
  | readCounters c => exact exec_managed_kept rfl (serveRead_kept c s .readCounters readCountersReply)
  | readCountersClear c => exact exec_managed_kept rfl (serveBody_kept readCountersClearBody_kept .readCounters c s)
  | readRecord c => exact hmanage (k := .readRecord) rfl
  | readPollEntry c => exact hmanage (k := .readPollEntry) rfl
  | readStation c => exact hmanage (k := .readStation) rfl
  | readAlarms c => exact hmanage (k := .readAlarms) rfl
  | openSession c => exact hmanage (k := .openSession) rfl
  | closeSession c => exact hmanage (k := .closeSession) rfl
  | writeRecord c => exact hmanage (k := .writeRecord) rfl
  | clearRecord c => exact hmanage (k := .clearRecord) rfl
  | discardStaging c => exact hmanage (k := .discardStaging) rfl
  | commit c => exact hmanage (k := .commit) rfl
  | setPort c => exact hmanage (k := .setPort) rfl
  | setRelay c => exact hmanage (k := .setRelay) rfl
  | writePollEntry c => exact hmanage (k := .writePollEntry) rfl
  | clearPollEntry c => exact hmanage (k := .clearPollEntry) rfl
  | pollControlStart c => exact hmanage (k := .pollControl) rfl
  | pollControlStop c => exact hmanage (k := .pollControl) rfl
  | ackAlarm c => exact hmanage (k := .ackAlarm) rfl
  | restart c => exact hmanage (k := .restart) rfl
  | startEdge p => exact ⟨_, rfl, .guarded (hport _ _)⟩
  | returnToMark p => exact ⟨_, rfl, .guarded (hport _ _)⟩
  | returnToSpaceInBreak p => exact ⟨_, rfl, .guarded (hport _ _)⟩

theorem validating_iff (s : State) : s.validating = true ↔ s.route.commit ≠ .idle := decide_eq_true_iff

theorem exec_validationComplete (s : State) :
    exec .validationComplete s = .next (if s.validating then completeCommit s else s) := rfl

theorem exec_validationComplete_table (s : State) :
    ∃ t, exec .validationComplete s = .next t ∧ (TableKept s t ∨ TableSwitched s t) := by
  refine ⟨_, exec_validationComplete s, ?_⟩
  split
  · next hv => exact completeCommit_table ((validating_iff s).1 hv)
  · exact .inl (.refl s)

/-- R59, R72: what any command but a cold reset does to the table. -/
theorem exec_table {i : Instr} {s t : State} (hreset : ∀ r x, i ≠ .coldReset r x) (h : exec i s = .next t) :
    TableKept s t ∨ i = .validationComplete ∧ TableSwitched s t := by
  by_cases hcomplete : i = .validationComplete
  · subst hcomplete
    obtain ⟨u, hu, htable⟩ := exec_validationComplete_table s
    rw [h] at hu
    cases hu
    exact htable.imp_right fun hswitched => ⟨rfl, hswitched⟩
  · obtain ⟨u, hu, hkept⟩ := exec_kept hreset hcomplete s
    rw [h] at hu
    cases hu
    exact .inl hkept

/-! ## The cold reset (R74) -/

/-- R74: both banks are empty, and no commit validates. -/
structure TableEmpty (t : State) : Prop where
  active : ∀ i, t.route.active.get i = none
  staging : ∀ i, t.route.staging.get i = none
  commit : t.route.commit = .idle

theorem coldReset_tableEmpty (addr : BitVec 4) (transparent : Bool) (s : State) :
    TableEmpty (coldReset addr transparent s) := ⟨replicate_get 96 none, replicate_get 96 none, rfl⟩

theorem enterReset_tableEmpty (s : State) : TableEmpty (enterReset s) :=
  ⟨replicate_get 96 none, replicate_get 96 none, rfl⟩

theorem TableEmpty.valid {t : State} (h : TableEmpty t) : t.TableValid := by
  intro i a ha
  rw [h.active] at ha
  cases ha

theorem TableEmpty.follows {t : State} (h : TableEmpty t) : t.StagingFollows :=
  fun _ => ⟨h.commit, fun i => by rw [h.staging, h.active]; rfl⟩

theorem exec_coldReset_high (x : Straps) (s : State) : exec (.coldReset .high x) s
    = .next (if s.inReset then coldReset x.addr x.transparent s else s) := rfl

theorem exec_coldReset_table {r : ResetPin} {x : Straps} {s t : State} (h : exec (.coldReset r x) s = .next t) :
    t = s ∨ TableEmpty t := by
  cases r with
  | low =>
    cases h
    exact .inr (enterReset_tableEmpty s)
  | high =>
    rw [exec_coldReset_high] at h
    split at h
    · cases h
      exact .inr (coldReset_tableEmpty _ _ s)
    · cases h
      exact .inl rfl

/-! ## One step -/

/-- What any command does to the table. -/
theorem exec_table_cases {i : Instr} {s t : State} (h : exec i s = .next t) :
    TableKept s t ∨ TableSwitched s t ∨ TableEmpty t := by
  by_cases hreset : ∃ r x, i = .coldReset r x
  · obtain ⟨r, x, rfl⟩ := hreset
    obtain rfl | hempty := exec_coldReset_table h
    · exact .inl (.refl t)
    · exact .inr (.inr hempty)
  · obtain hkept | ⟨-, hswitched⟩ := exec_table (fun r x hi => hreset ⟨r, x, hi⟩) h
    · exact .inl hkept
    · exact .inr (.inl hswitched)

theorem takeInput_tableSame (s : State) : TableSame s (takeInput s) := by
  unfold takeInput
  split
  · exact .refl s
  · exact ⟨rfl, rfl, rfl⟩

theorem advance_tableSame (s : State) : TableSame s (advance s) := ⟨rfl, rfl, rfl⟩

theorem step_front {s : State} {c : Instr} {rest : List Instr} (h : s.pending = c :: rest) :
    step s = exec c { s with pending := rest } := by rw [step, h]

/-- A step runs a command on a state with the same table, or leaves the table as it was. -/
theorem step_runs_or_same {s t : State} (h : step s = .next t) :
    (∃ i u, TableSame s u ∧ exec i u = .next t) ∨ TableSame s t := by
  have hchosen : TableSame s { s with choices := s.choices + 1 } := ⟨rfl, rfl, rfl⟩
  cases hpending : s.pending with
  | cons c rest =>
    rw [step_front hpending] at h
    exact .inl ⟨c, { s with pending := rest }, ⟨rfl, rfl, rfl⟩, h⟩
  | nil =>
    cases hidle : s.idleChoice with
    | run i =>
      rw [step_run hpending hidle] at h
      exact .inl ⟨i, _, hchosen, h⟩
    | input =>
      rw [step_input hpending hidle] at h
      cases h
      exact .inr (hchosen.trans (takeInput_tableSame _))
    | advance =>
      rw [step_advance hpending hidle] at h
      cases h
      exact .inr (hchosen.trans (advance_tableSame _))

/-- What holds through every command, and of a state whatever lies outside the table, holds through every step. -/
theorem step_keeps {P : State → Prop} (hsame : ∀ {s t}, TableSame s t → P s → P t)
    (hexec : ∀ {i s t}, exec i s = .next t → P s → P t) {s t : State} (h : step s = .next t) (hs : P s) : P t := by
  obtain ⟨i, u, hu, hrun⟩ | hst := step_runs_or_same h
  · exact hexec hrun (hsame hu hs)
  · exact hsame hst hs

theorem exec_keeps_tableValid {i : Instr} {s t : State} (h : exec i s = .next t) (hs : s.TableValid) :
    t.TableValid := by
  obtain hkept | hswitched | hempty := exec_table_cases h
  · exact hkept.valid hs
  · exact hswitched.valid
  · exact hempty.valid

theorem exec_keeps_stagingFollows {i : Instr} {s t : State} (h : exec i s = .next t) (hs : s.StagingFollows) :
    t.StagingFollows := by
  obtain hkept | hswitched | hempty := exec_table_cases h
  · exact hkept.follows hs
  · exact hswitched.follows hs
  · exact hempty.follows

end Sys2Proof.Machine

namespace Sys2Proof.TableRules

open Sys2Proof.Machine

/-- Settles O7: a command keeps the active records, makes a validated bank active, or empties both. -/
theorem everyStepKeepsTableValid : Obligations.EveryStepKeepsTableValid := by
  unfold Obligations.EveryStepKeepsTableValid
  exact fun s t hs hstep => step_keeps (fun h => h.kept.valid) exec_keeps_tableValid hstep hs

/-- Settles O8: the staging bank is written, and a commit begun, by the session's owner only, and each end of a session
reverts it. -/
theorem everyStepKeepsStagingFollows : Obligations.EveryStepKeepsStagingFollows := by
  unfold Obligations.EveryStepKeepsStagingFollows
  exact fun s t hs hstep => step_keeps (fun h => h.kept.follows) exec_keeps_stagingFollows hstep hs

/-- Settles O11: a hit counts on a record, and only a validation that passes switches the banks. -/
theorem tableChangesOnlyByCommit : Obligations.TableChangesOnlyByCommit := by
  unfold Obligations.TableChangesOnlyByCommit
  intro c s t h hreset
  obtain hkept | ⟨hcomplete, hswitched⟩ := exec_table hreset h
  · exact .inl ⟨hkept.epoch, hkept.records⟩
  · exact .inr ⟨hcomplete, hswitched.validating, hswitched.epoch, hswitched.active⟩

end Sys2Proof.TableRules
end

section
/-! Proofs of the claims about the commands of the Route Table (R60 to R62, R64, R69, R127, R138): WRITE-RECORD,
CLEAR-RECORD, DISCARD-STAGING and COMMIT. -/

namespace Sys2Proof.Machine

/-! ## Executed commands (R134) -/

section Executed
variable {c : Cmd} {i : Instr} {k : Command} {body : List Byte → State → State × Reply} {s : State} {r : Reply}

/-- R134: a body that changes nothing but the route table, and its result answered and cached. -/
theorem exec_body_route {table : RouteTable} (hrow : exec i s = .next (manage (serveSequenced k (runBody k body)) c s))
    (h : Accepts c s) (hbody : body c.args (s.heard c) = ({ s.heard c with route := table }, r)) :
    exec i s = .next (answer c k r { s.executed c k r with route := table }) := by
  rw [hrow, manage_runBody_of h hbody, ← record_heard_of_accepts h]
  rfl

/-- R134: a body that changes nothing. -/
theorem exec_body_unchanged (hrow : exec i s = .next (manage (serveSequenced k (runBody k body)) c s))
    (h : Accepts c s) (hbody : body c.args (s.heard c) = (s.heard c, r)) :
    exec i s = .next (answer c k r (s.executed c k r)) := exec_body_route hrow h hbody

end Executed

theorem not_validating {s : State} (h : s.route.commit = .idle) : ¬ s.validating = true :=
  fun hv => (validating_iff s).1 hv h

/-- R52: an index up to 95 is a position's. -/
theorem exists_position {x : Byte} (h : x.toNat ≤ 95) : ∃ i : Fin 96, i.val = x.toNat := ⟨⟨x.toNat, by omega⟩, rfl⟩

/-! ## WRITE-RECORD (R60, R69) -/

/-- R60: the bytes of a record that a position can carry. -/
def RecordFits (act ing egr rwp sp : Byte) : Prop :=
  (act = 0x01 ∨ act = 0x02) ∧ ing.toNat < 64 ∧ egr.toNat < 64 ∧ (rwp = 0x00 ∨ rwp = 0x01) ∧ (sp = 0x00 ∨ sp = 0x01)

/-- R60: the record that the ten bytes of WRITE-RECORD give. -/
def writtenRecord (low high ing act egr rwp rw sp sl sh : Byte) : RouteRecord where
  low := low
  high := high
  ingress := ing.setWidth 6
  action := if act = 0x01 then .forward else .drop
  egress := egr.setWidth 6
  rewrite := if rwp = 0x01 then some rw else none
  source := if sp = 0x01 then some (sl, sh) else none

theorem action_ofCode_some {act : Byte} (h : act = 0x01 ∨ act = 0x02) :
    Action.ofCode act = some (if act = 0x01 then .forward else .drop) := by
  obtain rfl | rfl := h <;> rfl

theorem action_ofCode_none {act : Byte} (h : ¬ (act = 0x01 ∨ act = 0x02)) : Action.ofCode act = none := by
  obtain ⟨hforward, hdrop⟩ := not_or.1 h
  rw [Action.ofCode, if_neg hforward, if_neg hdrop]

section RecordBytes
variable {low high ing act egr rwp rw sp sl sh : Byte}

/-- R60: the record, where no encoding check fails. -/
theorem RouteRecord.ofBytes_some (h : RecordFits act ing egr rwp sp) :
    RouteRecord.ofBytes low high ing act egr rwp rw sp sl sh
      = some (writtenRecord low high ing act egr rwp rw sp sl sh) := by
  obtain ⟨hact, hing, hegr, hrwp, hsp⟩ := h
  rw [RouteRecord.ofBytes, action_ofCode_some hact, PortSet.ofByte, if_pos hing, PortSet.ofByte, if_pos hegr,
    optional_eq, if_pos hrwp, optional_eq, if_pos hsp]
  rfl

/-- R60: one encoding check that fails refuses the record. -/
theorem RouteRecord.ofBytes_none (h : ¬ RecordFits act ing egr rwp sp) :
    RouteRecord.ofBytes low high ing act egr rwp rw sp sl sh = none := by
  rw [RouteRecord.ofBytes, PortSet.ofByte, PortSet.ofByte, optional_eq, optional_eq]
  by_cases hact : act = 0x01 ∨ act = 0x02
  case neg => rw [action_ofCode_none hact]; rfl
  rw [action_ofCode_some hact]
  by_cases hing : ing.toNat < 64
  case neg => rw [if_neg hing]; rfl
  by_cases hegr : egr.toNat < 64
  case neg => rw [if_pos hing, if_neg hegr]; rfl
  by_cases hrwp : rwp = 0x00 ∨ rwp = 0x01
  case neg => rw [if_pos hing, if_pos hegr, if_neg hrwp]; rfl
  by_cases hsp : sp = 0x00 ∨ sp = 0x01
  case neg => rw [if_pos hing, if_pos hegr, if_pos hrwp, if_neg hsp]; rfl
  exact absurd ⟨hact, hing, hegr, hrwp, hsp⟩ h

end RecordBytes

theorem writeRecordBody_short {args : List Byte} {s : State} (h : args.length < 11) :
    writeRecordBody args s = (s, .badArg) := by
  unfold writeRecordBody
  split
  · simp only [List.length_cons] at h
    omega
  · rfl

section WriteRecordBody
variable {x low high ing act egr rwp rw sp sl sh : Byte} {rest : List Byte} {s : State}

theorem writeRecordBody_refused (h : ¬ (x.toNat ≤ 95 ∧ RecordFits act ing egr rwp sp)) :
    writeRecordBody (x :: low :: high :: ing :: act :: egr :: rwp :: rw :: sp :: sl :: sh :: rest) s
      = (s, .badArg) := by
  rw [writeRecordBody]
  by_cases hx : x.toNat ≤ 95
  · obtain ⟨i, hi⟩ := exists_position hx
    rw [posOf_some hi, RouteRecord.ofBytes_none fun hfits => h ⟨hx, hfits⟩]
  · rw [posOf_none (by omega)]

/-- R60, R69: an index and a record that can be carried, BUSY or written. -/
theorem writeRecordBody_carried {i : Fin 96} (hi : i.val = x.toNat) (h : RecordFits act ing egr rwp sp) :
    writeRecordBody (x :: low :: high :: ing :: act :: egr :: rwp :: rw :: sp :: sl :: sh :: rest) s
      = if s.validating then (s, .busy)
        else (setStaging i (some (writtenRecord low high ing act egr rwp rw sp sl sh)) s, .ok []) := by
  rw [writeRecordBody, posOf_some hi, RouteRecord.ofBytes_some h]

end WriteRecordBody

/-! ## CLEAR-RECORD (R61) -/

theorem clearRecordBody_refused {x : Byte} {rest : List Byte} {s : State} (h : 95 < x.toNat) :
    clearRecordBody (x :: rest) s = (s, .badArg) := by
  rw [clearRecordBody, posOf_none (by omega)]

theorem clearRecordBody_position {x : Byte} {rest : List Byte} {s : State} {i : Fin 96} (h : i.val = x.toNat) :
    clearRecordBody (x :: rest) s = if s.validating then (s, .busy) else (setStaging i none s, .ok []) := by
  rw [clearRecordBody, posOf_some h]

/-! ## COMMIT (R64, R69, R138) -/

theorem exec_commit {c : Cmd} {s : State} (h : Accepts c s) : exec (.commit c) s = .next (runCommit c (s.heard c)) := by
  obtain ⟨-, -, -, howner, -⟩ := id h
  rw [heard_owner howner]
  exact congrArg Host.Outcome.next (serveSequenced_accepts h)

/-- R64, R69: a COMMIT that does not begin validation is answered at once. -/
theorem exec_commit_refused {c : Cmd} {s : State} {r : Reply} (h : Accepts c s)
    (hrefused : commitRefusal c.args (s.heard c) = some r) :
    exec (.commit c) s = .next (answer c .commit r (s.executed c .commit r)) := by
  rw [exec_commit h, runCommit, hrefused]
  dsimp only
  rw [record_heard_of_accepts h]

/-- R64, R138: validation begins, and no reply is sent. -/
theorem exec_commit_begins {c : Cmd} {s : State} (h : Accepts c s) (hbegins : commitRefusal c.args (s.heard c) = none) :
    exec (.commit c) s = .next (beginCommit c (s.heard c)) := by
  rw [exec_commit h, runCommit, hbegins]

section CommitRefusal
variable {e : Byte} {rest : List Byte} {s : State}

theorem commitRefusal_busy (h : s.route.commit ≠ .idle) : commitRefusal (e :: rest) s = some .busy := by
  rw [commitRefusal, if_pos ((validating_iff s).2 h)]

theorem commitRefusal_stale (h : s.route.commit = .idle) (he : e ≠ s.route.epoch) :
    commitRefusal (e :: rest) s = some ⟨.staleEpoch, [s.route.epoch]⟩ := by
  rw [commitRefusal, if_neg (not_validating h), if_pos he]

theorem commitRefusal_none (h : s.route.commit = .idle) (he : e = s.route.epoch) :
    commitRefusal (e :: rest) s = none := by
  rw [commitRefusal, if_neg (not_validating h), if_neg (not_not.2 he)]

end CommitRefusal

end Sys2Proof.Machine

namespace Sys2Proof.TableRules

open Sys2Proof.Machine

/-- Settles O47: the bytes are refused, the commit state makes it BUSY, or the position is written. -/
theorem writeRecord : Obligations.WriteRecord := by
  unfold Obligations.WriteRecord
  refine fun c s h => ⟨fun hshort => exec_body_unchanged rfl h (writeRecordBody_short hshort),
    fun x low high ing act egr rwp rw sp sl sh rest hargs => ⟨fun hrefused => exec_body_unchanged rfl h ?_,
      fun ⟨hx, hfits⟩ hv => exec_body_unchanged rfl h ?_, fun ⟨_, hfits⟩ hidle i hi => exec_body_route rfl h ?_⟩⟩
  · rw [hargs]
    exact writeRecordBody_refused hrefused
  · obtain ⟨i, hi⟩ := exists_position hx
    rw [hargs, writeRecordBody_carried hi hfits]
    exact if_pos ((validating_iff s).2 hv)
  · rw [hargs, writeRecordBody_carried hi hfits]
    exact if_neg (not_validating hidle)

/-- Settles O48: the position is refused, BUSY, or emptied. -/
theorem clearRecord : Obligations.ClearRecord := by
  unfold Obligations.ClearRecord
  refine fun c s h => ⟨fun hnone => exec_body_unchanged rfl h ?_,
    fun x rest hargs => ⟨fun hx => exec_body_unchanged rfl h ?_, fun hx hv => exec_body_unchanged rfl h ?_,
      fun i hi hidle => exec_body_route rfl h ?_⟩⟩
  · rw [hnone]
    rfl
  · rw [hargs]
    exact clearRecordBody_refused hx
  · obtain ⟨i, hi⟩ := exists_position hx
    rw [hargs, clearRecordBody_position hi]
    exact if_pos ((validating_iff s).2 hv)
  · rw [hargs, clearRecordBody_position hi]
    exact if_neg (not_validating hidle)

/-- Settles O49: BUSY, or the staging bank reverts. -/
theorem discardStaging : Obligations.DiscardStaging := by
  unfold Obligations.DiscardStaging
  refine fun c s h => ⟨fun hv => exec_body_unchanged rfl h (if_pos ((validating_iff s).2 hv)),
    fun hidle => ⟨plainRecords s.route.active, plainRecords_get _, exec_body_route rfl h ?_⟩⟩
  exact if_neg (not_validating hidle)

/-- Settles O50: refused at once, or the commit validates with its reply deferred. -/
theorem commit : Obligations.Commit := by
  unfold Obligations.Commit
  refine fun c s h => ⟨fun hnone => exec_commit_refused h ?_,
    fun e rest hargs => ⟨fun hv => exec_commit_refused h ?_, fun hidle hstale => exec_commit_refused h ?_,
      fun hidle hepoch => ?_⟩⟩
  · rw [hnone]
    rfl
  · rw [hargs]
    exact commitRefusal_busy hv
  · rw [hargs]
    exact commitRefusal_stale hidle hstale
  · obtain ⟨-, -, -, howner, -⟩ := id h
    have hbegins : commitRefusal c.args (s.heard c) = none := by
      rw [hargs]
      exact commitRefusal_none hidle hepoch
    rw [exec_commit_begins h hbegins, heard_owner howner]
    rfl

end Sys2Proof.TableRules
end

section
/-! Proofs of the claims about the management session's opening and end (R70, R73, R130, R131, R133) and the completion
of a validation (R65 to R67, R138). -/

namespace Sys2Proof.Machine

/-! ## OPEN-SESSION (R130) -/

/-- R130: an OPEN-SESSION that is served, by its source address and the session's owner. -/
theorem exec_openSession {c : Cmd} {s : State} (h : Serves c s) : exec (.openSession c) s = .next (
    if !validStation s.ownAddr c.src then answer c .openSession .badArg (s.heard c)
    else match s.session.owner with
      | none => answer c .openSession (.ok [s.route.epoch]) (openSession c (s.heard c))
      | some o =>
        if o = c.src then answer c .openSession (.ok [s.route.epoch]) (openSession c (s.heard c))
        else answer c .openSession ⟨.owned, [o]⟩ (s.heard c)) := by
  obtain ⟨hreset, hallowed, hrestart⟩ := h
  show Host.Outcome.next (manage serveOpen c s) = _
  rw [manage, if_neg (by simp [hreset]), if_pos hallowed, serveOpen, if_neg (by simp [hrestart])]
  dsimp only
  rw [refresh_eq]
  rfl

theorem openSession_heard (c : Cmd) (s : State) :
    openSession c (s.heard c) = { s with session := ⟨some c.src, c.seq + 1, none, some s.tick⟩ } := rfl

section Opening
variable {c : Cmd} {s : State}

theorem exec_openSession_refused (h : Serves c s) (hsrc : ¬ validStation s.ownAddr c.src = true) :
    exec (.openSession c) s = .next (answer c .openSession ⟨.badArg, []⟩ (s.heard c)) := by
  rw [exec_openSession h, if_pos (by simpa using hsrc)]
  rfl

theorem exec_openSession_opens (h : Serves c s) (hsrc : validStation s.ownAddr c.src = true)
    (howner : s.session.owner = none ∨ s.session.owner = some c.src) : exec (.openSession c) s
      = .next (answer c .openSession ⟨.ok, [s.route.epoch]⟩ (openSession c (s.heard c))) := by
  rw [exec_openSession h, if_neg (by simpa using hsrc)]
  obtain howner | howner := howner
  · rw [howner]
    rfl
  · rw [howner]
    dsimp only
    rw [if_pos rfl]
    rfl

theorem exec_openSession_owned {o : Byte} (h : Serves c s) (hsrc : validStation s.ownAddr c.src = true)
    (howner : s.session.owner = some o) (hother : o ≠ c.src) :
    exec (.openSession c) s = .next (answer c .openSession ⟨.owned, [o]⟩ s) := by
  rw [exec_openSession h, if_neg (by simpa using hsrc), howner]
  dsimp only
  rw [if_neg hother, heard_other (by simpa [howner] using hother)]

end Opening

/-! ## CLOSE-SESSION (R131) -/

/-- R131: with no session there is nothing to close. -/
theorem exec_closeSession_none {c : Cmd} {s : State} (h : Serves c s) (howner : s.session.owner = none) :
    exec (.closeSession c) s = .next (answer c .closeSession ⟨.ok, []⟩ s) := by
  obtain ⟨hreset, hallowed, hrestart⟩ := h
  show Host.Outcome.next (manage serveClose c s) = _
  rw [manage, if_neg (by simp [hreset]), if_pos hallowed, serveClose, serveSequenced, if_neg (by simp [hrestart]),
    refresh_eq, heard_other (by simp [howner])]
  dsimp only
  rw [howner]
  rfl

theorem exec_closeSession {c : Cmd} {s : State} (h : Accepts c s) :
    exec (.closeSession c) s = .next (runClose c (s.heard c)) := by
  obtain ⟨-, -, -, howner, -⟩ := id h
  rw [heard_owner howner]
  exact congrArg Host.Outcome.next (serveSequenced_accepts h)

theorem runClose_busy {c : Cmd} {s : State} (h : s.route.commit ≠ .idle) :
    runClose c s = answer c .closeSession .busy (record c .closeSession (.reply .busy) s) :=
  if_pos ((validating_iff s).2 h)

theorem runClose_ends {c : Cmd} {s : State} (h : s.route.commit = .idle) :
    runClose c s = answer c .closeSession (.ok []) (endSession s) := if_neg (not_validating h)

/-! ## SESSION_EXPIRY (R133) -/

theorem exec_sessionExpiry (s : State) :
    exec .sessionExpiry s = .next (if s.sessionIdle then expireSession s else s) := rfl

theorem expireSession_eq (s : State) : expireSession s = { s with
    session := ⟨none, 0, none, none⟩
    route := s.route.revert
    counters := { s.counters with sessionExpired := satInc s.counters.sessionExpired } } := rfl

/-- R133: a session with an owner, heard at a tick, while no commit validates. -/
theorem sessionIdle_open {s : State} {a : Nat} (howner : s.session.owner.isSome = true)
    (hlast : s.session.lastActivity = some a) : s.sessionIdle = true ↔
      s.route.commit = .idle ∧ 1000 * s.relay.sessionTimeout.toNat < s.tick - a := by
  rw [sessionIdle_iff, hlast]
  simp [Option.isSome_iff_ne_none.1 howner]

/-! ## VALIDATION_COMPLETE (R65 to R67, R138) -/

theorem sendDeferred_some {s : State} {d : Deferred} (r : Reply) (h : s.deferred = some d) :
    sendDeferred r s = (sendReply d.src d.port d.seq 0x23 r
      { s with session := s.session.settleMark d r, deferred := none }).2 := by
  rw [sendDeferred, h]
  rfl

/-- R138: the deferred reply, with the cache entry that its pending mark becomes. -/
theorem sendDeferred_marked {s : State} {d : Deferred} {r : Reply} {cache : Option CacheEntry}
    (h : s.deferred = some d) (hmark : s.session.settleMark d r = { s.session with cache := cache }) :
    sendDeferred r s = (sendReply d.src d.port d.seq 0x23 r
      { s with session := { s.session with cache := cache }, deferred := none }).2 := by
  rw [sendDeferred_some r h, hmark]

/-- R133: what a session's idle time is counted from is as it was after a deferred reply. -/
theorem sendDeferred_idle_facts (r : Reply) (s : State) :
    (sendDeferred r s).session.lastActivity = s.session.lastActivity ∧ (sendDeferred r s).tick = s.tick
      ∧ (sendDeferred r s).relay = s.relay := by
  cases hd : s.deferred with
  | none => rw [sendDeferred, hd]; exact ⟨rfl, rfl, rfl⟩
  | some d =>
    have hsent := sendReply_same d.src d.port d.seq 0x23 r
      { s with session := s.session.settleMark d r, deferred := none }
    rw [sendDeferred_some r hd]
    refine ⟨?_, hsent.tick, hsent.relay⟩
    rw [hsent.session, Session.settleMark_eq]

/-- R70, R133, R138: what follows a validation's result: the deferred reply, and the end of a session whose time has
passed by then. -/
theorem exec_validationComplete_finished {s : State} {table : RouteTable} {r : Reply} (hv : s.route.commit ≠ .idle)
    (hfinished : finishValidation s = ({ s with route := table }, r)) (hidle : table.commit = .idle) :
    let u := sendDeferred r { s with route := table }
    ((∀ a, s.session.lastActivity = some a → s.tick - a ≤ 1000 * s.relay.sessionTimeout.toNat) →
      exec .validationComplete s = .next u)
    ∧ (∀ a, s.session.owner.isSome = true → s.session.lastActivity = some a →
        1000 * s.relay.sessionTimeout.toNat < s.tick - a → exec .validationComplete s = .next (expireSession u)) := by
  intro u
  have hrun : exec .validationComplete s = .next (if u.sessionIdle then expireSession u else u) := by
    rw [exec_validationComplete, if_pos ((validating_iff s).2 hv), completeCommit, hfinished]
  have hsame := sendDeferred_tableSame r { s with route := table }
  obtain ⟨hlast, htick, hrelay⟩ := sendDeferred_idle_facts r { s with route := table }
  refine ⟨fun hwithin => ?_, fun a howner ha hpassed => ?_⟩
  · rw [hrun, if_neg]
    intro hexpired
    obtain ⟨-, -, a, ha, hpassed⟩ := (sessionIdle_iff u).1 hexpired
    rw [hlast] at ha
    rw [htick, hrelay] at hpassed
    exact absurd (hwithin a ha) (Nat.not_le.2 hpassed)
  · rw [hrun, if_pos]
    rw [sessionIdle_open (by rwa [hsame.owner]) (hlast.trans ha), htick, hrelay, hsame.route]
    exact ⟨hidle, hpassed⟩

end Sys2Proof.Machine

namespace Sys2Proof.TableRules

open Sys2Proof.Machine

/-- Settles O45: the source and the owner decide an OPEN-SESSION, the commit state a CLOSE-SESSION, and with the idle
time an expiry. -/
theorem openingAndEndOfSession : Obligations.OpeningAndEndOfSession := by
  unfold Obligations.OpeningAndEndOfSession
  refine ⟨fun c s h => ⟨fun hzero hall hown => ?_, fun hsrc => exec_openSession_refused h ?_,
      fun hnone => exec_closeSession_none h hnone⟩,
    fun c s h => ⟨fun hv => ?_, fun hidle => ?_⟩, fun s a howner hlast => ⟨fun hidle hpassed => ?_, fun hstays => ?_⟩⟩
  · have hsrc : validStation s.ownAddr c.src = true := (validStation_iff _ _).2 ⟨hzero, hall, hown⟩
    exact ⟨exec_openSession_opens h hsrc, fun o => exec_openSession_owned h hsrc⟩
  · rw [validStation_iff]
    tauto
  · rw [exec_closeSession h, runClose_busy (s := s.heard c) hv, record_heard_of_accepts h]
    rfl
  · rw [exec_closeSession h, runClose_ends (s := s.heard c) hidle]
    rfl
  · rw [exec_sessionExpiry, if_pos ((sessionIdle_open howner hlast).2 ⟨hidle, hpassed⟩), expireSession_eq]
  · rw [exec_sessionExpiry, if_neg]
    intro hidle
    obtain ⟨hcommit, hpassed⟩ := (sessionIdle_open howner hlast).1 hidle
    exact hstays.elim (fun hv => hv hcommit) (Nat.not_le.2 hpassed)

/-- Settles O51: the result of the validation, the deferred reply, and the session's expiry after it. -/
theorem validationComplete : Obligations.ValidationComplete := by
  unfold Obligations.ValidationComplete
  intro s start d hcommit hdeferred cached complete ends
  have hv : s.route.commit ≠ .idle := by rw [hcommit]; nofun
  have hmark : ∀ r, s.session.settleMark d r = { s.session with cache := cached r } :=
    fun r => Session.settleMark_eq d r s.session
  have hcomplete : ∀ table r, sendDeferred r { s with route := table } = complete table r :=
    fun table r => sendDeferred_marked (s := { s with route := table }) hdeferred (hmark r)
  have hends : ∀ table r, finishValidation s = ({ s with route := table }, r) → table.commit = .idle →
      ends (complete table r) := fun table r hfinished hidle => by
    rw [← hcomplete]
    exact exec_validationComplete_finished hv hfinished hidle
  exact ⟨fun i why hfound => hends _ _ (finishValidation_invalid hfound) rfl,
    fun hnone => hends _ _ (finishValidation_valid hnone) rfl⟩

end Sys2Proof.TableRules
end

section
/-! Proof of the claim about the reads of tables (R63, R110, R111, R127, R162): READ-RECORD, READ-POLL-ENTRY,
READ-STATION and READ-ALARMS. -/

namespace Sys2Proof.Machine

/-- R128: a served read answers what its function gives, and nothing changes but the owner's last activity. -/
theorem exec_read {c : Cmd} {i : Instr} {k : Command} {f : List Byte → State → Reply} {s : State} {r : Reply}
    (hrow : exec i s = .next (manage (serveRead k f) c s)) (h : Serves c s) (hreply : f c.args (s.heard c) = r) :
    exec i s = .next (answer c k r (s.heard c)) := by
  rw [hrow, manage_serveRead h, hreply]

/-! ## READ-RECORD (R63) -/

/-- R63, R167: the bytes of a position of the active bank. -/
theorem recordBytes_active (x : Option ActiveRecord) : recordBytes (x.map fun a => (a.record, a.hits)) = match x with
    | none => List.replicate 15 0x00
    | some a => 0x01 :: a.record.bytes ++ bytes32 a.hits := by
  cases x <;> rfl

/-- R63, R167: the bytes of a position of the staging bank, which has no hit counters. -/
theorem recordBytes_staging (x : Option RouteRecord) : recordBytes (x.map fun r => (r, 0)) = match x with
    | none => List.replicate 15 0x00
    | some r => 0x01 :: r.bytes ++ bytes32 0 := by
  cases x <;> rfl

section ReadRecord
variable {x y : Byte} {rest : List Byte} {s : State}

theorem readRecordReply_active {i : Fin 96} (hi : i.val = x.toNat) : readRecordReply (0x00 :: x :: rest) s =
    .ok (0x00 :: x :: s.route.epoch ::
      recordBytes ((s.route.active.get i).map fun a => (a.record, a.hits))) := by
  rw [readRecordReply, posOf_some hi]
  rfl

theorem readRecordReply_staging {i : Fin 96} (hi : i.val = x.toNat) : readRecordReply (0x01 :: x :: rest) s =
    .ok (0x01 :: x :: s.route.epoch :: recordBytes ((s.route.staging.get i).map fun r => (r, 0))) := by
  rw [readRecordReply, posOf_some hi]
  rfl

/-- R63: a bank or a position that does not exist. -/
theorem readRecordReply_refused (h : 95 < x.toNat ∨ 1 < y.toNat) : readRecordReply (y :: x :: rest) s = .badArg := by
  by_cases hx : x.toNat ≤ 95
  · obtain ⟨i, hi⟩ := exists_position hx
    have hactive : y ≠ 0 := by bv_omega
    have hstaging : y ≠ 1 := by bv_omega
    rw [readRecordReply, posOf_some hi]
    dsimp only
    rw [if_neg hactive, if_neg hstaging]
  · rw [readRecordReply, posOf_none (by omega)]

end ReadRecord

theorem readRecordReply_short {args : List Byte} {s : State} (h : args.length < 2) :
    readRecordReply args s = .badArg := by
  unfold readRecordReply
  split
  · simp only [List.length_cons] at h
    omega
  · rfl

/-! ## READ-POLL-ENTRY, READ-STATION and READ-ALARMS (R110, R111, R162) -/

section ByIndex
variable {x : Byte} {rest : List Byte} {s : State}

theorem readPollEntryReply_position {i : Fin 32} (hi : i.val = x.toNat) :
    readPollEntryReply (x :: rest) s = .ok (x :: pollEntryBytes (s.pollList.get i)) := by
  rw [readPollEntryReply, posOf_some hi]

theorem readPollEntryReply_refused (h : 32 ≤ x.toNat) : readPollEntryReply (x :: rest) s = .badArg := by
  rw [readPollEntryReply, posOf_none h]

theorem readStationReply_position {i : Fin 32} (hi : i.val = x.toNat) : readStationReply (x :: rest) s
    = .ok (x :: stationBytes (s.pollList.get i) (s.stations.get i) s.tick) := by
  rw [readStationReply, posOf_some hi]

theorem readStationReply_refused (h : 32 ≤ x.toNat) : readStationReply (x :: rest) s = .badArg := by
  rw [readStationReply, posOf_none h]

theorem readAlarmsReply_listed (h : x.toNat ≤ 15) : readAlarmsReply (x :: rest) s
    = .ok (BitVec.ofNat 8 s.alarms.length :: bytes32 s.alarmsLost ++ x ::
        ((s.alarms.drop x.toNat).take 6).flatMap (alarmBytes s.tick)) := by
  rw [readAlarmsReply, if_neg (by omega)]
  simp

theorem readAlarmsReply_refused (h : 15 < x.toNat) : readAlarmsReply (x :: rest) s = .badArg := by
  rw [readAlarmsReply, if_pos h]

end ByIndex

/-- R110, R167: the bytes of a position of the Poll List. -/
theorem pollEntryBytes_eq (x : Option PollEntry) : pollEntryBytes x = match x with
    | none => List.replicate 14 0x00
    | some e => [0x01, e.station, Port.code e.branch.port, boolByte e.enabled, e.missLimit,
        BitVec.ofNat 8 e.payload.length] ++ e.payload ++ List.replicate (8 - e.payload.length) 0x00 := by
  cases x with
  | none => rfl
  | some e => exact (List.append_assoc _ _ _).symm

end Sys2Proof.Machine

namespace Sys2Proof.TableRules

open Sys2Proof.Machine

/-- Settles O43: each read's reply by its arguments. -/
theorem readsOfTables : Obligations.ReadsOfTables := by
  unfold Obligations.ReadsOfTables
  refine fun c s x rest h => ⟨fun i hi => ⟨fun hargs => exec_read rfl h ?_, fun hargs => exec_read rfl h ?_⟩,
    fun y hargs hrefused => exec_read rfl h ?_, fun hshort => exec_read rfl h (readRecordReply_short hshort),
    fun hnone => ⟨exec_read rfl h ?_, exec_read rfl h ?_, exec_read rfl h ?_⟩,
    fun hargs => ⟨fun i hi => ⟨exec_read rfl h ?_, exec_read rfl h ?_⟩,
      fun hrefused => ⟨exec_read rfl h ?_, exec_read rfl h ?_⟩, fun hlisted => exec_read rfl h ?_,
      fun hrefused => exec_read rfl h ?_⟩⟩
  · rw [hargs, readRecordReply_active hi, recordBytes_active]
    rfl
  · rw [hargs, readRecordReply_staging hi, recordBytes_staging]
    rfl
  · rw [hargs]
    exact readRecordReply_refused hrefused
  · rw [hnone]
    rfl
  · rw [hnone]
    rfl
  · rw [hnone]
    rfl
  · rw [hargs, readPollEntryReply_position hi, pollEntryBytes_eq]
    rfl
  · rw [hargs]
    exact readStationReply_position hi
  · rw [hargs]
    exact readPollEntryReply_refused hrefused
  · rw [hargs]
    exact readStationReply_refused hrefused
  · rw [hargs]
    exact readAlarmsReply_listed hlisted
  · rw [hargs]
    exact readAlarmsReply_refused hrefused

end Sys2Proof.TableRules
end

section
/-! The accounting of buffers (R75, R76, R81) through the resets and the assemblers: each keeps the books of
Laws/Accounting.lean. -/

namespace Sys2Proof.Machine

open Function

/-! ## What the books read of a state -/

theorem BookSame.trans {s t u : State} (h : BookSame s t) (g : BookSame t u) : BookSame s u where
  asm p := (g.asm p).trans (h.asm p)
  queue p := (g.queue p).trans (h.queue p)
  tx p := (g.tx p).trans (h.tx p)
  use b := (g.use b).trans (h.use b)
  branch x := (g.branch x).trans (h.branch x)
  inbound := g.inbound.trans (h.inbound)

theorem State.PoolSound.of_same {s t : State} (h : s.PoolSound) (hsame : BookSame s t) : t.PoolSound :=
  (poolSound_iff t).2 (((poolSound_iff s).1 h).congr hsame)

theorem Books.ite {L : BufId → Option Nat} {X : BufId → Nat} {c : Prop} [Decidable c] {s t : State}
    (h : Books L X s) (g : Books L X t) : Books L X (if c then s else t) := by
  split
  · exact h
  · exact g

theorem State.PoolSound.ite {c : Prop} [Decidable c] {s t : State} (h : s.PoolSound) (g : t.PoolSound) :
    (if c then s else t).PoolSound := by
  split
  · exact h
  · exact g

/-- With every buffer FREE and nothing in progress, every buffer is accounted for (R80). -/
theorem poolSound_of_empty {s : State} (hfree : ∀ b, (s.pool.get b).use = .free)
    (hports : ∀ p, (s.port p).tx = .idle ∧ (s.port p).asm = .hunt ∧ (s.port p).queue = [])
    (hbranches : ∀ x, (s.branch x).sched.buffer = none ∧ (s.branch x).sched.sentTick = none
      ∧ (s.branch x).outstanding = false)
    (hinbound : s.inbound = []) : s.PoolSound := by
  have hdescriptors : ∀ p, (s.port p).descriptors = [] := fun p => by
    obtain ⟨htx, -, hqueue⟩ := hports p
    simp [PortState.descriptors, htx, hqueue, Tx.slot]
  refine ⟨fun b => ?_, fun p c hc => ?_, fun x b hb => ?_, fun e he => ?_, fun p d hd => ?_, fun x => ?_⟩
  · rw [State.BufferSound, hfree]
    simp [State.refs, hdescriptors]
  · rw [(hports p).2.1] at hc
    cases hc
  · rw [(hbranches x).1] at hb
    cases hb
  · rw [hinbound] at he
    cases he
  · rw [(hports p).2.2] at hd
    cases hd
  · obtain ⟨-, hsent, houtstanding⟩ := hbranches x
    refine ⟨fun d hd => ?_, fun h => absurd hsent h, fun h => ?_⟩
    · rw [(hports x.port).1] at hd
      cases hd
    · rw [houtstanding] at h
      cases h

/-! ## The resets (R80, R142, R169) -/

theorem warmRestart_poolSound (s : State) : (warmRestart s).PoolSound :=
  poolSound_of_empty (fun b => by simp [warmRestart, Buffer.empty])
    (fun p => by simp [warmRestart, State.port, PortState.restarted])
    (fun x => by simp [warmRestart, State.branch, BranchState.restarted]) rfl

theorem coldReset_poolSound (addr : BitVec 4) (transparent : Bool) (s : State) :
    (coldReset addr transparent s).PoolSound :=
  poolSound_of_empty (fun b => by simp [coldReset, State.afterReset, Buffer.empty])
    (fun p => by simp [coldReset, State.afterReset, State.port, PortState.cold])
    (fun x => by simp [coldReset, State.afterReset, State.branch, BranchState.cold]) rfl

theorem enterReset_poolSound (s : State) : (enterReset s).PoolSound :=
  (coldReset_poolSound s.addrStrap s.transparentStrap s).of_same (.of_rest rfl rfl rfl rfl)

/-- R140. -/
theorem settleRestart_poolSound {s : State} (h : s.PoolSound) : (settleRestart s).PoolSound := by
  obtain hsame | hrestarted := settleRestart_cases s
  · rwa [hsame]
  · rw [hrestarted]
    exact warmRestart_poolSound s

/-! ## The assemblers (R23 to R37) -/

section Assemblers
variable {L : BufId → Option Nat} {X : BufId → Nat} {p : Port} {ch : Character} {c : Collect} {s : State}

theorem releaseGrant_bookSame (p : Port) (s : State) : BookSame s (releaseGrant p s) := by
  rw [releaseGrant_eq]
  exact .of_rest rfl rfl rfl rfl

theorem setAsm_setAsm (p : Port) (a a' : Assembler) (s : State) : setAsm p a (setAsm p a' s) = setAsm p a s := by
  simp [setAsm]

theorem setAsm_asm (p : Port) (a : Assembler) (s : State) : ((setAsm p a s).port p).asm = a := by
  simp [setAsm, State.port]

/-- The release of a loose buffer that nothing refers to. -/
theorem books_freeBuf {b : BufId} (h : Books L X s) (hb : L b = some 0) : Books (update L b none) X (freeBuf b s) :=
  books_handOver h hb

/-- An assembler goes on in COLLECT with the buffer it has. -/
theorem books_recollect {c' : Collect} (h : Books L X s) (hasm : (s.port p).asm = .collect c) (hbuf : c'.buf = c.buf) :
    Books L X (setAsm p (.collect c') s) := by
  obtain ⟨hloose, huse⟩ := h.collecting p c hasm
  have hleft := books_uncollect (a := .hunt) h hasm nofun
  have hentered := books_collect (p := p) (c := c') hleft (by rw [setAsm_asm]; nofun)
    (by rw [hbuf, update_self]) (by rw [hbuf]; exact huse)
  rwa [setAsm_setAsm, hbuf, update_none_of_some hloose] at hentered

/-- R35: a reception ends with no frame kept. -/
theorem books_failFrame {c' : Collect} (k : PortCtr) (h : Books L X s) (hasm : (s.port p).asm = .collect c)
    (hbuf : c'.buf = c.buf) : Books L X (failFrame p c' k s) := by
  obtain ⟨hloose, -⟩ := h.collecting p c hasm
  have hcounted := h.congr (countPort_bookSame p k s)
  have hleft := books_uncollect (p := p) (c := c) (a := .hunt) hcounted
    (by rw [(countPort_bookSame p k s).asm]; exact hasm) nofun
  have hfreed := books_freeBuf hleft (update_self ..)
  rw [update_none_of_some hloose, ← hbuf] at hfreed
  exact hfreed.congr (releaseGrant_bookSame p _)

/-- R35, R81: a reception ends GOOD. -/
theorem books_goodFrame {c' : Collect} (h : Books L X s) (hasm : (s.port p).asm = .collect c)
    (hbuf : c'.buf = c.buf) : Books L X (goodFrame p c' s) := by
  obtain ⟨hloose, -⟩ := h.collecting p c hasm
  have hcounted := h.congr (countPort_bookSame p .framesGood s)
  have hleft := books_uncollect (p := p) (c := c) (a := .hunt) hcounted
    (by rw [(countPort_bookSame p .framesGood s).asm]; exact hasm) nofun
  have hready := books_ready (p := p) (f := (s.pool.get c.buf).bytes) hleft (update_self ..)
  rw [update_none_of_some hloose, ← hbuf] at hready
  refine (hready.congr ?_).congr (releaseGrant_bookSame p _)
  exact .of_rest rfl rfl rfl rfl

/-- R29, R35, R46. -/
theorem books_completeFrame {c' : Collect} (h : Books L X s) (hasm : (s.port p).asm = .collect c)
    (hbuf : c'.buf = c.buf) : Books L X (completeFrame p c' s) := by
  have hdup : ∀ dup, Books L X { s with dup := dup } := fun _ => h.congr (.of_rest rfl rfl rfl rfl)
  unfold completeFrame
  dsimp only
  refine .ite (books_failFrame _ h hasm hbuf) ?_
  split
  · exact books_goodFrame h hasm hbuf
  · exact .ite (books_failFrame _ (hdup _) hasm hbuf) (books_goodFrame (hdup _) hasm hbuf)

/-- R26, R27: the first byte is stored in a buffer that was given, or the request refused. -/
theorem books_takeBuffer (h : Books L X s) (hasm : ∀ c, (s.port p).asm ≠ .collect c) :
    Books L X (takeBuffer p ch s) := by
  unfold takeBuffer
  split
  · next b t ht =>
    obtain ⟨hgiven, hloose, -, rfl, -⟩ := books_request h ht
    have hfilled := hgiven.congr (fillBuf_bookSame b [ch.data] _)
    have hentered := books_collect (p := p)
      (c := Collect.begin ch ((setBuf b ⟨.filling (.assembler p), []⟩ s).port p).applied.gapLimit b
        ((setBuf b ⟨.filling (.assembler p), []⟩ s).tickAt ch.start)) hfilled hasm (update_self ..)
      (by rw [(fillBuf_bookSame b _ _).use]; simp [Collect.begin])
    rwa [show (Collect.begin ch _ b _).buf = b from rfl, update_none_of_some hloose] at hentered
  · have hcounted := h.congr (countPort_bookSame p .noBuffer s)
    refine books_setAsm ((books_raise hcounted).congr (releaseGrant_bookSame p _)) (fun c => ?_) nofun
    rw [(releaseGrant_bookSame p _).asm, raise_asm, (countPort_bookSame p .noBuffer s).asm]
    exact hasm c

/-- R25, R40, R42. -/
theorem books_beginReception (h : Books L X s) (hasm : ∀ c, (s.port p).asm ≠ .collect c) :
    Books L X (beginReception p ch s) := by
  unfold beginReception
  split
  · exact books_takeBuffer h hasm
  · exact .ite (books_takeBuffer (h.congr (.of_rest rfl rfl rfl rfl)) hasm) (books_setAsm h hasm nofun)

/-- R28, R29. -/
theorem books_storeCharacter (h : Books L X s) (hasm : (s.port p).asm = .collect c) :
    Books L X (storeCharacter p c ch s) := by
  have hfilled := h.congr (fillBuf_bookSame c.buf ((s.pool.get c.buf).bytes ++ [ch.data]) s)
  rw [storeCharacter_eq, ← failFrame_eq]
  exact .ite (books_failFrame _ h hasm rfl)
    (.ite (books_completeFrame (c := c) hfilled hasm rfl) (books_recollect (c := c) hfilled hasm rfl))

/-- R37: a copy that is followed ends, or goes on. -/
theorem books_endShadow (h : Books L X s) (hasm : ∀ c, (s.port p).asm ≠ .collect c) :
    Books L X (setAsm p .hunt (countPort p .shadowed s)) :=
  books_setAsm (h.congr (countPort_bookSame p .shadowed s))
    (by rw [(countPort_bookSame p .shadowed s).asm]; exact hasm) nofun

theorem books_followCharacter {w : Shadow} (h : Books L X s) (hasm : ∀ c, (s.port p).asm ≠ .collect c) :
    Books L X (followCharacter p w ch s) := by
  rw [followCharacter_eq]
  exact .ite (books_endShadow h hasm) (books_setAsm h hasm nofun)

/-- A delivered character, by the state of its assembler. -/
theorem books_assemble (h : Books L X s) : Books L X (assemble p ch s) := by
  have hcounted : ∀ k, Books L X (countPort p k s) := fun k => h.congr (countPort_bookSame p k s)
  have hasm : ∀ k a, (s.port p).asm = a → ((countPort p k s).port p).asm = a :=
    fun k a ha => ((countPort_bookSame p k s).asm p).trans ha
  unfold assemble
  split
  · next hhunt => exact .ite (books_beginReception h (by simp [hhunt])) (hcounted _)
  · next hskip => exact .ite (books_beginReception h (by simp [hskip])) (books_setAsm h (by simp [hskip]) nofun)
  · next hshadow =>
    exact .ite (books_endShadow h (by simp [hshadow]))
      (.ite (books_beginReception (hcounted _) (by simp [hasm _ _ hshadow]))
        (books_followCharacter h (by simp [hshadow])))
  · next c hcollect =>
    refine .ite (books_failFrame _ h hcollect rfl) (.ite ?_ (books_storeCharacter h hcollect))
    exact books_recollect ((hcounted _).congr (fillBuf_bookSame c.buf _ _)) (hasm _ _ hcollect) rfl

/-- R33, R36, R37. -/
theorem books_breakAssembler (h : Books L X s) : Books L X (breakAssembler p s) := by
  unfold breakAssembler
  split
  · exact h
  · next hskip => exact books_setAsm h (by simp [hskip]) nofun
  · next hshadow => exact books_endShadow h (by simp [hshadow])
  · next hcollect => exact books_failFrame _ h hcollect rfl

/-- R32, R36, R37. -/
theorem books_expireGap (h : Books L X s) : Books L X (expireGap p s) := by
  unfold expireGap
  split
  · exact h
  · next hskip => exact books_setAsm h (by simp [hskip]) nofun
  · next hshadow => exact books_endShadow h (by simp [hshadow])
  · next hcollect => exact books_failFrame _ h hcollect rfl

end Assemblers

end Sys2Proof.Machine
end

section
/-! The accounting of buffers (R98, R100, R112, R115 to R123) through the schedulers. -/

namespace Sys2Proof.Machine

open Function

/-! ## Schedulers (R112 to R123) -/

/-- No poll of the branch is built, outstanding or reported sent. -/
structure State.NoPoll (s : State) (x : Branch) : Prop where
  unbuilt : (s.sched x).buffer = none
  notOutstanding : (s.branch x).outstanding = false
  unsent : (s.sched x).sentTick = none

section Schedulers
variable {L : BufId → Option Nat} {X : BufId → Nat} {x : Branch} {s : State}

theorem BookSame.noPoll {t : State} (hsame : BookSame s t) (h : s.NoPoll x) : t.NoPoll x := by
  obtain ⟨hunbuilt, hoff, hunsent⟩ := h
  rw [State.sched, ← hsame.branch x] at hunbuilt hunsent
  rw [← hsame.branch x] at hoff
  exact ⟨hunbuilt, hoff, hunsent⟩

/-- Without an outstanding poll no POLL descriptor is in the branch's current slot. -/
theorem Books.slot_not_poll (h : Books L X s) (hoff : (s.branch x).outstanding = false) :
    ∀ d, (s.port x.port).tx.slot = some d → d.origin ≠ .poll := by
  intro d hd horigin
  obtain ⟨hon, -, -⟩ := (h.polls x).slot d hd horigin
  rw [hoff] at hon
  cases hon

/-- A scheduler that is in none of the states of a poll has none (R112). -/
theorem Books.noPoll_of_resting (h : Books L X s)
    (hstate : (s.sched x).state = .stopped ∨ (s.sched x).state = .waitInterval) : s.NoPoll x := by
  refine ⟨?_, ?_, ?_⟩
  · by_contra hbuilt
    obtain ⟨b, hb⟩ := Option.ne_none_iff_exists'.1 hbuilt
    obtain ⟨-, -, hready, -⟩ := h.built x b hb
    simp [State.sched, hready] at hstate
  · by_contra hon
    obtain ⟨hstopped, hwaits⟩ := (h.polls x).taken (by simpa using hon)
    exact hstate.elim hstopped hwaits
  · by_contra hsent
    have hawaits := (h.polls x).sent hsent
    obtain hstate | hstate := hstate <;> simp [hstate] at hawaits

/-- Before a poll is taken nothing has been reported sent (R117). -/
theorem Books.unsent_of_ready (h : Books L X s) (hready : (s.sched x).state = .ready) :
    (s.sched x).sentTick = none := by
  by_contra hsent
  simpa [show (s.branch x).sched.state = .ready from hready] using (h.polls x).sent hsent

theorem pollSound_setBranch {y : BranchState} (hslot : ∀ d, (s.port x.port).tx.slot = some d → d.origin ≠ .poll)
    (hsent : y.sched.sentTick ≠ none → y.sched.state = .await ∨ y.sched.state = .stopping)
    (htaken : y.outstanding = true → y.sched.state ≠ .stopped ∧ y.sched.state ≠ .waitInterval) :
    ({ s with branches := s.branches.set x y } : State).PollSound x := by
  refine ⟨fun d hd horigin => absurd horigin (hslot d hd), ?_, ?_⟩
  · simpa [State.branch] using hsent
  · simpa [State.branch] using htaken

/-- A branch changes while no POLL descriptor is in its slot and its scheduler keeps the buffer it has. -/
theorem books_setBranch {y : BranchState} (h : Books L X s) (hbuffer : y.sched.buffer = (s.branch x).sched.buffer)
    (hbuilt : y.sched.buffer ≠ none → y.sched.state = .ready ∧ y.outstanding = false)
    (hslot : ∀ d, (s.port x.port).tx.slot = some d → d.origin ≠ .poll)
    (hsent : y.sched.sentTick ≠ none → y.sched.state = .await ∨ y.sched.state = .stopping)
    (htaken : y.outstanding = true → y.sched.state ≠ .stopped ∧ y.sched.state ≠ .waitInterval) :
    Books L X { s with branches := s.branches.set x y } :=
  books_branch h hbuffer hbuilt (pollSound_setBranch hslot hsent htaken)

/-- What a scheduler does while it has no poll is nothing to the pool. -/
theorem books_modSched_noPoll {f : Scheduler → Scheduler} (h : Books L X s) (hno : s.NoPoll x)
    (hf : (f (s.sched x)).buffer = none ∧ (f (s.sched x)).sentTick = none) :
    Books L X (modSched x f s) ∧ (modSched x f s).NoPoll x := by
  obtain ⟨hunbuilt, hoff, -⟩ := hno
  obtain ⟨hf, hfsent⟩ := hf
  constructor
  · exact books_setBranch h (hf.trans hunbuilt.symm) (absurd hf) (h.slot_not_poll hoff) (absurd hfsent)
      (fun hon => absurd (hoff.symm.trans hon) nofun)
  · exact ⟨by simpa [modSched, State.sched, State.branch] using hf, by simpa [modSched, State.branch] using hoff,
      by simpa [modSched, State.sched, State.branch] using hfsent⟩

/-- A change of a scheduler that leaves its buffer, its state and its report as they are. -/
theorem books_modSched_same {f : Scheduler → Scheduler} (h : Books L X s)
    (hbuffer : (f (s.sched x)).buffer = (s.sched x).buffer) (hstate : (f (s.sched x)).state = (s.sched x).state)
    (hsent : (f (s.sched x)).sentTick = (s.sched x).sentTick) : Books L X (modSched x f s) := by
  obtain ⟨hslot, hreport, htaken⟩ := h.polls x
  refine books_branch h hbuffer (fun hbuilt => ?_) ⟨?_, ?_, ?_⟩
  · obtain ⟨b, hb⟩ := Option.ne_none_iff_exists'.1 hbuilt
    obtain ⟨-, -, hready, hoff⟩ := h.built x b (hbuffer.symm.trans hb)
    exact ⟨hstate.trans hready, hoff⟩
  · simpa [State.branch, hsent, hstate] using hslot
  · simpa [State.branch, hsent, hstate] using hreport
  · simpa [State.branch, hstate] using htaken

/-- R115, R116: a scheduler in READY asks for a buffer, and is given one or not. -/
theorem books_askPollBuffer (h : Books L X s) (hno : s.NoPoll x) (hready : (s.sched x).state = .ready) :
    Books L X (askPollBuffer x s) := by
  obtain ⟨hunbuilt, hoff, hunsent⟩ := hno
  unfold askPollBuffer
  split
  · exact h
  · next e he =>
    split
    · exact books_modSched_same (h.congr (.of_rest rfl rfl rfl rfl)) rfl rfl rfl
    · next b t ht =>
      obtain ⟨hgiven, hloose, -, rfl, -⟩ := books_request h ht
      have hfilled := hgiven.congr (fillBuf_bookSame b (buildFrame e.station s.ownAddr ctlPoll e.payload) _)
      have hbuilt := books_build (x := x) (y := { s.branch x with sched := { s.sched x with
          buffer := some b, station := some e.station } }) hfilled (update_self ..)
        (by rw [(fillBuf_bookSame b _ _).use]; simp) hunbuilt rfl ⟨hready, hoff⟩
        (pollSound_setBranch (h.slot_not_poll hoff) (absurd hunsent)
          (fun hon => absurd (hoff.symm.trans hon) nofun))
      rwa [update_none_of_some hloose] at hbuilt

/-- R113, R122. -/
theorem books_enterReady {i : Fin 32} (h : Books L X s) (hno : s.NoPoll x) : Books L X (enterReady x i s) := by
  obtain ⟨hentered, hno'⟩ := books_modSched_noPoll
    (f := fun x => { x with state := .ready, cursor := some i }) h hno ⟨hno.unbuilt, hno.unsent⟩
  exact books_askPollBuffer hentered hno' (by simp [modSched, State.sched, State.branch])

/-- R122. -/
theorem books_beginCycle {i : Fin 32} (h : Books L X s) (hno : s.NoPoll x) : Books L X (beginCycle x i s) := by
  obtain ⟨hbegun, hno'⟩ := books_modSched_noPoll
    (f := fun x => { x with cycleStart := s.tick }) h hno ⟨hno.unbuilt, hno.unsent⟩
  exact books_enterReady hbegun hno'

/-- R122. -/
theorem books_completeCycle (h : Books L X s) (hno : s.NoPoll x) : Books L X (completeCycle x s) := by
  unfold completeCycle
  split
  · exact h
  · next i hi =>
    obtain ⟨hwaits, hno'⟩ := books_modSched_noPoll
      (f := fun x => { x with cycleCount := satInc x.cycleCount, cursor := some i, state := .waitInterval }) h hno
      ⟨hno.unbuilt, hno.unsent⟩
    exact .ite (books_beginCycle hwaits hno') hwaits

/-- R122. -/
theorem books_advanceCursor (h : Books L X s) (hno : s.NoPoll x) : Books L X (advanceCursor x s) := by
  unfold advanceCursor
  split
  · exact h
  · split
    · exact books_enterReady h hno
    · exact books_completeCycle h hno

/-- A poll that is awaited has been taken, and its descriptor has left (R117, R119). -/
theorem Books.awaiting_facts (h : Books L X s) (hawaits : s.awaiting x = true) :
    (s.sched x).buffer = none ∧ ∀ d, (s.port x.port).tx.slot = some d → d.origin ≠ .poll := by
  have hstate : (s.sched x).state = .await ∨ (s.sched x).state = .stopping ∧ (s.sched x).sentTick ≠ none := by
    simpa [State.awaiting, Option.isSome_iff_ne_none] using hawaits
  refine ⟨?_, fun d hd horigin => ?_⟩
  · by_contra hbuilt
    obtain ⟨b, hb⟩ := Option.ne_none_iff_exists'.1 hbuilt
    obtain ⟨-, -, hready, -⟩ := h.built x b hb
    simp [State.sched, hready] at hstate
  · obtain ⟨-, hunsent, hstate'⟩ := (h.polls x).slot d hd horigin
    obtain hstate | ⟨-, hsent⟩ := hstate
    · simp [hstate] at hstate'
    · exact hsent hunsent

/-- R119, R120, R122, R123: the end of a poll whose descriptor has left. -/
theorem books_endPoll (h : Books L X s) (hunbuilt : (s.sched x).buffer = none)
    (hslot : ∀ d, (s.port x.port).tx.slot = some d → d.origin ≠ .poll) : Books L X (endPoll x s) := by
  have hended := books_setBranch (y := { s.branch x with
    outstanding := false, sched := { s.sched x with sentTick := none, station := none } }) h rfl
    (absurd hunbuilt) hslot (absurd rfl) nofun
  have hno : ({ s with branches := s.branches.set x { s.branch x with
      outstanding := false, sched := { s.sched x with sentTick := none, station := none } } } : State).NoPoll x := by
    constructor <;> simp [State.sched, State.branch]
    exact hunbuilt
  unfold endPoll
  exact .ite (books_modSched_noPoll hended hno ⟨hno.unbuilt, hno.unsent⟩).1 (books_advanceCursor hended hno)

theorem BookSame.awaiting {t : State} (hsame : BookSame s t) : t.awaiting x = s.awaiting x := by
  simp only [State.awaiting, State.sched, hsame.branch]

/-- The end of an awaited poll. -/
theorem books_endPoll_awaiting (h : Books L X s) (hawaits : s.awaiting x = true) : Books L X (endPoll x s) := by
  obtain ⟨hunbuilt, hslot⟩ := h.awaiting_facts hawaits
  exact books_endPoll h hunbuilt hslot

/-- R119: an accepted reply. -/
theorem books_acceptReply {payload : List Byte} (h : Books L X s) (hawaits : s.awaiting x = true) :
    Books L X (acceptReply x payload s) := by
  have hend : ∀ t, BookSame s t → Books L X (endPoll x t) :=
    fun t hsame => books_endPoll_awaiting (h.congr hsame) (hsame.awaiting.trans hawaits)
  unfold acceptReply
  refine hend _ ?_
  cases (s.sched x).cursor with
  | none =>
    split
    · exact .of_rest rfl rfl rfl rfl
    · exact .refl s
  | some i =>
    split
    · exact .of_rest rfl rfl rfl rfl
    · exact .of_rest rfl rfl rfl rfl

theorem books_handReply {p : Port} {src : Byte} {payload : List Byte} (h : Books L X s) :
    Books L X (handReply p src payload s) := by
  have hunexpected : Books L X (countRelay .unexpectedReply s) := h.congr (.of_rest rfl rfl rfl rfl)
  unfold handReply
  split
  · exact hunexpected
  · split
    · next hexpected => exact books_acceptReply h hexpected.1
    · exact hunexpected

theorem raise_branch (key : AlarmKey) (s : State) (x : Branch) : (raise key s).branch x = s.branch x := by
  rw [(raise_raisedFrom key s).rest]

/-- R120: a miss, with its alarm. -/
theorem books_missPoll (h : Books L X s) (hawaits : s.awaiting x = true) : Books L X (missPoll x s) := by
  unfold missPoll
  split
  · next i e hcursor hentry =>
    have hmissed : BookSame s (modStation i (fun _ => (s.stations.get i).missed e.missLimit.toNat) s) :=
      .of_rest rfl rfl rfl rfl
    have hraised := books_raise (k := .stationLost e.station) (h.congr hmissed)
    dsimp only
    split
    · refine books_endPoll_awaiting hraised ?_
      simpa only [State.awaiting, State.sched, raise_branch, hmissed.branch] using hawaits
    · exact books_endPoll_awaiting (h.congr hmissed) (hmissed.awaiting.trans hawaits)
  · exact books_endPoll_awaiting h hawaits

/-- R117: the scheduler is told that its POLL frame has been sent, and no longer holds it. -/
theorem books_pollSent (h : Books L X s) (hunbuilt : (s.sched x).buffer = none)
    (hslot : ∀ d, (s.port x.port).tx.slot = some d → d.origin ≠ .poll)
    (hstate : (s.sched x).state = .ready ∨ (s.sched x).state = .stopping) : Books L X (pollSent x s) := by
  have htold : Books L X (modSched x (fun x =>
      { x with sentTick := some s.tick, state := if x.state = .ready then .await else x.state }) s) := by
    refine books_setBranch h rfl (absurd hunbuilt) hslot (fun _ => ?_) (fun _ => ?_)
    · obtain hstate | hstate := hstate <;> simp [hstate]
    · obtain hstate | hstate := hstate <;> simp [hstate]
  unfold pollSent
  dsimp only
  split
  · exact htold
  · exact htold.congr (.of_rest rfl rfl rfl rfl)

/-- R113. -/
theorem books_startBody {timeout : Byte} {interval : Word16} (h : Books L X s) :
    Books L X (startBody x timeout interval s).1 := by
  unfold startBody
  split
  · exact h
  · next hstopped =>
    split
    · exact h
    · have hno := h.noPoll_of_resting (x := x) (.inl (by simpa [stopped_iff] using hstopped))
      obtain ⟨hset, hno'⟩ := books_modSched_noPoll
        (f := fun x => { x with replyTimeout := timeout, cycleInterval := interval, cycleCount := 0,
                                cycleStart := s.tick }) h hno ⟨hno.unbuilt, hno.unsent⟩
      exact books_enterReady hset hno'

/-- R114: a poll that has not been taken is given up. -/
theorem books_dropPoll (h : Books L X s) (hready : (s.sched x).state = .ready)
    (hoff : (s.branch x).outstanding = false) : Books L X (dropPoll x s) := by
  have hrest : ({ s with branches := s.branches.set x { s.branch x with sched := { s.sched x with
      state := .stopped, cursor := none, buffer := none, station := none } } } : State).PollSound x :=
    pollSound_setBranch (h.slot_not_poll hoff) (absurd (h.unsent_of_ready hready))
      (fun hon => absurd (hoff.symm.trans hon) nofun)
  unfold dropPoll
  cases hbuffer : (s.sched x).buffer with
  | none => exact books_branch h hbuffer.symm nofun hrest
  | some b =>
    obtain ⟨hloose, -⟩ := h.built x b hbuffer
    have hfreed := books_freeBuf (books_unbuild h hbuffer rfl hrest) (update_self ..)
    rwa [update_none_of_some hloose] at hfreed

/-- R114: a STOP, in each state of the scheduler. -/
theorem books_stopPolling (h : Books L X s) : Books L X (stopPolling x s) := by
  unfold stopPolling
  split
  · exact h
  · exact h
  · next hawait =>
    obtain ⟨hunbuilt, hslot⟩ := h.awaiting_facts (x := x) (by simp [State.awaiting, hawait])
    exact books_setBranch h rfl (absurd hunbuilt) hslot (fun _ => .inr rfl) (fun _ => ⟨nofun, nofun⟩)
  · next hwaits =>
    have hno := h.noPoll_of_resting (.inr hwaits)
    exact (books_modSched_noPoll h hno ⟨hno.unbuilt, hno.unsent⟩).1
  · next hready =>
    split
    · next hon =>
      refine books_branch h rfl (fun hbuilt => ?_) ⟨fun d hd horigin => ?_, fun _ => ?_, fun _ => ?_⟩
      · obtain ⟨b, hb⟩ := Option.ne_none_iff_exists'.1 hbuilt
        obtain ⟨-, -, -, hoff⟩ := h.built x b hb
        simp [hoff] at hon
      · obtain ⟨-, hunsent, -⟩ := (h.polls x).slot d hd horigin
        simpa [State.branch] using ⟨hon, hunsent⟩
      · simp [State.branch]
      · simp [State.branch]
    · next hoff => exact books_dropPoll h hready (by simpa using hoff)

end Schedulers

end Sys2Proof.Machine
end

section
/-! The accounting of buffers (R79, R93 to R102) through releases, takes and the end of sending. -/

namespace Sys2Proof.Machine

open Function

/-! ## Releases (R79, R94, R102) -/

section Egress
variable {p : Port} {b : Branch} {s : State}

/-- Releases change the pool, and nothing else (R79). -/
theorem dropRefs_pool (ds : List Descriptor) (s : State) : ds.foldl (fun u d => dropRef d.buf u) s
    = { s with pool := (ds.foldl (fun u d => dropRef d.buf u) s).pool } := by
  induction ds generalizing s with
  | nil => rfl
  | cons d ds ih =>
    rw [List.foldl_cons, ih]
    rw [dropRef_pool]

/-- A port gives up descriptors, whose references are released (R79). -/
theorem poolSound_release {q : PortState} (gone : List Descriptor) (h : s.PoolSound) (hasm : q.asm = (s.port p).asm)
    (hrefs : ∀ b, refsIn b q.descriptors + refsIn b gone = refsIn b (s.port p).descriptors)
    (hqueue : ∀ d ∈ q.queue, d.origin ≠ .poll)
    (hslot : ∀ d, q.tx.slot = some d → d.origin = .poll → (s.port p).tx.slot = some d) :
    ({ s with
      ports := s.ports.set p q
      pool := (gone.foldl (fun u d => dropRef d.buf u) s).pool } : State).PoolSound := by
  have hbooks := (poolSound_iff s).1 h
  have hgone : Books (fun _ => none) (fun b => refsIn b gone) { s with ports := s.ports.set p q } :=
    books_port hbooks hasm (fun b => .inl ⟨rfl, rfl, hrefs b⟩) hqueue
      (fun x d hp hd horigin => by subst hp; exact (h.polls x).slot d (hslot d hd horigin) horigin)
  have hreleased := (poolSound_iff _).2 (books_dropRefs gone hgone fun _ => rfl)
  rw [dropRefs_congr gone (s := s) (t := { s with ports := s.ports.set p q }) rfl]
  rwa [dropRefs_pool] at hreleased

theorem refsIn_cons_same (d : Descriptor) (ds : List Descriptor) :
    refsIn d.buf (d :: ds) = refsIn d.buf ds + 1 := List.countP_cons_of_pos (beq_self_eq_true _)

theorem refsIn_cons_other {b : BufId} {d : Descriptor} (h : d.buf ≠ b) (ds : List Descriptor) :
    refsIn b (d :: ds) = refsIn b ds := List.countP_cons_of_neg (by simpa using h)

theorem refsIn_append (b : BufId) (ds es : List Descriptor) : refsIn b (ds ++ es) = refsIn b ds + refsIn b es :=
  List.countP_append

/-- R79, R94, R102: descriptors at the front of a queue are released unsent. -/
theorem released_poolSound {gone rest : List Descriptor} (h : s.PoolSound) (hqueue : (s.port p).queue = gone ++ rest) :
    (s.released p gone rest).PoolSound := by
  refine poolSound_release (p := p) gone h rfl (fun b => ?_) (fun d hd => ?_) (fun d hd _ => hd)
  · simp only [PortState.descriptors, hqueue, refsIn_append]
    omega
  · exact h.queued p d (by rw [hqueue]; exact List.mem_append_right _ hd)

theorem setServed_poolSound {k : Claimant} (h : s.PoolSound) : (setServed p k s).PoolSound := by
  unfold setServed
  split
  · exact h
  · next x _ =>
    obtain ⟨hslot, hsent, htaken⟩ := h.polls x
    refine (poolSound_iff _).2 (books_branch ((poolSound_iff s).1 h) rfl (fun hbuilt => ?_) ⟨?_, ?_, ?_⟩)
    · obtain ⟨b, hb⟩ := Option.ne_none_iff_exists'.1 hbuilt
      exact (h.built x b hb).2
    · simpa [State.branch] using hslot
    · simpa [State.branch] using hsent
    · simpa [State.branch] using htaken

/-- A queue is its stale front, and the rest from the first descriptor that is not stale on (R94). -/
theorem staleQueue_append_freshQueue (s : State) (p : Port) : (s.port p).queue = s.staleQueue p ++ s.freshQueue p :=
  List.takeWhile_append_dropWhile.symm

/-- R94, R96: the queue of an idle transmitter is served. -/
theorem serveQueue_poolSound (h : s.PoolSound) (hidle : (s.port p).tx = .idle) : (serveQueue p s).PoolSound := by
  have hqueue := staleQueue_append_freshQueue s p
  unfold serveQueue
  rw [releaseAll_eq]
  dsimp only
  split
  · next hfresh =>
    rw [setQueue_released]
    exact released_poolSound h (by rw [hqueue, hfresh])
  · next d ds hfresh =>
    rw [hfresh] at hqueue
    rw [setQueue_released]
    refine setServed_poolSound ?_
    have hserved := poolSound_release (p := p) (q := { (s.released p (s.staleQueue p) ds).port p with
        tx := .waitLine d }) (s.staleQueue p) h (by simp [State.released, State.port]) (fun b => ?_) (fun d' hd => ?_)
      (fun d' hd horigin => ?_)
    · simpa [State.released, State.modPort, State.port] using hserved
    · simp [State.released, State.port, PortState.descriptors, hidle, hqueue, Tx.slot]
      exact Nat.add_comm _ _
    · refine h.queued p d' ?_
      rw [hqueue]
      simp only [State.released, State.port, PerPort.get_set_same] at hd
      simp [hd]
    · obtain rfl : d = d' := by simpa [Tx.slot] using hd
      exact absurd horigin (h.queued p d (by simp [hqueue]))

/-- A queue with no fresh descriptor leaves the transmitter idle (R94). -/
theorem serveQueue_stale_tx (hfresh : s.freshQueue p = []) : ((serveQueue p s).port p).tx = (s.port p).tx := by
  unfold serveQueue
  rw [hfresh, releaseAll_eq]
  dsimp only
  rw [setQueue_released]
  simp [State.released, State.port]

/-! ## The take (R93 to R101) -/

theorem Branch.eq_of_port {x : Branch} (h : b.port = x.port) : x = b := by
  have hx := Branch.port_branch? x
  rw [← h, Branch.port_branch?] at hx
  exact (Option.some.inj hx).symm

/-- The branch of a POLL frame that has just been taken (R98, R100). -/
def BranchState.taken (x : BranchState) : BranchState :=
  { x with outstanding := true, lastServed := .poll, sched := { x.sched with buffer := none } }

theorem markTaken_eq (b : Branch) (s : State) :
    markTaken b s = { s with branches := s.branches.set b (s.branch b).taken } := rfl

/-- R98, R100: a built frame is taken from an idle transmitter's scheduler: its buffer is loose. -/
theorem books_markTaken {L : BufId → Option Nat} {X : BufId → Nat} {buf : BufId} (h : Books L X s)
    (hidle : (s.port b.port).tx = .idle) (hbuffer : (s.sched b).buffer = some buf) :
    Books (update L buf (some 0)) X (markTaken b s) := by
  obtain ⟨-, -, hready, -⟩ := h.built b buf hbuffer
  refine books_unbuild h hbuffer rfl (pollSound_setBranch (fun d hd => ?_) (absurd (h.unsent_of_ready hready))
    fun _ => ?_)
  · rw [hidle] at hd
    cases hd
  · simp [hready]

/-- R98, R100: a built frame enters the idle current slot. -/
theorem pollTaken_poolSound {buf : BufId} (h : s.PoolSound) (hidle : (s.port b.port).tx = .idle)
    (hbuffer : (s.sched b).buffer = some buf) : (s.pollTaken b buf).PoolSound := by
  have hbooks := (poolSound_iff s).1 h
  obtain ⟨-, hready, -⟩ := h.built b buf hbuffer
  have hentered : Books (update (fun _ => none) buf (some 1)) (fun _ => 0) { markTaken b s with
      ports := s.ports.set b.port { s.port b.port with tx := .waitLine ⟨buf, .poll, none, none⟩ } } := by
    refine books_port (books_markTaken hbooks hidle hbuffer) rfl (fun c => ?_) (h.queued b.port) fun x d hx _ _ => ?_
    · have hold : ((markTaken b s).port b.port).descriptors = (s.port b.port).queue := by
        show (s.port b.port).descriptors = _
        simp [PortState.descriptors, hidle, Tx.slot]
      by_cases hc : c = buf
      · subst hc
        refine .inr ⟨0, 1, update_self .., update_self .., ?_, rfl⟩
        have hnew := refsIn_cons_same ⟨c, .poll, none, none⟩ (s.port b.port).queue
        rw [hold]
        exact (Nat.zero_add _).trans (hnew.trans (Nat.add_comm _ _))
      · refine .inl ⟨update_of_ne hc .., update_of_ne hc .., ?_⟩
        rw [hold]
        exact refsIn_cons_other (d := ⟨buf, .poll, none, none⟩) (Ne.symm hc) _
    · obtain rfl := Branch.eq_of_port hx
      simpa [markTaken_eq, BranchState.taken, State.branch] using ⟨hbooks.unsent_of_ready hready, .inl hready⟩
  have hheld := books_handOver hentered (update_self ..)
  rw [update_none_of_some (L := fun _ => none) rfl] at hheld
  exact (poolSound_iff _).2 hheld

/-- R98, R101. -/
theorem servePoll_poolSound (h : s.PoolSound) (hidle : (s.port b.port).tx = .idle) : (servePoll b s).PoolSound := by
  cases hbuffer : (s.sched b).buffer with
  | none => rwa [servePoll, hbuffer]
  | some buf =>
    by_cases henabled : (s.port b.port).applied.enabled = true
    · rw [servePoll_enabled b s buf hbuffer henabled]
      exact pollTaken_poolSound h hidle hbuffer
    · obtain ⟨-, hready, -⟩ := h.built b buf hbuffer
      have hfreed := books_freeBuf (books_markTaken ((poolSound_iff s).1 h) hidle hbuffer) (update_self ..)
      rw [update_none_of_some (L := fun _ => none) rfl] at hfreed
      rw [servePoll, hbuffer]
      dsimp only
      rw [if_neg henabled]
      refine (poolSound_iff _).2 (books_pollSent hfreed ?_ (fun d hd => ?_) ?_)
      · simp [markTaken_eq, BranchState.taken, State.sched, State.branch]
      · have hslot : (s.port b.port).tx.slot = some d := hd
        rw [hidle] at hslot
        cases hslot
      · simpa [markTaken_eq, BranchState.taken, State.sched, State.branch] using .inl hready

theorem takeFrom_poolSound (h : s.PoolSound) (hidle : (s.port p).tx = .idle) : (takeFrom p s).PoolSound := by
  unfold takeFrom
  split
  · exact serveQueue_poolSound h hidle
  · next b hb =>
    obtain rfl := Port.eq_of_branch? hb
    have hqueue := serveQueue_poolSound h hidle
    unfold arbitrate
    split
    · split
      · exact servePoll_poolSound h hidle
      · split
        · next hfresh => exact servePoll_poolSound hqueue ((serveQueue_stale_tx hfresh).trans hidle)
        · exact hqueue
    · exact hqueue
    · exact servePoll_poolSound h hidle
    · exact h

/-! ## Sending (R11 to R14, R97) -/

/-- R11: a waiting frame begins to be sent. -/
theorem transmitStart_poolSound {d : Descriptor} (h : s.PoolSound) (htx : (s.port p).tx = .waitLine d) :
    (s.modPort p fun q => { q.stopListen s.now with tx := .sending d s.now }).PoolSound := by
  refine poolSound_release (p := p) (q := { (s.port p).stopListen s.now with tx := .sending d s.now }) [] h rfl
    (fun b => ?_) (h.queued p) (fun d' hd _ => ?_)
  · simp [PortState.descriptors, PortState.stopListen, htx, Tx.slot]
  · rw [htx]
    exact hd

/-- R14, R97: a frame sent leaves its slot, and a POLL's scheduler is told. -/
theorem finishSending_poolSound {d : Descriptor} {start : Nat} (h : s.PoolSound)
    (htx : (s.port p).tx = .sending d start) : (finishSending p d s).PoolSound := by
  have hslot : (s.port p).tx.slot = some d := by rw [htx]; rfl
  have hsent : ((dropRef d.buf (countPort p .framesOut s)).modPort p (PortState.endSending s.now)).PoolSound := by
    rw [released_endSending, dropRef_pool]
    refine poolSound_release (p := p) (q := { (s.port p) with
      tx := .idle
      rx := Receiver.fresh s.now
      lastActivity := s.now
      counters := (s.port p).counters.bump .framesOut }) [d] h rfl (fun b => ?_) (h.queued p) nofun
    rw [show (s.port p).descriptors = [d] ++ (s.port p).queue by simp [PortState.descriptors, htx, Tx.slot],
      refsIn_append]
    exact Nat.add_comm _ _
  refine settleRestart_poolSound ?_
  unfold reportSent
  split
  · next b horigin hb =>
    obtain rfl := Port.eq_of_branch? hb
    obtain ⟨hon, -, hstate⟩ := (h.polls b).slot d hslot horigin
    have hbranch : ∀ x, ((dropRef d.buf (countPort b.port .framesOut s)).modPort b.port
        (PortState.endSending s.now)).branch x = s.branch x := fun x => by
      rw [released_endSending, dropRef_pool]
    refine (poolSound_iff _).2 (books_pollSent ((poolSound_iff _).1 hsent) ?_ (fun d' hd => ?_) ?_)
    · by_contra hbuilt
      obtain ⟨buf, hbuf⟩ := Option.ne_none_iff_exists'.1 hbuilt
      rw [State.sched, hbranch] at hbuf
      obtain ⟨-, -, hoff⟩ := h.built b buf hbuf
      rw [hon] at hoff
      cases hoff
    · simp [State.port, PortState.endSending_eq, Tx.slot] at hd
    · rwa [State.sched, hbranch]
  · exact hsent

/-! ## Port configurations (R17 to R19, R102) -/

theorem configured_poolSound {c : PortConfig} (h : s.PoolSound) : (s.configured p c).PoolSound := by
  have happlied : (s.modPort p (PortState.apply c s.now)).PoolSound :=
    h.of_same (modPort_bookSame _ _ _ fun q => by rw [PortState.apply_eq]; exact ⟨rfl, rfl, rfl⟩)
  rw [← applyConfig_eq]
  unfold applyConfig
  refine .ite ?_ happlied
  rw [flushQueue_eq]
  exact released_poolSound happlied (List.append_nil _).symm

end Egress

end Sys2Proof.Machine
end

section
/-! Proof of the claim that every step keeps every buffer accounted for (R75, R76, R78, R79, R81, R100, R112): one lemma
per command, from the books of the shared operations. -/

namespace Sys2Proof.Machine

open Function

section Commands
variable {s : State} {c : Cmd}

/-! ## Served commands -/

theorem State.PoolSound.of_books {t : State} (h : s.PoolSound)
    (hbooks : Books (fun _ => none) (fun _ => 0) s → Books (fun _ => none) (fun _ => 0) t) : t.PoolSound :=
  (poolSound_iff t).2 (hbooks ((poolSound_iff s).1 h))

/-- What lies outside ports, pool, branches and inbound list is nothing to the pool. -/
theorem State.PoolSound.of_rest {t : State} (h : s.PoolSound) (hports : t.ports = s.ports) (hpool : t.pool = s.pool)
    (hbranches : t.branches = s.branches) (hinbound : t.inbound = s.inbound) : t.PoolSound :=
  h.of_same (.of_rest hports hpool hbranches hinbound)

/-- A change of a port that leaves its assembler, its queue and its slot as they are. -/
theorem modPort_poolSound {p : Port} {f : PortState → PortState} (h : s.PoolSound)
    (hf : ∀ q, (f q).asm = q.asm ∧ (f q).queue = q.queue ∧ (f q).tx = q.tx) : (s.modPort p f).PoolSound :=
  h.of_same (modPort_bookSame s p f hf)

theorem countRelay_poolSound (k : RelayCtr) (h : s.PoolSound) : (countRelay k s).PoolSound := h.of_rest rfl rfl rfl rfl

theorem record_poolSound (k : Command) (x : Cached) (h : s.PoolSound) : (record c k x s).PoolSound :=
  h.of_rest rfl rfl rfl rfl

theorem refresh_poolSound (c : Cmd) (h : s.PoolSound) : (refresh c s).PoolSound := by
  rw [refresh_eq]
  exact h.of_rest rfl rfl rfl rfl

theorem endSession_poolSound (h : s.PoolSound) : (endSession s).PoolSound := h.of_rest rfl rfl rfl rfl

theorem sendReply_poolSound (dest : Byte) (p : Port) (seq code : Byte) (r : Reply) (h : s.PoolSound) :
    (sendReply dest p seq code r s).2.PoolSound := h.of_books books_sendReply

theorem answer_poolSound (k : Command) (r : Reply) (h : s.PoolSound) : (answer c k r s).PoolSound :=
  sendReply_poolSound _ _ _ _ _ h

theorem manage_poolSound {serve : Cmd → State → State} (h : s.PoolSound) (hserve : (serve c s).PoolSound) :
    (manage serve c s).PoolSound := .ite h (.ite hserve (countRelay_poolSound _ h))

theorem serveRead_poolSound (k : Command) (f : List Byte → State → Reply) (h : s.PoolSound) :
    (serveRead k f c s).PoolSound :=
  .ite (countRelay_poolSound _ h) (answer_poolSound _ _ (refresh_poolSound c h))

theorem serveSequenced_poolSound {exe : Cmd → State → State} (hexe : ∀ c s, s.PoolSound → (exe c s).PoolSound)
    (k : Command) (c : Cmd) (h : s.PoolSound) : (serveSequenced k exe c s).PoolSound := by
  have hanswer : ∀ r, (answer c k r (refresh c s)).PoolSound := fun r => answer_poolSound k r (refresh_poolSound c h)
  unfold serveSequenced
  dsimp only
  refine .ite (countRelay_poolSound _ h) ?_
  split
  · exact hanswer _
  · exact .ite (hanswer _) (.ite (hexe _ _ (refresh_poolSound c h)) (hanswer _))

/-- A write-class command does to the pool what its body and its reply do. -/
theorem serveBody_poolSound {body : List Byte → State → State × Reply}
    (hbody : ∀ args s, s.PoolSound → (body args s).1.PoolSound) (k : Command) (c : Cmd) (h : s.PoolSound) :
    (serveSequenced k (runBody k body) c s).PoolSound :=
  serveSequenced_poolSound (fun _ _ h => answer_poolSound _ _ (record_poolSound _ _ (hbody _ _ h))) k c h

/-! ## The session's commands -/

theorem serveOpen_poolSound (h : s.PoolSound) : (serveOpen c s).PoolSound := by
  have hheard := refresh_poolSound c h
  have hopen : (openSession c (refresh c s)).PoolSound := hheard.of_rest rfl rfl rfl rfl
  unfold serveOpen
  dsimp only
  refine .ite (countRelay_poolSound _ h) (.ite (answer_poolSound _ _ hheard) ?_)
  split
  · exact answer_poolSound _ _ hopen
  · exact .ite (answer_poolSound _ _ hopen) (answer_poolSound _ _ hheard)

theorem runClose_poolSound (c : Cmd) (s : State) (h : s.PoolSound) : (runClose c s).PoolSound :=
  .ite (answer_poolSound _ _ (record_poolSound _ _ h)) (answer_poolSound _ _ (endSession_poolSound h))

theorem runCommit_poolSound (c : Cmd) (s : State) (h : s.PoolSound) : (runCommit c s).PoolSound := by
  unfold runCommit
  split
  · exact answer_poolSound _ _ (record_poolSound _ _ h)
  · exact h.of_rest rfl rfl rfl rfl

/-- R140: the restart is pending, or takes place. -/
theorem runRestart_poolSound (c : Cmd) (s : State) (h : s.PoolSound) : (runRestart c s).PoolSound := by
  unfold runRestart
  dsimp only
  split
  · refine State.PoolSound.of_rest (s := (sendReply c.src c.port c.seq Command.restart.code (.ok [])
      (record c .restart (.reply (.ok [])) s)).2) ?_ rfl rfl rfl rfl
    exact sendReply_poolSound _ _ _ _ _ (record_poolSound _ _ h)
  · exact warmRestart_poolSound _

theorem expireSession_poolSound (h : s.PoolSound) : (expireSession s).PoolSound :=
  countRelay_poolSound _ (endSession_poolSound h)

theorem finishValidation_poolSound (h : s.PoolSound) : (finishValidation s).1.PoolSound := by
  unfold finishValidation
  split
  · exact h.of_rest rfl rfl rfl rfl
  · exact h.of_rest rfl rfl rfl rfl

theorem sendDeferred_poolSound (r : Reply) (h : s.PoolSound) : (sendDeferred r s).PoolSound := by
  unfold sendDeferred
  split
  · exact h
  · exact sendReply_poolSound _ _ _ _ _ (h.of_rest rfl rfl rfl rfl)

theorem completeCommit_poolSound (h : s.PoolSound) : (completeCommit s).PoolSound := by
  have hsent := sendDeferred_poolSound (finishValidation s).2 (finishValidation_poolSound h)
  exact .ite (expireSession_poolSound hsent) hsent

/-! ## The bodies of the write class -/

section Bodies
variable (args : List Byte)

theorem writeRecordBody_poolSound (s : State) (h : s.PoolSound) : (writeRecordBody args s).1.PoolSound := by
  unfold writeRecordBody
  repeat' split
  all_goals exact h.of_rest rfl rfl rfl rfl

theorem clearRecordBody_poolSound (s : State) (h : s.PoolSound) : (clearRecordBody args s).1.PoolSound := by
  unfold clearRecordBody
  repeat' split
  all_goals exact h.of_rest rfl rfl rfl rfl

theorem discardStagingBody_poolSound (s : State) (h : s.PoolSound) : (discardStagingBody args s).1.PoolSound := by
  unfold discardStagingBody
  split
  all_goals exact h.of_rest rfl rfl rfl rfl

theorem setPortBody_poolSound (s : State) (h : s.PoolSound) : (setPortBody args s).1.PoolSound := by
  unfold setPortBody
  repeat' split
  case isTrue =>
    rw [applyConfig_eq]
    exact configured_poolSound h
  case isFalse =>
    dsimp only
    exact modPort_poolSound h fun _ => ⟨rfl, rfl, rfl⟩
  all_goals exact h

theorem setRelayBody_poolSound (s : State) (h : s.PoolSound) : (setRelayBody args s).1.PoolSound := by
  unfold setRelayBody
  repeat' split
  all_goals exact h.of_rest rfl rfl rfl rfl

theorem writePollEntryBody_poolSound (s : State) (h : s.PoolSound) : (writePollEntryBody args s).1.PoolSound := by
  unfold writePollEntryBody
  repeat' split
  all_goals exact h.of_rest rfl rfl rfl rfl

theorem clearPollEntryBody_poolSound (s : State) (h : s.PoolSound) : (clearPollEntryBody args s).1.PoolSound := by
  unfold clearPollEntryBody
  repeat' split
  all_goals exact h.of_rest rfl rfl rfl rfl

theorem pollControlBody_poolSound (s : State) (h : s.PoolSound) : (pollControlBody args s).1.PoolSound := by
  unfold pollControlBody
  split
  · split
    · exact h
    · split
      · split
        · exact h
        · exact h.of_books books_startBody
      · split
        · exact h.of_books books_stopPolling
        · exact h
  · exact h

theorem ackAlarmBody_poolSound (s : State) (h : s.PoolSound) : (ackAlarmBody args s).1.PoolSound := by
  unfold ackAlarmBody
  repeat' split
  all_goals exact h.of_rest rfl rfl rfl rfl

theorem clearPart_poolSound (set part : Byte) (h : s.PoolSound) : (clearPart set part s).PoolSound := by
  unfold clearPart
  split
  · exact modPort_poolSound h fun _ => ⟨rfl, rfl, rfl⟩
  · exact h.of_rest rfl rfl rfl rfl

theorem readCountersClearBody_poolSound (s : State) (h : s.PoolSound) :
    (readCountersClearBody args s).1.PoolSound := by
  unfold readCountersClearBody
  repeat' split
  case h_2 => exact clearPart_poolSound _ _ h
  all_goals exact h

end Bodies

/-- R128: every command that is served. -/
theorem serveCommand_poolSound (k : Command) (c : Cmd) (h : s.PoolSound) : (serveCommand k c s).PoolSound := by
  cases k with
  | readStatus => exact serveRead_poolSound _ _ h
  | readRelay => exact serveRead_poolSound _ _ h
  | readPort => exact serveRead_poolSound _ _ h
  | readCounters =>
    exact .ite (serveBody_poolSound readCountersClearBody_poolSound _ c h) (serveRead_poolSound _ _ h)
  | readRecord => exact serveRead_poolSound _ _ h
  | readPollEntry => exact serveRead_poolSound _ _ h
  | readStation => exact serveRead_poolSound _ _ h
  | readAlarms => exact serveRead_poolSound _ _ h
  | openSession => exact serveOpen_poolSound h
  | closeSession => exact serveSequenced_poolSound runClose_poolSound _ c h
  | writeRecord => exact serveBody_poolSound writeRecordBody_poolSound _ c h
  | clearRecord => exact serveBody_poolSound clearRecordBody_poolSound _ c h
  | discardStaging => exact serveBody_poolSound discardStagingBody_poolSound _ c h
  | commit => exact serveSequenced_poolSound runCommit_poolSound _ c h
  | setPort => exact serveBody_poolSound setPortBody_poolSound _ c h
  | setRelay => exact serveBody_poolSound setRelayBody_poolSound _ c h
  | writePollEntry => exact serveBody_poolSound writePollEntryBody_poolSound _ c h
  | clearPollEntry => exact serveBody_poolSound clearPollEntryBody_poolSound _ c h
  | pollControl => exact serveBody_poolSound pollControlBody_poolSound _ c h
  | ackAlarm => exact serveBody_poolSound ackAlarmBody_poolSound _ c h
  | restart => exact serveSequenced_poolSound runRestart_poolSound _ c h

/-! ## Dispositions (R78, R83 to R89) -/

theorem handCommand_poolSound (src : Byte) (p : Port) (payload : List Byte) (h : s.PoolSound) :
    (handCommand src p payload s).PoolSound := by
  unfold handCommand
  split
  · split
    · exact serveCommand_poolSound _ _ h
    · exact .ite (countRelay_poolSound _ h) (sendReply_poolSound _ _ _ _ _ (refresh_poolSound _ h))
  · exact countRelay_poolSound _ h

theorem deliverLocal_poolSound (p : Port) (f : List Byte) (h : s.PoolSound) : (deliverLocal p f s).PoolSound :=
  .ite (.ite (handCommand_poolSound _ _ _ h) (countRelay_poolSound _ h))
    (.ite (h.of_books books_handReply) (countRelay_poolSound _ h))

end Commands

section Forwarding
variable {L : BufId → Option Nat} {X : BufId → Nat} {b : BufId} {s : State}

/-- R88: each copy placed refers once more to the loose buffer. -/
theorem books_placeCopies {rewrite : Option Byte} (ps : List Port) {n : Nat} (h : Books L X s) (hb : L b = some n) :
    Books (update L b (some (n + (placeCopies b rewrite ps s).1))) X (placeCopies b rewrite ps s).2 := by
  induction ps generalizing L n s with
  | nil =>
    rw [placeCopies, Nat.add_zero, ← hb, update_eq_self]
    exact h
  | cons p ps ih =>
    rw [placeCopies]
    split
    · have hplaced := ih (books_enqueue (p := p) (d := ⟨b, .forward, rewrite, some s.tick⟩) h hb rfl nofun)
        (update_self ..)
      rw [update_idem] at hplaced
      rwa [show n + 1 + _ = n + (_ + 1) from Nat.add_right_comm n 1 _] at hplaced
    · exact ih (books_raise (h.congr (countPort_bookSame p .queueOverflows s))) hb

/-- R78, R87 to R89: the copies end the looseness. -/
theorem books_copyFrame {p : Port} {egress : PortSet} {rewrite : Option Byte} (h : Books L X s) (hb : L b = some 0) :
    Books (update L b none) X (copyFrame b p egress rewrite s) := by
  have hplaced := books_placeCopies (rewrite := rewrite) (s.copySet p egress) h hb
  rw [Nat.zero_add] at hplaced
  have hheld := books_handOver hplaced (update_self ..)
  rw [update_idem] at hheld
  exact .ite (hheld.congr (.of_rest rfl rfl rfl rfl)) hheld

theorem lookUp_bookSame (dest src : Byte) (p : Port) (s : State) : BookSame s (lookUp dest src p s).2 := by
  unfold lookUp
  split
  · exact .of_rest rfl rfl rfl rfl
  · exact .of_rest rfl rfl rfl rfl

/-- R86. -/
theorem books_forwardFrame {p : Port} {f : List Byte} (h : Books L X s) (hb : L b = some 0) :
    Books (update L b none) X (forwardFrame b p f s) := by
  have hlooked := h.congr (lookUp_bookSame (frameDest f) (frameSrc f) p s)
  unfold forwardFrame
  split
  · next hdrop =>
    rw [hdrop] at hlooked
    exact books_freeBuf hlooked hb
  · next hforward =>
    rw [hforward] at hlooked
    exact books_copyFrame hlooked hb

/-- R82, R83: the head of the inbound list is disposed of. -/
theorem dispose_poolSound {e : Inbound} {rest : List Inbound} (h : s.PoolSound) (hhead : s.inbound = e :: rest) :
    (dispose e { s with inbound := rest, headSince := s.now }).PoolSound := by
  have htaken := books_taken (x := s.now) ((poolSound_iff s).1 h) hhead
  have hended : ∀ {t}, Books (update (update (fun _ => none) e.buf (some 0)) e.buf none) (fun _ => 0) t →
      t.PoolSound := fun {t} ht => by
    rw [update_none_of_some (L := fun _ => none) rfl] at ht
    exact (poolSound_iff t).2 ht
  have hfreed := hended (books_freeBuf htaken (update_self ..))
  exact .ite (countRelay_poolSound _ hfreed)
    (.ite (deliverLocal_poolSound _ _ hfreed) (hended (books_forwardFrame htaken (update_self ..))))

end Forwarding

/-! ## The rows -/

theorem received_bookSame (p : Port) (s : State) (ch : Character) : BookSame s (s.received p ch) := by
  rw [State.received, countCharacter_eq, State.modPort_modPort]
  exact modPort_bookSame _ _ _ fun _ => ⟨rfl, rfl, rfl⟩

theorem rejectEdge_keeps (q : PortState) :
    q.rejectEdge.asm = q.asm ∧ q.rejectEdge.queue = q.queue ∧ q.rejectEdge.tx = q.tx := by
  rw [PortState.rejectEdge_eq]
  exact ⟨rfl, rfl, rfl⟩

theorem lineTo_keeps (hears : Bool) (now : Nat) (l : Level) (q : PortState) :
    (q.lineTo hears now l).asm = q.asm ∧ (q.lineTo hears now l).queue = q.queue
      ∧ (q.lineTo hears now l).tx = q.tx := by
  unfold PortState.lineTo
  repeat' split
  all_goals exact ⟨rfl, rfl, rfl⟩

/-- Every command answers a state in which every buffer is still accounted for. -/
theorem exec_poolSound {i : Instr} {s : State} (h : s.PoolSound) : ∃ t, exec i s = .next t ∧ t.PoolSound := by
  have hguarded : ∀ {c : Prop} [Decidable c] {t : State}, (c → t.PoolSound) → (if c then t else s).PoolSound := by
    intro c _ t ht
    split
    · next hc => exact ht hc
    · exact h
  have hport : ∀ {p f}, (∀ q, (f q).asm = q.asm ∧ (f q).queue = q.queue ∧ (f q).tx = q.tx) →
      (s.modPort p f).PoolSound := modPort_poolSound h
  have hmanage : ∀ k c, (manage (serveCommand k) c s).PoolSound :=
    fun k c => manage_poolSound h (serveCommand_poolSound k c h)
  cases i with
  | coldReset r x =>
    refine ⟨_, rfl, ?_⟩
    cases r with
    | low => exact enterReset_poolSound s
    | high => exact hguarded fun _ => coldReset_poolSound _ _ s
  | warmRestart => exact ⟨_, rfl, settleRestart_poolSound h⟩
  | characterDelivered p =>
    cases hdue : (s.port p).dueCharacter with
    | none => exact ⟨s, by show execCharacterDelivered p s = _; rw [execCharacterDelivered, hdue], h⟩
    | some ch =>
      exact ⟨_, exec_characterDelivered hdue, (h.of_same (received_bookSame p s ch)).of_books books_assemble⟩
  | falseStart p => exact ⟨_, rfl, hguarded fun _ => hport rejectEdge_keeps⟩
  | breakEntry p =>
    refine ⟨_, rfl, hguarded fun _ => h.of_books fun hbooks => books_breakAssembler (books_raise ?_)⟩
    exact (hbooks.congr (countPort_bookSame p .breaks s)).congr (modPort_bookSame _ _ _ fun _ => ⟨rfl, rfl, rfl⟩)
  | breakExit p => exact ⟨_, rfl, hguarded fun _ => hport fun _ => ⟨rfl, rfl, rfl⟩⟩
  | gapExpiry p => exact ⟨_, rfl, hguarded fun _ => h.of_books books_expireGap⟩
  | duplicateMemoryExpiry => exact ⟨_, rfl, hguarded fun _ => h.of_rest rfl rfl rfl rfl⟩
  | disposition =>
    refine ⟨_, rfl, ?_⟩
    split
    · exact h
    · next hhead => exact dispose_poolSound h hhead
  | take p =>
    refine ⟨_, rfl, hguarded fun htake => settleRestart_poolSound (takeFrom_poolSound h ?_)⟩
    obtain ⟨hidle, -⟩ := (canTake_iff s p).1 htake
    exact hidle
  | transmitStart p =>
    refine ⟨_, rfl, ?_⟩
    split
    · next htx => exact hguarded fun _ => transmitStart_poolSound h htx
    · exact h
    · exact h
  | endOfSending p =>
    refine ⟨_, rfl, ?_⟩
    split
    · next htx => exact hguarded fun _ => finishSending_poolSound h htx
    · exact h
    · exact h
  | applyPendingConfig p =>
    refine ⟨_, rfl, ?_⟩
    split
    · exact h
    · rw [applyConfig_eq]
      exact hguarded fun _ => settleRestart_poolSound (configured_poolSound h)
  | pollBufferRetry b =>
    refine ⟨_, rfl, hguarded fun hretry => h.of_books fun hbooks => ?_⟩
    obtain ⟨hready, hunbuilt, hoff, -⟩ := (canRetry_iff s b).1 hretry
    exact books_askPollBuffer hbooks ⟨hunbuilt, hoff, hbooks.unsent_of_ready hready⟩ hready
  | replyTimeout b =>
    refine ⟨_, rfl, hguarded fun htimeout => h.of_books fun hbooks => books_missPoll hbooks ?_⟩
    exact (Bool.and_eq_true_iff.1 htimeout).1
  | newCycle b =>
    refine ⟨_, rfl, hguarded fun hcycle => ?_⟩
    obtain ⟨hwaits, -⟩ := (canCycle_iff s b).1 hcycle
    split
    · exact h
    · exact h.of_books fun hbooks => books_beginCycle hbooks (hbooks.noPoll_of_resting (.inr hwaits))
  | validationComplete => exact ⟨_, rfl, hguarded fun _ => completeCommit_poolSound h⟩
  | sessionExpiry => exact ⟨_, rfl, hguarded fun _ => expireSession_poolSound h⟩
  | readStatus c => exact ⟨_, rfl, hmanage .readStatus c⟩
  | readRelay c => exact ⟨_, rfl, hmanage .readRelay c⟩
  | readPort c => exact ⟨_, rfl, hmanage .readPort c⟩
  | readCounters c => exact ⟨_, rfl, manage_poolSound h (serveRead_poolSound _ _ h)⟩
  | readCountersClear c =>
    exact ⟨_, rfl, manage_poolSound h (serveBody_poolSound readCountersClearBody_poolSound _ c h)⟩
  | readRecord c => exact ⟨_, rfl, hmanage .readRecord c⟩
  | readPollEntry c => exact ⟨_, rfl, hmanage .readPollEntry c⟩
  | readStation c => exact ⟨_, rfl, hmanage .readStation c⟩
  | readAlarms c => exact ⟨_, rfl, hmanage .readAlarms c⟩
  | openSession c => exact ⟨_, rfl, hmanage .openSession c⟩
  | closeSession c => exact ⟨_, rfl, hmanage .closeSession c⟩
  | writeRecord c => exact ⟨_, rfl, hmanage .writeRecord c⟩
  | clearRecord c => exact ⟨_, rfl, hmanage .clearRecord c⟩
  | discardStaging c => exact ⟨_, rfl, hmanage .discardStaging c⟩
  | commit c => exact ⟨_, rfl, hmanage .commit c⟩
  | setPort c => exact ⟨_, rfl, hmanage .setPort c⟩
  | setRelay c => exact ⟨_, rfl, hmanage .setRelay c⟩
  | writePollEntry c => exact ⟨_, rfl, hmanage .writePollEntry c⟩
  | clearPollEntry c => exact ⟨_, rfl, hmanage .clearPollEntry c⟩
  | pollControlStart c => exact ⟨_, rfl, hmanage .pollControl c⟩
  | pollControlStop c => exact ⟨_, rfl, hmanage .pollControl c⟩
  | ackAlarm c => exact ⟨_, rfl, hmanage .ackAlarm c⟩
  | restart c => exact ⟨_, rfl, hmanage .restart c⟩
  | startEdge p => exact ⟨_, rfl, hguarded fun _ => hport fun _ => ⟨rfl, rfl, rfl⟩⟩
  | returnToMark p => exact ⟨_, rfl, hguarded fun _ => hport fun _ => ⟨rfl, rfl, rfl⟩⟩
  | returnToSpaceInBreak p => exact ⟨_, rfl, hguarded fun _ => hport fun _ => ⟨rfl, rfl, rfl⟩⟩

/-! ## The step on an empty queue -/

theorem takeInput_poolSound {s : State} (h : s.PoolSound) : (takeInput s).PoolSound := by
  unfold takeInput
  split
  · exact h
  · exact modPort_poolSound (h.of_rest rfl rfl rfl rfl) (lineTo_keeps _ _ _)

theorem advance_bookSame (s : State) : BookSame s (advance s) where
  asm p := by rw [advance_port_eq]
  queue p := by rw [advance_port_eq]
  tx p := by rw [advance_port_eq]
  use _ := rfl
  branch _ := rfl
  inbound := rfl

theorem step_poolSound {s : State} (h : s.PoolSound) : ∃ t, step s = .next t ∧ t.PoolSound := by
  cases hpending : s.pending with
  | cons c rest =>
    rw [step_front hpending]
    exact exec_poolSound (h.of_rest rfl rfl rfl rfl)
  | nil =>
    have hchosen : ({ s with choices := s.choices + 1 } : State).PoolSound := h.of_rest rfl rfl rfl rfl
    cases hidle : s.idleChoice with
    | run i => rw [step_run hpending hidle]; exact exec_poolSound hchosen
    | input => exact ⟨_, step_input hpending hidle, takeInput_poolSound hchosen⟩
    | advance => exact ⟨_, step_advance hpending hidle, hchosen.of_same (advance_bookSame _)⟩

end Sys2Proof.Machine

namespace Sys2Proof.BufferPool

open Sys2Proof.Machine

/-- Settles O10: a buffer changes its state together with the descriptors, the assembler, the scheduler or the inbound
entry that accounts for it, whatever the step. -/
theorem everyStepKeepsPoolSound : Obligations.EveryStepKeepsPoolSound := by
  unfold Obligations.EveryStepKeepsPoolSound
  intro s t h hstep
  obtain ⟨u, hu, hsound⟩ := step_poolSound h
  rw [hstep] at hu
  cases hu
  exact hsound

end Sys2Proof.BufferPool
end

section
/-! Proofs of the claims about requests and releases of buffers (R76, R77, R79) and about replies (R78, R92, R126). -/

namespace Sys2Proof.Machine

/-! ## Requests and releases (R76, R77, R79) -/

theorem isFree_iff (x : Buffer) : x.isFree = true ↔ x.use = .free := decide_eq_true_iff

/-- R77: an assembler's request leaves the reserve alone. -/
theorem requestBuffer_assembler_isSome (p : Port) (s : State) :
    (requestBuffer (.assembler p) s).isSome = true ↔ 2 < s.freeCount := by
  unfold requestBuffer
  dsimp only
  split
  · next hreserve =>
    rw [giveBuffer, Option.isSome_map, findFree_isSome]
    exact ⟨fun _ => hreserve, Nat.zero_lt_of_lt⟩
  · next hreserve => exact ⟨nofun, fun h => absurd h hreserve⟩

/-- R77: an originator's request asks for one FREE buffer. -/
theorem requestBuffer_originator {f : Filler} (h : ∀ p, f ≠ .assembler p) (s : State) :
    requestBuffer f s = s.findFree.map fun b => (b, setBuf b ⟨.filling f, []⟩ s) := by
  cases f with
  | assembler p => exact absurd rfl (h p)
  | management => rfl
  | poll b => rfl
  | alarms => rfl

/-- R76: a given buffer is one FREE buffer less. -/
theorem requestBuffer_freeCount {f : Filler} {s t : State} {b : BufId} (h : requestBuffer f s = some (b, t)) :
    t.freeCount + 1 = s.freeCount := by
  obtain ⟨hfound, rfl⟩ := requestBuffer_some h
  exact free_after_taking s.pool b _ ((isFree_iff _).2 (findFree_isFree hfound)) (by simp [Buffer.isFree])

/-- R79: a HELD buffer that keeps other references. -/
theorem dropRef_held {b : BufId} {n : Nat} {s : State} (h : (s.pool.get b).use = .held (n + 2)) :
    dropRef b s = setBuf b { s.pool.get b with use := .held (n + 1) } s := by
  unfold dropRef
  rw [h]
  dsimp only
  rw [if_neg (by omega)]
  rfl

/-- R79: the last reference of a HELD buffer. -/
theorem dropRef_last {b : BufId} {s : State} (h : (s.pool.get b).use = .held 1) : dropRef b s = freeBuf b s := by
  unfold dropRef
  rw [h]
  rfl

/-! ## Replies (R78, R92, R126) -/

theorem Command.ofCode_code (k : Command) : Command.ofCode k.code = some k := by cases k <;> rfl

/-- R92. -/
theorem canAppend_iff (s : State) (p : Port) :
    s.canAppend p = true ↔ (s.port p).applied.enabled = true ∧ (s.port p).queue.length < 8 := by
  simp [State.canAppend]

/-- The hand-over of a frame just placed in a buffer depends on the frame and the placements alone (R78). -/
theorem handOver_filled (b : BufId) (k : Nat) (f : List Byte) (x : Buffer) (s : State) :
    handOver b k (fillBuf b f (setBuf b x s)) = if k = 0 then freeBuf b s else setBuf b ⟨.held k, f⟩ s := by
  unfold handOver
  split
  · simp [freeBuf, fillBuf, setBuf]
  · simp [fillBuf, setBuf, get_set_at]

section Replies
variable {dest seq code : Byte} {p : Port} {r : Reply} {s : State} {b : BufId}

/-- R126: a reply that finds no FREE buffer. -/
theorem sendReply_unbuilt (h : s.findFree = none) :
    sendReply dest p seq code r s = (none, countRelay .replyNotSent s) := by
  rw [sendReply, requestBuffer_originator (f := .management) nofun, h]
  rfl

/-- R126: a reply that finds a FREE buffer is placed on a port that takes it, or its buffer is FREE again. -/
theorem sendReply_built (h : s.findFree = some b) : sendReply dest p seq code r s
    = if s.canAppend p then (some b, enqueue p ⟨b, .reply, none, some s.tick⟩
        (setBuf b ⟨.held 1, buildFrame dest s.ownAddr ctlMgmtRsp (replyPayload seq code r)⟩ s))
      else (none, countRelay .replyNotSent (freeBuf b s)) := by
  rw [sendReply, requestBuffer_originator (f := .management) nofun, h]
  simp only [Option.map_some, handOver_filled]
  rfl

/-- R78, R126: a reply that is placed. -/
theorem sendReply_placed (h : s.findFree = some b) (hport : s.canAppend p = true) :
    sendReply dest p seq code r s = (some b, { s with
      pool := s.pool.set b.val
        ⟨.held 1, buildFrame dest s.ownAddr 0x05 (seq :: code :: r.status.code :: r.data)⟩ b.isLt
      ports := s.ports.set p { s.port p with queue := (s.port p).queue ++ [⟨b, .reply, none, some s.tick⟩] } }) := by
  rw [sendReply_built h, if_pos hport]
  rfl

/-- R126: a reply that is not placed is counted, and leaves the buffers that are not FREE as they were. -/
theorem sendReply_refused (h : s.freeCount = 0 ∨ s.canAppend p = false) : ∃ t,
    sendReply dest p seq code r s = (none, t)
      ∧ t = { s with
          pool := t.pool
          counters := { s.counters with replyNotSent := satInc s.counters.replyNotSent } }
      ∧ ∀ c, (t.pool.get c).use = (s.pool.get c).use
        ∧ ((s.pool.get c).use ≠ .free → t.pool.get c = s.pool.get c) := by
  cases hfound : s.findFree with
  | none => exact ⟨_, sendReply_unbuilt hfound, rfl, fun c => ⟨rfl, fun _ => rfl⟩⟩
  | some b =>
    have hpos : 0 < s.freeCount := (findFree_isSome s).1 (by rw [hfound]; rfl)
    have hport : s.canAppend p = false := h.resolve_left (by omega)
    refine ⟨_, by rw [sendReply_built hfound, hport]; rfl, rfl, fun c => ?_⟩
    have hfree := findFree_isFree hfound
    by_cases hc : c = b
    · subst hc
      simp [freeBuf, Buffer.empty, hfree]
    · simp [freeBuf, setBuf_get, hc]

end Replies

end Sys2Proof.Machine

namespace Sys2Proof.BufferPool

open Sys2Proof.Machine

/-- Settles O26: a request by the buffer the pool finds, a release by the count of the HELD buffer. -/
theorem poolRequestsAndReleases : Obligations.PoolRequestsAndReleases := by
  unfold Obligations.PoolRequestsAndReleases
  refine ⟨fun f s => ⟨?_, fun h => ?_, fun b t h => ?_⟩, fun b n s => dropRef_held, fun b s h => ?_⟩
  · rintro ⟨p, rfl⟩
    exact requestBuffer_assembler_isSome p s
  · rw [requestBuffer_originator h, Option.isSome_map]
    exact findFree_isSome s
  · obtain ⟨hfound, ht⟩ := requestBuffer_some h
    exact ⟨findFree_isFree hfound, ht, requestBuffer_freeCount h⟩
  · rw [dropRef_last h]
    exact ⟨rfl, free_after_freeing s.pool b _ (by simp [Buffer.isFree, h]) rfl⟩

/-- Settles O39: the codes one by one, and a reply by the FREE buffer it finds and the port that takes it. -/
theorem replySent : Obligations.ReplySent := by
  unfold Obligations.ReplySent
  refine ⟨fun k x h => ?_, fun dest seq code p r s => ⟨fun hfree henabled hroom => ?_, fun h => ?_⟩⟩
  · obtain rfl : x = k.code := by cases k <;> simpa [Command.code] using h
    exact ⟨Command.ofCode_code k, fun c r s => rfl⟩
  · obtain ⟨b, hb⟩ := Option.isSome_iff_exists.1 ((findFree_isSome s).2 hfree)
    exact ⟨b, findFree_isFree hb, sendReply_placed hb ((canAppend_iff s p).2 ⟨henabled, hroom⟩)⟩
  · refine sendReply_refused (h.imp_right fun hport => ?_)
    rw [Bool.eq_false_iff, Ne, canAppend_iff]
    rintro ⟨henabled, hroom⟩
    obtain hdisabled | hfull := hport
    · rw [henabled] at hdisabled
      cases hdisabled
    · omega

end Sys2Proof.BufferPool
end

section
/-! Proofs of the claims about the frames disposed of without a lookup (R83 to R85, R119, R121 to R123, R125,
R127, R128): local frames, management commands and replies. -/

namespace Sys2Proof.Machine

/-! ## The head of the inbound list (R82, R83) -/

/-- R82, R84: the head of the inbound list taken, its buffer FREE. -/
def State.headFreed (s : State) (e : Inbound) (rest : List Inbound) : State :=
  { s with inbound := rest, headSince := s.now, pool := s.pool.set e.buf.val Buffer.empty e.buf.isLt }

section Head
variable {s : State} {e : Inbound} {rest : List Inbound} {f : List Byte}

theorem exec_disposition_head (h : s.inbound = e :: rest) :
    exec .disposition s = .next (dispose e { s with inbound := rest, headSince := s.now }) := by
  show execDisposition s = _
  rw [execDisposition, h]

variable (h : s.inbound = e :: rest) (hf : (s.pool.get e.buf).bytes = f)
include h hf

/-- R83: DEST 0. -/
theorem exec_disposition_badDest (hdest : frameDest f = 0) :
    exec .disposition s = .next (countRelay .badDest (s.headFreed e rest)) := by
  subst hf
  rw [exec_disposition_head h]
  exact congrArg _ (if_pos hdest)

/-- R84: DEST the own address. -/
theorem exec_disposition_local (hdest : frameDest f ≠ 0) (hown : frameDest f = s.ownAddr) :
    exec .disposition s = .next (deliverLocal e.port f (s.headFreed e rest)) := by
  subst hf
  rw [exec_disposition_head h]
  exact congrArg _ ((if_neg hdest).trans (if_pos hown))

/-- R86: any other DEST. -/
theorem exec_disposition_station (hdest : frameDest f ≠ 0) (hother : frameDest f ≠ s.ownAddr) :
    exec .disposition s
      = .next (forwardFrame e.buf e.port f { s with inbound := rest, headSince := s.now }) := by
  subst hf
  rw [exec_disposition_head h]
  exact congrArg _ ((if_neg hdest).trans (if_neg hother))

end Head

/-! ## Local delivery (R84, R85, R121, R127) -/

section Local
variable {p : Port} {f payload : List Byte} {src : Byte} {s : State}

theorem deliverLocal_unknown (hreply : frameCtl f ≠ 0x03) (hcommand : frameCtl f ≠ 0x04) :
    deliverLocal p f s = countRelay .localUnknown s := (if_neg hcommand).trans (if_neg hreply)

theorem deliverLocal_refused (hcommand : frameCtl f = 0x04) (hallowed : (s.port p).applied.mgmtAllowed = false) :
    deliverLocal p f s = countRelay .mgmtRefused s := (if_pos hcommand).trans (if_neg (by simp [hallowed]))

theorem deliverLocal_reply (hreply : frameCtl f = 0x03) :
    deliverLocal p f s = handReply p (frameSrc f) (framePayload f) s :=
  (if_neg (by rw [hreply]; decide)).trans (if_pos hreply)

/-- R127: a payload without SEQ and code. -/
theorem handCommand_short (h : payload.length < 2) : handCommand src p payload s = countRelay .mgmtDiscarded s := by
  unfold handCommand
  split
  · simp only [List.length_cons] at h
    omega
  · rfl

/-- R125: a command of a known code. -/
theorem handCommand_known {seq code : Byte} {args : List Byte} {k : Command} (hcode : Command.ofCode code = some k) :
    handCommand src p (seq :: code :: args) s = serveCommand k ⟨src, p, seq, args⟩ s := by
  rw [handCommand, hcode]

/-- R127: a command of an unknown code. -/
theorem handCommand_unknown {seq code : Byte} {args : List Byte} (hcode : Command.ofCode code = none) :
    handCommand src p (seq :: code :: args) s = if s.restart.isSome then countRelay .mgmtDiscarded s
      else (sendReply src p seq code ⟨.badCommand, []⟩ (s.heard ⟨src, p, seq, args⟩)).2 := by
  rw [handCommand, hcode]
  dsimp only
  rw [serveUnknown, refresh_eq]
  rfl

/-- R117, R119: the poll awaits its reply. -/
theorem awaiting_iff (s : State) (b : Branch) : s.awaiting b = true ↔
    (s.sched b).state = .await ∨ ((s.sched b).state = .stopping ∧ (s.sched b).sentTick ≠ none) := by
  simp [State.awaiting, Option.isSome_iff_ne_none]

/-- R121: a REPLY that no poll of its branch awaits from its station. -/
theorem handReply_unexpected
    (h : ∀ b, p.branch? = some b → ¬ s.awaiting b = true ∨ (s.sched b).station ≠ some src) :
    handReply p src payload s = countRelay .unexpectedReply s := by
  unfold handReply
  split
  · rfl
  · next b hb => exact if_neg (not_and_or.2 (h b hb))

/-- R85, R119: a REPLY that the poll of its branch awaits from its station. -/
theorem handReply_expected {b : Branch} (hb : p.branch? = some b) (hawaits : s.awaiting b = true)
    (hstation : (s.sched b).station = some src) : handReply p src payload s = acceptReply b payload s := by
  rw [handReply, hb]
  exact if_pos ⟨hawaits, hstation⟩

/-- R119: an accepted reply's status record and count, and the end of its poll. -/
theorem acceptReply_eq {b : Branch} {i : Fin 32} (hcursor : (s.sched b).cursor = some i) :
    acceptReply b payload s = endPoll b { s with
      stations := s.stations.set i.val { s.stations.get i with
        state := .present
        misses := 0
        lastStatus := some (payload.take 16)
        lastReply := some s.tick
        repliesTaken := satInc (s.stations.get i).repliesTaken } i.isLt
      counters := if 16 < payload.length then
        { s.counters with truncatedReplies := satInc s.counters.truncatedReplies } else s.counters } := by
  rw [acceptReply, hcursor]
  by_cases hlong : 16 < payload.length
  · rw [if_pos hlong, if_pos hlong]
    rfl
  · rw [if_neg hlong, if_neg hlong]
    rfl

end Local

/-! ## Commands and their rows (R84, R128) -/

/-- R84: a command on a port that allows management is served. -/
theorem manage_allowed {serve : Cmd → State → State} {c : Cmd} {s : State} (hreset : s.inReset = false)
    (hallowed : (s.port c.port).applied.mgmtAllowed = true) : manage serve c s = serve c s := by
  rw [manage, if_neg (by simp [hreset]), if_pos hallowed]

/-- R128: a known command does what its row does (log 19). -/
theorem exec_row {k : Command} {c : Cmd} {s : State} (hreset : s.inReset = false)
    (hallowed : (s.port c.port).applied.mgmtAllowed = true) : exec (k.row c) s = .next (serveCommand k c s) := by
  have hserved : ∀ serve : Cmd → State → State,
      (.next (manage serve c s) : Host.Outcome State Fault Refusal) = .next (serve c s) :=
    fun serve => congrArg _ (manage_allowed hreset hallowed)
  cases k
  case readCounters =>
    show exec (if c.asksClear then _ else _) s
      = .next (if c.asksClear then serveReadCountersClear c s else serveReadCounters c s)
    split
    · exact hserved _
    · exact hserved _
  case pollControl =>
    show exec (if c.asksStop then _ else _) s = _
    split
    · exact hserved _
    · exact hserved _
  all_goals exact hserved _

end Sys2Proof.Machine

namespace Sys2Proof.BufferPool

open Sys2Proof.Machine

/-- Settles O29: by DEST, by CTL, and for a MGMT-CMD by its port, its length and its code. -/
theorem dispositionOfLocalFrames : Obligations.DispositionOfLocalFrames := by
  unfold Obligations.DispositionOfLocalFrames
  intro s e rest h f u
  refine ⟨exec_disposition_badDest h rfl, fun hdest hown => ?_⟩
  rw [exec_disposition_local (f := f) h rfl hdest hown]
  refine ⟨fun hreply hcommand => ?_, fun hcommand hallowed => ?_, fun hcommand hallowed => ?_,
    fun hreply hawaits => ?_⟩
  · rw [deliverLocal_unknown hreply hcommand]
    rfl
  · rw [deliverLocal_refused (s := s.headFreed e rest) hcommand hallowed]
    rfl
  · rw [deliverLocal_command (u := s.headFreed e rest) hcommand hallowed]
    refine ⟨fun hshort => ?_, fun seq code args hpayload hcode => ?_⟩
    · rw [handCommand_short hshort]
      rfl
    · rw [hpayload, handCommand_unknown hcode]
      refine ⟨fun hpending => ?_, fun hnone => ?_⟩
      · exact congrArg _ (if_pos hpending)
      · exact congrArg _ (if_neg (by simp [State.headFreed, hnone]))
  · rw [deliverLocal_reply hreply, handReply_unexpected fun b hb => ?_]
    · rfl
    · rw [awaiting_iff]
      exact hawaits b hb

/-- Settles O30: local delivery serves the command that its row serves. -/
theorem dispositionRunsTheCommand : Obligations.DispositionRunsTheCommand := by
  unfold Obligations.DispositionRunsTheCommand
  intro s e rest h f hreset hdest hown hcommand hallowed seq code args k hpayload hcode
  rw [exec_disposition_local (f := f) h rfl hdest hown,
    deliverLocal_command (u := s.headFreed e rest) hcommand hallowed, hpayload, handCommand_known hcode]
  exact (exec_row (c := ⟨frameSrc f, e.port, seq, args⟩) (s := s.headFreed e rest) hreset hallowed).symm

/-- Settles O38: the accepted reply's record, and the end of its poll as PollEnded states it. -/
theorem replyAccepted : Obligations.ReplyAccepted := by
  unfold Obligations.ReplyAccepted
  intro s e rest b i h f hdest hown hreply hb hawaits hstation hcursor
  refine ⟨_, exec_disposition_local (f := f) h rfl hdest hown, ?_⟩
  rw [deliverLocal_reply hreply, handReply_expected hb ((awaiting_iff (s.headFreed e rest) b).2 hawaits) hstation,
    acceptReply_eq (s := s.headFreed e rest) hcursor]
  exact endPoll_ended b _

end Sys2Proof.BufferPool
end

section
/-! Proof of the claim about commands that are not executed (R84, R132, R135 to R137, R141, R169): sequenced commands
with an unexpected SEQ, from another station or with no session, and commands that are not served. -/

namespace Sys2Proof.Machine

/-! ## The sequence rule where a command is not executed (R135 to R137) -/

/-- Every row subject to the sequence rule is served by it (R128). -/
theorem exec_sequenced {row : Instr} {k : Command} {c : Cmd} (h : sequencedOf row = some (k, c)) :
    ∃ exe, ∀ s, exec row s = .next (manage (serveSequenced k exe) c s) := by
  cases row
  all_goals simp only [sequencedOf, reduceCtorEq, Option.some.injEq, Prod.mk.injEq] at h
  all_goals
    obtain ⟨rfl, rfl⟩ := h
    exact ⟨_, fun _ => rfl⟩

section Unexecuted
variable {k : Command} {exe : Cmd → State → State} {c : Cmd} {s : State}

theorem manage_serves {serve : Cmd → State → State} (h : Serves c s) : manage serve c s = serve c s := by
  obtain ⟨hreset, hallowed, -⟩ := h
  exact manage_allowed hreset hallowed

/-- R135, R136: the owner's command with an unexpected SEQ. -/
theorem manage_unexpected (h : Serves c s) (howner : s.session.owner = some c.src) (hseq : c.seq ≠ s.session.nextSeq) :
    manage (serveSequenced k exe) c s = answer c k (s.retryReply c k) (s.heard c) := by
  rw [manage_serves h]
  obtain ⟨-, -, hrestart⟩ := h
  have hheard : (s.heard c).session.owner = some c.src := howner
  rw [serveSequenced, if_neg (by simp [hrestart]), refresh_eq]
  dsimp only
  rw [hheard]
  dsimp only
  rw [if_neg (not_not.2 rfl)]
  exact if_neg hseq

/-- R137: another station's command. -/
theorem manage_not_owner {o : Byte} (h : Serves c s) (howner : s.session.owner = some o) (hother : o ≠ c.src) :
    manage (serveSequenced k exe) c s = answer c k ⟨.notOwner, [o]⟩ s := by
  rw [manage_serves h]
  obtain ⟨-, -, hrestart⟩ := h
  rw [serveSequenced, if_neg (by simp [hrestart]), refresh_eq, heard_other (by simpa [howner] using hother)]
  dsimp only
  rw [howner]
  exact if_pos (Ne.symm hother)

/-- R131, R137: with no session. -/
theorem manage_no_session (h : Serves c s) (howner : s.session.owner = none) :
    manage (serveSequenced k exe) c s = answer c k (noSessionReply k) s := by
  rw [manage_serves h]
  obtain ⟨-, -, hrestart⟩ := h
  rw [serveSequenced, if_neg (by simp [hrestart]), refresh_eq, heard_other (by simp [howner])]
  dsimp only
  rw [howner]

/-- R135: a retry whose reply stands in the cache. -/
theorem retryReply_cached {r : Reply} (hseq : c.seq = s.session.nextSeq - 1)
    (hcache : s.session.cache = some ⟨c.seq, k, .reply r⟩) : s.retryReply c k = r := by
  rw [State.retryReply, if_pos hseq, hcache]
  exact if_pos ⟨rfl, rfl⟩

/-- R135: a retry of a COMMIT that is validating. -/
theorem retryReply_pending (hseq : c.seq = s.session.nextSeq - 1)
    (hcache : s.session.cache = some ⟨c.seq, k, .pending⟩) : s.retryReply c k = ⟨.pending, []⟩ := by
  rw [State.retryReply, if_pos hseq, hcache]
  exact if_pos ⟨rfl, rfl⟩

/-- R136: no retry, or one that the cache does not know. -/
theorem retryReply_error (h : c.seq ≠ s.session.nextSeq - 1 ∨ s.session.cache = none
      ∨ ∃ e, s.session.cache = some e ∧ (e.seq ≠ c.seq ∨ e.command ≠ k)) :
    s.retryReply c k = ⟨.seqError, [s.session.nextSeq]⟩ := by
  by_cases hseq : c.seq = s.session.nextSeq - 1
  · rw [State.retryReply, if_pos hseq]
    obtain hcache | ⟨e, hcache, hunknown⟩ := h.resolve_left (not_not.2 hseq)
    · rw [hcache]
      rfl
    · rw [hcache]
      exact if_neg (not_and_or.2 hunknown)
  · exact if_neg hseq

end Unexecuted

/-! ## Commands that are not served (R84, R141, R169) -/

/-- R84: a command on a port that does not allow management. -/
theorem manage_refused {serve : Cmd → State → State} {c : Cmd} {s : State} (hreset : s.inReset = false)
    (hrefused : (s.port c.port).applied.mgmtAllowed = false) : manage serve c s = countRelay .mgmtRefused s := by
  rw [manage, if_neg (by simp [hreset]), if_neg (by simp [hrefused])]

/-- R141: every management row is served as a command that a pending restart discards. -/
theorem exec_management {row : Instr} {c : Cmd}
    (h : (∃ k, sequencedOf row = some (k, c)) ∨ row ∈ [.readStatus c, .readRelay c, .readPort c, .readCounters c,
      .readRecord c, .readPollEntry c, .readStation c, .readAlarms c, .openSession c]) :
    ∃ serve : Cmd → State → State, (∀ s, exec row s = .next (manage serve c s))
      ∧ ∀ s, s.restart.isSome = true → serve c s = countRelay .mgmtDiscarded s := by
  obtain ⟨k, hk⟩ | hrow := h
  · obtain ⟨exe, hexec⟩ := exec_sequenced hk
    exact ⟨_, hexec, fun s hpending => if_pos hpending⟩
  · simp only [List.mem_cons, List.not_mem_nil, or_false] at hrow
    obtain rfl | rfl | rfl | rfl | rfl | rfl | rfl | rfl | rfl := hrow <;>
      exact ⟨_, fun _ => rfl, fun _ hpending => if_pos hpending⟩

end Sys2Proof.Machine

namespace Sys2Proof.BufferPool

open Sys2Proof.Machine

/-- Settles O40: a sequenced command by owner, SEQ and cache; any management row by reset, port and pending restart. -/
theorem commandsNotExecuted : Obligations.CommandsNotExecuted := by
  unfold Obligations.CommandsNotExecuted
  refine ⟨fun row k c s hrow h => ?_, fun s c row hrow => ?_⟩
  · obtain ⟨exe, hexec⟩ := exec_sequenced hrow
    rw [hexec]
    refine ⟨fun howner hseq => ?_, fun o howner hother => ?_, fun howner hk => ?_⟩
    · rw [manage_unexpected h howner hseq]
      refine ⟨fun r hretry hcache => ?_, fun hretry hcache => ?_, fun hunknown => ?_⟩
      · rw [retryReply_cached hretry hcache]
      · rw [retryReply_pending hretry hcache]
      · rw [retryReply_error hunknown]
    · rw [manage_not_owner h howner hother]
    · rw [manage_no_session h howner, noSessionReply, if_neg hk]
  · obtain ⟨serve, hexec, hdiscards⟩ := exec_management hrow
    rw [hexec]
    refine ⟨fun hreset => ?_, fun hreset hrefused => ?_, fun hreset hallowed hpending => ?_⟩
    · rw [manage_inReset hreset]
    · rw [manage_refused hreset hrefused]
    · rw [manage_allowed hreset hallowed, hdiscards s hpending]

end Sys2Proof.BufferPool
end

section
/-! Proof of the claim about a frame for a station (R86 to R89): dropped, or copied to the queues of its copy set. -/

namespace Sys2Proof.Machine

/-! ## Alarms now last raised (R158) -/

/-- The alarm of a key is now last raised, or the list is full. -/
def State.Raised (s : State) (key : AlarmKey) : Prop :=
  (∃ a, a ∈ s.alarms ∧ a.key = key ∧ a.last = s.tick) ∨ 16 ≤ s.alarms.length

theorem raised_congr {s t : State} {key : AlarmKey} (h : s.Raised key) (halarms : t.alarms = s.alarms)
    (htick : t.tick = s.tick) : t.Raised key := by rwa [State.Raised, halarms, htick]

/-- A change of records that leaves each its key and each now last raised so. -/
theorem raised_map {s t : State} {key : AlarmKey} {f : AlarmRecord → AlarmRecord} (h : s.Raised key)
    (halarms : t.alarms = s.alarms.map f) (htick : t.tick = s.tick)
    (hf : ∀ a, (f a).key = a.key ∧ (a.last = s.tick → (f a).last = s.tick)) : t.Raised key := by
  rw [State.Raised, halarms, htick, List.length_map]
  refine h.imp_left ?_
  rintro ⟨a, ha, hkey, hlast⟩
  obtain ⟨hfkey, hflast⟩ := hf a
  exact ⟨f a, List.mem_map_of_mem ha, hfkey.trans hkey, hflast hlast⟩

theorem notify_raised {s : State} {key : AlarmKey} (a : AlarmRecord) (h : s.Raised key) :
    (notify a s).Raised key := by
  obtain ⟨f, halarms, -, hf⟩ := notify_alarms a s
  refine raised_map h halarms (notify_same a s).tick fun x => ?_
  obtain hx | hx := hf x
  · exact ⟨by rw [hx], fun hlast => by rw [hx]; exact hlast⟩
  · exact ⟨by rw [hx], fun hlast => by rw [hx]; exact hlast⟩

/-- A raise leaves its alarm now last raised, or finds the list full. -/
theorem raise_raised (key : AlarmKey) (s : State) : (raise key s).Raised key := by
  unfold raise
  split
  · next a ha =>
    have hkey : a.key = key := by simpa using List.find?_some ha
    refine notify_raised _ (.inl ⟨a.again s.tick, ?_, hkey, rfl⟩)
    exact List.mem_map.2 ⟨a, List.mem_of_find?_eq_some ha, if_pos hkey⟩
  · split
    · exact notify_raised _ (.inl ⟨AlarmRecord.created key s.tick, by simp, rfl, rfl⟩)
    · next hfull => exact .inr (Nat.le_of_not_lt hfull)

/-- A raise leaves what is now last raised so. -/
theorem raise_keeps_raised {s : State} {key : AlarmKey} (other : AlarmKey) (h : s.Raised key) :
    (raise other s).Raised key := by
  unfold raise
  split
  · refine notify_raised _ (raised_map h rfl rfl fun a => ?_)
    split
    · exact ⟨rfl, fun _ => rfl⟩
    · exact ⟨rfl, id⟩
  · split
    · refine notify_raised _ (h.imp ?_ fun hfull => ?_)
      · rintro ⟨a, ha, hkey, hlast⟩
        exact ⟨a, List.mem_append_left _ ha, hkey, hlast⟩
      · simp only [List.length_append]
        omega
    · exact raised_congr h rfl rfl

/-- R160: with no notify address a raise changes neither ports nor pool. -/
theorem raise_silent {s : State} (h : s.relay.notifyAddr = none) (key : AlarmKey) :
    (raise key s).ports = s.ports ∧ (raise key s).pool = s.pool := by
  have hsilent : ∀ a (t : State), t.relay = s.relay → notify a t = t := fun a t ht => by
    rw [notify, ht, h]
  unfold raise
  split
  · rw [hsilent _ (modAlarm _ _ _) rfl]
    exact ⟨rfl, rfl⟩
  · split
    · rw [hsilent _ { s with alarms := s.alarms ++ [AlarmRecord.created key s.tick] } rfl]
      exact ⟨rfl, rfl⟩
    · exact ⟨rfl, rfl⟩

/-! ## One append for each port of the copy set (R87, R88) -/

section Copies
variable (b : BufId) (rewrite : Option Byte)

/-- R88: a queue with room takes its copy; a full one refuses it. -/
def placeCopy (p : Port) (s : State) : State :=
  if (s.port p).queue.length < 8 then enqueue p ⟨b, .forward, rewrite, some s.tick⟩ s
  else raise (.queueOverflow p) (countPort p .queueOverflows s)

theorem placeCopies_placeCopy (p : Port) (ps : List Port) (s : State) : placeCopies b rewrite (p :: ps) s
    = ((placeCopies b rewrite ps (placeCopy b rewrite p s)).1 + (if (s.port p).queue.length < 8 then 1 else 0),
      (placeCopies b rewrite ps (placeCopy b rewrite p s)).2) := by
  unfold placeCopy
  rw [placeCopies]
  split
  · rfl
  · rfl

theorem placeCopy_same (p : Port) (s : State) : LineSame s (placeCopy b rewrite p s) := by
  unfold placeCopy
  split
  · exact enqueue_same _ _ _
  · exact (countPort_same _ _ _).trans (raise_same _ _)

theorem placeCopy_keeps_raised {key : AlarmKey} (p : Port) {s : State} (h : s.Raised key) :
    (placeCopy b rewrite p s).Raised key := by
  unfold placeCopy
  split
  · exact raised_congr h rfl rfl
  · exact raise_keeps_raised _ (raised_congr h rfl rfl)

theorem placeCopies_keeps_raised {key : AlarmKey} (ps : List Port) {s : State} (h : s.Raised key) :
    (placeCopies b rewrite ps s).2.Raised key := by
  induction ps generalizing s with
  | nil => exact h
  | cons p ps ih =>
    rw [placeCopies_placeCopy]
    exact ih (placeCopy_keeps_raised b rewrite p h)

/-- R88: each full queue's alarm is raised. -/
theorem placeCopies_raised {q : Port} (ps : List Port) {s : State} (hq : q ∈ ps)
    (hfull : 8 ≤ (s.port q).queue.length) : (placeCopies b rewrite ps s).2.Raised (.queueOverflow q) := by
  induction ps generalizing s with
  | nil => cases hq
  | cons p ps ih =>
    rw [placeCopies_placeCopy]
    by_cases hqp : q = p
    · subst hqp
      refine placeCopies_keeps_raised b rewrite ps ?_
      rw [placeCopy, if_neg (Nat.not_lt.2 hfull)]
      exact raise_raised _ _
    · refine ih ((List.mem_cons.1 hq).resolve_left hqp) ?_
      rwa [show ((placeCopy b rewrite p s).port q).queue = _ from placeOne_full b rewrite p q s hfull]

/-- R160: with no notify address one append concerns its own queue alone. -/
theorem placeCopy_silent {s : State} (h : s.relay.notifyAddr = none) (p : Port) :
    (placeCopy b rewrite p s).pool = s.pool ∧ ∀ q, ((placeCopy b rewrite p s).port q).queue =
      if q = p ∧ (s.port q).queue.length < 8 then (s.port q).queue ++ [⟨b, .forward, rewrite, some s.tick⟩]
      else (s.port q).queue := by
  unfold placeCopy
  split
  · next hroom =>
    refine ⟨rfl, fun q => ?_⟩
    by_cases hqp : q = p
    · subst hqp
      rw [if_pos ⟨rfl, hroom⟩]
      simp [enqueue, State.port]
    · rw [if_neg (fun hq => hqp hq.1)]
      simp [enqueue, State.port, State.modPort_get_ne, hqp]
  · next hfull =>
    obtain ⟨hports, hpool⟩ := raise_silent (s := countPort p .queueOverflows s) h (.queueOverflow p)
    refine ⟨hpool, fun q => ?_⟩
    have hno : ¬ (q = p ∧ (s.port q).queue.length < 8) := by
      rintro ⟨rfl, hroom⟩
      exact hfull hroom
    rw [if_neg hno, State.port, hports]
    exact (countPort_bookSame p .queueOverflows s).queue q

/-- R88, R160: with no notify address the queues with room take their copies, and nothing else comes into a queue. -/
theorem placeCopies_silent (ps : List Port) {s : State} (h : s.relay.notifyAddr = none) (hnodup : ps.Nodup) :
    (placeCopies b rewrite ps s).1 = ps.countP (fun q => decide ((s.port q).queue.length < 8))
      ∧ (placeCopies b rewrite ps s).2.pool = s.pool
      ∧ ∀ q, ((placeCopies b rewrite ps s).2.port q).queue =
          if q ∈ ps ∧ (s.port q).queue.length < 8 then (s.port q).queue ++ [⟨b, .forward, rewrite, some s.tick⟩]
          else (s.port q).queue := by
  induction ps generalizing s with
  | nil => exact ⟨rfl, rfl, fun q => by simp [placeCopies]⟩
  | cons p ps ih =>
    obtain ⟨hp, hnodup⟩ := List.nodup_cons.1 hnodup
    have hsame := placeCopy_same b rewrite p s
    obtain ⟨hpool, hqueue⟩ := placeCopy_silent b rewrite h p
    obtain ⟨ihcount, ihpool, ihqueue⟩ := ih (s := placeCopy b rewrite p s) (by rw [hsame.relay]; exact h) hnodup
    have hrest : ∀ q ∈ ps, ((placeCopy b rewrite p s).port q).queue = (s.port q).queue := fun q hq => by
      rw [hqueue, if_neg]
      rintro ⟨rfl, -⟩
      exact hp hq
    rw [placeCopies_placeCopy]
    refine ⟨?_, ihpool.trans hpool, fun q => ?_⟩
    · rw [ihcount, List.countP_cons, List.countP_congr fun q hq => by rw [hrest q hq]]
      simp
    · rw [ihqueue, hsame.tick]
      by_cases hq : q ∈ ps
      · have hqp : q ≠ p := fun hqp => hp (hqp ▸ hq)
        simp [hq, hrest q hq]
      · simp [hq, hqueue]

end Copies

/-! ## The copy set, and the hand-over (R78, R87, R89) -/

/-- R87: the ports a frame is copied to. -/
def State.copies (s : State) (p : Port) (egress : PortSet) (q : Port) : Bool :=
  PortSet.mem egress q && decide (q ≠ p) && (s.port q).applied.enabled

theorem copySet_eq (s : State) (p : Port) (egress : PortSet) :
    s.copySet p egress = Port.all.filter (s.copies p egress) := by
  unfold State.copySet State.copies
  simp only [decide_not]

theorem mem_copySet {s : State} {p q : Port} {egress : PortSet} :
    q ∈ s.copySet p egress ↔ s.copies p egress q = true := by
  have hall : q ∈ Port.all := by cases q <;> decide
  rw [copySet_eq, List.mem_filter]
  exact and_iff_right hall

theorem copySet_nodup (s : State) (p : Port) (egress : PortSet) : (s.copySet p egress).Nodup := by
  rw [copySet_eq]
  exact List.Nodup.filter _ (by decide)

theorem copySet_length (s : State) (p : Port) (egress : PortSet) :
    (s.copySet p egress).length = Port.all.countP (s.copies p egress) := by
  rw [copySet_eq, List.countP_eq_length_filter]

/-- R78, R89: a frame handed over with its copies, or counted UNDELIVERED with none. -/
def State.delivered (s : State) (b : BufId) (n : Nat) : State :=
  { s with
    pool := s.pool.set b.val (if n = 0 then Buffer.empty else { s.pool.get b with use := .held n }) b.isLt
    counters := if n = 0 then { s.counters with undelivered := satInc s.counters.undelivered } else s.counters }

theorem copyFrame_eq (b : BufId) (p : Port) (egress : PortSet) (rewrite : Option Byte) (s : State) :
    copyFrame b p egress rewrite s = (placeCopies b rewrite (s.copySet p egress) s).2.delivered b
      (placeCopies b rewrite (s.copySet p egress) s).1 := by
  unfold copyFrame handOver State.delivered
  dsimp only
  split
  · rfl
  · rfl

/-- R88: what one port does to the number of copies and the state. -/
def offerCopy (copied : Port → Bool) (d : Descriptor) (x : Nat × State) (q : Port) : Nat × State :=
  if copied q = false then x
  else if (x.2.port q).queue.length < 8 then
    (x.1 + 1, { x.2 with ports := x.2.ports.set q { x.2.port q with queue := (x.2.port q).queue ++ [d] } })
  else (x.1, raise (.queueOverflow q) { x.2 with
    ports := x.2.ports.set q { x.2.port q with counters := (x.2.port q).counters.bump .queueOverflows } })

theorem offerCopy_placeCopy {copied : Port → Bool} (b : BufId) (rewrite : Option Byte) (n : Nat) (s : State)
    {q : Port} (h : copied q = true) : offerCopy copied ⟨b, .forward, rewrite, some s.tick⟩ (n, s) q
      = (n + (if (s.port q).queue.length < 8 then 1 else 0), placeCopy b rewrite q s) := by
  rw [offerCopy, if_neg (by simp [h]), placeCopy]
  dsimp only
  split
  · rfl
  · rfl

/-- R87, R88: the ports in port order, each with what the former ones left. -/
theorem foldl_offerCopy (copied : Port → Bool) (b : BufId) (rewrite : Option Byte) (ps : List Port) (n : Nat)
    (s : State) : ps.foldl (offerCopy copied ⟨b, .forward, rewrite, some s.tick⟩) (n, s)
      = (n + (placeCopies b rewrite (ps.filter copied) s).1, (placeCopies b rewrite (ps.filter copied) s).2) := by
  induction ps generalizing n s with
  | nil => rfl
  | cons p ps ih =>
    rw [List.foldl_cons]
    cases hp : copied p with
    | false =>
      rw [List.filter_cons_of_neg (by simp [hp]), ← ih]
      rw [offerCopy, if_pos hp]
    | true =>
      rw [List.filter_cons_of_pos hp, placeCopies_placeCopy, offerCopy_placeCopy b rewrite n s hp,
        ← (placeCopy_same b rewrite p s).tick, ih]
      exact congrArg (·, _) (by rw [Nat.add_right_comm, Nat.add_assoc])

section Forward
variable {b : BufId} {p : Port} {f : List Byte} {s : State}

theorem forwardFrame_drop (h : (lookUp (frameDest f) (frameSrc f) p s).1 = .drop) :
    forwardFrame b p f s = freeBuf b (lookUp (frameDest f) (frameSrc f) p s).2 := by
  unfold forwardFrame
  split
  · next hdrop => rw [hdrop]
  · next hforward =>
    rw [hforward] at h
    cases h

theorem forwardFrame_forward {egress : PortSet} {rewrite : Option Byte}
    (h : (lookUp (frameDest f) (frameSrc f) p s).1 = .forward egress rewrite) :
    forwardFrame b p f s = copyFrame b p egress rewrite (lookUp (frameDest f) (frameSrc f) p s).2 := by
  unfold forwardFrame
  split
  · next hdrop =>
    rw [hdrop] at h
    cases h
  · next hforward =>
    rw [hforward] at h ⊢
    cases h
    rfl

end Forward

theorem lookUp_relay (d x : Byte) (p : Port) (s : State) : (lookUp d x p s).2.relay = s.relay := by
  unfold lookUp
  split
  · rfl
  · rfl

/-! ## The end of a copy (R87 to R89) -/

section Copy
variable {b : BufId} {p q : Port} {egress : PortSet} {rewrite : Option Byte} {s : State}

theorem copyFrame_eq_foldl : copyFrame b p egress rewrite s
    = (Port.all.foldl (offerCopy (s.copies p egress) ⟨b, .forward, rewrite, some s.tick⟩) (0, s)).2.delivered b
      (Port.all.foldl (offerCopy (s.copies p egress) ⟨b, .forward, rewrite, some s.tick⟩) (0, s)).1 := by
  rw [foldl_offerCopy, Nat.zero_add, ← copySet_eq]
  exact copyFrame_eq b p egress rewrite s

/-- R87: every queue of the copy set has room. -/
theorem copyFrame_room (h : ∀ q, s.copies p egress q = true → (s.port q).queue.length < 8) :
    copyFrame b p egress rewrite s = State.delivered
      { s with ports := PerPort.of fun q => if s.copies p egress q then
        { s.port q with queue := (s.port q).queue ++ [⟨b, .forward, rewrite, some s.tick⟩] } else s.port q }
      b (Port.all.countP (s.copies p egress)) := by
  rw [copyFrame_eq, placeCopies_room b rewrite _ s (copySet_nodup s p egress) fun q hq => h q (mem_copySet.1 hq),
    copySet_length]
  simp only [mem_copySet]

/-- R88: a full queue of the copy set refuses its copy, counted and with its alarm raised. -/
theorem copyFrame_full (hcopied : s.copies p egress q = true) (hfull : (s.port q).queue.length = 8) :
    ((copyFrame b p egress rewrite s).port q).queue = (s.port q).queue
      ∧ ((copyFrame b p egress rewrite s).port q).counters = (s.port q).counters.bump .queueOverflows
      ∧ (copyFrame b p egress rewrite s).Raised (.queueOverflow q) := by
  have hfull : 8 ≤ (s.port q).queue.length := hfull.ge
  have hmem : q ∈ s.copySet p egress := mem_copySet.2 hcopied
  rw [copyFrame_eq]
  exact ⟨placeCopies_full b rewrite _ s q hfull,
    placeCopies_overflow b rewrite _ s q hmem (copySet_nodup s p egress) hfull,
    raised_congr (placeCopies_raised b rewrite _ hmem hfull) rfl rfl⟩

/-- A port outside the copy set keeps its counters. -/
theorem copyFrame_uncopied (hcopied : s.copies p egress q = false) :
    ((copyFrame b p egress rewrite s).port q).counters = (s.port q).counters := by
  rw [copyFrame_eq]
  exact placeCopies_other b rewrite _ s q fun hmem => by simp [mem_copySet.1 hmem] at hcopied

theorem copyFrame_tick : (copyFrame b p egress rewrite s).tick = s.tick :=
  (copyFrame_same b p egress rewrite s).tick

/-- R87, R160: with no notify address a queue gets its copy exactly where it is of the copy set and has room. -/
theorem copyFrame_silent_queue (h : s.relay.notifyAddr = none) (q : Port) :
    ((copyFrame b p egress rewrite s).port q).queue =
      if s.copies p egress q = true ∧ (s.port q).queue.length < 8
      then (s.port q).queue ++ [⟨b, .forward, rewrite, some s.tick⟩] else (s.port q).queue := by
  obtain ⟨-, -, hqueue⟩ := placeCopies_silent b rewrite (s.copySet p egress) h (copySet_nodup s p egress)
  simp only [mem_copySet] at hqueue
  rw [copyFrame_eq]
  exact hqueue q

/-- R89, R160: with no notify address the frame's buffer is HELD with as many references as queues with room. -/
theorem copyFrame_silent_pool (h : s.relay.notifyAddr = none)
    (hroom : 0 < Port.all.countP fun q => s.copies p egress q && decide ((s.port q).queue.length < 8)) :
    (copyFrame b p egress rewrite s).pool.get b =
      ⟨.held (Port.all.countP fun q => s.copies p egress q && decide ((s.port q).queue.length < 8)),
        (s.pool.get b).bytes⟩ := by
  obtain ⟨hcount, hpool, -⟩ := placeCopies_silent b rewrite (s.copySet p egress) h (copySet_nodup s p egress)
  have hplaced : (placeCopies b rewrite (s.copySet p egress) s).1
      = Port.all.countP fun q => s.copies p egress q && decide ((s.port q).queue.length < 8) := by
    rw [hcount, copySet_eq, List.countP_filter]
    simp only [Bool.and_comm]
  rw [copyFrame_eq, hplaced]
  simp only [State.delivered, get_set_at, if_true, if_neg hroom.ne', hpool]

/-- R78: every queue of the copy set is full. -/
theorem copyFrame_allFull (h : ∀ q, s.copies p egress q = true → (s.port q).queue.length = 8) :
    ((copyFrame b p egress rewrite s).pool.get b).use = .free
      ∧ (copyFrame b p egress rewrite s).counters.undelivered = satInc s.counters.undelivered := by
  have hnone : (placeCopies b rewrite (s.copySet p egress) s).1 = 0 :=
    placeCopies_none b rewrite _ s fun q hq => (h q (mem_copySet.1 hq)).ge
  rw [copyFrame_eq, hnone]
  simp only [State.delivered, get_set_at, if_true]
  exact ⟨rfl, by rw [placeCopies_undelivered]⟩

end Copy

end Sys2Proof.Machine

namespace Sys2Proof.BufferPool
open Sys2Proof.Machine

/-- Settles O31: the claim's copies one port after the other are the model's, whose lemmas say how each queue ends. -/
theorem dispositionForwards : Obligations.DispositionForwards := by
  unfold Obligations.DispositionForwards
  intro s e rest h f hdest hother l u
  have hexec : exec .disposition s
      = .next (forwardFrame e.buf e.port f { s with inbound := rest, headSince := s.now }) :=
    exec_disposition_station (f := f) h rfl hdest hother
  refine ⟨fun hdrop => ?_, fun egress rewrite hforward => ?_⟩
  · rw [hexec, forwardFrame_drop hdrop]
    rfl
  obtain ⟨hports, hpool, htick, hundelivered⟩ :=
    lookUp_keeps (frameDest f) (frameSrc f) e.port { s with inbound := rest, headSince := s.now }
  have hports : u.ports = s.ports := hports
  have hport : ∀ q, u.port q = s.port q := fun q => by rw [State.port, hports, State.port]
  have htick : u.tick = s.tick := htick
  have hrelay : u.relay = s.relay := lookUp_relay _ _ _ _
  have hcopies : ∀ q, u.copies e.port egress q
      = (PortSet.mem egress q && decide (q ≠ e.port) && (s.port q).applied.enabled) := fun q => by
    rw [State.copies, hport]
  rw [forwardFrame_forward hforward] at hexec
  intro copied d ended place all
  have hcopied : copied = u.copies e.port egress := (funext hcopies).symm
  have hd : d = ⟨e.buf, .forward, rewrite, some u.tick⟩ := by rw [htick]
  refine ⟨?_, fun hroom => ?_, copyFrame e.buf e.port egress rewrite u, hexec,
    fun q hq hfull => ?_, fun q hq => ?_, fun hsilent => ⟨fun q hq hroom => ?_, fun q hq => ?_, ?_⟩, fun hfull => ?_⟩
  · rw [hexec, copyFrame_eq_foldl, ← hcopied, ← hd]
    rfl
  · rw [hexec, copyFrame_room fun q hq => by rw [hport]; exact hroom q (by rwa [hcopied]), ← hcopied, ← hd]
    rfl
  · rw [hcopied] at hq
    rw [← hport] at hfull
    obtain ⟨hqueue, hcounters, hraised⟩ := copyFrame_full (b := e.buf) (rewrite := rewrite) hq hfull
    refine ⟨hqueue.trans (by rw [hport]), ?_, ?_⟩
    · rw [hcounters, hport]
      rfl
    · rwa [State.Raised, copyFrame_tick, htick] at hraised
  · rw [copyFrame_uncopied (hcopied ▸ hq), hport]
  · rw [copyFrame_silent_queue (hrelay ▸ hsilent), hport, ← hcopied, ← hd, if_pos ⟨hq, hroom⟩]
  · rw [copyFrame_silent_queue (hrelay ▸ hsilent), hport, ← hcopied, if_neg (by simp [hq])]
  · intro n hroom
    have hbuf := copyFrame_silent_pool (b := e.buf) (p := e.port) (egress := egress) (rewrite := rewrite) (s := u)
      (hrelay ▸ hsilent)
    simp only [← hcopied, hport] at hbuf
    rw [hbuf hroom, show u.pool = s.pool from hpool]
  · obtain ⟨huse, hcounted⟩ := copyFrame_allFull (b := e.buf) (p := e.port) (egress := egress) (rewrite := rewrite)
      (s := u) fun q hq => by rw [hport]; exact hfull q (by rwa [hcopied])
    exact ⟨huse, hcounted.trans (congrArg satInc hundelivered)⟩

end Sys2Proof.BufferPool
end

section
/-! Proof of the claim that every step keeps the egress queues within 8 descriptors and the alarm list within 16 records
of distinct keys (R92, R157). A queue gets a descriptor only where it has room, and the alarm list a record only where it
has room and no record of that key; every other operation shortens them or leaves them as they are. -/

namespace Sys2Proof.Machine

/-! ## What R92 and R157 read of a state -/

/-- The egress queues and the alarm list. -/
def State.lists (s : State) : (Port → List Descriptor) × List AlarmRecord := (fun p => (s.port p).queue, s.alarms)

/-- R92, R157: a queue and the alarm list grow only up to their room, and distinct keys stay distinct. -/
structure BoundsKept (s t : State) : Prop where
  queue : ∀ p, (t.port p).queue.length ≤ max (s.port p).queue.length 8
  room : t.alarms.length ≤ max s.alarms.length 16
  keys : (s.alarms.map (·.key)).Nodup → (t.alarms.map (·.key)).Nodup

namespace BoundsKept
variable {s t u : State}

theorem bounded (h : BoundsKept s t) (hs : s.Bounded) : t.Bounded := by
  obtain ⟨hqueue, hroom, hkeys⟩ := hs
  exact ⟨fun p => (h.queue p).trans (max_le (hqueue p) le_rfl), h.room.trans (max_le hroom le_rfl), h.keys hkeys⟩

theorem of_lists (h : t.lists = s.lists) : BoundsKept s t := by
  obtain ⟨hqueues, halarms⟩ := Prod.mk.inj h
  refine ⟨fun p => ?_, ?_, ?_⟩
  · rw [congrFun hqueues p]
    exact le_max_left _ _
  · rw [halarms]
    exact le_max_left _ _
  · rw [halarms]
    exact id

theorem refl (s : State) : BoundsKept s s := of_lists rfl

theorem trans (h : BoundsKept s t) (g : BoundsKept t u) : BoundsKept s u where
  queue p := (g.queue p).trans (max_le (h.queue p) (le_max_right _ _))
  room := g.room.trans (max_le h.room (le_max_right _ _))
  keys hs := g.keys (h.keys hs)

/-- What keeps the bounds of a state keeps them of any state with the same lists. -/
theorem of_same (h : BoundsKept t u) (hlists : t.lists = s.lists) : BoundsKept s u := (of_lists hlists).trans h

theorem ite {c : Prop} [Decidable c] (h : BoundsKept s t) (g : BoundsKept s u) :
    BoundsKept s (if c then t else u) := by
  split
  · exact h
  · exact g

/-- The row of an event acts under its condition only. -/
theorem guarded {c : Prop} [Decidable c] (h : BoundsKept s t) : BoundsKept s (if c then t else s) := ite h (refl s)

/-- The queues are emptied, and the alarm list is as it was or empty (R142, R169). -/
theorem of_emptied (hqueue : ∀ p, (t.port p).queue = []) (halarms : t.alarms = s.alarms ∨ t.alarms = []) :
    BoundsKept s t := by
  refine ⟨fun p => by simp [hqueue p], ?_, ?_⟩
  · obtain h | h := halarms <;> simp [h]
  · obtain h | h := halarms <;> simp [h]

end BoundsKept

/-! ## Operations that leave the queues and the alarm list as they are -/

theorem BookSame.lists {s t : State} (h : BookSame s t) (halarms : t.alarms = s.alarms) : t.lists = s.lists :=
  Prod.ext (funext h.queue) halarms

section Untouched
variable (s : State)

theorem modPort_lists (p : Port) (f : PortState → PortState) (hf : (f (s.port p)).queue = (s.port p).queue) :
    (s.modPort p f).lists = s.lists := by
  refine Prod.ext (funext fun q => ?_) rfl
  show ((s.modPort p f).ports.get q).queue = (s.ports.get q).queue
  rw [State.modPort_get]
  split
  · next hq => rw [hq]; exact hf
  · rfl

theorem countPort_lists (p : Port) (k : PortCtr) : (countPort p k s).lists = s.lists := modPort_lists s p _ rfl

theorem setAsm_lists (p : Port) (a : Assembler) : (setAsm p a s).lists = s.lists := modPort_lists s p _ rfl

theorem countRelay_lists (k : RelayCtr) : (countRelay k s).lists = s.lists := rfl

theorem fillBuf_lists (b : BufId) (f : List Byte) : (fillBuf b f s).lists = s.lists := rfl

theorem handOver_lists (b : BufId) (n : Nat) : (handOver b n s).lists = s.lists := by
  obtain ⟨x, h⟩ := handOver_pool b n s
  rw [h]
  rfl

theorem dropRef_lists (b : BufId) : (dropRef b s).lists = s.lists := by
  rw [dropRef_pool]
  rfl

theorem releaseGrant_lists (p : Port) : (releaseGrant p s).lists = s.lists := by
  rw [releaseGrant_eq]
  rfl

theorem received_lists (p : Port) (ch : Character) : (s.received p ch).lists = s.lists :=
  (received_bookSame p s ch).lists (by rw [received_eq])

theorem refresh_lists (c : Cmd) : (refresh c s).lists = s.lists := by
  rw [refresh_eq]
  rfl

end Untouched

theorem requestBuffer_lists {f : Filler} {s t : State} {b : BufId} (h : requestBuffer f s = some (b, t)) :
    t.lists = s.lists := by
  obtain ⟨-, rfl⟩ := requestBuffer_some h
  rfl

/-! ## Descriptors queued (R92) -/

/-- R92: a descriptor appended to a queue that has room. -/
theorem enqueue_boundsKept {p : Port} {s : State} (d : Descriptor) (h : (s.port p).queue.length < 8) :
    BoundsKept s (enqueue p d s) := by
  refine ⟨fun q => ?_, le_max_left _ _, id⟩
  show ((s.modPort p _).ports.get q).queue.length ≤ _
  rw [State.modPort_get]
  split
  · next hq =>
    subst hq
    rw [List.length_append]
    exact le_max_of_le_right h
  · exact le_max_left _ _

/-- R92: an append that the queue takes. -/
theorem append_boundsKept {p : Port} {s : State} (d : Descriptor) (h : s.canAppend p = true) :
    BoundsKept s (enqueue p d s) := enqueue_boundsKept d ((canAppend_iff s p).1 h).2

/-- R126. -/
theorem sendReply_boundsKept (dest : Byte) (p : Port) (seq code : Byte) (r : Reply) (s : State) :
    BoundsKept s (sendReply dest p seq code r s).2 := by
  unfold sendReply
  split
  · exact .of_lists (countRelay_lists s _)
  · next b t h =>
    have hfilled : (fillBuf b (buildFrame dest s.ownAddr ctlMgmtRsp (replyPayload seq code r)) t).lists = s.lists :=
      (fillBuf_lists t b _).trans (requestBuffer_lists h)
    dsimp only
    split
    · next hroom =>
      refine (append_boundsKept _ ?_).of_same ((handOver_lists _ b 1).trans hfilled)
      rw [State.canAppend, State.port, handOver_ports]
      exact hroom
    · exact .of_lists ((handOver_lists _ b 0).trans hfilled)

/-! ## Alarms (R157 to R161) -/

/-- A change of records that keeps their keys. -/
theorem modAlarm_boundsKept {f : AlarmRecord → AlarmRecord} (hf : ∀ a, (f a).key = a.key) (key : AlarmKey)
    (s : State) : BoundsKept s (modAlarm key f s) := by
  have hkeys : (modAlarm key f s).alarms.map (·.key) = s.alarms.map (·.key) := by
    simp only [modAlarm, List.map_map]
    refine List.map_congr_left fun a _ => ?_
    simp only [Function.comp]
    split
    · exact hf a
    · rfl
  refine ⟨fun p => le_max_left _ _, ?_, fun h => by rwa [hkeys]⟩
  simp [modAlarm]

/-- R161: the notify ports that take the descriptor get it. -/
theorem placeNotify_boundsKept (b : BufId) (tick : Nat) (ps : List Port) (s : State) :
    BoundsKept s (placeNotify b tick ps s).2 := by
  induction ps generalizing s with
  | nil => exact .refl s
  | cons p ps ih =>
    simp only [placeNotify]
    split
    · next hroom => exact (append_boundsKept _ hroom).trans (ih _)
    · exact (ih _).of_same (countRelay_lists s _)

theorem skipNotify_lists (ps : List Port) (s : State) : (skipNotify ps s).lists = s.lists := by
  induction ps generalizing s with
  | nil => rfl
  | cons p ps ih => exact ih _

/-- R160, R161. -/
theorem notify_boundsKept (a : AlarmRecord) (s : State) : BoundsKept s (notify a s) := by
  unfold notify
  split
  · exact .refl s
  · next addr _ =>
    refine .ite (.refl s) ?_
    split
    · exact .of_lists (skipNotify_lists _ s)
    · next b t h =>
      have hfilled : (fillBuf b (buildFrame addr s.ownAddr ctlAlarm (alarmPayload a)) t).lists = s.lists :=
        (fillBuf_lists t b _).trans (requestBuffer_lists h)
      have hplaced := (placeNotify_boundsKept b s.tick s.relay.notifyPorts _).of_same hfilled
      have hheld : ∀ n, BoundsKept s (handOver b n _) := fun n => hplaced.trans (.of_lists (handOver_lists _ b n))
      exact .ite (hheld _) ((hheld _).trans
        (modAlarm_boundsKept (f := fun x => { x with lastNotify := some s.tick }) (fun _ => rfl) _ _))

/-- R157, R158: a record added for a key that has none, where the list has room. -/
theorem createAlarm_boundsKept {key : AlarmKey} {s : State} (hnone : s.alarm? key = none) (hroom : s.alarms.length < 16)
    (tick : Nat) : BoundsKept s { s with alarms := s.alarms ++ [AlarmRecord.created key tick] } := by
  have hnew : key ∉ s.alarms.map (·.key) := by
    simpa [State.alarm?] using hnone
  refine ⟨fun p => le_max_left _ _, ?_, fun h => ?_⟩
  · rw [List.length_append]
    exact le_max_of_le_right hroom
  · rw [List.map_append]
    exact List.nodup_append.2 ⟨h, by simp, by simpa [AlarmRecord.created] using hnew⟩

/-- R158. -/
theorem raise_boundsKept (key : AlarmKey) (s : State) : BoundsKept s (raise key s) := by
  unfold raise
  split
  · exact (modAlarm_boundsKept (f := AlarmRecord.again s.tick) (fun _ => rfl) key s).trans (notify_boundsKept _ _)
  · next hnone =>
    split
    · next hroom => exact (createAlarm_boundsKept hnone hroom s.tick).trans (notify_boundsKept _ _)
    · exact .of_lists rfl

/-! ## Assemblers (R23 to R37) -/

theorem failFrame_lists (p : Port) (c : Collect) (k : PortCtr) (s : State) : (failFrame p c k s).lists = s.lists :=
  (releaseGrant_lists _ p).trans ((setAsm_lists _ p _).trans (countPort_lists s p k))

theorem goodFrame_lists (p : Port) (c : Collect) (s : State) : (goodFrame p c s).lists = s.lists :=
  (releaseGrant_lists _ p).trans ((setAsm_lists _ p _).trans (countPort_lists s p _))

theorem completeFrame_lists (p : Port) (c : Collect) (s : State) : (completeFrame p c s).lists = s.lists := by
  unfold completeFrame
  dsimp only
  split
  · exact failFrame_lists p c _ s
  · split
    · exact goodFrame_lists p c s
    · split
      · exact failFrame_lists p c _ { s with dup := none }
      · exact goodFrame_lists p c (recordGood _ _ _ s)

theorem storeCharacter_lists (p : Port) (c : Collect) (ch : Character) (s : State) :
    (storeCharacter p c ch s).lists = s.lists := by
  rw [storeCharacter_eq, ← failFrame_eq]
  split
  · exact failFrame_lists p c _ s
  · split
    · exact completeFrame_lists p _ (fillBuf c.buf _ s)
    · exact setAsm_lists (fillBuf c.buf _ s) p _

theorem followCharacter_lists (p : Port) (w : Shadow) (ch : Character) (s : State) :
    (followCharacter p w ch s).lists = s.lists := by
  simp only [followCharacter_eq, apply_ite State.lists, setAsm_lists, countPort_lists, ite_self]

/-- R26: a refused buffer raises POOL_EMPTY. -/
theorem takeBuffer_boundsKept (p : Port) (ch : Character) (s : State) : BoundsKept s (takeBuffer p ch s) := by
  unfold takeBuffer
  split
  · next b t h =>
    exact .of_lists ((setAsm_lists (fillBuf b [ch.data] t) p _).trans
      ((fillBuf_lists t b _).trans (requestBuffer_lists h)))
  · exact ((raise_boundsKept _ _).of_same (countPort_lists s p _)).trans
      (.of_lists ((setAsm_lists _ p _).trans (releaseGrant_lists _ p)))

theorem beginReception_boundsKept (p : Port) (ch : Character) (s : State) : BoundsKept s (beginReception p ch s) := by
  unfold beginReception
  split
  · exact takeBuffer_boundsKept p ch s
  · next t _ =>
    exact .ite ((takeBuffer_boundsKept p ch (giveGrant t s)).of_same rfl)
      (.of_lists (setAsm_lists s p _))

theorem assemble_boundsKept (p : Port) (ch : Character) (s : State) : BoundsKept s (assemble p ch s) := by
  unfold assemble
  split
  case h_1 => exact .ite (beginReception_boundsKept p ch s) (.of_lists (countPort_lists s p _))
  case h_2 => exact .ite (beginReception_boundsKept p ch s) (.of_lists (setAsm_lists s p _))
  case h_3 w _ =>
    refine .ite (.of_lists ((setAsm_lists _ p _).trans (countPort_lists s p _))) (.ite ?_ ?_)
    · exact (beginReception_boundsKept p ch _).of_same (countPort_lists s p _)
    · exact .of_lists (followCharacter_lists p w ch s)
  case h_4 c _ =>
    refine .of_lists ?_
    split
    · exact failFrame_lists p c _ s
    · split
      · exact (setAsm_lists (fillBuf c.buf _ (countPort p .interrupted s)) p _).trans (countPort_lists s p _)
      · exact storeCharacter_lists p c ch s

theorem breakAssembler_lists (p : Port) (s : State) : (breakAssembler p s).lists = s.lists := by
  unfold breakAssembler
  split
  · rfl
  · exact setAsm_lists s p _
  · exact (setAsm_lists _ p _).trans (countPort_lists s p _)
  · exact failFrame_lists p _ _ s

theorem expireGap_lists (p : Port) (s : State) : (expireGap p s).lists = s.lists := by
  unfold expireGap
  split
  · rfl
  · exact setAsm_lists s p _
  · exact (setAsm_lists _ p _).trans (countPort_lists s p _)
  · exact failFrame_lists p _ _ s

/-! ## Schedulers (R112 to R123) -/

theorem askPollBuffer_lists (b : Branch) (s : State) : (askPollBuffer b s).lists = s.lists := by
  unfold askPollBuffer
  split
  · rfl
  · split
    · rfl
    · next buf t h => exact (show _ = t.lists from rfl).trans (requestBuffer_lists h)

theorem enterReady_lists (b : Branch) (i : Fin 32) (s : State) : (enterReady b i s).lists = s.lists :=
  askPollBuffer_lists b _

theorem beginCycle_lists (b : Branch) (i : Fin 32) (s : State) : (beginCycle b i s).lists = s.lists :=
  enterReady_lists b i _

theorem completeCycle_lists (b : Branch) (s : State) : (completeCycle b s).lists = s.lists := by
  unfold completeCycle
  split
  · rfl
  · dsimp only
    split
    · exact beginCycle_lists b _ _
    · rfl

theorem advanceCursor_lists (b : Branch) (s : State) : (advanceCursor b s).lists = s.lists := by
  unfold advanceCursor
  split
  · rfl
  · split
    · exact enterReady_lists b _ s
    · exact completeCycle_lists b s

theorem endPoll_lists (b : Branch) (s : State) : (endPoll b s).lists = s.lists := by
  unfold endPoll
  dsimp only
  split
  · rfl
  · exact advanceCursor_lists b _

theorem pollSent_lists (b : Branch) (s : State) : (pollSent b s).lists = s.lists := by
  unfold pollSent
  split
  · rfl
  · rfl

theorem acceptReply_lists (b : Branch) (payload : List Byte) (s : State) :
    (acceptReply b payload s).lists = s.lists := by
  refine (endPoll_lists b _).trans ?_
  cases (s.sched b).cursor with
  | none =>
    split
    · rfl
    · rfl
  | some i =>
    split
    · rfl
    · rfl

theorem handReply_lists (p : Port) (src : Byte) (payload : List Byte) (s : State) :
    (handReply p src payload s).lists = s.lists := by
  unfold handReply
  split
  · rfl
  · split
    · exact acceptReply_lists _ payload s
    · rfl

/-- R120: a miss that loses its station raises STATION_LOST. -/
theorem missPoll_boundsKept (b : Branch) (s : State) : BoundsKept s (missPoll b s) := by
  unfold missPoll
  split
  · next i e _ _ =>
    refine BoundsKept.trans ?_ (.of_lists (endPoll_lists b _))
    have hmissed : (modStation i (fun _ => (s.stations.get i).missed e.missLimit.toNat) s).lists = s.lists := rfl
    exact .ite ((raise_boundsKept _ _).of_same hmissed) (.of_lists hmissed)
  · exact .of_lists (endPoll_lists b s)

/-! ## Releases, takes and the end of sending (R14, R79, R93 to R102) -/

theorem warmRestart_boundsKept (s : State) : BoundsKept s (warmRestart s) :=
  .of_emptied (fun p => by simp [warmRestart, State.port, PortState.restarted]) (.inl rfl)

theorem settleRestart_boundsKept (s : State) : BoundsKept s (settleRestart s) := by
  obtain h | h := settleRestart_cases s <;> rw [h]
  · exact .refl s
  · exact warmRestart_boundsKept s

/-- R79: descriptors of a port are released, and no more remain than there were. -/
theorem released_boundsKept {p : Port} {s : State} {gone rest : List Descriptor}
    (h : rest.length ≤ (s.port p).queue.length) : BoundsKept s (s.released p gone rest) := by
  refine ⟨fun q => ?_, le_max_left _ _, id⟩
  simp only [State.released, State.port, PerPort.get_set]
  split
  · next hq =>
    rw [hq]
    exact le_max_of_le_left h
  · exact le_max_left _ _

theorem setServed_lists (p : Port) (k : Claimant) (s : State) : (setServed p k s).lists = s.lists := by
  unfold setServed
  split
  · rfl
  · rfl

/-- R94, R96: what stays in a queue that is served is its end. -/
theorem serveQueue_boundsKept (p : Port) (s : State) : BoundsKept s (serveQueue p s) := by
  have hqueue := congrArg List.length (staleQueue_append_freshQueue s p)
  rw [List.length_append] at hqueue
  unfold serveQueue
  rw [releaseAll_eq]
  dsimp only
  split
  · rw [setQueue_released]
    exact released_boundsKept (Nat.zero_le _)
  · next d ds hfresh =>
    rw [hfresh, List.length_cons] at hqueue
    rw [setQueue_released]
    exact (released_boundsKept (by omega)).trans
      (.of_lists ((setServed_lists p _ _).trans (modPort_lists _ p _ rfl)))

theorem servePoll_lists (b : Branch) (s : State) : (servePoll b s).lists = s.lists := by
  unfold servePoll
  split
  · rfl
  · next buf _ =>
    split
    · exact (modPort_lists _ b.port _ rfl).trans (handOver_lists s buf 1)
    · exact (pollSent_lists b _).trans (handOver_lists s buf 0)

theorem takeFrom_boundsKept (p : Port) (s : State) : BoundsKept s (takeFrom p s) := by
  unfold takeFrom
  split
  · exact serveQueue_boundsKept p s
  · next b _ =>
    unfold arbitrate
    split
    · split
      · exact .of_lists (servePoll_lists b s)
      · split
        · exact (serveQueue_boundsKept b.port s).trans (.of_lists (servePoll_lists b _))
        · exact serveQueue_boundsKept b.port s
    · exact serveQueue_boundsKept b.port s
    · exact .of_lists (servePoll_lists b s)
    · exact .refl s

theorem finishSending_boundsKept (p : Port) (d : Descriptor) (s : State) : BoundsKept s (finishSending p d s) := by
  have hsent : ((dropRef d.buf (countPort p .framesOut s)).modPort p (PortState.endSending s.now)).lists = s.lists :=
    (modPort_lists _ p _ (by rw [PortState.endSending_eq])).trans
      ((dropRef_lists _ d.buf).trans (countPort_lists s p _))
  refine (settleRestart_boundsKept _).of_same ?_
  unfold reportSent
  split
  · exact (pollSent_lists _ _).trans hsent
  · exact hsent

/-- R18, R19, R102: a configuration that disables its port empties the queue. -/
theorem configured_boundsKept (p : Port) (c : PortConfig) (s : State) : BoundsKept s (s.configured p c) := by
  have happlied : (s.modPort p (PortState.apply c s.now)).lists = s.lists :=
    modPort_lists s p _ (by rw [PortState.apply_eq])
  rw [← applyConfig_eq]
  refine .ite (.of_same ?_ happlied) (.of_lists happlied)
  rw [flushQueue_eq]
  exact released_boundsKept (Nat.zero_le _)

/-! ## Served commands -/

section Serving
variable (c : Cmd) (s : State)

theorem answer_boundsKept (k : Command) (r : Reply) : BoundsKept s (answer c k r s) :=
  sendReply_boundsKept _ _ _ _ _ s

theorem refresh_boundsKept : BoundsKept s (refresh c s) := .of_lists (refresh_lists s c)

theorem discardCommand_boundsKept : BoundsKept s (discardCommand s) := .of_lists rfl

theorem manage_boundsKept {serve : Cmd → State → State} (h : BoundsKept s (serve c s)) :
    BoundsKept s (manage serve c s) := .ite (.refl s) (.ite h (.of_lists rfl))

theorem serveRead_boundsKept (k : Command) (f : List Byte → State → Reply) : BoundsKept s (serveRead k f c s) :=
  .ite (discardCommand_boundsKept s) ((refresh_boundsKept c s).trans (answer_boundsKept c _ k _))

theorem serveSequenced_boundsKept {exe : Cmd → State → State} (hexe : ∀ c s, BoundsKept s (exe c s)) (k : Command) :
    BoundsKept s (serveSequenced k exe c s) := by
  have hanswer : ∀ r, BoundsKept s (answer c k r (refresh c s)) :=
    fun r => (refresh_boundsKept c s).trans (answer_boundsKept c _ k r)
  unfold serveSequenced
  dsimp only
  refine .ite (discardCommand_boundsKept s) ?_
  split
  · exact hanswer _
  · exact .ite (hanswer _) (.ite ((refresh_boundsKept c s).trans (hexe c _)) (hanswer _))

/-- A write-class command does to the lists what its body and its reply do. -/
theorem serveBody_boundsKept {body : List Byte → State → State × Reply}
    (hbody : ∀ args s, BoundsKept s (body args s).1) (k : Command) :
    BoundsKept s (serveSequenced k (runBody k body) c s) :=
  serveSequenced_boundsKept c s
    (fun c s => (hbody c.args s).trans ((answer_boundsKept c (record c k _ _) k _).of_same rfl)) k

theorem serveOpen_boundsKept : BoundsKept s (serveOpen c s) := by
  have hheard := refresh_boundsKept c s
  have hopened : BoundsKept s (openSession c (refresh c s)) := hheard.trans (.of_lists rfl)
  unfold serveOpen
  dsimp only
  refine .ite (discardCommand_boundsKept s) (.ite (hheard.trans (answer_boundsKept c _ _ _)) ?_)
  split
  · exact hopened.trans (answer_boundsKept c _ _ _)
  · exact .ite (hopened.trans (answer_boundsKept c _ _ _)) (hheard.trans (answer_boundsKept c _ _ _))

theorem runClose_boundsKept : BoundsKept s (runClose c s) :=
  .ite ((answer_boundsKept c (record c _ _ s) _ _).of_same rfl) ((answer_boundsKept c (endSession s) _ _).of_same rfl)

theorem runCommit_boundsKept : BoundsKept s (runCommit c s) := by
  unfold runCommit
  split
  · exact (answer_boundsKept c (record c _ _ s) _ _).of_same rfl
  · exact .of_lists rfl

/-- R140: the restart is pending, or takes place. -/
theorem runRestart_boundsKept : BoundsKept s (runRestart c s) := by
  have hreply : BoundsKept s (sendReply c.src c.port c.seq Command.restart.code (.ok [])
      (record c .restart (.reply (.ok [])) s)).2 := (sendReply_boundsKept _ _ _ _ _ (record c _ _ s)).of_same rfl
  unfold runRestart
  dsimp only
  split
  · exact hreply.trans (.of_lists rfl)
  · exact hreply.trans (warmRestart_boundsKept _)

theorem finishValidation_lists : (finishValidation s).1.lists = s.lists := by
  unfold finishValidation
  split
  · rfl
  · rfl

theorem sendDeferred_boundsKept (r : Reply) : BoundsKept s (sendDeferred r s) := by
  unfold sendDeferred
  split
  · exact .refl s
  · exact (sendReply_boundsKept _ _ _ _ _ _).of_same rfl

theorem completeCommit_boundsKept : BoundsKept s (completeCommit s) := by
  have hsent := (sendDeferred_boundsKept _ (finishValidation s).2).of_same (finishValidation_lists s)
  exact .ite (hsent.trans (.of_lists rfl)) hsent

end Serving

/-! ## The bodies of the write class -/

section Bodies
variable (args : List Byte) (s : State)

theorem writeRecordBody_lists : (writeRecordBody args s).1.lists = s.lists := by
  unfold writeRecordBody
  repeat' split
  all_goals rfl

theorem clearRecordBody_lists : (clearRecordBody args s).1.lists = s.lists := by
  unfold clearRecordBody
  repeat' split
  all_goals rfl

theorem discardStagingBody_lists : (discardStagingBody args s).1.lists = s.lists := by
  unfold discardStagingBody
  split
  all_goals rfl

theorem setPortBody_boundsKept : BoundsKept s (setPortBody args s).1 := by
  unfold setPortBody
  repeat' split
  case isTrue =>
    rw [applyConfig_eq]
    exact configured_boundsKept _ _ s
  case isFalse => exact .of_lists (modPort_lists s _ _ rfl)
  all_goals exact .refl s

theorem setRelayBody_lists : (setRelayBody args s).1.lists = s.lists := by
  unfold setRelayBody
  repeat' split
  all_goals rfl

theorem writePollEntryBody_lists : (writePollEntryBody args s).1.lists = s.lists := by
  unfold writePollEntryBody
  repeat' split
  all_goals rfl

theorem clearPollEntryBody_lists : (clearPollEntryBody args s).1.lists = s.lists := by
  unfold clearPollEntryBody
  repeat' split
  all_goals rfl

theorem startBody_lists (b : Branch) (timeout : Byte) (interval : Word16) :
    (startBody b timeout interval s).1.lists = s.lists := by
  unfold startBody
  split
  · rfl
  · split
    · rfl
    · exact enterReady_lists b _ _

theorem stopPolling_lists (b : Branch) : (stopPolling b s).lists = s.lists := by
  unfold stopPolling dropPoll
  repeat' split
  all_goals rfl

theorem pollControlBody_lists : (pollControlBody args s).1.lists = s.lists := by
  unfold pollControlBody
  split
  · split
    · rfl
    · split
      · split
        · rfl
        · exact startBody_lists s _ _ _
      · split
        · exact stopPolling_lists s _
        · rfl
  · rfl

/-- R163: a record taken off the alarm list. -/
theorem ackAlarmBody_boundsKept : BoundsKept s (ackAlarmBody args s).1 := by
  unfold ackAlarmBody
  repeat' split
  case h_2.isFalse =>
    refine ⟨fun p => le_max_left _ _, le_max_of_le_left (List.length_filter_le _ _), fun h => ?_⟩
    exact h.sublist (List.filter_sublist.map _)
  all_goals exact .refl s

theorem clearPart_lists (set part : Byte) : (clearPart set part s).lists = s.lists := by
  unfold clearPart
  split
  · exact modPort_lists s _ _ rfl
  · rfl

theorem readCountersClearBody_lists : (readCountersClearBody args s).1.lists = s.lists := by
  unfold readCountersClearBody
  repeat' split
  case h_2 => exact clearPart_lists s _ _
  all_goals rfl

end Bodies

/-- R128: every command that is served. -/
theorem serveCommand_boundsKept (k : Command) (c : Cmd) (s : State) : BoundsKept s (serveCommand k c s) := by
  have hread : ∀ k f, BoundsKept s (serveRead k f c s) := serveRead_boundsKept c s
  have hsequenced : ∀ {exe}, (∀ c s, BoundsKept s (exe c s)) → ∀ k, BoundsKept s (serveSequenced k exe c s) :=
    serveSequenced_boundsKept c s
  have hbody : ∀ {body}, (∀ args s, BoundsKept s (body args s).1) →
      ∀ k, BoundsKept s (serveSequenced k (runBody k body) c s) := serveBody_boundsKept c s
  cases k with
  | readStatus => exact hread _ _
  | readRelay => exact hread _ _
  | readPort => exact hread _ _
  | readCounters => exact .ite (hbody (fun args s => .of_lists (readCountersClearBody_lists args s)) _) (hread _ _)
  | readRecord => exact hread _ _
  | readPollEntry => exact hread _ _
  | readStation => exact hread _ _
  | readAlarms => exact hread _ _
  | openSession => exact serveOpen_boundsKept c s
  | closeSession => exact hsequenced runClose_boundsKept _
  | writeRecord => exact hbody (fun args s => .of_lists (writeRecordBody_lists args s)) _
  | clearRecord => exact hbody (fun args s => .of_lists (clearRecordBody_lists args s)) _
  | discardStaging => exact hbody (fun args s => .of_lists (discardStagingBody_lists args s)) _
  | commit => exact hsequenced runCommit_boundsKept _
  | setPort => exact hbody setPortBody_boundsKept _
  | setRelay => exact hbody (fun args s => .of_lists (setRelayBody_lists args s)) _
  | writePollEntry => exact hbody (fun args s => .of_lists (writePollEntryBody_lists args s)) _
  | clearPollEntry => exact hbody (fun args s => .of_lists (clearPollEntryBody_lists args s)) _
  | pollControl => exact hbody (fun args s => .of_lists (pollControlBody_lists args s)) _
  | ackAlarm => exact hbody ackAlarmBody_boundsKept _
  | restart => exact hsequenced runRestart_boundsKept _

/-! ## Dispositions (R83 to R89) -/

theorem handCommand_boundsKept (src : Byte) (p : Port) (payload : List Byte) (s : State) :
    BoundsKept s (handCommand src p payload s) := by
  unfold handCommand
  split
  · split
    · exact serveCommand_boundsKept _ _ s
    · exact .ite (discardCommand_boundsKept s) ((refresh_boundsKept _ s).trans (sendReply_boundsKept _ _ _ _ _ _))
  · exact discardCommand_boundsKept s

theorem deliverLocal_boundsKept (p : Port) (f : List Byte) (s : State) : BoundsKept s (deliverLocal p f s) :=
  .ite (.ite (handCommand_boundsKept _ p _ s) (.of_lists rfl))
    (.ite (.of_lists (handReply_lists p _ _ s)) (.of_lists rfl))

/-- R87, R88: one port of the copy set takes its copy, or counts it lost and raises QUEUE_OVERFLOW. -/
theorem placeCopy_boundsKept (b : BufId) (rewrite : Option Byte) (p : Port) (s : State) :
    BoundsKept s (placeCopy b rewrite p s) := by
  unfold placeCopy
  split
  · next hroom => exact enqueue_boundsKept _ hroom
  · exact (raise_boundsKept _ _).of_same (countPort_lists s p _)

theorem placeCopies_boundsKept (b : BufId) (rewrite : Option Byte) (ps : List Port) (s : State) :
    BoundsKept s (placeCopies b rewrite ps s).2 := by
  induction ps generalizing s with
  | nil => exact .refl s
  | cons p ps ih =>
    rw [placeCopies_placeCopy]
    exact (placeCopy_boundsKept b rewrite p s).trans (ih _)

theorem forwardFrame_boundsKept (b : BufId) (p : Port) (f : List Byte) (s : State) :
    BoundsKept s (forwardFrame b p f s) := by
  have hlook : BoundsKept s (lookUp (frameDest f) (frameSrc f) p s).2 := by
    refine .of_lists ((lookUp_bookSame _ _ p s).lists ?_)
    unfold lookUp
    split
    · rfl
    · rfl
  cases hverdict : (lookUp (frameDest f) (frameSrc f) p s).1 with
  | drop =>
    rw [forwardFrame_drop hverdict]
    exact hlook.trans (.of_lists rfl)
  | forward egress rewrite =>
    rw [forwardFrame_forward hverdict, copyFrame_eq]
    exact (hlook.trans (placeCopies_boundsKept b rewrite _ _)).trans (.of_lists rfl)

theorem dispose_boundsKept (e : Inbound) (s : State) : BoundsKept s (dispose e s) :=
  .ite (.of_lists rfl) (.ite ((deliverLocal_boundsKept e.port _ (freeBuf e.buf s)).of_same rfl)
    (forwardFrame_boundsKept e.buf e.port _ s))

/-! ## Resets (R157, R169) -/

theorem coldReset_boundsKept (addr : BitVec 4) (transparent : Bool) (s : State) :
    BoundsKept s (coldReset addr transparent s) :=
  .of_emptied (fun p => by simp [coldReset, State.afterReset, State.port, PortState.cold]) (.inr rfl)

theorem enterReset_boundsKept (s : State) : BoundsKept s (enterReset s) :=
  (coldReset_boundsKept s.addrStrap s.transparentStrap s).trans (.of_lists rfl)

/-! ## The rows -/

theorem rejectEdge_queue (q : PortState) : q.rejectEdge.queue = q.queue := (rejectEdge_keeps q).2.1

/-- Every command keeps the bounds. -/
theorem exec_boundsKept (i : Instr) (s : State) : ∃ t, exec i s = .next t ∧ BoundsKept s t := by
  have hport : ∀ p f, (f (s.port p)).queue = (s.port p).queue → BoundsKept s (s.modPort p f) :=
    fun p f hf => .of_lists (modPort_lists s p f hf)
  have hmanage : ∀ k c, BoundsKept s (manage (serveCommand k) c s) :=
    fun k c => manage_boundsKept c s (serveCommand_boundsKept k c s)
  cases i with
  | coldReset r x =>
    refine ⟨_, rfl, ?_⟩
    cases r with
    | low => exact enterReset_boundsKept s
    | high => exact .guarded (coldReset_boundsKept _ _ s)
  | warmRestart => exact ⟨_, rfl, settleRestart_boundsKept s⟩
  | characterDelivered p =>
    cases hdue : (s.port p).dueCharacter with
    | none => exact ⟨s, by show execCharacterDelivered p s = _; rw [execCharacterDelivered, hdue], .refl s⟩
    | some ch =>
      exact ⟨_, exec_characterDelivered hdue, (assemble_boundsKept p ch _).of_same (received_lists s p ch)⟩
  | falseStart p => exact ⟨_, rfl, .guarded (hport p _ (rejectEdge_queue _))⟩
  | breakEntry p =>
    have hbroken : ((countPort p .breaks s).modPort p PortState.enterBreak).lists = s.lists :=
      (modPort_lists _ p _ rfl).trans (countPort_lists s p _)
    exact ⟨_, rfl, .guarded (((raise_boundsKept _ _).of_same hbroken).trans
      (.of_lists (breakAssembler_lists p _)))⟩
  | breakExit p => exact ⟨_, rfl, .guarded (hport p _ rfl)⟩
  | gapExpiry p => exact ⟨_, rfl, .guarded (.of_lists (expireGap_lists p s))⟩
  | duplicateMemoryExpiry => exact ⟨_, rfl, .guarded (.of_lists rfl)⟩
  | disposition =>
    refine ⟨_, rfl, ?_⟩
    split
    · exact .refl s
    · exact (dispose_boundsKept _ _).of_same rfl
  | take p => exact ⟨_, rfl, .guarded ((takeFrom_boundsKept p s).trans (settleRestart_boundsKept _))⟩
  | transmitStart p =>
    refine ⟨_, rfl, ?_⟩
    split
    · exact .guarded (hport p _ rfl)
    · exact .refl s
    · exact .refl s
  | endOfSending p =>
    refine ⟨_, rfl, ?_⟩
    split
    · exact .guarded (finishSending_boundsKept p _ s)
    · exact .refl s
    · exact .refl s
  | applyPendingConfig p =>
    refine ⟨_, rfl, ?_⟩
    split
    · exact .refl s
    · rw [applyConfig_eq]
      exact .guarded ((configured_boundsKept p _ s).trans (settleRestart_boundsKept _))
  | pollBufferRetry b => exact ⟨_, rfl, .guarded (.of_lists (askPollBuffer_lists b s))⟩
  | replyTimeout b => exact ⟨_, rfl, .guarded (missPoll_boundsKept b s)⟩
  | newCycle b =>
    refine ⟨_, rfl, .guarded ?_⟩
    split
    · exact .refl s
    · exact .of_lists (beginCycle_lists b _ s)
  | validationComplete => exact ⟨_, rfl, .guarded (completeCommit_boundsKept s)⟩
  | sessionExpiry => exact ⟨_, rfl, .guarded (.of_lists rfl)⟩
  | readStatus c => exact ⟨_, rfl, hmanage .readStatus c⟩
  | readRelay c => exact ⟨_, rfl, hmanage .readRelay c⟩
  | readPort c => exact ⟨_, rfl, hmanage .readPort c⟩
  | readCounters c => exact ⟨_, rfl, manage_boundsKept c s (serveRead_boundsKept c s _ _)⟩
  | readCountersClear c =>
    exact ⟨_, rfl, manage_boundsKept c s
      (serveBody_boundsKept c s (fun args s => .of_lists (readCountersClearBody_lists args s)) _)⟩
  | readRecord c => exact ⟨_, rfl, hmanage .readRecord c⟩
  | readPollEntry c => exact ⟨_, rfl, hmanage .readPollEntry c⟩
  | readStation c => exact ⟨_, rfl, hmanage .readStation c⟩
  | readAlarms c => exact ⟨_, rfl, hmanage .readAlarms c⟩
  | openSession c => exact ⟨_, rfl, hmanage .openSession c⟩
  | closeSession c => exact ⟨_, rfl, hmanage .closeSession c⟩
  | writeRecord c => exact ⟨_, rfl, hmanage .writeRecord c⟩
  | clearRecord c => exact ⟨_, rfl, hmanage .clearRecord c⟩
  | discardStaging c => exact ⟨_, rfl, hmanage .discardStaging c⟩
  | commit c => exact ⟨_, rfl, hmanage .commit c⟩
  | setPort c => exact ⟨_, rfl, hmanage .setPort c⟩
  | setRelay c => exact ⟨_, rfl, hmanage .setRelay c⟩
  | writePollEntry c => exact ⟨_, rfl, hmanage .writePollEntry c⟩
  | clearPollEntry c => exact ⟨_, rfl, hmanage .clearPollEntry c⟩
  | pollControlStart c => exact ⟨_, rfl, hmanage .pollControl c⟩
  | pollControlStop c => exact ⟨_, rfl, hmanage .pollControl c⟩
  | ackAlarm c => exact ⟨_, rfl, hmanage .ackAlarm c⟩
  | restart c => exact ⟨_, rfl, hmanage .restart c⟩
  | startEdge p => exact ⟨_, rfl, .guarded (hport p _ rfl)⟩
  | returnToMark p => exact ⟨_, rfl, .guarded (hport p _ rfl)⟩
  | returnToSpaceInBreak p => exact ⟨_, rfl, .guarded (hport p _ rfl)⟩

/-! ## One step -/

theorem takeInput_lists (s : State) : (takeInput s).lists = s.lists := by
  unfold takeInput
  split
  · rfl
  · next i rest _ =>
    obtain ⟨-, hqueue, -⟩ := lineTo_keeps (s.listening i.port) s.now i.level (s.port i.port)
    exact modPort_lists { s with lineInput := rest } i.port _ hqueue

theorem advance_lists (s : State) : (advance s).lists = s.lists := (advance_bookSame s).lists rfl

/-- Every step keeps the bounds. -/
theorem step_boundsKept (s : State) : ∃ t, step s = .next t ∧ BoundsKept s t := by
  cases hpending : s.pending with
  | cons c rest =>
    rw [step_front hpending]
    obtain ⟨t, ht, hkept⟩ := exec_boundsKept c { s with pending := rest }
    exact ⟨t, ht, hkept.of_same rfl⟩
  | nil =>
    cases hidle : s.idleChoice with
    | run i =>
      rw [step_run hpending hidle]
      obtain ⟨t, ht, hkept⟩ := exec_boundsKept i { s with choices := s.choices + 1 }
      exact ⟨t, ht, hkept.of_same rfl⟩
    | input => exact ⟨_, step_input hpending hidle, .of_lists (takeInput_lists { s with choices := s.choices + 1 })⟩
    | advance => exact ⟨_, step_advance hpending hidle, .of_lists (advance_lists { s with choices := s.choices + 1 })⟩

end Sys2Proof.Machine

namespace Sys2Proof.EgressQueues

open Sys2Proof.Machine

/-- Settles O6: whatever the step, a descriptor or a record is added only where there is room, and a record only for a
key that has none. -/
theorem everyStepKeepsBounds : Obligations.EveryStepKeepsBounds := by
  unfold Obligations.EveryStepKeepsBounds
  intro s t hs hstep
  obtain ⟨u, hu, hkept⟩ := step_boundsKept s
  rw [hstep] at hu
  cases hu
  exact hkept.bounded hs

end Sys2Proof.EgressQueues
end

section
/-! Proofs of the claims about the take (R10, R93 to R101): what the queue's claim and the poll's claim to a transmitter
do, and when nothing is taken. -/

namespace Sys2Proof.Machine

/-! ## The conditions of a take (R10, R93, R98, R100) -/

theorem exec_take {p : Port} {s : State} (h : s.canTake p = true) :
    exec (.take p) s = .next (settleRestart (takeFrom p s)) :=
  congrArg Host.Outcome.next (if_pos h)

theorem exec_take_nothing {p : Port} {s : State} (h : ¬ s.canTake p = true) : exec (.take p) s = .next s :=
  congrArg Host.Outcome.next (if_neg h)

theorem queueWants_iff (s : State) (p : Port) :
    s.queueWants p = true ↔ (s.port p).applied.enabled = true ∧ (s.port p).queue ≠ [] := by
  simp only [State.queueWants, Bool.and_eq_true, Bool.not_eq_true', List.isEmpty_eq_false_iff]

theorem pollWants_iff (s : State) (b : Branch) : s.pollWants b = true ↔ (s.sched b).buffer ≠ none := by
  rw [State.pollWants, Option.isSome_iff_ne_none]

/-- R94, R95: a descriptor within the residence limit. -/
theorem isStale_eq_false {s : State} {d : Descriptor}
    (h : ∀ t, d.enqueued = some t → s.tick - t ≤ 10 * s.relay.residence.toNat) : s.isStale d = false := by
  rw [Bool.eq_false_iff, ne_eq, isStale_iff]
  rintro ⟨t, ht, hlate⟩
  exact absurd (h t ht) (by omega)

/-! ## Which claimant is served (R99, R105) -/

theorem takeFrom_trunk {p : Port} {s : State} (h : p.branch? = none) : takeFrom p s = serveQueue p s := by
  rw [takeFrom, h]

theorem takeFrom_branch (b : Branch) (s : State) : takeFrom b.port s = arbitrate b s := by
  rw [takeFrom, Branch.port_branch?]

section Arbiter
variable {b : Branch} {s : State}

/-- R99: the poll does not want the transmitter. -/
theorem arbitrate_queue_alone (hqueue : s.queueWants b.port = true) (hpoll : (s.sched b).buffer = none) :
    arbitrate b s = serveQueue b.port s := by
  have hpoll : s.pollWants b = false := by rw [State.pollWants, hpoll]; rfl
  rw [arbitrate, hqueue, hpoll]

/-- R99: the poll was served last, and the queue yields a descriptor. -/
theorem arbitrate_queue_turn {d : Descriptor} {rest : List Descriptor} (hqueue : s.queueWants b.port = true)
    (hserved : (s.branch b).lastServed = .poll) (hfresh : s.freshQueue b.port = d :: rest) :
    arbitrate b s = serveQueue b.port s := by
  unfold arbitrate
  rw [hqueue, hserved, hfresh]
  cases s.pollWants b with
  | true => rfl
  | false => rfl

/-- R99: the queue does not want the transmitter, or was served last. -/
theorem arbitrate_poll (hpoll : s.pollWants b = true)
    (h : s.queueWants b.port = false ∨ (s.branch b).lastServed = .queue) : arbitrate b s = servePoll b s := by
  unfold arbitrate
  rw [hpoll]
  cases hqueue : s.queueWants b.port with
  | false => rfl
  | true =>
    rw [h.resolve_left (by simp [hqueue])]

/-- R99, R94: the poll was served last, but the queue yields no fresh descriptor. -/
theorem arbitrate_poll_after_stale (hqueue : s.queueWants b.port = true) (hpoll : s.pollWants b = true)
    (hserved : (s.branch b).lastServed = .poll) (hfresh : s.freshQueue b.port = []) :
    arbitrate b s = servePoll b (serveQueue b.port s) := by
  rw [arbitrate, hqueue, hpoll, hserved, hfresh]

end Arbiter

/-- R98, R101, R117: the poll served on a disabled branch. -/
theorem servePoll_disabled {b : Branch} {s : State} {buf : BufId} {i : Fin 32} (hbuf : (s.sched b).buffer = some buf)
    (hdisabled : (s.port b.port).applied.enabled = false) (hcursor : (s.sched b).cursor = some i) :
    servePoll b s = ({ s with
      branches := s.branches.set b { sched := { s.sched b with buffer := none }, lastServed := .poll, outstanding := true }
      pool := s.pool.set buf.val Buffer.empty buf.isLt } : State).pollReported b i := by
  have hfreed : handOver buf 0 s = setBuf buf Buffer.empty s := rfl
  rw [servePoll, hbuf]
  dsimp only
  rw [if_neg (by simp [hdisabled]), hfreed, markTaken_eq]
  exact pollSent_eq b _ i (by simpa [State.sched, State.branch, BranchState.taken] using hcursor)

end Sys2Proof.Machine

namespace Sys2Proof.EgressQueues

open Sys2Proof.Machine

/-- Settles O32: the arbiter gives the take to the queue, whose stale front and first fresh descriptor are those of the
statement; without the conditions of a take the row does nothing. -/
theorem takeServesQueue : Obligations.TakeServesQueue := by
  unfold Obligations.TakeServesQueue
  refine ⟨fun p s h => exec_take_nothing fun htake => ?_, fun p s stale htx henabled hconfig hfree hstale => ?_⟩
  · obtain ⟨htx, hconfig, hfree, hclaim⟩ := (canTake_iff s p).1 htake
    obtain h | h | ⟨b, hb, h⟩ | ⟨hqueue, hpoll⟩ := h
    · exact h htx
    · exact h hconfig
    · rw [hfree b hb] at h
      cases h
    · obtain ⟨henabled, hne⟩ | ⟨b, hb, hbuf⟩ := hclaim
      · exact hqueue.elim (by simp [henabled]) hne
      · exact hbuf (hpoll b hb)
  have htake : (s.port p).queue ≠ [] → exec (.take p) s = .next (settleRestart (takeFrom p s)) := fun hne =>
    exec_take ((canTake_iff s p).2 ⟨htx, hconfig, hfree, .inl ⟨henabled, hne⟩⟩)
  have hwants : (s.port p).queue ≠ [] → s.queueWants p = true := fun hne => (queueWants_iff s p).2 ⟨henabled, hne⟩
  have hstale : ∀ d ∈ stale, s.isStale d = true := fun d hd => (isStale_iff s d).2 (hstale d hd)
  refine ⟨fun d rest hqueue hfresh => ?_, fun hqueue hne hpoll => ?_⟩
  · have hfresh := isStale_eq_false hfresh
    have hne : (s.port p).queue ≠ [] := by simp [hqueue]
    have hserved := serveQueue_some p s stale d rest hstale hfresh hqueue
    refine ⟨fun htrunk => ?_, fun b hb hturn => ?_⟩
    · rw [htake hne, takeFrom_trunk htrunk, hserved, setServed, htrunk]
      rfl
    · obtain rfl := Port.eq_of_branch? hb
      have hqueueServed : arbitrate b s = serveQueue b.port s := hturn.elim (arbitrate_queue_alone (hwants hne))
        fun hlast => arbitrate_queue_turn (hwants hne) hlast (freshQueue_some hstale hfresh hqueue)
      rw [htake hne, takeFrom_branch, hqueueServed, hserved, setServed, hb]
      rfl
  · subst hqueue
    rw [htake hne, ← serveQueue_none p s hstale]
    cases hbranch : p.branch? with
    | none => rw [takeFrom_trunk hbranch]
    | some b =>
      obtain rfl := Port.eq_of_branch? hbranch
      rw [takeFrom_branch, arbitrate_queue_alone (hwants hne) (hpoll b hbranch)]

/-- Settles O33: the arbiter gives the take to the poll, after the release of a queue with stale descriptors only where
the poll was served last. -/
theorem takeServesPoll : Obligations.TakeServesPoll := by
  unfold Obligations.TakeServesPoll
  intro b s buf htx hconfig hfree hbuf
  have hbuilt : (s.sched b).buffer ≠ none := by simp [hbuf]
  have hwants : s.pollWants b = true := (pollWants_iff s b).2 hbuilt
  have hunreserved : ∀ x, b.port.branch? = some x → (s.branch x).outstanding = false := fun x hx => by
    rwa [← Branch.eq_of_port (Port.eq_of_branch? hx)] at hfree
  have htake : exec (.take b.port) s = .next (settleRestart (arbitrate b s)) := by
    rw [exec_take ((canTake_iff s b.port).2 ⟨htx, hconfig, hunreserved, .inr ⟨b, Branch.port_branch? b, hbuilt⟩⟩),
      takeFrom_branch]
  refine ⟨fun henabled => ⟨fun hturn => ?_, fun hlast hne hstale => ?_⟩, fun i hdisabled hcursor => ?_⟩
  · have hturn : s.queueWants b.port = false ∨ (s.branch b).lastServed = .queue :=
      hturn.imp_left fun hempty => by simp [State.queueWants, hempty]
    rw [htake, arbitrate_poll hwants hturn, servePoll_enabled b s buf hbuf henabled]
  · have hstale : ∀ d ∈ (s.port b.port).queue, s.isStale d = true := fun d hd => (isStale_iff s d).2 (hstale d hd)
    have hfresh : s.freshQueue b.port = [] := (stale_all _ _ hstale).2
    have hbufReleased : ((s.released b.port (s.port b.port).queue []).sched b).buffer = some buf := hbuf
    rw [htake, arbitrate_poll_after_stale ((queueWants_iff s b.port).2 ⟨henabled, hne⟩) hwants hlast hfresh,
      serveQueue_none b.port s hstale, servePoll_enabled b _ buf hbufReleased
        (by simpa [State.released, State.port] using henabled)]
  · have hqueue : s.queueWants b.port = false := by simp [State.queueWants, hdisabled]
    rw [htake, arbitrate_poll hwants (.inl hqueue), servePoll_disabled hbuf hdisabled hcursor]

end Sys2Proof.EgressQueues
end

section
/-! Proof of the claim about the expiry of the reply timer (R117, R120, R122, R123). -/

namespace Sys2Proof.Machine

/-! ## A miss (R120) -/

theorem exec_replyTimeout (b : Branch) (s : State) :
    exec (.replyTimeout b) s = .next (if s.canTimeOut b then missPoll b s else s) := rfl

/-- R120: a station is lost exactly at the miss limit. -/
theorem missed_lost_iff (limit : Nat) (r : StationRecord) :
    (r.missed limit).state = .lost ↔ limit ≤ if r.misses < limit then r.misses + 1 else r.misses := by
  unfold StationRecord.missed
  dsimp only
  generalize (if r.misses < limit then r.misses + 1 else r.misses) = misses
  split
  · next h => simpa using h
  · next h => simpa using h

section Miss
variable {b : Branch} {s : State} {i : Fin 32} {e : PollEntry}

/-- R120: the status record at a position after a miss of its entry. -/
def State.missedAt (s : State) (i : Fin 32) (e : PollEntry) : State :=
  { s with stations := s.stations.set i.val ((s.stations.get i).missed e.missLimit.toNat) i.isLt }

theorem missPoll_eq (hcursor : (s.sched b).cursor = some i) (hentry : s.pollList.get i = some e) :
    missPoll b s = endPoll b
      (if ((s.stations.get i).missed e.missLimit.toNat).state = .lost ∧ (s.stations.get i).state ≠ .lost
        then raise (.stationLost e.station) (s.missedAt i e) else s.missedAt i e) := by
  have hat : s.cursorEntry b = some e := by rw [State.cursorEntry, hcursor]; exact hentry
  rw [missPoll, hcursor, hat]
  rfl

end Miss

end Sys2Proof.Machine

namespace Sys2Proof.EgressQueues

open Sys2Proof.Machine

/-- Settles O37: the row acts from the reply timeout on, as a miss; the alarm is raised where the record turns LOST, and
the end of the poll is the shared one. -/
theorem replyTimeout : Obligations.ReplyTimeout := by
  unfold Obligations.ReplyTimeout
  intro b s i e sent hcursor hentry hawaits hsent
  refine ⟨fun hearly => ?_, fun hdue => ?_⟩
  · rw [exec_replyTimeout, if_neg]
    rw [canTimeOut_iff]
    rintro ⟨-, t, ht, hdue⟩
    rw [hsent] at ht
    cases ht
    omega
  · intro r misses u
    have hmissed : u = s.missedAt i e := rfl
    have hlost : (r.missed e.missLimit.toNat).state = .lost ↔ e.missLimit.toNat ≤ misses :=
      missed_lost_iff e.missLimit.toNat r
    refine ⟨missPoll b s, ?_, fun hkept => ?_, fun hlimit hnew => ?_⟩
    · rw [exec_replyTimeout, if_pos ((canTimeOut_iff s b).2 ⟨hawaits, sent, hsent, hdue⟩)]
    · rw [missPoll_eq hcursor hentry, if_neg, hmissed]
      · exact endPoll_ended b _
      · rintro ⟨hturned, hnew⟩
        exact hkept.elim (fun hbelow => absurd (hlost.1 hturned) (by omega)) hnew
    · rw [missPoll_eq hcursor hentry, if_pos ⟨hlost.2 hlimit, hnew⟩, hmissed]
      exact endPoll_ended b _

end Sys2Proof.EgressQueues
end

section
/-! Proof of the claim about the rows of the poll schedulers (R115, R116, R122): POLL_BUFFER_RETRY and NEW_CYCLE. -/

namespace Sys2Proof.Machine

/-! ## A branch's scheduler in closed form -/

/-- The state with the scheduler of a branch replaced. -/
def State.schedAs (s : State) (b : Branch) (x : Scheduler) : State :=
  { s with branches := s.branches.set b { s.branch b with sched := x } }

section SchedAs
variable {b : Branch} {s : State} {x y : Scheduler}

theorem modSched_eq_schedAs (f : Scheduler → Scheduler) : modSched b f s = s.schedAs b (f (s.sched b)) := rfl

@[simp] theorem schedAs_sched : (s.schedAs b x).sched b = x :=
  congrArg BranchState.sched (PerBranch.get_set_same s.branches b _)

@[simp] theorem schedAs_schedAs : (s.schedAs b x).schedAs b y = s.schedAs b y := by
  simp [State.schedAs, State.branch]

@[simp] theorem schedAs_self : s.schedAs b (s.sched b) = s := by
  have hsame : s.branches.set b (s.branches.get b) = s.branches := by cases b <;> rfl
  show { s with branches := s.branches.set b (s.branches.get b) } = s
  rw [hsame]

end SchedAs

/-! ## Entering READY (R113, R122) -/

/-- R115, R116: a scheduler enters READY from any change of its own, and asks the pool at the same event. -/
theorem enterReady_modSched_asked {b : Branch} {i : Fin 32} {e : PollEntry} {s : State} (f : Scheduler → Scheduler)
    (hentry : s.pollList.get i = some e) :
    PollAsked b e (s.schedAs b { f (s.sched b) with state := .ready, cursor := some i })
      (enterReady b i (modSched b f s)) := by
  refine askPollBuffer_at i ?_ ?_ hentry
  · rw [modSched_eq_schedAs, modSched_eq_schedAs, schedAs_schedAs, schedAs_sched]
  · rw [schedAs_sched]

/-! ## The rows -/

theorem exec_pollBufferRetry (b : Branch) (s : State) :
    exec (.pollBufferRetry b) s = .next (if s.canRetry b then askPollBuffer b s else s) := rfl

theorem exec_newCycle {b : Branch} {i : Fin 32} {s : State} (hcursor : (s.sched b).cursor = some i) :
    exec (.newCycle b) s = .next (if s.canCycle b then beginCycle b i s else s) := by
  show execNewCycle b s = _
  rw [execNewCycle, hcursor]

end Sys2Proof.Machine

namespace Sys2Proof.StationPolling

open Sys2Proof.Machine

/-- Settles O36: each row acts exactly on its condition, and what it then does is to ask the pool at the cursor. -/
theorem pollTimers : Obligations.PollTimers := by
  unfold Obligations.PollTimers
  intro b s i e hcursor hentry
  refine ⟨fun hready hunbuilt hoff hlater => ⟨askPollBuffer b s, ?_, askPollBuffer_asked b e s i hcursor hentry⟩,
    fun hwaits => ⟨fun hdue => ⟨beginCycle b i s, ?_, enterReady_modSched_asked _ hentry⟩, fun hearly => ?_⟩⟩
  · rw [exec_pollBufferRetry, if_pos ((canRetry_iff s b).2 ⟨hready, hunbuilt, hoff, hlater⟩)]
  · rw [exec_newCycle hcursor, if_pos ((canCycle_iff s b).2 ⟨hwaits, hdue⟩)]
  · rw [exec_newCycle hcursor, if_neg]
    rw [canCycle_iff]
    rintro ⟨-, hdue⟩
    omega

end Sys2Proof.StationPolling
end

section
/-! Proof of the claim about the Poll List's commands (R107 to R109, R127): WRITE-POLL-ENTRY and CLEAR-POLL-ENTRY. -/

namespace Sys2Proof.Machine

/-! ## Executed commands (R134) -/

/-- R134: a body that leaves the session to the record, and its result answered and cached. -/
theorem exec_body_of {c : Cmd} {i : Instr} {k : Command} {body : List Byte → State → State × Reply} {s t : State}
    {r : Reply} (hrow : exec i s = .next (manage (serveSequenced k (runBody k body)) c s))
    (h : Accepts c s) (hbody : body c.args (s.heard c) = (t, r))
    (hsession : t.session = (s.heard c).session) :
    exec i s = .next (answer c k r { t with session := s.session.after c k r s.tick }) := by
  have hafter : (record c k (.reply r) (s.heard c)).session = s.session.after c k r s.tick :=
    congrArg State.session (record_heard_of_accepts h k r)
  rw [hrow, manage_runBody_of h hbody, ← hafter, record, hsession]
  rfl

/-! ## The entry that the bytes give (R108) -/

/-- R108: the values of an entry are in their ranges, and its payload is as long as its length says. -/
def EntryFits (own st ml len : Byte) (rest : List Byte) : Prop :=
  (st ≠ 0x00 ∧ st ≠ 0xFF ∧ st ≠ own) ∧ ml ≠ 0 ∧ ml.toNat ≤ 15 ∧ len.toNat ≤ 8 ∧ len.toNat ≤ rest.length

section EntryBytes
variable {own st br en ml len : Byte} {rest : List Byte}

theorem not_entryFits_iff : ¬ EntryFits own st ml len rest ↔ st = 0x00 ∨ st = 0xFF ∨ st = own ∨ ml = 0
    ∨ 15 < ml.toNat ∨ 8 < len.toNat ∨ rest.length < len.toNat := by
  simp only [EntryFits, ne_eq, not_and_or, not_not, not_le, or_assoc]

theorem PollEntry.ofBytes_some (b : Branch) (h : EntryFits own st ml len rest) :
    PollEntry.ofBytes own st (Port.code b.port) en ml len rest
      = some ⟨st, b, decide (en ≠ 0), ml, rest.take len.toNat⟩ := by
  obtain ⟨hstation, hlimits⟩ := h
  rw [PollEntry.ofBytes, Branch.ofCode_code, ← yes_eq]
  exact if_pos ⟨(validStation_iff own st).2 hstation, hlimits⟩

theorem PollEntry.ofBytes_none (h : (br.toNat < 2 ∨ 5 < br.toNat) ∨ ¬ EntryFits own st ml len rest) :
    PollEntry.ofBytes own st br en ml len rest = none := by
  rw [PollEntry.ofBytes]
  cases hbranch : Branch.ofCode br with
  | none => rfl
  | some b =>
    obtain hrange | hfits := h
    · simp [Branch.ofCode_none hrange] at hbranch
    · refine if_neg ?_
      rintro ⟨hstation, hlimits⟩
      exact hfits ⟨(validStation_iff own st).1 hstation, hlimits⟩

end EntryBytes

/-! ## The bodies (R107 to R109) -/

theorem writePollEntryBody_short {args : List Byte} {s : State} (h : args.length < 6) :
    writePollEntryBody args s = (s, .badArg) := by
  unfold writePollEntryBody
  split
  · simp only [List.length_cons] at h
    omega
  · rfl

section WriteBody
variable {x st br en ml len : Byte} {rest : List Byte} {s : State}

theorem writePollEntryBody_refused
    (h : 32 ≤ x.toNat ∨ (br.toNat < 2 ∨ 5 < br.toNat) ∨ ¬ EntryFits s.ownAddr st ml len rest) :
    writePollEntryBody (x :: st :: br :: en :: ml :: len :: rest) s = (s, .badArg) := by
  rw [writePollEntryBody]
  obtain hx | hbytes := h
  · rw [posOf_none hx]
  · rw [PollEntry.ofBytes_none hbytes]
    cases posOf 32 x <;> rfl

/-- R107, R108: a position and an entry that can be stored, BUSY or written. -/
theorem writePollEntryBody_carried {i : Fin 32} (b : Branch) (hi : i.val = x.toNat)
    (h : EntryFits s.ownAddr st ml len rest) :
    writePollEntryBody (x :: st :: Port.code b.port :: en :: ml :: len :: rest) s
      = if s.stopped b = true ∧ s.entryStopped i = true then
          (setEntry i (some ⟨st, b, decide (en ≠ 0), ml, rest.take len.toNat⟩) s, .ok [])
        else (s, .busy) := by
  rw [writePollEntryBody, posOf_some hi, PollEntry.ofBytes_some b h]

theorem clearPollEntryBody_refused (h : 32 ≤ x.toNat) : clearPollEntryBody (x :: rest) s = (s, .badArg) := by
  rw [clearPollEntryBody, posOf_none h]

/-- R107, R109: a position, BUSY or emptied. -/
theorem clearPollEntryBody_position {i : Fin 32} (hi : i.val = x.toNat) :
    clearPollEntryBody (x :: rest) s
      = if s.entryStopped i then (setEntry i none s, .ok []) else (s, .busy) := by
  rw [clearPollEntryBody, posOf_some hi]

end WriteBody

end Sys2Proof.Machine

namespace Sys2Proof.StationPolling

open Sys2Proof.Machine

/-- Settles O54: each body is refused by its ranges, BUSY by a scheduler it touches, or sets the position. -/
theorem pollListCommands : Obligations.PollListCommands := by
  unfold Obligations.PollListCommands
  intro c s h
  refine ⟨fun hshort => exec_body_unchanged rfl h (writePollEntryBody_short hshort),
    fun x st br en ml len rest hargs => ⟨fun hrefused => exec_body_unchanged rfl h ?_, ?_⟩,
    fun hnone => exec_body_unchanged rfl h ?_,
    fun x rest hargs => ⟨fun hx => exec_body_unchanged rfl h ?_, fun i hi => ?_⟩⟩
  · rw [hargs]
    have hbytes : 32 ≤ x.toNat ∨ (br.toNat < 2 ∨ 5 < br.toNat) ∨ ¬ EntryFits s.ownAddr st ml len rest := by
      rw [not_entryFits_iff]
      tauto
    exact writePollEntryBody_refused hbytes
  · rintro i b hi rfl hzero hall hown hml hlimit hlen hrest
    have hbody := writePollEntryBody_carried (en := en) (s := s.heard c) b hi
      ⟨⟨hzero, hall, hown⟩, hml, hlimit, hlen, hrest⟩
    rw [← hargs] at hbody
    refine ⟨fun hstopped hidle => exec_body_of rfl h (hbody.trans (if_pos ?_)) rfl,
      fun hbusy => exec_body_unchanged rfl h (hbody.trans (if_neg ?_))⟩
    · exact ⟨(stopped_iff s b).2 hstopped, (entryStopped_iff s i).2 hidle⟩
    · rintro ⟨hstopped, hidle⟩
      exact hbusy.elim (absurd ((stopped_iff s b).1 hstopped)) (absurd ((entryStopped_iff s i).1 hidle))
  · rw [hnone]
    rfl
  · rw [hargs]
    exact clearPollEntryBody_refused hx
  · have hbody := clearPollEntryBody_position (rest := rest) (s := s.heard c) hi
    rw [← hargs] at hbody
    exact ⟨fun hidle => exec_body_of rfl h (hbody.trans (if_pos ((entryStopped_iff s i).2 hidle))) rfl,
      fun hbusy => exec_body_unchanged rfl h (hbody.trans (if_neg (mt (entryStopped_iff s i).1 hbusy)))⟩

end Sys2Proof.StationPolling
end

section
/-! Proofs of the claims about POLL-CONTROL (R113 to R116, R127, R166): its refusals, START and STOP. -/

namespace Sys2Proof.Machine

/-! ## The command's bytes (R127, R166) -/

theorem schedData_eq {b : Branch} {s : State} {x : SchedState} (h : (s.sched b).state = x) :
    schedData b s = [Port.code b.port, x.code] := by
  rw [schedData, h]

/-- R127, R166: an argument that is too short, of no branch or of neither action. -/
theorem pollControlBody_refused {args : List Byte} {s : State} (h : args.length < 5 ∨ (∃ br act rest,
      args = br :: act :: rest ∧ (br.toNat < 2 ∨ 5 < br.toNat ∨ (act ≠ 0x01 ∧ act ≠ 0x02)))) :
    pollControlBody args s = (s, .badArg) := by
  unfold pollControlBody
  split
  case h_2 => rfl
  case h_1 br act timeout hi lo rest =>
    obtain hshort | ⟨br', act', rest', hargs, hbad⟩ := h
    · simp only [List.length_cons] at hshort
      omega
    · cases hargs
      cases hbranch : Branch.ofCode br with
      | none => rfl
      | some b =>
        obtain ⟨hstart, hstop⟩ : act ≠ 0x01 ∧ act ≠ 0x02 := by
          by_contra haction
          have hrange : br.toNat < 2 ∨ 5 < br.toNat := by tauto
          simp [Branch.ofCode_none hrange] at hbranch
        dsimp only
        rw [if_neg hstart, if_neg hstop]

section Actions
variable {b : Branch} {timeout hi lo : Byte} {rest : List Byte} {s : State}

theorem pollControlBody_start : pollControlBody (Port.code b.port :: 0x01 :: timeout :: hi :: lo :: rest) s
    = if timeout.toNat < 2 then (s, .badArg) else startBody b timeout (word16 hi lo) s := by
  rw [pollControlBody, Branch.ofCode_code]
  exact if_pos rfl

theorem pollControlBody_stop :
    pollControlBody (Port.code b.port :: 0x02 :: timeout :: hi :: lo :: rest) s = stopBody b s := by
  rw [pollControlBody, Branch.ofCode_code]
  rfl

end Actions

/-! ## START (R113) -/

section Start
variable {b : Branch} {i : Fin 32} {e : PollEntry} {timeout : Byte} {interval : Word16} {s : State}

theorem startBody_busy (h : (s.sched b).state ≠ .stopped) :
    startBody b timeout interval s = (s, ⟨.busy, schedData b s⟩) :=
  if_pos (by simpa [State.stopped] using h)

theorem startBody_empty (h : (s.sched b).state = .stopped) (hnone : ∀ i, s.isEnabledEntry b i = false) :
    startBody b timeout interval s = (s, ⟨.empty, schedData b s⟩) := by
  rw [startBody, if_neg (by simp [State.stopped, h]), firstEntry_none hnone]

theorem startBody_starts (h : (s.sched b).state = .stopped) (henabled : s.isEnabledEntry b i = true)
    (hlowest : ∀ j, j < i → s.isEnabledEntry b j = false) : startBody b timeout interval s
      = (startPolling b i timeout interval s, .ok (schedData b (startPolling b i timeout interval s))) := by
  rw [startBody, if_neg (by simp [State.stopped, h]), firstEntry_eq henabled hlowest]

/-- R113, R115: the timing, the cycle and READY at the entry, and the pool asked. -/
theorem startPolling_asked (hentry : s.pollList.get i = some e) :
    PollAsked b e (s.schedAs b { s.sched b with
      state := .ready, cursor := some i, replyTimeout := timeout, cycleInterval := interval, cycleCount := 0,
      cycleStart := s.tick }) (startPolling b i timeout interval s) := enterReady_modSched_asked _ hentry

end Start

/-! ## STOP (R114) -/

section Stop
variable {b : Branch} {buf : BufId} {s : State}

/-- R114: STOPPED and STOPPING stay. -/
theorem stopPolling_resting (h : (s.sched b).state = .stopped ∨ (s.sched b).state = .stopping) :
    stopPolling b s = s := by
  unfold stopPolling
  obtain h | h := h <;> rw [h]

theorem stopPolling_await (h : (s.sched b).state = .await) :
    stopPolling b s = s.schedAs b { s.sched b with state := .stopping } := by
  rw [stopPolling, h]
  rfl

theorem stopPolling_waitInterval (h : (s.sched b).state = .waitInterval) :
    stopPolling b s = s.schedAs b { s.sched b with state := .stopped, cursor := none } := by
  rw [stopPolling, h]
  rfl

/-- R114: a poll taken from READY runs to its end. -/
theorem stopPolling_outstanding (h : (s.sched b).state = .ready) (hon : (s.branch b).outstanding = true) :
    stopPolling b s = s.schedAs b { s.sched b with state := .stopping } := by
  rw [stopPolling, h]
  exact if_pos hon

theorem stopPolling_untaken (h : (s.sched b).state = .ready) (hoff : (s.branch b).outstanding = false) :
    stopPolling b s = dropPoll b s := by
  rw [stopPolling, h]
  exact if_neg (by simp [hoff])

theorem dropPoll_unbuilt (h : (s.sched b).buffer = none) : dropPoll b s
    = s.schedAs b { s.sched b with state := .stopped, cursor := none, station := none } := by
  rw [dropPoll, h]
  show s.schedAs b { s.sched b with state := .stopped, cursor := none, buffer := none, station := none } = _
  rw [← h]

theorem dropPoll_built (h : (s.sched b).buffer = some buf) : dropPoll b s
    = (freeBuf buf s).schedAs b
        { s.sched b with state := .stopped, cursor := none, buffer := none, station := none } := by
  rw [dropPoll, h]
  rfl

/-- R114: STOP is answered OK with the state its action leaves. -/
theorem exec_pollControlStop {c : Cmd} {timeout hi lo : Byte} {rest : List Byte} {x : SchedState} {sched : Scheduler}
    {pool : Vector Buffer 40} (h : Accepts c s)
    (hargs : c.args = Port.code b.port :: 0x02 :: timeout :: hi :: lo :: rest)
    (hstop : stopPolling b (s.heard c) = { (s.heard c).schedAs b sched with pool := pool }) (hstate : sched.state = x) :
    exec (.pollControlStop c) s = .next (answer c .pollControl ⟨.ok, [Port.code b.port, x.code]⟩
      { s.executed c .pollControl ⟨.ok, [Port.code b.port, x.code]⟩ with
        branches := s.branches.set b { s.branch b with sched := sched }
        pool := pool }) := by
  have hsched : ((stopPolling b (s.heard c)).sched b).state = x := by
    rw [hstop, ← hstate]
    exact congrArg Scheduler.state schedAs_sched
  have hbody : pollControlBody c.args (s.heard c)
      = ({ (s.heard c).schedAs b sched with pool := pool }, .ok [Port.code b.port, x.code]) := by
    rw [hargs, pollControlBody_stop, stopBody, schedData_eq hsched, hstop]
  exact exec_body_of rfl h hbody rfl

end Stop

end Sys2Proof.Machine

namespace Sys2Proof.StationPolling

open Sys2Proof.Machine

/-- Settles O55: the refusals in their order, and a start whose scheduler asks the pool. -/
theorem pollControlStart : Obligations.PollControlStart := by
  unfold Obligations.PollControlStart
  refine ⟨fun c s b timeout hi lo rest h hargs => ?_, fun c s h hbad => ?_⟩
  · have hbody : pollControlBody c.args (s.heard c) = if timeout.toNat < 2 then (s.heard c, .badArg)
        else startBody b timeout (word16 hi lo) (s.heard c) := by
      rw [hargs, pollControlBody_start]
    have hstart (hlong : 2 ≤ timeout.toNat) := hbody.trans (if_neg (by omega))
    refine ⟨fun hshort => exec_body_unchanged rfl h (hbody.trans (if_pos hshort)),
      fun hlong hrunning => exec_body_unchanged rfl h ((hstart hlong).trans (startBody_busy hrunning)),
      fun hlong hstopped hnone => exec_body_unchanged rfl h ?_, fun i e hlong hstopped hentry henabled hlowest => ?_⟩
    · rw [hstart hlong, startBody_empty (s := s.heard c) hstopped hnone, schedData_eq (s := s.heard c) hstopped]
    · have hasked : PollAsked b e _ (startPolling b i timeout (word16 hi lo) (s.heard c)) := startPolling_asked hentry
      obtain ⟨hstate, hsession⟩ := hasked.state
      have hready := schedData_eq (x := .ready) (hstate.trans (congrArg Scheduler.state schedAs_sched))
      refine ⟨_, hasked.session _, exec_body_of rfl h ?_ hsession⟩
      rw [hstart hlong, startBody_starts (s := s.heard c) hstopped henabled hlowest, hready]
      rfl
  · have hbody := pollControlBody_refused (s := s.heard c) hbad
    exact ⟨exec_body_unchanged rfl h hbody, exec_body_unchanged rfl h hbody⟩

/-- Settles O56: the action of a STOP in each state of the scheduler. -/
theorem pollControlStop : Obligations.PollControlStop := by
  unfold Obligations.PollControlStop
  intro c s b timeout hi lo rest h hargs
  have hrests (hrest : (s.sched b).state = .stopped ∨ (s.sched b).state = .stopping) :
      stopPolling b (s.heard c) = (s.heard c).schedAs b (s.sched b) :=
    (stopPolling_resting (s := s.heard c) hrest).trans schedAs_self.symm
  refine ⟨fun hstate => exec_pollControlStop h hargs (hrests (.inl hstate)) hstate,
    fun hstate => exec_pollControlStop h hargs (hrests (.inr hstate)) hstate,
    fun hstate => exec_pollControlStop h hargs (stopPolling_await hstate) rfl,
    fun hstate => exec_pollControlStop h hargs (stopPolling_waitInterval hstate) rfl,
    fun hstate hon => exec_pollControlStop h hargs (stopPolling_outstanding hstate hon) rfl,
    fun hstate hoff hunbuilt => exec_pollControlStop h hargs ?_ rfl,
    fun buf hstate hoff hbuilt => exec_pollControlStop h hargs ?_ rfl⟩
  · exact (stopPolling_untaken (s := s.heard c) hstate hoff).trans (dropPoll_unbuilt hunbuilt)
  · exact (stopPolling_untaken (s := s.heard c) hstate hoff).trans (dropPoll_built hbuilt)

end Sys2Proof.StationPolling
end

section
/-! Proofs of the claims about the warm restart (R140, R142, R20): WARM_RESTART, and RESTART with the restart that is
pending on its reply. -/

namespace Sys2Proof.Machine

/-! ## The pending restart (R140) -/

theorem exec_warmRestart (s : State) : exec .warmRestart s = .next (settleRestart s) := rfl

/-- R140: with a descriptor of the reply left on its port, the restart stays pending. -/
theorem settleRestart_held {s : State} {p : Port} {b : BufId} (h : s.restart = some (p, b))
    (hheld : ∃ d, d ∈ (s.port p).descriptors ∧ d.buf = b) : settleRestart s = s := by
  obtain ⟨d, hmem, rfl⟩ := hheld
  have hplaced : s.placed (p, d.buf) = true := by
    rw [PortState.descriptors, List.mem_append, Option.mem_toList] at hmem
    rw [State.placed, Bool.or_eq_true, Option.any_eq_true, List.any_eq_true]
    exact hmem.imp (fun hslot => ⟨d, hslot, beq_self_eq_true _⟩) (fun hqueue => ⟨d, hqueue, beq_self_eq_true _⟩)
  rw [settleRestart, h]
  exact if_pos hplaced

/-! ## What the warm restart leaves (R142) -/

section WarmRestart
variable (s : State)

@[simp] theorem warmRestart_port (p : Port) : (warmRestart s).port p = (s.port p).restarted s.now :=
  PerPort.get_of _ p

@[simp] theorem warmRestart_branch (b : Branch) : (warmRestart s).branch b = (s.branch b).restarted :=
  PerBranch.get_of _ b

@[simp] theorem warmRestart_sched (b : Branch) : (warmRestart s).sched b = (s.branch b).restarted.sched :=
  congrArg BranchState.sched (warmRestart_branch s b)

/-- R80, R142: all forty buffers are FREE. -/
theorem warmRestart_pool (b : BufId) : (warmRestart s).pool.get b = Buffer.empty := get_replicate_at _ b

theorem warmRestart_freeCount : (warmRestart s).freeCount = 40 :=
  freeCount_full _ fun b => congrArg Buffer.use (warmRestart_pool s b)

/-- R103, R142: no transmitter drives its line. -/
theorem warmRestart_txen (p : Port) : (warmRestart s).txen p = false := by
  simp [State.txen, PortState.restarted, Tx.isSending]

theorem warmRestart_txd (p : Port) : (warmRestart s).txd p = .mark := by
  simp [State.txd, PortState.restarted]

/-- R20: a receiver listens exactly where its port is enabled. -/
theorem warmRestart_listening (p : Port) : ((warmRestart s).port p).listening = (s.port p).applied.enabled := by
  simp [PortState.listening, PortState.restarted, Tx.isSending]

/-- R107, R142: every station record is reset. -/
theorem warmRestart_stations (i : Fin 32) : (warmRestart s).stations.get i = StationRecord.cold :=
  get_replicate_at _ i

/-- R62, R142: the staging bank is a copy of the active bank. -/
theorem warmRestart_staging (i : Fin 96) :
    (warmRestart s).route.staging.get i = (s.route.active.get i).map (·.record) := revert_staging s.route i

end WarmRestart

/-! ## RESTART (R140) -/

section RunRestart
variable {c : Cmd} {s t : State}

theorem exec_restart (h : Accepts c s) : exec (.restart c) s = .next (runRestart c (s.heard c)) := by
  obtain ⟨-, -, -, howner, -⟩ := id h
  rw [heard_owner howner]
  exact congrArg Host.Outcome.next (serveSequenced_accepts h)

/-- R140: the reply was placed, and the restart is pending on its descriptor. -/
theorem exec_restart_placed {b : BufId} (h : Accepts c s)
    (hplaced : sendReply c.src c.port c.seq 0x2A ⟨.ok, []⟩ (s.executed c .restart ⟨.ok, []⟩) = (some b, t)) :
    exec (.restart c) s = .next { t with restart := some (c.port, b) } := by
  rw [exec_restart h, runRestart, record_heard_of_accepts h, Command.code, Reply.ok, hplaced]

/-- R140: the reply was not placed, and the warm restart takes place at once. -/
theorem exec_restart_notPlaced (h : Accepts c s)
    (hnot : sendReply c.src c.port c.seq 0x2A ⟨.ok, []⟩ (s.executed c .restart ⟨.ok, []⟩) = (none, t)) :
    exec (.restart c) s = .next (warmRestart t) := by
  rw [exec_restart h, runRestart, record_heard_of_accepts h, Command.code, Reply.ok, hnot]

end RunRestart

end Sys2Proof.Machine

namespace Sys2Proof.ManagementSession

open Sys2Proof.Machine

/-- Settles O13: the restart takes place once its reply has left, and every block is set or kept as R142 says. -/
theorem warmRestart : Obligations.WarmRestart := by
  unfold Obligations.WarmRestart
  refine ⟨fun s r x hpending hleft => ?_, fun s => ⟨fun p => ?_, rfl, rfl,
    fun b => congrArg Buffer.use (warmRestart_pool s b), warmRestart_freeCount s, rfl, rfl, rfl, rfl,
    warmRestart_staging s, fun b => ?_, warmRestart_stations s, rfl, rfl, rfl, rfl, rfl, rfl, rfl, rfl, rfl, rfl⟩⟩
  · rw [exec_warmRestart, settleRestart_left hpending hleft]
  · rw [warmRestart_listening, warmRestart_txen, warmRestart_txd, warmRestart_port]
    exact ⟨rfl, rfl, rfl, rfl, rfl, rfl, rfl, rfl, rfl, rfl, rfl, rfl, rfl⟩
  · rw [warmRestart_branch, warmRestart_sched]
    exact ⟨rfl, rfl, rfl, rfl, rfl, rfl, rfl, rfl, rfl⟩

/-- Settles O46: the two ways of RESTART, and the pending restart by the descriptors of its reply's port. -/
theorem restart : Obligations.Restart := by
  unfold Obligations.Restart
  exact ⟨fun c s h => ⟨fun b t => exec_restart_placed h, fun t => exec_restart_notPlaced h⟩,
    exec_warmRestart, fun s => settleRestart_none,
    fun s p b hpending => ⟨settleRestart_held hpending, settleRestart_left hpending⟩⟩

end Sys2Proof.ManagementSession
end

section
/-! Proofs of the claims about the reads of the relay, its ports and its counters (R127, R128, R147, R150 to R155,
R167): READ-STATUS, READ-RELAY, READ-PORT and READ-COUNTERS, with and without clear. -/

namespace Sys2Proof.Machine

/-! ## READ-STATUS and READ-RELAY (R147, R151) -/

/-- R151: the byte of the commit state. -/
theorem boolByte_validating (s : State) : boolByte s.validating = if s.route.commit = .idle then 0 else 1 := by
  by_cases hidle : s.route.commit = .idle
  · rw [if_pos hidle, Bool.eq_false_iff.2 (not_validating hidle)]
    rfl
  · rw [if_neg hidle, (validating_iff s).2 hidle]
    rfl

theorem boolByte_isSome {α : Type} [DecidableEq α] (x : Option α) :
    boolByte x.isSome = if x = none then 0x00 else 0x01 := by
  cases x <;> rfl

/-- R147: the byte of the notify ports. -/
theorem notifyPortsByte (t0 t1 : Bool) :
    boolByte t0 + 2 * boolByte t1 = (if t0 then 1 else 0) + (if t1 then 2 else 0) := by
  cases t0 <;> cases t1 <;> rfl

theorem DefaultAction.code_eq (a : DefaultAction) : a.code = match a with
    | .drop => 0x01
    | .flood => 0x02 := by
  cases a <;> rfl

theorem Trunk.code_eq (t : Trunk) : Port.code t.port = match t with
    | .t0 => 0x00
    | .t1 => 0x01 := by
  cases t <;> rfl

/-! ## READ-PORT (R150) -/

/-- R150, R167: the part of the reply that is the pending record. -/
theorem pendingConfig_bytes (x : Option PortConfig) :
    boolByte x.isSome :: (x.map PortConfig.bytes).getD (List.replicate 6 0) = match x with
      | none => List.replicate 7 0x00
      | some y => 0x01 :: y.bytes := by
  cases x <;> rfl

theorem readPortReply_port (p : Port) (rest : List Byte) (s : State) : readPortReply (Port.code p :: rest) s
    = .ok (Port.code p :: (s.port p).applied.bytes ++ boolByte (s.port p).pendingConfig.isSome
        :: ((s.port p).pendingConfig.map PortConfig.bytes).getD (List.replicate 6 0)) := by
  rw [readPortReply, Port.ofCode_code]
  exact congrArg Reply.ok (List.append_assoc _ _ _)

theorem readPortReply_refused {x : Byte} (rest : List Byte) (s : State) (h : 6 ≤ x.toNat) :
    readPortReply (x :: rest) s = .badArg := by
  rw [readPortReply, Port.ofCode_none h]

/-! ## The parts of the counters (R152) -/

section CounterParts
variable (s : State) (p : Port)

theorem counterPart_port0 : s.counterPart (Port.code p) 0x00 = some (s.port p).counters.part0 := by
  rw [State.counterPart, Port.ofCode_code]
  rfl

theorem counterPart_port1 : s.counterPart (Port.code p) 0x01 = some (s.port p).counters.part1 := by
  rw [State.counterPart, Port.ofCode_code]
  rfl

theorem counterPart_relay : s.counterPart 0x06 0x00 = some s.counters.part0 := rfl

/-- R152: a set or a part that does not exist. -/
theorem counterPart_none {x y : Byte} (h : 7 ≤ x.toNat ∨ 2 ≤ y.toNat ∨ (x = 0x06 ∧ y ≠ 0x00)) :
    s.counterPart x y = none := by
  rw [State.counterPart]
  split
  · next p hport =>
    have hx : x.toNat < 6 := by
      by_contra hge
      rw [Port.ofCode_none (by omega)] at hport
      cases hport
    have hset : x ≠ 0x06 := by bv_omega
    have hpart : 2 ≤ y.toNat := h.elim (by omega) fun h => h.resolve_right fun ⟨h6, _⟩ => hset h6
    rw [if_neg (by bv_omega), if_neg (by bv_omega)]
  · exact if_neg fun ⟨hx, hy⟩ => by bv_omega

end CounterParts

/-! ## READ-COUNTERS without clear (R154) -/

section ReadCounters
variable {x y z : Byte} {rest : List Byte} {s : State}

theorem readCountersReply_part {xs : List Word32} (h : s.counterPart x y = some xs) :
    readCountersReply (x :: y :: 0x00 :: rest) s = .ok (countersData x y xs) := by
  rw [readCountersReply, h]
  rfl

theorem readCountersReply_no_part (h : s.counterPart x y = none) :
    readCountersReply (x :: y :: z :: rest) s = .badArg := by
  rw [readCountersReply, h]
  exact ite_self _

theorem readCountersReply_no_indication (h : z ≠ 0x00) : readCountersReply (x :: y :: z :: rest) s = .badArg := by
  rw [readCountersReply, if_neg h]

theorem readCountersReply_short {args : List Byte} (h : args.length < 3) : readCountersReply args s = .badArg := by
  unfold readCountersReply
  split
  · simp only [List.length_cons] at h
    omega
  · rfl

end ReadCounters

/-! ## READ-COUNTERS with clear (R155) -/

section ReadCountersClear
variable {x y : Byte} {rest : List Byte} {s : State}

theorem readCountersClearBody_part {xs : List Word32} (h : s.counterPart x y = some xs) :
    readCountersClearBody (x :: y :: rest) s = (clearPart x y s, .ok (countersData x y xs)) := by
  rw [readCountersClearBody, h]

theorem readCountersClearBody_no_part (h : s.counterPart x y = none) :
    readCountersClearBody (x :: y :: rest) s = (s, .badArg) := by
  rw [readCountersClearBody, h]

theorem clearPart_port0 (p : Port) : clearPart (Port.code p) 0x00 s = { s with
    ports := s.ports.set p { s.port p with counters := (s.port p).counters.clear0 } } := by
  rw [clearPart, Port.ofCode_code]
  rfl

theorem clearPart_port1 (p : Port) : clearPart (Port.code p) 0x01 s = { s with
    ports := s.ports.set p { s.port p with counters := (s.port p).counters.clear1 } } := by
  rw [clearPart, Port.ofCode_code]
  rfl

end ReadCountersClear

end Sys2Proof.Machine

namespace Sys2Proof.ManagementSession

open Sys2Proof.Machine

/-- Settles O41: the status picture and the relay record, byte by byte. -/
theorem readsOfTheRelay : Obligations.ReadsOfTheRelay := by
  unfold Obligations.ReadsOfTheRelay
  refine fun c s h => ⟨exec_read rfl h ?_, exec_read rfl h ?_⟩
  · rw [readStatusReply, statusPicture, boolByte_validating]
    rfl
  · rw [readRelayReply, RelayConfig.bytes, DefaultAction.code_eq, Trunk.code_eq, boolByte_isSome, notifyPortsByte]
    rfl

/-- Settles O42: each set and part that exists is answered, or answered and cleared, and every other argument is
BAD_ARG. -/
theorem readsOfPortsAndCounters : Obligations.ReadsOfPortsAndCounters := by
  unfold Obligations.ReadsOfPortsAndCounters
  refine fun c s => ⟨fun h => ⟨fun p rest hargs => exec_read rfl h ?_, fun p rest hargs => exec_read rfl h ?_,
    fun p rest hargs => exec_read rfl h ?_, fun rest hargs => exec_read rfl h ?_, fun hrefused => exec_read rfl h ?_,
    fun hrefused => exec_read rfl h ?_⟩, fun h => ⟨fun p rest hargs => ?_, fun p rest hargs => ?_,
      fun rest hargs => ?_, fun ⟨x, y, rest, hargs, hnone⟩ => exec_body_unchanged rfl h ?_⟩⟩
  · rw [hargs, readPortReply_port, pendingConfig_bytes]
    rfl
  · rw [hargs]
    exact readCountersReply_part (counterPart_port0 _ p)
  · rw [hargs]
    exact readCountersReply_part (counterPart_port1 _ p)
  · rw [hargs]
    exact readCountersReply_part (counterPart_relay _)
  · obtain hnone | ⟨x, rest, hargs, hx⟩ := hrefused
    · rw [hnone]
      rfl
    · rw [hargs]
      exact readPortReply_refused rest _ hx
  · obtain hshort | ⟨x, y, z, rest, hargs, -, hbad⟩ := hrefused
    · exact readCountersReply_short hshort
    · rw [hargs]
      by_cases hz : z = 0x00
      · subst hz
        exact readCountersReply_no_part (counterPart_none _ (by simpa using hbad))
      · exact readCountersReply_no_indication hz
  · refine ⟨(s.port p).counters.clear0, rfl, rfl, exec_body_of (t := { s.heard c with
      ports := s.ports.set p { s.port p with counters := (s.port p).counters.clear0 } }) rfl h ?_ rfl⟩
    rw [hargs, readCountersClearBody_part (counterPart_port0 _ p), clearPart_port0]
    rfl
  · refine ⟨(s.port p).counters.clear1, rfl, rfl, exec_body_of (t := { s.heard c with
      ports := s.ports.set p { s.port p with counters := (s.port p).counters.clear1 } }) rfl h ?_ rfl⟩
    rw [hargs, readCountersClearBody_part (counterPart_port1 _ p), clearPart_port1]
    rfl
  · refine ⟨RelayCounters.zero, rfl, exec_body_of (t := { s.heard c with counters := .zero }) rfl h ?_ rfl⟩
    rw [hargs]
    exact readCountersClearBody_part (counterPart_relay _)
  · rw [hargs]
    exact readCountersClearBody_no_part (counterPart_none _ hnone)

end Sys2Proof.ManagementSession
end

section
/-! Proof of the claim about ACK-ALARM (R127, R163). -/

namespace Sys2Proof.Machine

/-! ## The key that the bytes give -/

/-- R163: an unknown kind, or a subject that does not suit the kind. -/
theorem AlarmKey.ofBytes_none {kind subject : Byte}
    (h : kind = 0x00 ∨ 0x04 < kind.toNat ∨ (kind = 0x01 ∧ (subject = 0x00 ∨ subject = 0xFF))
      ∨ ((kind = 0x02 ∨ kind = 0x03) ∧ 5 < subject.toNat) ∨ (kind = 0x04 ∧ subject ≠ 0x00)) :
    AlarmKey.ofBytes kind subject = none := by
  obtain rfl | hkind | ⟨rfl, hsubject⟩ | ⟨rfl | rfl, hsubject⟩ | ⟨rfl, hsubject⟩ := h
  · rfl
  · rw [AlarmKey.ofBytes, if_neg (by bv_omega), if_neg (by bv_omega), if_neg (by bv_omega), if_neg (by bv_omega)]
  · exact if_pos hsubject
  · exact congrArg (Option.map AlarmKey.lineBreak) (Port.ofCode_none hsubject)
  · exact congrArg (Option.map AlarmKey.queueOverflow) (Port.ofCode_none hsubject)
  · exact if_neg hsubject

/-! ## The record of a key (R157) -/

section OfKey
variable {key : AlarmKey} {s : State} {pre post : List AlarmRecord} {a : AlarmRecord}

theorem alarm?_none (h : ∀ a, a ∈ s.alarms → a.key ≠ key) : s.alarm? key = none :=
  List.find?_eq_none.2 fun a ha => by simpa using h a ha

/-- The record of a key that no record before it has. -/
theorem alarm?_found (hsplit : s.alarms = pre ++ a :: post) (hkey : a.key = key)
    (hothers : ∀ x, x ∈ pre ++ post → x.key ≠ key) : s.alarm? key = some a := by
  have hbefore : pre.find? (fun x => decide (x.key = key)) = none :=
    List.find?_eq_none.2 fun x hx => by simpa using hothers x (List.mem_append_left _ hx)
  rw [State.alarm?, hsplit, List.find?_append, hbefore, Option.none_or]
  exact List.find?_cons_of_pos (decide_eq_true hkey)

/-- Without the one record of a key the others keep their order. -/
theorem filter_key (hkey : a.key = key) (hothers : ∀ x, x ∈ pre ++ post → x.key ≠ key) :
    ((pre ++ a :: post).filter fun x => !decide (x.key = key)) = pre ++ post := by
  rw [List.filter_append, List.filter_cons_of_neg (by simp [hkey]), ← List.filter_append]
  exact List.filter_eq_self.2 fun x hx => by simpa using hothers x hx

end OfKey

/-! ## The execution of ACK-ALARM (R163) -/

section AckAlarm
variable {kind subject gen : Byte} {rest : List Byte} {key : AlarmKey} {a : AlarmRecord} {s : State}

theorem ackAlarmBody_short {args : List Byte} (h : args.length < 3) : ackAlarmBody args s = (s, .badArg) := by
  unfold ackAlarmBody
  split
  · simp only [List.length_cons] at h
    omega
  · rfl

theorem ackAlarmBody_no_key (h : AlarmKey.ofBytes kind subject = none) :
    ackAlarmBody (kind :: subject :: gen :: rest) s = (s, .badArg) := by
  rw [ackAlarmBody, h]

theorem ackAlarmBody_no_generation : ackAlarmBody (kind :: subject :: 0 :: rest) s = (s, .badArg) := by
  rw [ackAlarmBody]
  cases AlarmKey.ofBytes kind subject <;> rfl

/-- R163: a record of the key of the bytes is looked for. -/
theorem ackAlarmBody_notFound (hkey : AlarmKey.ofBytes kind subject = some key) (hgen : gen ≠ 0)
    (hnone : s.alarm? key = none) : ackAlarmBody (kind :: subject :: gen :: rest) s = (s, ⟨.notFound, []⟩) := by
  rw [ackAlarmBody, hkey]
  dsimp only
  rw [if_neg hgen, hnone]

theorem ackAlarmBody_recurred (hkey : AlarmKey.ofBytes kind subject = some key) (hgen : gen ≠ 0)
    (hfound : s.alarm? key = some a) (hrecurred : a.generation ≠ gen) :
    ackAlarmBody (kind :: subject :: gen :: rest) s = (s, ⟨.recurred, [a.generation]⟩) := by
  rw [ackAlarmBody, hkey]
  dsimp only
  rw [if_neg hgen, hfound]
  exact if_pos hrecurred

/-- R163: the record is removed, and these are left. -/
theorem ackAlarmBody_removes {left : List AlarmRecord} (hkey : AlarmKey.ofBytes kind subject = some key)
    (hgen : gen ≠ 0) (hfound : s.alarm? key = some a) (hcurrent : a.generation = gen)
    (hleft : (s.alarms.filter fun x => !decide (x.key = key)) = left) :
    ackAlarmBody (kind :: subject :: gen :: rest) s
      = ({ s with alarms := left }, .ok [BitVec.ofNat 8 left.length]) := by
  rw [ackAlarmBody, hkey]
  dsimp only
  rw [if_neg hgen, hfound, hleft]
  exact if_neg (not_not.2 hcurrent)

end AckAlarm

end Sys2Proof.Machine

namespace Sys2Proof.ManagementSession

open Sys2Proof.Machine

/-- Settles O59: refused by its bytes, or answered by what the list holds of the key. -/
theorem ackAlarm : Obligations.AckAlarm := by
  unfold Obligations.AckAlarm
  refine fun c s h => ⟨fun hshort => exec_body_unchanged rfl h (ackAlarmBody_short hshort),
    fun kind subject gen rest hargs => ⟨fun hrefused => exec_body_unchanged rfl h ?_, fun key hkey hgen => ?_⟩⟩
  · rw [hargs]
    by_cases hgen : gen = 0
    · subst hgen
      exact ackAlarmBody_no_generation
    · simp only [hgen, or_false] at hrefused
      exact ackAlarmBody_no_key (AlarmKey.ofBytes_none hrefused)
  · refine ⟨AlarmKey.ofBytes_some hkey, fun hnone => exec_body_unchanged rfl h ?_,
      fun pre post a hsplit hrecord hothers => ?_⟩
    · rw [hargs]
      exact ackAlarmBody_notFound hkey hgen (alarm?_none hnone)
    · have hfound : (s.heard c).alarm? key = some a := alarm?_found hsplit hrecord hothers
      refine ⟨fun hrecurred => exec_body_unchanged rfl h ?_, fun hcurrent =>
        exec_body_of (t := { s.heard c with alarms := pre ++ post }) rfl h ?_ rfl⟩
      · rw [hargs]
        exact ackAlarmBody_recurred hkey hgen hfound hrecurred
      · have hleft : ((s.heard c).alarms.filter fun x => !decide (x.key = key)) = pre ++ post := by
          show s.alarms.filter _ = _
          rw [hsplit]
          exact filter_key hrecord hothers
        rw [hargs]
        exact ackAlarmBody_removes hkey hgen hfound hcurrent hleft

end Sys2Proof.ManagementSession
end

section
/-! Proof of the claim about the increments of the counters of the sets (R152, R153). -/

namespace Sys2Proof.Machine

/-! ## One increment (R153) -/

/-- R153: an increment by the value that it meets. -/
theorem satInc_eq (x : Word32) : satInc x = if x.toNat < 4294967295 then x + 1 else x := by
  have hbelow : x ≠ BitVec.allOnes 32 ↔ x.toNat < 4294967295 := by
    rw [ne_eq, ← BitVec.toNat_inj, BitVec.toNat_allOnes]
    omega
  rw [satInc, ← ite_not]
  simp only [hbelow]

/-- R153: an increment that is made of the counters that `P` names. -/
theorem ite_satInc (P : Prop) [Decidable P] (x : Word32) :
    (if P then satInc x else x) = if P ∧ x.toNat < 4294967295 then x + 1 else x := by
  rw [satInc_eq, ite_and]

/-! ## The counters of a set after an increment (R152) -/

/-- R152: the names of a port's set are of different counters, so that each pair of names reads the counter that was
incremented or one that was not. -/
theorem PortCounters.get_bump (k : PortCounters) (c d : PortCtr) :
    (k.bump c).get d = if d = c then satInc (k.get d) else k.get d := by
  cases c <;> cases d <;> rfl

/-- R152: as `PortCounters.get_bump`, of the relay-wide set. -/
theorem RelayCounters.get_bump (k : RelayCounters) (c d : RelayCtr) :
    (k.bump c).get d = if d = c then satInc (k.get d) else k.get d := by
  cases c <;> cases d <;> rfl

end Sys2Proof.Machine

namespace Sys2Proof.RelayStatus

open Sys2Proof.Machine

/-- Settles O60: in each set the counter that is named is incremented and every other is kept, and an increment below
4,294,967,295 adds one. -/
theorem countersSaturate : Obligations.CountersSaturate := by
  unfold Obligations.CountersSaturate
  exact ⟨fun k c d => (k.get_bump c d).trans (ite_satInc (d = c) (k.get d)),
    fun k c d => (k.get_bump c d).trans (ite_satInc (d = c) (k.get d))⟩

end Sys2Proof.RelayStatus
end

section
/-! Proof of the claim about the raise of an alarm (R157, R158, R160, R161). -/

namespace Sys2Proof.Machine

/-! ## The record of a raise (R157, R158) -/

/-- R157, R158: the record of a key that is raised again. -/
theorem AlarmRecord.again_eq (tick : Nat) (a : AlarmRecord) : a.again tick = { a with
    generation := if a.generation = 255 then 1 else a.generation + 1
    count := if a.count = 65535 then a.count else a.count + 1
    last := tick } := by
  have hcount : satInc16 a.count = if a.count = 65535 then a.count else a.count + 1 := rfl
  rw [AlarmRecord.again, nextGeneration, hcount]

/-- A change of the record of a key leaves every record of another key. -/
theorem map_apart {key : AlarmKey} {l : List AlarmRecord} {f : AlarmRecord → AlarmRecord}
    (hl : ∀ x ∈ l, x.key ≠ key) (hf : ∀ x, x.key ≠ key → f x = x) : l.map f = l :=
  (List.map_congr_left fun x hx => hf x (hl x hx)).trans (List.map_id' l)

/-! ## The three ways of a raise (R158) -/

section Raise
variable {key : AlarmKey} {s : State} {pre post : List AlarmRecord} {a : AlarmRecord}

/-- R158: a raise of a key whose record is in the list. -/
theorem raise_present (hsplit : s.alarms = pre ++ a :: post) (hkey : a.key = key) (hpre : ∀ x ∈ pre, x.key ≠ key)
    (hpost : ∀ x ∈ post, x.key ≠ key) :
    raise key s = notify (a.again s.tick) { s with alarms := pre ++ a.again s.tick :: post } := by
  have hfound : s.alarm? key = some a :=
    alarm?_found hsplit hkey fun x hx => (List.mem_append.1 hx).elim (hpre x) (hpost x)
  have hother : ∀ x : AlarmRecord, x.key ≠ key → (if x.key = key then x.again s.tick else x) = x :=
    fun _ hx => if_neg hx
  rw [raise, hfound]
  dsimp only
  rw [modAlarm, hsplit, List.map_append, List.map_cons, map_apart hpre hother, map_apart hpost hother, if_pos hkey]

/-- R158: a raise of a key without a record, while the list has room. -/
theorem raise_created (habsent : ∀ a, a ∈ s.alarms → a.key ≠ key) (hroom : s.alarms.length < 16) :
    raise key s = notify (AlarmRecord.created key s.tick)
      { s with alarms := s.alarms ++ [AlarmRecord.created key s.tick] } := by
  rw [raise, alarm?_none habsent]
  exact if_pos hroom

/-- R158: a raise of a key without a record, with the list full. -/
theorem raise_lost (habsent : ∀ a, a ∈ s.alarms → a.key ≠ key) (hfull : s.alarms.length = 16) :
    raise key s = { s with alarmsLost := satInc s.alarmsLost } := by
  rw [raise, alarm?_none habsent]
  exact if_neg hfull.not_lt

/-- R161: a notification leaves the list as it was but for the last-notify tick of its record. -/
theorem notify_alarms_split (hsplit : s.alarms = pre ++ a :: post) (hpre : ∀ x ∈ pre, x.key ≠ a.key)
    (hpost : ∀ x ∈ post, x.key ≠ a.key) : ∃ n, (notify a s).alarms = pre ++ { a with lastNotify := n } :: post
      ∧ (n = a.lastNotify ∨ n = some s.tick) := by
  obtain ⟨f, halarms, hother, hchange⟩ := notify_alarms a s
  rw [hsplit, List.map_append, List.map_cons, map_apart hpre hother, map_apart hpost hother] at halarms
  obtain ha | ha := hchange a
  · exact ⟨a.lastNotify, by rw [halarms, ha], .inl rfl⟩
  · exact ⟨some s.tick, by rw [halarms, ha], .inr rfl⟩

end Raise

end Sys2Proof.Machine

namespace Sys2Proof.AlarmList

open Sys2Proof.Machine

/-- Settles O57: by whether the list holds a record of the key and, where it does not, has room for one. -/
theorem alarmRaise : Obligations.AlarmRaise := by
  unfold Obligations.AlarmRaise
  refine fun key s hdistinct => ⟨raise_raisedFrom key s, fun pre post a hsplit hkey => ?_,
    fun habsent hroom => ?_, raise_lost⟩
  · obtain ⟨hpre, hpost⟩ := keys_apart hkey (hsplit ▸ hdistinct)
    have hraise := raise_present hsplit hkey hpre hpost
    obtain ⟨n, halarms, hn⟩ := notify_alarms_split (a := a.again s.tick)
      (s := { s with alarms := pre ++ a.again s.tick :: post }) rfl (hkey ▸ hpre) (hkey ▸ hpost)
    rw [← hraise] at halarms
    rw [AlarmRecord.again_eq] at hraise halarms
    exact ⟨hraise, n, halarms, hn, by rw [hraise]; exact notify_alarmsLost _ _⟩
  · have hraise := raise_created habsent hroom
    obtain ⟨n, halarms, hn⟩ := notify_alarms_split (a := AlarmRecord.created key s.tick) (post := [])
      (s := { s with alarms := s.alarms ++ [AlarmRecord.created key s.tick] }) rfl habsent
      fun _ hx => absurd hx List.not_mem_nil
    rw [← hraise] at halarms
    exact ⟨hraise, n, halarms, hn, by rw [hraise]; exact notify_alarmsLost _ _⟩

end Sys2Proof.AlarmList
end

section
/-! Proof of the claim about the notification of a raise (R160, R161). -/

namespace Sys2Proof.Machine

/-! ## The hold-off and the notify ports (R160) -/

theorem AlarmRecord.heldOff_iff (a : AlarmRecord) (tick : Nat) :
    a.heldOff tick = true ↔ ∃ n, a.lastNotify = some n ∧ tick - n ≤ 1000 := by
  unfold AlarmRecord.heldOff
  split
  · next hnone => simp [hnone]
  · next t hsome => simp [hsome]

/-- R160: whether the relay configuration names a port as a notify port. -/
def RelayConfig.asks (r : RelayConfig) (p : Port) : Bool :=
  (decide (p = .t0) && r.notifyT0) || (decide (p = .t1) && r.notifyT1)

theorem RelayConfig.notifyPorts_eq (r : RelayConfig) : r.notifyPorts = Port.all.filter r.asks := by
  unfold RelayConfig.notifyPorts RelayConfig.asks
  cases r.notifyT0
  · cases r.notifyT1
    · rfl
    · rfl
  · cases r.notifyT1
    · rfl
    · rfl

theorem mem_portAll (p : Port) : p ∈ Port.all := by cases p <;> decide

theorem RelayConfig.mem_notifyPorts {r : RelayConfig} {p : Port} : p ∈ r.notifyPorts ↔ r.asks p = true := by
  rw [r.notifyPorts_eq, List.mem_filter]
  exact and_iff_right (mem_portAll p)

theorem RelayConfig.notifyPorts_nodup (r : RelayConfig) : r.notifyPorts.Nodup := by
  rw [r.notifyPorts_eq]
  exact List.Nodup.filter _ (by decide)

theorem RelayConfig.notifyPorts_nil {r : RelayConfig} :
    r.notifyPorts = [] ↔ r.notifyT0 = false ∧ r.notifyT1 = false := by
  simp [RelayConfig.notifyPorts]

/-- The notify ports of a kind, counted among all ports. -/
theorem RelayConfig.countP_notifyPorts (r : RelayConfig) (f : Port → Bool) :
    r.notifyPorts.countP f = Port.all.countP fun p => r.asks p && f p := by
  rw [r.notifyPorts_eq, List.countP_filter]
  simp only [Bool.and_comm]

/-! ## Placements and skips (R161) -/

/-- R153, R161: NOTIFY_SKIPPED counted a number of times. -/
def RelayCounters.skipped (k : RelayCounters) (n : Nat) : RelayCounters :=
  { k with notifySkipped := satInc^[n] k.notifySkipped }

/-- R161: without a buffer every port of the list is skipped. -/
theorem skipNotify_eq (ps : List Port) (s : State) :
    skipNotify ps s = { s with counters := s.counters.skipped ps.length } := by
  induction ps generalizing s with
  | nil => rfl
  | cons p ps ih => exact ih (countRelay .notifySkipped s)

theorem enqueue_port_ne {p q : Port} (h : q ≠ p) (d : Descriptor) (s : State) :
    (enqueue p d s).port q = s.port q := PerPort.get_set_ne _ _ _ _ h

theorem enqueue_canAppend_ne {p q : Port} (h : q ≠ p) (d : Descriptor) (s : State) :
    (enqueue p d s).canAppend q = s.canAppend q := by
  rw [State.canAppend, enqueue_port_ne h]
  rfl

/-- R161: a port of the list that takes an append has the descriptor. -/
def State.notifiedPort (s : State) (b : BufId) (tick : Nat) (ps : List Port) (p : Port) : PortState :=
  if p ∈ ps ∧ s.canAppend p = true then
    { s.port p with queue := (s.port p).queue ++ [⟨b, .notify, none, some tick⟩] } else s.port p

/-- R161: of the ports of a list those that take an append have the descriptor, and each other one is skipped. -/
def State.notified (s : State) (b : BufId) (tick : Nat) (ps : List Port) : State :=
  { s with
    ports := PerPort.of (s.notifiedPort b tick ps)
    counters := s.counters.skipped (ps.countP fun p => !s.canAppend p) }

section Placements
variable {b : BufId} {tick : Nat} {p : Port} {ps : List Port} {s : State}

/-- R161: the first port of the list takes the descriptor. -/
theorem notified_taken (hp : p ∉ ps) (htakes : s.canAppend p = true) :
    (enqueue p ⟨b, .notify, none, some tick⟩ s).notified b tick ps = s.notified b tick (p :: ps) := by
  have hports : (enqueue p ⟨b, .notify, none, some tick⟩ s).notifiedPort b tick ps
      = s.notifiedPort b tick (p :: ps) := by
    funext q
    unfold State.notifiedPort
    by_cases hqp : q = p
    · subst hqp
      rw [if_neg (fun h => hp h.1), if_pos ⟨List.mem_cons_self, htakes⟩]
      exact PerPort.get_set_same _ _ _
    · rw [enqueue_port_ne hqp, enqueue_canAppend_ne hqp]
      exact if_congr (and_congr_left fun _ => by rw [List.mem_cons, or_iff_right hqp]) rfl rfl
  have hcount : ps.countP (fun q => !(enqueue p ⟨b, .notify, none, some tick⟩ s).canAppend q)
      = (p :: ps).countP fun q => !s.canAppend q := by
    rw [List.countP_cons_of_neg (by simp [htakes])]
    exact List.countP_congr fun q hq => by rw [enqueue_canAppend_ne (by rintro rfl; exact hp hq)]
  rw [State.notified, State.notified, hports, hcount]
  rfl

/-- R161: the first port of the list is skipped. -/
theorem notified_skipped (hrefuses : s.canAppend p = false) :
    (countRelay .notifySkipped s).notified b tick ps = s.notified b tick (p :: ps) := by
  have hports : (countRelay .notifySkipped s).notifiedPort b tick ps = s.notifiedPort b tick (p :: ps) := by
    funext q
    refine if_congr (and_congr_left fun htakes => ?_) rfl rfl
    rw [List.mem_cons, or_iff_right]
    rintro rfl
    exact Bool.false_ne_true (hrefuses.symm.trans htakes)
  rw [State.notified, State.notified, hports, List.countP_cons_of_pos (by simp [hrefuses])]
  rfl

/-- R161: the placements on distinct ports. -/
theorem placeNotify_eq (hnodup : ps.Nodup) :
    placeNotify b tick ps s = (ps.countP s.canAppend, s.notified b tick ps) := by
  induction ps generalizing s with
  | nil => rfl
  | cons p ps ih =>
    obtain ⟨hp, hnodup⟩ := List.nodup_cons.1 hnodup
    rw [placeNotify]
    split
    · next htakes =>
      have hcount : ps.countP (enqueue p ⟨b, .notify, none, some tick⟩ s).canAppend = ps.countP s.canAppend :=
        List.countP_congr fun q hq => by rw [enqueue_canAppend_ne (by rintro rfl; exact hp hq)]
      rw [ih hnodup, List.countP_cons_of_pos htakes, hcount, notified_taken hp htakes]
    · next hrefuses =>
      rw [ih hnodup, List.countP_cons_of_neg hrefuses, notified_skipped (Bool.eq_false_iff.2 hrefuses)]
      rfl

end Placements

/-- R161: whether a port is a notify port that takes an append. -/
def State.takesNotify (s : State) (p : Port) : Bool := s.relay.asks p && s.canAppend p

/-- R161: of the notify ports those that take an append have the descriptor, and each other one is skipped. -/
theorem notified_notifyPorts (b : BufId) (tick : Nat) (s : State) : s.notified b tick s.relay.notifyPorts = { s with
    ports := PerPort.of fun p => if s.takesNotify p then
      { s.port p with queue := (s.port p).queue ++ [⟨b, .notify, none, some tick⟩] } else s.port p
    counters := s.counters.skipped (Port.all.countP fun p => s.relay.asks p && !s.takesNotify p) } := by
  have hports : s.notifiedPort b tick s.relay.notifyPorts = fun p => if s.takesNotify p then
      { s.port p with queue := (s.port p).queue ++ [⟨b, .notify, none, some tick⟩] } else s.port p := by
    funext p
    refine if_congr ?_ rfl rfl
    rw [RelayConfig.mem_notifyPorts, ← Bool.and_eq_true, State.takesNotify]
  have hskipped : ∀ p, (s.relay.asks p && !s.canAppend p) = (s.relay.asks p && !s.takesNotify p) := fun p => by
    rw [State.takesNotify]
    cases s.relay.asks p
    · rfl
    · rfl
  rw [State.notified, hports, s.relay.countP_notifyPorts, funext hskipped]

/-! ## The notification (R160, R161) -/

section Notify
variable {a : AlarmRecord} {s : State} {addr : Byte} {b : BufId}

/-- R160: no address, no notify port, or held off. -/
theorem notify_nothing (h : s.relay.notifyAddr = none ∨ s.relay.notifyPorts = [] ∨ a.heldOff s.tick = true) :
    notify a s = s := by
  unfold notify
  split
  · rfl
  · next addr haddr =>
    rw [haddr] at h
    exact if_pos (h.resolve_left nofun)

/-- R160: a notification that is made. -/
structure Notifies (a : AlarmRecord) (s : State) (addr : Byte) : Prop where
  addr : s.relay.notifyAddr = some addr
  ports : s.relay.notifyPorts ≠ []
  due : a.heldOff s.tick = false

theorem Notifies.not_idle (h : Notifies a s addr) :
    ¬(s.relay.notifyPorts = [] ∨ a.heldOff s.tick = true) := by
  rw [h.due]
  exact not_or.2 ⟨h.ports, Bool.false_ne_true⟩

/-- R161: no buffer is FREE. -/
theorem Notifies.unbuilt (h : Notifies a s addr) (hnone : s.findFree = none) :
    notify a s = { s with counters := s.counters.skipped (Port.all.countP s.relay.asks) } := by
  have hlength : s.relay.notifyPorts.length = Port.all.countP s.relay.asks := by
    rw [s.relay.notifyPorts_eq, List.countP_eq_length_filter]
  rw [notify, h.addr]
  dsimp only
  rw [if_neg h.not_idle, requestBuffer_originator (f := .alarms) nofun, hnone]
  exact (skipNotify_eq _ s).trans (by rw [hlength])

/-- R161: with a FREE buffer the frame is placed on each notify port that takes it. -/
theorem Notifies.built (h : Notifies a s addr) (hfound : s.findFree = some b) :
    notify a s = if Port.all.countP s.takesNotify = 0 then freeBuf b (s.notified b s.tick s.relay.notifyPorts)
      else modAlarm a.key (fun x => { x with lastNotify := some s.tick })
        (setBuf b ⟨.held (Port.all.countP s.takesNotify), buildFrame addr s.ownAddr ctlAlarm (alarmPayload a)⟩
          (s.notified b s.tick s.relay.notifyPorts)) := by
  have hcount : s.relay.notifyPorts.countP s.canAppend = Port.all.countP s.takesNotify :=
    s.relay.countP_notifyPorts _
  -- the buffer that is filled is no matter of the ports
  have hplaced : placeNotify b s.tick s.relay.notifyPorts
      (fillBuf b (buildFrame addr s.ownAddr ctlAlarm (alarmPayload a)) (setBuf b ⟨.filling .alarms, []⟩ s))
      = (s.relay.notifyPorts.countP s.canAppend, fillBuf b (buildFrame addr s.ownAddr ctlAlarm (alarmPayload a))
        (setBuf b ⟨.filling .alarms, []⟩ (s.notified b s.tick s.relay.notifyPorts))) :=
    placeNotify_eq s.relay.notifyPorts_nodup
  rw [notify, h.addr]
  dsimp only
  rw [if_neg h.not_idle, requestBuffer_originator (f := .alarms) nofun, hfound]
  dsimp only [Option.map_some]
  rw [hplaced, hcount, handOver_filled]
  split
  · rfl
  · rfl

/-- R78, R161: no notify port takes the frame, and its buffer is FREE again. -/
theorem Notifies.refused (h : Notifies a s addr) (hfound : s.findFree = some b)
    (hnone : ∀ p, s.takesNotify p = false) : notify a s = freeBuf b
      { s with counters := s.counters.skipped (Port.all.countP s.relay.asks) } := by
  have hcount : Port.all.countP s.takesNotify = 0 := List.countP_eq_zero.2 fun p _ => by simp [hnone p]
  rw [h.built hfound, if_pos hcount, notified_notifyPorts]
  simp only [hnone, Bool.false_eq_true, if_false, Bool.not_false, Bool.and_true]
  rfl

/-- R78, R161: some notify port takes the frame, and its buffer is HELD with the number that do. -/
theorem Notifies.taken (h : Notifies a s addr) (hfound : s.findFree = some b)
    (hsome : ∃ p, s.takesNotify p = true) : notify a s = { s with
      pool := s.pool.set b.val ⟨.held (Port.all.countP s.takesNotify), buildFrame addr s.ownAddr 0x06
        [a.key.kind, a.key.subject, a.generation, hiByte a.count, loByte a.count]⟩ b.isLt
      ports := PerPort.of fun p => if s.takesNotify p then
        { s.port p with queue := (s.port p).queue ++ [⟨b, .notify, none, some s.tick⟩] } else s.port p
      counters := s.counters.skipped (Port.all.countP fun p => s.relay.asks p && !s.takesNotify p)
      alarms := s.alarms.map fun x => if x.key = a.key then { x with lastNotify := some s.tick } else x } := by
  obtain ⟨p, hp⟩ := hsome
  have hcount : Port.all.countP s.takesNotify ≠ 0 := (List.countP_pos_iff.2 ⟨p, (mem_portAll p), hp⟩).ne'
  rw [h.built hfound, if_neg hcount, notified_notifyPorts]
  rfl

/-- R75: a buffer that was FREE is FREE again, and every other one as it was. -/
theorem freeBuf_of_free {t : State} (hfound : s.findFree = some b) (hpool : t.pool = s.pool) (c : BufId) :
    ((freeBuf b t).pool.get c).use = (s.pool.get c).use
      ∧ ((s.pool.get c).use ≠ .free → (freeBuf b t).pool.get c = s.pool.get c) := by
  have hfree := findFree_isFree hfound
  by_cases hc : c = b
  · subst hc
    simp [freeBuf, Buffer.empty, hfree]
  · simp [freeBuf, setBuf_get, hc, hpool]

end Notify

end Sys2Proof.Machine

namespace Sys2Proof.AlarmList

open Sys2Proof.Machine

/-- Settles O58: by the conditions of a notification, then the pool, then whether a notify port takes the frame. -/
theorem alarmNotification : Obligations.AlarmNotification := by
  unfold Obligations.AlarmNotification
  refine fun a s => ⟨fun hidle => notify_nothing ?_, fun addr haddr hports hage => ?_⟩
  · rwa [RelayConfig.notifyPorts_nil, AlarmRecord.heldOff_iff]
  · have hnotifies : Notifies a s addr := by
      refine ⟨haddr, fun hnil => ?_, Bool.eq_false_iff.2 fun hheld => ?_⟩
      · obtain ⟨h0, h1⟩ := RelayConfig.notifyPorts_nil.1 hnil
        simp [h0, h1] at hports
      · obtain ⟨n, hlast, hn⟩ := (a.heldOff_iff s.tick).1 hheld
        exact absurd (hage n hlast) (Nat.not_lt.2 hn)
    have htakes : ∀ p, (((decide (p = .t0) && s.relay.notifyT0) || (decide (p = .t1) && s.relay.notifyT1))
        && (s.port p).applied.enabled && decide ((s.port p).queue.length < 8)) = s.takesNotify p :=
      fun p => Bool.and_assoc _ _ _
    simp only [htakes]
    refine ⟨fun hzero => hnotifies.unbuilt (findFree_none hzero), fun hfree hnone => ?_, fun hfree hsome => ?_⟩
    · obtain ⟨b, hfound⟩ := Option.isSome_iff_exists.1 ((findFree_isSome s).2 hfree)
      exact ⟨_, hnotifies.refused hfound hnone, rfl, freeBuf_of_free hfound rfl⟩
    · obtain ⟨b, hfound⟩ := Option.isSome_iff_exists.1 ((findFree_isSome s).2 hfree)
      exact ⟨b, findFree_isFree hfound, hnotifies.taken hfound hsome⟩

end Sys2Proof.AlarmList
end

section
/-! Proof of the claim about the age code (R162, R168). -/

namespace Sys2Proof.Machine

/-- R162: an age saturates at 4,294,967,295. -/
theorem satAge_eq (n : Nat) : satAge n = BitVec.ofNat 32 (min n 4294967295) := by
  unfold satAge
  split
  · rw [Nat.min_eq_left (by omega)]
  · rw [Nat.min_eq_right (by omega)]
    rfl

/-- R168: an age below 16 is its own code. -/
theorem ageCode_small {age : Word32} (h : age.toNat < 16) : (ageCode age).toNat = age.toNat := by
  unfold ageCode
  dsimp only
  rw [if_pos h, BitVec.toNat_ofNat, Nat.mod_eq_of_lt (by omega)]

/-- R168: in the octave from 2^k the code fits a byte, since an age has 32 bits and an octave has eight codes. -/
theorem octaveCode_lt {n k : Nat} (hk : 4 ≤ k) (hlow : 2 ^ k ≤ n) (hhigh : n < 2 ^ (k + 1)) (hn : n < 2 ^ 32) :
    16 + 8 * (k - 4) + (n / 2 ^ (k - 3) - 8) < 256 := by
  have hk32 : k < 32 := (Nat.pow_lt_pow_iff_right (by decide)).1 (hlow.trans_lt hn)
  have hstep : n / 2 ^ (k - 3) < 16 := by
    rw [Nat.div_lt_iff_lt_mul (by positivity)]
    calc n
      _ < 2 ^ (4 + (k - 3)) := by rwa [show 4 + (k - 3) = k + 1 by omega]
      _ = 16 * 2 ^ (k - 3) := Nat.pow_add 2 4 (k - 3)
  omega

/-- R168: the code of an age in the octave from 2^k. -/
theorem ageCode_octave {age : Word32} {k : Nat} (hk : 4 ≤ k) (hlow : 2 ^ k ≤ age.toNat)
    (hhigh : age.toNat < 2 ^ (k + 1)) :
    (ageCode age).toNat = 16 + 8 * (k - 4) + (age.toNat / 2 ^ (k - 3) - 8) := by
  have h16 : 16 ≤ age.toNat := (Nat.pow_le_pow_right Nat.two_pos hk).trans hlow
  have hlog : Nat.log2 age.toNat = k := (Nat.log2_eq_iff (by omega)).2 ⟨hlow, hhigh⟩
  unfold ageCode
  dsimp only
  rw [if_neg (Nat.not_lt.2 h16), hlog, BitVec.toNat_ofNat, Nat.mod_eq_of_lt (octaveCode_lt hk hlow hhigh age.isLt)]

/-- R162, R168: the last three bytes of an alarm record are the codes of its ages. -/
theorem alarmBytes_ages (tick : Nat) (a : AlarmRecord) :
    (alarmBytes tick a).drop 5 = [ageCode (satAge (tick - a.first)), ageCode (satAge (tick - a.last)),
      (a.lastNotify.map fun t => ageCode (satAge (tick - t))).getD 0xFF] := rfl

end Sys2Proof.Machine

namespace Sys2Proof.FormatsAndSignals

open Sys2Proof.Machine

/-- Settles O44: the two ranges of an age, and the three saturated ages of an alarm record. -/
theorem ageCode : Obligations.AgeCode := by
  unfold Obligations.AgeCode
  refine ⟨fun age => ⟨ageCode_small, fun k => ageCode_octave⟩, fun tick a => ?_⟩
  rw [alarmBytes_ages]
  simp only [satAge_eq]
  cases a.lastNotify <;> rfl

end Sys2Proof.FormatsAndSignals
end

section
/-! Proofs of the claims that every command answers at once, and about the cold reset (R15, R169 and the cold values of
the chapters): its beginning, what holds throughout it, and what its end leaves. -/

namespace Sys2Proof.Machine

/-! ## COLD_RESET (R169) -/

/-- R169: RESETn at low begins a cold reset, or holds the one in progress. -/
theorem exec_coldReset_low (x : Straps) (s : State) : exec (.coldReset .low x) s = .next (enterReset s) := rfl

/-- A cold reset takes no time, and leaves the queue, the line inputs and the free choices as they were (log 12). -/
theorem exec_coldReset_keeps (r : ResetPin) (x : Straps) (s : State) : ∃ t, exec (.coldReset r x) s = .next t
    ∧ t.pending = s.pending ∧ t.lineInput = s.lineInput ∧ t.now = s.now ∧ t.choices = s.choices := by
  cases r with
  | low => exact ⟨_, exec_coldReset_low x s, rfl, rfl, rfl, rfl⟩
  | high =>
    refine ⟨_, exec_coldReset_high x s, ?_⟩
    split
    · exact ⟨rfl, rfl, rfl, rfl⟩
    · exact ⟨rfl, rfl, rfl, rfl⟩

/-! ## What the end of a cold reset leaves -/

section ColdReset
variable (addr : BitVec 4) (transparent : Bool) (s : State)

@[simp] theorem coldReset_port (p : Port) :
    (coldReset addr transparent s).port p = PortState.cold p (s.port p).rxd s.now := PerPort.get_of _ p

@[simp] theorem coldReset_branch (b : Branch) : (coldReset addr transparent s).branch b = BranchState.cold :=
  PerBranch.get_of _ b

/-- R80: all forty buffers are FREE. -/
theorem coldReset_pool (b : BufId) : (coldReset addr transparent s).pool.get b = Buffer.empty := get_replicate_at _ b

theorem coldReset_freeCount : (coldReset addr transparent s).freeCount = 40 :=
  freeCount_full _ fun b => congrArg Buffer.use (coldReset_pool addr transparent s b)

/-- The end of the reset is tick 0 (log 1). -/
theorem coldReset_tick : (coldReset addr transparent s).tick = 0 := by
  show (s.now - s.now) / Config.cyclesPerTick = 0
  rw [Nat.sub_self, Nat.zero_div]

/-- R51: the own address is 0xE0 plus the value of the ADDR straps. -/
theorem coldReset_ownAddr : (coldReset addr transparent s).ownAddr.toNat = 0xE0 + addr.toNat := by
  show (0xE#4 ++ addr).toNat = _
  rw [BitVec.toNat_append, ← Nat.shiftLeft_add_eq_or_of_lt addr.isLt]
  rfl

/-- R107: the Poll List is empty, and every station record is reset. -/
theorem coldReset_polling (i : Fin 32) : (coldReset addr transparent s).pollList.get i = none
    ∧ (coldReset addr transparent s).stations.get i = StationRecord.cold :=
  ⟨get_replicate_at _ i, get_replicate_at _ i⟩

/-- R103: no transmitter drives its line. -/
theorem coldReset_pins (p : Port) : (coldReset addr transparent s).txen p = false
    ∧ (coldReset addr transparent s).txd p = .mark := by
  simp [State.txen, State.txd, PortState.cold, Tx.isSending]

end ColdReset

theorem PortCounters.get_zero (k : PortCtr) : PortCounters.zero.get k = 0 := by cases k <;> rfl

theorem RelayCounters.get_zero (k : RelayCtr) : RelayCounters.zero.get k = 0 := by cases k <;> rfl

/-! ## The beginning of a cold reset -/

theorem enterReset_port (s : State) (p : Port) :
    (enterReset s).port p = PortState.cold p (s.port p).rxd s.now := PerPort.get_of _ p

theorem enterReset_branch (s : State) (b : Branch) : (enterReset s).branch b = BranchState.cold :=
  PerBranch.get_of _ b

theorem enterReset_held (s : State) : (enterReset s).Held where
  inReset := rfl
  ports p := by
    rw [enterReset_port]
    exact ⟨rfl, rfl, rfl, rfl, rfl, rfl, rfl⟩
  schedulers b := by
    rw [enterReset_branch]
    exact ⟨rfl, rfl, rfl⟩
  table := rfl
  lists := ⟨rfl, rfl⟩
  management := ⟨rfl, rfl⟩

/-! ## Throughout a cold reset (log 12) -/

namespace State.Held

variable {s : State}

theorem edge (h : s.Held) (p : Port) : (s.port p).rx.edge = none := by
  obtain ⟨-, -, hedge, -⟩ := h.ports p
  exact hedge

theorem tx (h : s.Held) (p : Port) : (s.port p).tx = .idle := by
  obtain ⟨-, -, -, htx, -⟩ := h.ports p
  exact htx

theorem charEnd (h : s.Held) (p : Port) : (s.port p).charEnd = none := by
  obtain ⟨-, -, -, -, -, -, hend⟩ := h.ports p
  exact hend

theorem pendingConfig (h : s.Held) (p : Port) : (s.port p).pendingConfig = none := by
  obtain ⟨hpending, -⟩ := h.ports p
  exact hpending

theorem queue (h : s.Held) (p : Port) : (s.port p).queue = [] := by
  obtain ⟨-, -, -, -, -, hqueue, -⟩ := h.ports p
  exact hqueue

theorem gap? (h : s.Held) (p : Port) : (s.port p).asm.gap? = none := by
  obtain ⟨-, -, -, -, hasm, -⟩ := h.ports p
  rw [hasm]
  rfl

theorem inbound (h : s.Held) : s.inbound = [] := h.lists.2

theorem stopped (h : s.Held) (b : Branch) : (s.sched b).state = .stopped := (h.schedulers b).1

theorem not_listening (h : s.Held) (p : Port) : s.listening p ≠ true := by simp [listening_inReset h.inReset]

/-- Nothing is in progress, so no step of the part is due. -/
theorem not_due (h : s.Held) (i : Instr) : ¬ s.Due i := by
  cases i with
  | startEdge p => exact fun ⟨_, hedge, _⟩ => hedge (h.edge p)
  | falseStart p => exact fun ⟨_, hedge, _⟩ => hedge (h.edge p)
  | characterDelivered p => exact fun ⟨_, hedge, _⟩ => hedge (h.edge p)
  | breakEntry p => exact fun ⟨hlistens, _⟩ => h.not_listening p hlistens
  | breakExit p => exact fun ⟨hlistens, _⟩ => h.not_listening p hlistens
  | gapExpiry p => exact fun ⟨g, hgap, _⟩ => by simp [h.gap?] at hgap
  | endOfSending p => exact fun ⟨d, start, htx, _⟩ => by simp [h.tx] at htx
  | applyPendingConfig p => exact fun ⟨hpending, _⟩ => hpending (h.pendingConfig p)
  | take p =>
    rintro ⟨-, -, -, ⟨-, hqueue⟩ | ⟨b, -, hbuffer⟩⟩
    · exact hqueue (h.queue p)
    · obtain ⟨-, hnone, -⟩ := h.schedulers b
      exact hbuffer hnone
  | transmitStart p => exact fun ⟨d, htx, _⟩ => by simp [h.tx] at htx
  | pollBufferRetry b => exact fun ⟨hready, _⟩ => by simp [h.stopped] at hready
  | replyTimeout b => exact fun ⟨hawaits, _⟩ => by simp [h.stopped] at hawaits
  | newCycle b => exact fun ⟨hwaits, _⟩ => by simp [h.stopped] at hwaits
  | duplicateMemoryExpiry => exact fun ⟨r, hdup, _⟩ => by simp [h.lists.1] at hdup
  | sessionExpiry => exact fun ⟨howner, _⟩ => howner h.management.1
  | disposition => exact fun ⟨hwaits, _⟩ => hwaits h.inbound
  | validationComplete => exact fun ⟨start, hcommit, _⟩ => by simp [h.table] at hcommit
  | _ => exact id

theorem not_open (h : s.Held) (i : Instr) : ¬ s.Open i := by
  cases i with
  | disposition => exact fun ⟨hwaits, _⟩ => hwaits h.inbound
  | validationComplete => exact fun ⟨start, hcommit, _⟩ => by simp [h.table] at hcommit
  | _ => exact id

/-- Every command but COLD_RESET leaves the state as it is: no step's condition holds, no receiver listens, and no
management command is handed over. -/
theorem exec_eq (h : s.Held) {i : Instr} (hi : ∀ r x, i ≠ .coldReset r x) : exec i s = .next s := by
  cases i with
  | coldReset r x => exact absurd rfl (hi r x)
  | warmRestart => exact congrArg Host.Outcome.next (settleRestart_none h.management.2)
  | characterDelivered p =>
    show execCharacterDelivered p s = _
    rw [execCharacterDelivered, dueCharacter_eq_none (.inr (.inl (h.edge p)))]
  | startEdge p => exact congrArg Host.Outcome.next (if_neg (mt (decision_iff _ _).1 (h.not_due (.startEdge p))))
  | falseStart p => exact congrArg Host.Outcome.next (if_neg (mt (decision_iff _ _).1 (h.not_due (.falseStart p))))
  | breakEntry p => exact congrArg Host.Outcome.next (if_neg (mt (breakDue_iff s p).1 (h.not_due (.breakEntry p))))
  | breakExit p => exact congrArg Host.Outcome.next (if_neg (mt (breakOver_iff s p).1 (h.not_due (.breakExit p))))
  | gapExpiry p => exact congrArg Host.Outcome.next (if_neg (mt (gapExpired_iff s p).1 (h.not_due (.gapExpiry p))))
  | duplicateMemoryExpiry =>
    exact congrArg Host.Outcome.next (if_neg (mt (dupExpired_iff s).1 (h.not_due .duplicateMemoryExpiry)))
  | disposition =>
    show execDisposition s = _
    rw [execDisposition, h.inbound]
  | take p => exact exec_take_nothing (mt (canTake_iff s p).1 (h.not_due (.take p)))
  | transmitStart p => exact exec_transmitStart_not_waiting fun d htx => by simp [h.tx] at htx
  | endOfSending p => exact exec_endOfSending_before fun d start htx => by simp [h.tx] at htx
  | applyPendingConfig p => exact exec_applyPendingConfig_none (h.pendingConfig p)
  | pollBufferRetry b =>
    exact congrArg Host.Outcome.next (if_neg (mt (canRetry_iff s b).1 (h.not_due (.pollBufferRetry b))))
  | replyTimeout b =>
    exact congrArg Host.Outcome.next (if_neg (mt (canTimeOut_iff s b).1 (h.not_due (.replyTimeout b))))
  | newCycle b => exact congrArg Host.Outcome.next (if_neg (mt (canCycle_iff s b).1 (h.not_due (.newCycle b))))
  | validationComplete => exact congrArg Host.Outcome.next (if_neg (by simp [State.validating, h.table]))
  | sessionExpiry => exact congrArg Host.Outcome.next (if_neg (mt (sessionIdle_iff s).1 (h.not_due .sessionExpiry)))
  | returnToMark p =>
    exact congrArg Host.Outcome.next (if_neg fun hawaits => h.not_listening p ((awaitsMark_iff s p).1 hawaits).1)
  | returnToSpaceInBreak p =>
    exact congrArg Host.Outcome.next (if_neg fun hbreak => h.not_listening p ((breakAtMark_iff s p).1 hbreak).1)
  | readStatus c | readRelay c | readPort c | readCounters c | readCountersClear c | readRecord c | readPollEntry c
  | readStation c | readAlarms c | openSession c | closeSession c | writeRecord c | clearRecord c | discardStaging c
  | commit c | setPort c | setRelay c | writePollEntry c | clearPollEntry c | pollControlStart c | pollControlStop c
  | ackAlarm c | restart c => exact congrArg Host.Outcome.next (manage_inReset h.inReset _ c)

/-- Which of the free choices comes next is of no account (log 3). -/
theorem drawn (h : s.Held) : State.Held { s with choices := s.choices + 1 } :=
  ⟨h.inReset, h.ports, h.schedulers, h.table, h.lists, h.management⟩

end State.Held

/-! ## A step on an empty queue during a cold reset (log 12) -/

/-- Only time, the line inputs and the levels of the lines have gone on. -/
structure LinesMoved (s t : State) : Prop where
  rest : t = { s with now := t.now, lineInput := t.lineInput, ports := t.ports }
  port : ∀ p, t.port p = { s.port p with rxd := (t.port p).rxd }

/-- What holds throughout a cold reset does not depend on the lines and the clock. -/
theorem LinesMoved.held {s t : State} (h : LinesMoved s t) (hs : s.Held) : t.Held := by
  have hports : ∀ p, (t.port p).pendingConfig = none ∧ (t.port p).rx.mode = .idle ∧ (t.port p).rx.edge = none
      ∧ (t.port p).tx = .idle ∧ (t.port p).asm = .hunt ∧ (t.port p).queue = [] ∧ (t.port p).charEnd = none := by
    intro p
    rw [h.port p]
    exact hs.ports p
  rw [h.rest]
  exact ⟨hs.inReset, hports, hs.schedulers, hs.table, hs.lists, hs.management⟩

/-- A receiver that does not listen follows its pin only. -/
theorem lineTo_deaf (now : Nat) (l : Level) (q : PortState) : q.lineTo false now l = { q with rxd := l } := by
  have hmoved := PortState.lineTo_moved false now l q
  by_cases hlevel : q.rxd = l
  · rw [hmoved.same hlevel, ← hlevel]
  · exact hmoved.deaf hlevel rfl

theorem takeInput_linesMoved {s : State} (h : s.inReset = true) (hinput : s.inputDue = true) :
    LinesMoved s (takeInput s) := by
  obtain ⟨i, rest, hfront, -⟩ := inputDue_front hinput
  rw [takeInput_front hfront, listening_inReset h, lineTo_deaf]
  refine ⟨rfl, fun p => ?_⟩
  simp only [State.port, PerPort.get_set]
  split
  · subst p
    rfl
  · rfl

/-- With no edge and no character's end awaited, a cycle changes nothing of a port. -/
theorem advance_port_resting {s : State} {p : Port} (hedge : (s.port p).rx.edge = none)
    (hend : (s.port p).charEnd = none) : (advance s).port p = s.port p := by
  have hunsampled : s.unsampled p = s.port p := by
    rw [State.unsampled, holdEdge_none hedge]
    exact PortState.passEnd_ahead fun e he => by simp [hend] at he
  rw [advance_port, hunsampled, sample_no_edge hedge]

theorem advance_linesMoved {s : State} (h : s.Held) : LinesMoved s (advance s) :=
  ⟨rfl, fun p => by rw [advance_port_resting (h.edge p) (h.charEnd p)]⟩

theorem step_held {s : State} (h : s.Held) (hpending : s.pending = []) :
    ∃ t, step s = .next t ∧ LinesMoved { s with choices := s.choices + 1 } t := by
  obtain ⟨i, hi, -⟩ | ⟨hinput, hchoice⟩ | ⟨-, -, hchoice⟩ := idleChoice_cases s
  · rw [dueSteps_iff, openSteps_iff] at hi
    exact (hi.elim (h.not_due i) (h.not_open i)).elim
  · exact ⟨_, step_input hpending hchoice, takeInput_linesMoved h.inReset hinput⟩
  · exact ⟨_, step_advance hpending hchoice, advance_linesMoved h.drawn⟩

end Sys2Proof.Machine

namespace Sys2Proof.FormatsAndSignals

open Sys2Proof.Machine

/-- Settles O2: a cold reset keeps the queue, time and the inputs, and every other command the straps' values too. -/
theorem everyCommandAnswersAtOnce : Obligations.EveryCommandAnswersAtOnce := by
  unfold Obligations.EveryCommandAnswersAtOnce
  intro c s
  by_cases hreset : ∃ r x, c = .coldReset r x
  · obtain ⟨r, x, rfl⟩ := hreset
    obtain ⟨t, ht, hpending, hinput, hnow, hchoices⟩ := exec_coldReset_keeps r x s
    exact ⟨t, ht, hpending, hinput, hnow, hchoices, fun hother => absurd rfl (hother r x)⟩
  · obtain ⟨t, ht, hsame⟩ := exec_atOnce (fun r x hc => hreset ⟨r, x, hc⟩) s
    exact ⟨t, ht, hsame.pending, hsame.lineInput, hsame.now, hsame.choices,
      fun _ => ⟨hsame.inReset, hsame.resetEnd, hsame.ownAddr, hsame.addrStrap, hsame.transparentStrap⟩⟩

/-- Settles O12: the reset's beginning is held, a held state is left only by RESETn at high, and the end leaves every
block at its cold values. -/
theorem coldReset : Obligations.ColdReset := by
  unfold Obligations.ColdReset
  refine ⟨fun x s => ?_, fun s hheld => ⟨fun c => hheld.exec_eq, fun hpending => ?_⟩, fun x s hrunning => ?_,
    fun x s hreset => ?_⟩
  · refine ⟨_, exec_coldReset_low x s, enterReset_held s, rfl, fun p => ?_, rfl, rfl, fun p => ?_⟩
    · exact ⟨txd_rest (.inl rfl), txen_inReset rfl p, listening_inReset rfl p⟩
    · rw [enterReset_port]
      rfl
  · obtain ⟨t, ht, hmoved⟩ := step_held hheld hpending
    exact ⟨t, ht, hmoved.held hheld.drawn, hmoved.rest, hmoved.port⟩
  · rw [exec_coldReset_high, hrunning]
    rfl
  · have hempty := coldReset_tableEmpty x.addr x.transparent s
    refine ⟨Machine.coldReset x.addr x.transparent s, by rw [exec_coldReset_high, if_pos hreset], rfl,
      coldReset_ownAddr _ _ s, coldReset_tick _ _ s, rfl, rfl, fun i => ⟨hempty.active i, hempty.staging i⟩, rfl, rfl,
      rfl, rfl, rfl, coldReset_freeCount _ _ s, fun b => congrArg Buffer.use (coldReset_pool _ _ s b),
      coldReset_polling _ _ s, rfl, rfl, rfl, RelayCounters.get_zero, rfl, rfl, fun p => ?_, fun b => ?_⟩
    · obtain ⟨htxen, htxd⟩ := coldReset_pins x.addr x.transparent s p
      rw [htxen, htxd, coldReset_port]
      exact ⟨rfl, rfl, rfl, rfl, rfl, rfl, rfl, rfl, rfl, rfl, rfl, PortCounters.get_zero⟩
    · rw [State.sched, coldReset_branch]
      exact ⟨rfl, rfl, rfl, rfl, rfl, rfl, rfl⟩

end Sys2Proof.FormatsAndSignals
end

section
/-! Proof of the claim that a step takes the command at the front of the queue (95_what_each_step_holds.md). -/

namespace Sys2Proof.FormatsAndSignals

open Sys2Proof.Machine

/-- Settles O1: the front command runs on the queue's rest, which is the queue that it was put in front of. -/
theorem stepTakesFrontCommand : Obligations.StepTakesFrontCommand := by
  unfold Obligations.StepTakesFrontCommand
  intro c s
  calc step { s with pending := c :: s.pending }
    _ = exec c { s with pending := s.pending } := step_front rfl
    _ = exec c s := rfl

end Sys2Proof.FormatsAndSignals
end
